-- ==== Sys2Proof/Word.lean ====
section
/-! DEFINITION. The word types of the block and their plainest arithmetic: bytes, binary32 bit patterns, and a
fixed-length register file built from a function of the index. The binary32 arithmetic itself is
Machine/Float32.lean. -/

namespace Sys2Proof

/-- One byte of a buffer (20_memory.md rule R50). -/
abbrev Byte := BitVec 8

/-- A binary32 value held as its 32-bit pattern (00_scope.md rule R14; `bits2f` is the identity on it). -/
abbrev F32 := BitVec 32

/-- A register file of `n` entries, entry `i` being `f i`. -/
def tabulate {α : Type} (n : Nat) (f : Nat → α) : Vector α n := Vector.ofFn fun i => f i.val

namespace F32

/-- The sign bit. -/
def sign (x : F32) : Bool := x.getLsbD 31

/-- The biased exponent field, 0 to 255. -/
def expo (x : F32) : Nat := x.toNat / 2 ^ 23 % 256

/-- The fraction field, 23 bits. -/
def frac (x : F32) : Nat := x.toNat % 2 ^ 23

/-- IEEE 754: exponent all ones and a non-zero fraction. -/
def isNaN (x : F32) : Bool := x.expo == 255 && x.frac != 0

/-- IEEE 754: exponent all ones and a zero fraction. -/
def isInf (x : F32) : Bool := x.expo == 255 && x.frac == 0

/-- Neither NaN nor infinity. -/
def isFinite (x : F32) : Bool := x.expo != 255

/-- A zero of either sign. -/
def isZero (x : F32) : Bool := x.expo == 0 && x.frac == 0

/-- The pattern with its sign bit flipped. -/
def neg (x : F32) : F32 := x ^^^ 0x80000000#32

/-- An infinity of the given sign. -/
def inf (s : Bool) : F32 := if s then 0xFF800000#32 else 0x7F800000#32

/-- The literal `0.0`, "+0.0" (rule R14). -/
def zero : F32 := 0x00000000#32

/-- The literal `2.0` (rule R14). -/
def two : F32 := 0x40000000#32

/-- The literal `32768.0` (45_controller_and_host.md rule R252). -/
def pcmScale : F32 := 0x47000000#32

/-- `K_SQRT1_2`, "0x3F3504F3" (rule R14). -/
def sqrtHalf : F32 := 0x3F3504F3#32

/-- Every finite pattern as itself, any other with its exponent cleared: its range is exactly the finite patterns. -/
def forceFinite (x : F32) : F32 := if x.isFinite then x else x &&& 0x807FFFFF#32

/-- Every NaN pattern as itself, any other as one NaN: its range is exactly the NaN patterns. -/
def forceNaN (x : F32) : F32 := if x.isNaN then x else 0x7FC00000#32

end F32

end Sys2Proof
end

