-- ==== Sys2Proof/Config.lean ====
section
/-! DEFINITION. The configuration of the block (00_scope.md rules R7 to R10): the read-only tables, the external
functions, the named parameters, and the free values. Every rule of the model takes a `Config` as an argument; the
machine is the one whose configuration is `Config.hw`, whose open members are opaque constants. Log entries 12 to
16. -/

namespace Sys2Proof

/-- The parameters "the model takes as arguments" (rule R7). Tables are total functions; a rule reads them on the
index ranges of rule R8 only. -/
structure Config where
  /-- `T_SCALE[s]`, s in 0..63. -/
  tScale : Nat → F32
  /-- `T_RANGE[r]`, r in 0..15. -/
  tRange : Nat → F32
  /-- `T_MAXBITS[r]`, r in 0..15. -/
  tMaxBits : Nat → Nat
  /-- `T_READVAL[r][c]`, r in 0..7, c in 0..15. -/
  tReadVal : Nat → Nat → F32
  /-- `T_READBITS[r][c]`, r in 0..7, c in 0..15. -/
  tReadBits : Nat → Nat → Nat
  /-- `T_SCALECONV[k]`, k in 0..127. -/
  tScaleConv : Nat → F32
  /-- `T_INTENSITY[v]`, v in 0..15. -/
  tIntensity : Nat → F32
  /-- `T_SIN[s][q]`, s in 0..6, q in 0..63. -/
  tSin : Nat → Nat → F32
  /-- `T_COS[s][q]`, s in 0..6, q in 0..63. -/
  tCos : Nat → Nat → F32
  /-- `T_WINDOW[i]`, i in 0..127. -/
  tWindow : Nat → F32
  /-- `T_INVERT[p]`, p in 0..65. -/
  tInvert : Nat → BitVec 4
  /-- `CipherInit(type, key)`, entry by entry (rule R9). -/
  cipherInit : BitVec 16 → BitVec 64 → Byte → Byte
  /-- `ChecksumFrame(buffer)` (rule R9). -/
  checksumFrame : List Byte → BitVec 16
  /-- `NoiseCurveInit(athType, sampleRate)`, entry by entry (rule R9). -/
  noiseCurveInit : BitVec 16 → BitVec 24 → Nat → Byte
  /-- `RAND15`: "u32 -> 0..32767", OPEN (rule R7, 92_eei_decisions.md D19). -/
  rand15 : BitVec 32 → BitVec 15
  /-- `HFR_BIAS` (rule R7). -/
  hfrBias : Int
  /-- `V_NEWEST` (rule R7). -/
  vNewest : BitVec 16
  /-- Membership in `VERSIONS` (rule R7). -/
  versions : BitVec 16 → Bool
  /-- The n-th NaN drawn: rule R14, "the payload and sign of a NaN produced by an operation are a draw (any NaN)". -/
  freeNaN : Nat → F32
  /-- The n-th unspecified register value (10_state.md rule R38, 41_header_parser.md rule R156), a position beyond the
  cursor's range among them (log entry 17). -/
  freeBits : Nat → BitVec 64

/-- The table contracts (a) to (d) of rule R10, and that a drawn NaN is a NaN (rule R14). -/
structure Config.Contract (cfg : Config) : Prop where
  maxBits_le : ∀ r, cfg.tMaxBits r ≤ 16
  maxBits_low : ∀ r, r ≤ 7 → cfg.tMaxBits r ≤ 4
  maxBits_high : ∀ r, 8 ≤ r → r ≤ 15 → 1 ≤ cfg.tMaxBits r
  readBits_le : ∀ r c, r ≤ 7 → c < 2 ^ cfg.tMaxBits r → cfg.tReadBits r c ≤ cfg.tMaxBits r
  scale_finite : ∀ s, (cfg.tScale s).isFinite = true
  range_finite : ∀ r, (cfg.tRange r).isFinite = true
  readVal_finite : ∀ r c, (cfg.tReadVal r c).isFinite = true
  scaleConv_finite : ∀ k, (cfg.tScaleConv k).isFinite = true
  intensity_finite : ∀ v, (cfg.tIntensity v).isFinite = true
  sin_finite : ∀ s q, (cfg.tSin s q).isFinite = true
  cos_finite : ∀ s q, (cfg.tCos s q).isFinite = true
  window_finite : ∀ i, (cfg.tWindow i).isFinite = true
  nan_isNaN : ∀ n, (cfg.freeNaN n).isNaN = true
  cipher_identity : ∀ key b, cfg.cipherInit 0 key b = b
  cipher_fixed : ∀ key key' b, cfg.cipherInit 1 key b = cfg.cipherInit 1 key' b

namespace Config

/-- Contents of `T_SCALE`: external, not in the spec (91_not_in_source.md N15). -/
opaque rawScale : Nat → BitVec 32
/-- Contents of `T_RANGE`: external. -/
opaque rawRange : Nat → BitVec 32
/-- Contents of `T_MAXBITS`: external. -/
opaque rawMaxBits : Nat → Nat
/-- Contents of `T_READVAL`: external. -/
opaque rawReadVal : Nat → Nat → BitVec 32
/-- Contents of `T_READBITS`: external. -/
opaque rawReadBits : Nat → Nat → Nat
/-- Contents of `T_SCALECONV`: external. -/
opaque rawScaleConv : Nat → BitVec 32
/-- Contents of `T_INTENSITY`: external. -/
opaque rawIntensity : Nat → BitVec 32
/-- Contents of `T_SIN`: external. -/
opaque rawSin : Nat → Nat → BitVec 32
/-- Contents of `T_COS`: external. -/
opaque rawCos : Nat → Nat → BitVec 32
/-- Contents of `T_WINDOW`: external. -/
opaque rawWindow : Nat → BitVec 32
/-- Contents of `T_INVERT`: external. -/
opaque rawInvert : Nat → BitVec 4
/-- `CipherInit` for a type other than 0: external (rule R9). -/
opaque rawCipher : BitVec 16 → BitVec 64 → Byte → Byte
/-- `ChecksumFrame`: external (rule R9). -/
opaque rawChecksum : List Byte → BitVec 16
/-- `NoiseCurveInit`: external (rule R9). -/
opaque rawNoiseCurve : BitVec 16 → BitVec 24 → Nat → Byte
/-- `RAND15`: OPEN (92_eei_decisions.md D19). -/
opaque rawRand15 : BitVec 32 → BitVec 15
/-- The free value behind `freeNaN`. -/
opaque rawFreeNaN : Nat → BitVec 32
/-- The free value behind `freeBits`. -/
opaque rawFreeBits : Nat → BitVec 64

/-- Rule R10 (a), (c): every width the contract allows, and no other. -/
def hwMaxBits (r : Nat) : Nat := if r ≤ 7 then min (rawMaxBits r) 4 else max 1 (min (rawMaxBits r) 16)

/-- Rule R9: "`type` 0 = identity, 1 = fixed table, 56 = key-derived table". -/
def hwCipher (type : BitVec 16) (key : BitVec 64) (b : Byte) : Byte :=
  if type = 0 then b else if type = 1 then rawCipher 1 0 b else rawCipher type key b

/-- The machine's configuration: every open member is an opaque constant, restricted to what the contracts of rule
R10 admit; `HFR_BIAS`, `V_NEWEST`, `VERSIONS` have the defaults of rule R7. -/
def hw : Config where
  tScale s := F32.forceFinite (rawScale s)
  tRange r := F32.forceFinite (rawRange r)
  tMaxBits := hwMaxBits
  tReadVal r c := F32.forceFinite (rawReadVal r c)
  tReadBits r c := min (rawReadBits r c) (hwMaxBits r)
  tScaleConv k := F32.forceFinite (rawScaleConv k)
  tIntensity v := F32.forceFinite (rawIntensity v)
  tSin s q := F32.forceFinite (rawSin s q)
  tCos s q := F32.forceFinite (rawCos s q)
  tWindow i := F32.forceFinite (rawWindow i)
  tInvert := rawInvert
  cipherInit := hwCipher
  checksumFrame := rawChecksum
  noiseCurveInit := rawNoiseCurve
  rand15 := rawRand15
  hfrBias := 63
  vNewest := 0x0300
  versions _ := true
  freeNaN n := F32.forceNaN (rawFreeNaN n)
  freeBits := rawFreeBits

end Config

end Sys2Proof
end

