-- ==== Sys2Proof/Machine/Float32.lean ====
section
/-! DEFINITION. Binary32 arithmetic on bit patterns (00_scope.md rule R14): "each round once to nearest, ties to even;
no operation is fused; subnormals are kept". Every operation is computed exactly on integers and rounded once. An
operation whose result is a NaN answers the pattern `nan` it is given, the draw of rule R14. -/

namespace Sys2Proof.F32

/-- The magnitude of a finite pattern in units of 2^-149, exactly; an infinity's is larger than any finite one. -/
def mag (x : F32) : Nat :=
  if x.expo = 0 then x.frac else (x.frac + 2 ^ 23) <<< (x.expo - 1)

/-- The signed value in units of 2^-149. -/
def sval (x : F32) : Int := if x.sign then -(x.mag : Int) else x.mag

/-- `m / 2^sh` to the nearest integer, ties to the even one. -/
def rne (m sh : Nat) : Nat :=
  let q := m >>> sh
  let r := m % 2 ^ sh
  if 2 * r > 2 ^ sh ∨ (2 * r = 2 ^ sh ∧ q % 2 = 1) then q + 1 else q

/-- The binary32 pattern (sign clear) nearest to `m` units of 2^-(149+u): 24 significant bits above the subnormal
range, an infinity when the rounded value exceeds the largest finite one. -/
def roundMag (u m : Nat) : Nat :=
  let sh := max u (m.log2 - 23)
  min ((sh - u) <<< 23 + rne m sh) 0x7F800000

/-- A sign and a rounded magnitude. -/
def ofMag (s : Bool) (u m : Nat) : F32 :=
  BitVec.ofNat 32 (roundMag u m + if s then 2 ^ 31 else 0)

/-- `a +f b`. -/
def add (nan a b : F32) : F32 :=
  if a.isNaN || b.isNaN then nan
  else if a.isInf then (if b.isInf && a.sign != b.sign then nan else a)
  else if b.isInf then b
  else
    let v := a.sval + b.sval
    if v = 0 then (if a.sign && b.sign then 0x80000000#32 else zero)
    else ofMag (v < 0) 0 v.natAbs

/-- `a −f b`. -/
def sub (nan a b : F32) : F32 := add nan a b.neg

/-- `a *f b`. -/
def mul (nan a b : F32) : F32 :=
  if a.isNaN || b.isNaN then nan
  else if a.isInf || b.isInf then
    (if a.isZero || b.isZero then nan else inf (a.sign != b.sign))
  else ofMag (a.sign != b.sign) 149 (a.mag * b.mag)

/-- `i2f(k)`: "converts an integer exactly (every integer the rules convert has magnitude below 2^24)"; 0 gives
+0.0. -/
def ofInt (k : Int) : F32 :=
  if k = 0 then zero else ofMag (k < 0) 0 (k.natAbs <<< 149)

/-- `PCM_ROUND`: the integer nearest to a finite value, ties to the even integer (00_scope.md rule R7). -/
def pcmRound (y : F32) : Int :=
  let m : Int := rne y.mag 149
  if y.sign then -m else m

/-- `pcm16` of 45_controller_and_host.md rule R252. The product with 32768.0 of a number that is no NaN is no NaN. -/
def pcm16 (x : F32) : BitVec 16 :=
  if x.isNaN then 0
  else
    let y := mul x pcmScale x
    if (32767 * 2 ^ 149 : Int) ≤ y.sval then 32767
    else if y.sval ≤ -(32767 * 2 ^ 149 : Int) then BitVec.ofInt 16 (-32767)
    else BitVec.ofInt 16 (pcmRound y)

end Sys2Proof.F32
end

