-- ==== Sys2Proof/Syntax.lean ====
section
/-! DEFINITION. The instructions of the block: one constructor per row of spec/opcode_table.json (00_scope.md rule
R19: "instruction = one row of opcode_table.json (a host command, a BitCursor micro-operation, a header chunk, or a
controller stage)"), with the operands the rows and their rules name. -/

namespace Sys2Proof

/-- The two byte buffers a BitCursor can wrap (10_state.md rule R35). -/
inductive BufId where
  | hdr
  | frm
deriving DecidableEq, Repr

/-- The three formats of the opcode table: a command word at the host port (30_encoding.md rule R91), a stage id in
the controller's stage counter (rule R93), a tagged chunk of the header stream (rules R70 to R82). -/
inductive Port where
  | command
  | stage
  | chunk
deriving DecidableEq, Repr

/-- One row of spec/opcode_table.json each. A channel operand is an index of the 16-entry channel array (10_state.md
rule R28), a subframe operand one of the eight subframes (rule R36). -/
inductive Instr where
  /-- OPEN_STREAM, rule R245; the HDR buffer is in the state. -/
  | openStream (hdrLen : BitVec 32)
  /-- SET_KEY, rule R247. -/
  | setKey (key : BitVec 64)
  /-- DECODE_FRAME, rule R249; the FRM buffer is in the state. -/
  | decodeFrame (frmLen : BitVec 32)
  /-- READ_SAMPLES16, rule R252; the OUT buffer is in the state. -/
  | readSamples16
  /-- RESET_STREAM, rule R250. -/
  | resetStream
  /-- BC_WRAP, rule R102. -/
  | bcWrap (buf : BufId) (len : BitVec 16) (p0 : Byte)
  /-- BC_PEEK, rule R103. -/
  | bcPeek (n : Byte)
  /-- BC_READ, rule R104. -/
  | bcRead (n : Byte)
  /-- BC_SKIP, rule R105; the operand is a signed bit count. -/
  | bcSkip (delta : BitVec 32)
  /-- HD_PROLOG, rule R121. -/
  | hdProlog
  /-- HD_FMT, rule R124. -/
  | hdFmt
  /-- HD_COMP, rule R125. -/
  | hdComp
  /-- HD_DEC, rule R127. -/
  | hdDec
  /-- HD_VBR, rule R129. -/
  | hdVbr
  /-- HD_ATH, rule R130. -/
  | hdAth
  /-- HD_LOOP, rule R131. -/
  | hdLoop
  /-- HD_CIPH, rule R132. -/
  | hdCiph
  /-- HD_RVA, rule R133. -/
  | hdRva
  /-- HD_COMM, rule R134. -/
  | hdComm
  /-- HD_PAD, rule R135. -/
  | hdPad
  /-- HD_VALIDATE, rules R140 to R147. -/
  | hdValidate
  /-- HD_DERIVE, rules R148 to R151. -/
  | hdDerive
  /-- HD_CHANTYPE, rules R152 to R154. -/
  | hdChantype
  /-- FR_CHECKLEN, rule R161. -/
  | frChecklen
  /-- FR_SYNC, rule R162. -/
  | frSync
  /-- FR_CHECKSUM, rule R163. -/
  | frChecksum
  /-- FR_DECRYPT, rule R165. -/
  | frDecrypt
  /-- FR_NOISELEVEL, rule R166. -/
  | frNoiselevel
  /-- FR_SCALE, rules R168 to R171. -/
  | frScale (c : Fin 16)
  /-- FR_INTENSITY, rules R172, R173. -/
  | frIntensity (c : Fin 16)
  /-- FR_RESOLUTION, rule R175. -/
  | frResolution (c : Fin 16)
  /-- FR_GAIN, rule R178. -/
  | frGain (c : Fin 16)
  /-- SP_DEQUANT, rules R191 to R193. -/
  | spDequant (c : Fin 16)
  /-- SP_NOISE, rules R196 to R198. -/
  | spNoise (c : Fin 16)
  /-- SP_HFR, rules R202, R203. -/
  | spHfr (c : Fin 16)
  /-- SP_ISTEREO, rule R207; `c` is the primary of the pair. -/
  | spIstereo (c : Fin 16) (sf : Fin 8)
  /-- SP_MSSTEREO, rule R209; `c` is the primary of the pair. -/
  | spMsstereo (c : Fin 16)
  /-- IM_PASS1, rule R222. -/
  | imPass1 (c : Fin 16)
  /-- IM_PASS2, rule R224. -/
  | imPass2 (c : Fin 16)
  /-- IM_WINDOW, rule R226. -/
  | imWindow (c : Fin 16) (sf : Fin 8)
deriving DecidableEq, Repr

end Sys2Proof
end

