-- ==== Sys2Proof/WellFormed.lean ====
section
/-! DEFINITION. Which instruction terms the encodings admit: the operand ranges of 40_bitcursor.md rules R102 to
R104 and of the stereo stages (a primary channel has a successor in the 16-entry array, 41_header_parser.md rule
R153). -/

namespace Sys2Proof

/-- The operand checks, one line each. -/
def Instr.wellFormed : Instr → Bool
  /- R102: "`p0` (initial bit position, 0 or 16)". -/
  | .bcWrap _ _ p0 => p0 == 0#8 || p0 == 16#8
  /- R103, R104: "operand `n` (0 .. 32)". -/
  | .bcPeek n => n ≤ 32#8
  | .bcRead n => n ≤ 32#8
  /- R206: "for c in 0..ctx.channelCount−2", so the primary is at most entry 14. -/
  | .spIstereo c _ => c.val < 15
  | .spMsstereo c => c.val < 15
  | .openStream _ | .setKey _ | .decodeFrame _ | .readSamples16 | .resetStream => true
  | .bcSkip _ => true
  | .hdProlog | .hdFmt | .hdComp | .hdDec | .hdVbr | .hdAth | .hdLoop | .hdCiph | .hdRva | .hdComm | .hdPad => true
  | .hdValidate | .hdDerive | .hdChantype => true
  | .frChecklen | .frSync | .frChecksum | .frDecrypt | .frNoiselevel => true
  | .frScale _ | .frIntensity _ | .frResolution _ | .frGain _ => true
  | .spDequant _ | .spNoise _ | .spHfr _ => true
  | .imPass1 _ | .imPass2 _ | .imWindow _ _ => true

end Sys2Proof
end

