-- ==== Sys2Proof/Decode.lean ====
section
/-! DEFINITION. Decoding and encoding of instruction images. An image is a port (the format) and a list of bytes: for
a command the opcode CMD[2:0] of 30_encoding.md rule R91 in its first byte and then the operands; for a stage the id
of rule R93 and then the operands; for a chunk the 32-bit tag of rule R72, compared after masking each byte with
0x7F (rule R70). Operands of commands and stages are whole bytes, most significant byte first (log entry 3). The
fields of a chunk follow its tag in the header stream, where the chunk's own meaning reads them. -/

namespace Sys2Proof

/-- Why an image is no instruction. -/
inductive DecodeError where
  /-- CMD values 0, 6, 7 and a byte no 3-bit port carries (93_implementation_defined.md U1). -/
  | reservedCommand
  /-- A stage id without a row in rule R93. -/
  | unknownStage
  /-- A masked tag that is none of rule R72's. -/
  | unknownTag
  /-- The image ends inside the instruction's operands. -/
  | truncated
  /-- An operand value outside its range: `Instr.wellFormed` fails, or a buffer, channel or subframe number is none. -/
  | badOperand
deriving DecidableEq, Repr

/-- Sixteen bits, most significant byte first. -/
def be16 (w : BitVec 16) : List Byte := [w.extractLsb' 8 8, w.extractLsb' 0 8]

/-- Thirty-two bits, most significant byte first. -/
def be32 (w : BitVec 32) : List Byte :=
  [w.extractLsb' 24 8, w.extractLsb' 16 8, w.extractLsb' 8 8, w.extractLsb' 0 8]

/-- Sixty-four bits, most significant byte first. -/
def be64 (w : BitVec 64) : List Byte := be32 (w.extractLsb' 32 32) ++ be32 (w.extractLsb' 0 32)

/-- Two bytes joined, the first most significant. -/
def of16 (a b : Byte) : BitVec 16 := a ++ b

/-- Four bytes joined, the first most significant. -/
def of32 (a b c d : Byte) : BitVec 32 := (a ++ b ++ c ++ d).cast (by decide)

/-- `MASK` (41_header_parser.md rule R120). -/
def tagMask : BitVec 32 := 0x7F7F7F7F#32

/- The masked tags of rule R72. -/
def tagProlog : BitVec 32 := 0x48434100#32
def tagFmt : BitVec 32 := 0x666D7400#32
def tagComp : BitVec 32 := 0x636F6D70#32
def tagDec : BitVec 32 := 0x64656300#32
def tagVbr : BitVec 32 := 0x76627200#32
def tagAth : BitVec 32 := 0x61746800#32
def tagLoop : BitVec 32 := 0x6C6F6F70#32
def tagCiph : BitVec 32 := 0x63697068#32
def tagRva : BitVec 32 := 0x72766100#32
def tagComm : BitVec 32 := 0x636F6D6D#32
def tagPad : BitVec 32 := 0x70616400#32

/-- The chunk a 32-bit word at a chunk position selects (rule R70). -/
def decodeTag (w : BitVec 32) : Except DecodeError Instr :=
  let t := w &&& tagMask
  if t = tagProlog then .ok .hdProlog
  else if t = tagFmt then .ok .hdFmt
  else if t = tagComp then .ok .hdComp
  else if t = tagDec then .ok .hdDec
  else if t = tagVbr then .ok .hdVbr
  else if t = tagAth then .ok .hdAth
  else if t = tagLoop then .ok .hdLoop
  else if t = tagCiph then .ok .hdCiph
  else if t = tagRva then .ok .hdRva
  else if t = tagComm then .ok .hdComm
  else if t = tagPad then .ok .hdPad
  else .error .unknownTag

/-- A command image: opcode byte, operands (rule R91). -/
def decodeCommand : List Byte → Except DecodeError Instr
  | [] => .error .truncated
  | op :: rest =>
    match op.toNat with
    | 1 => match rest with
      | a :: b :: c :: d :: _ => .ok (.openStream (of32 a b c d))
      | _ => .error .truncated
    | 2 => match rest with
      | a :: b :: c :: d :: e :: f :: g :: h :: _ => .ok (.setKey (of32 a b c d ++ of32 e f g h))
      | _ => .error .truncated
    | 3 => match rest with
      | a :: b :: c :: d :: _ => .ok (.decodeFrame (of32 a b c d))
      | _ => .error .truncated
    | 4 => .ok .readSamples16
    | 5 => .ok .resetStream
    | _ => .error .reservedCommand

/-- A buffer operand: 0 is HDR, 1 is FRM. -/
def decodeBuf (b : Byte) : Except DecodeError BufId :=
  if b = 0#8 then .ok .hdr else if b = 1#8 then .ok .frm else .error .badOperand

/-- A channel operand, given to the stage it belongs to. -/
def withChannel (rest : List Byte) (mk : Fin 16 → Instr) : Except DecodeError Instr :=
  match rest with
  | c :: _ => if h : c.toNat < 16 then .ok (mk ⟨c.toNat, h⟩) else .error .badOperand
  | [] => .error .truncated

/-- A channel and a subframe operand. -/
def withChannelSubframe (rest : List Byte) (mk : Fin 16 → Fin 8 → Instr) : Except DecodeError Instr :=
  match rest with
  | c :: s :: _ =>
    if h : c.toNat < 16 then
      if k : s.toNat < 8 then .ok (mk ⟨c.toNat, h⟩ ⟨s.toNat, k⟩) else .error .badOperand
    else .error .badOperand
  | _ => .error .truncated

/-- A stage image: id byte, operands (rule R93). -/
def decodeStage : List Byte → Except DecodeError Instr
  | [] => .error .truncated
  | id :: rest =>
    match id.toNat with
    | 0x01 => match rest with
      | b :: l1 :: l0 :: p :: _ => (decodeBuf b).map fun buf => .bcWrap buf (of16 l1 l0) p
      | _ => .error .truncated
    | 0x02 => match rest with
      | n :: _ => .ok (.bcPeek n)
      | [] => .error .truncated
    | 0x03 => match rest with
      | n :: _ => .ok (.bcRead n)
      | [] => .error .truncated
    | 0x04 => match rest with
      | a :: b :: c :: d :: _ => .ok (.bcSkip (of32 a b c d))
      | _ => .error .truncated
    | 0x10 => .ok .hdProlog
    | 0x11 => .ok .hdFmt
    | 0x12 => .ok .hdComp
    | 0x13 => .ok .hdDec
    | 0x14 => .ok .hdVbr
    | 0x15 => .ok .hdAth
    | 0x16 => .ok .hdLoop
    | 0x17 => .ok .hdCiph
    | 0x18 => .ok .hdRva
    | 0x19 => .ok .hdComm
    | 0x1A => .ok .hdPad
    | 0x1B => .ok .hdValidate
    | 0x1C => .ok .hdDerive
    | 0x1D => .ok .hdChantype
    | 0x20 => .ok .frChecklen
    | 0x21 => .ok .frSync
    | 0x22 => .ok .frChecksum
    | 0x23 => .ok .frDecrypt
    | 0x24 => .ok .frNoiselevel
    | 0x25 => withChannel rest .frScale
    | 0x26 => withChannel rest .frIntensity
    | 0x27 => withChannel rest .frResolution
    | 0x28 => withChannel rest .frGain
    | 0x30 => withChannel rest .spDequant
    | 0x31 => withChannel rest .spNoise
    | 0x32 => withChannel rest .spHfr
    | 0x33 => withChannelSubframe rest .spIstereo
    | 0x34 => withChannel rest .spMsstereo
    | 0x40 => withChannel rest .imPass1
    | 0x41 => withChannel rest .imPass2
    | 0x42 => withChannelSubframe rest .imWindow
    | _ => .error .unknownStage

/-- A chunk image: the four tag bytes. -/
def decodeChunk : List Byte → Except DecodeError Instr
  | a :: b :: c :: d :: _ => decodeTag (of32 a b c d)
  | _ => .error .truncated

/-- The ill-formed terms are no instruction. -/
def checked (r : Except DecodeError Instr) : Except DecodeError Instr :=
  match r with
  | .ok i => if i.wellFormed then .ok i else .error .badOperand
  | .error e => .error e

/-- The instruction an image stands for, by its port's format. Bytes behind the instruction are ignored. -/
def decode (p : Port) (bytes : List Byte) : Except DecodeError Instr :=
  match p with
  | .command => checked (decodeCommand bytes)
  | .stage => checked (decodeStage bytes)
  | .chunk => checked (decodeChunk bytes)

/-- A channel operand as a byte. -/
def chanByte (c : Fin 16) : Byte := BitVec.ofNat 8 c.val

/-- A subframe operand as a byte. -/
def subByte (s : Fin 8) : Byte := BitVec.ofNat 8 s.val

/-- A buffer operand as a byte. -/
def bufByte : BufId → Byte
  | .hdr => 0#8
  | .frm => 1#8

/-- The image of an instruction: a command word (rule R91), a chunk tag (rule R72) or a stage id (rule R93) with its
operands. -/
def encode : Instr → Port × List Byte
  | .openStream n => (.command, 1#8 :: be32 n)
  | .setKey k => (.command, 2#8 :: be64 k)
  | .decodeFrame n => (.command, 3#8 :: be32 n)
  | .readSamples16 => (.command, [4#8])
  | .resetStream => (.command, [5#8])
  | .bcWrap b l p => (.stage, 0x01#8 :: bufByte b :: (be16 l ++ [p]))
  | .bcPeek n => (.stage, [0x02#8, n])
  | .bcRead n => (.stage, [0x03#8, n])
  | .bcSkip d => (.stage, 0x04#8 :: be32 d)
  | .hdProlog => (.chunk, be32 tagProlog)
  | .hdFmt => (.chunk, be32 tagFmt)
  | .hdComp => (.chunk, be32 tagComp)
  | .hdDec => (.chunk, be32 tagDec)
  | .hdVbr => (.chunk, be32 tagVbr)
  | .hdAth => (.chunk, be32 tagAth)
  | .hdLoop => (.chunk, be32 tagLoop)
  | .hdCiph => (.chunk, be32 tagCiph)
  | .hdRva => (.chunk, be32 tagRva)
  | .hdComm => (.chunk, be32 tagComm)
  | .hdPad => (.chunk, be32 tagPad)
  | .hdValidate => (.stage, [0x1B#8])
  | .hdDerive => (.stage, [0x1C#8])
  | .hdChantype => (.stage, [0x1D#8])
  | .frChecklen => (.stage, [0x20#8])
  | .frSync => (.stage, [0x21#8])
  | .frChecksum => (.stage, [0x22#8])
  | .frDecrypt => (.stage, [0x23#8])
  | .frNoiselevel => (.stage, [0x24#8])
  | .frScale c => (.stage, [0x25#8, chanByte c])
  | .frIntensity c => (.stage, [0x26#8, chanByte c])
  | .frResolution c => (.stage, [0x27#8, chanByte c])
  | .frGain c => (.stage, [0x28#8, chanByte c])
  | .spDequant c => (.stage, [0x30#8, chanByte c])
  | .spNoise c => (.stage, [0x31#8, chanByte c])
  | .spHfr c => (.stage, [0x32#8, chanByte c])
  | .spIstereo c s => (.stage, [0x33#8, chanByte c, subByte s])
  | .spMsstereo c => (.stage, [0x34#8, chanByte c])
  | .imPass1 c => (.stage, [0x40#8, chanByte c])
  | .imPass2 c => (.stage, [0x41#8, chanByte c])
  | .imWindow c s => (.stage, [0x42#8, chanByte c, subByte s])

/-- The stage id of a chunk instruction (rule R93): the second image it has. -/
def chunkStageId : Instr → Option Byte
  | .hdProlog => some 0x10#8
  | .hdFmt => some 0x11#8
  | .hdComp => some 0x12#8
  | .hdDec => some 0x13#8
  | .hdVbr => some 0x14#8
  | .hdAth => some 0x15#8
  | .hdLoop => some 0x16#8
  | .hdCiph => some 0x17#8
  | .hdRva => some 0x18#8
  | .hdComm => some 0x19#8
  | .hdPad => some 0x1A#8
  | _ => none

/-- Zero operand bytes behind a word shorter than its instruction. -/
def zeroOperands : List Byte := List.replicate 8 0#8

/-- How a word numbered as spec/opcode_table.json numbers it is laid out: 32 bits are a chunk tag; 8 bits are a
command word when the value fits CMD[2:0] and a stage id otherwise (log entry 4: the values 1 to 4 belong to a row of
either format, and the command is the operation the host port carries). -/
def tableImage (nbits w : Nat) : Option (Port × List Byte) :=
  if nbits = 32 then some (.chunk, be32 (BitVec.ofNat 32 w))
  else if nbits = 8 then
    if w < 8 then some (.command, BitVec.ofNat 8 w :: zeroOperands)
    else some (.stage, BitVec.ofNat 8 w :: zeroOperands)
  else none

/-- The decoder's answer on a table word. -/
def decodeTableWord (nbits w : Nat) : Option Instr :=
  match tableImage nbits w with
  | some (p, bytes) => (decode p bytes).toOption
  | none => none

end Sys2Proof
end

