-- ==== Sys2Proof/Machine/State.lean ====
section
/-! DEFINITION. The state of one instance of the block as plain data (10_state.md rules R20 to R38, 20_memory.md rule
R50), the ways a step can stop, and the state after power-on reset. INVENTORY.md, heading State, lists every field
with its rule and reset value. -/

namespace Sys2Proof.Machine

/-- The channel's polymorphic tag, encoded 0, 1, 2; "value 3 never occurs" (10_state.md rule R28). -/
inductive ChanType where
  | discrete
  | primary
  | secondary
deriving DecidableEq, Repr

/-- The result codes of 60_exceptions.md rule R271. -/
inductive Status where
  | ok
  | headerInvalid
  | syncError
  | checksumError
  | shortBuffer
  | invalidScaleFactor
  | invalidIntensity
deriving DecidableEq, Repr

/-- Sparse memory of `w`-bit cells: (address, value) pairs, addresses strictly rising, no pair with value 0; an
unlisted address reads as 0. For bytes it is a list of Host.Cell. -/
abbrev Mem (w : Nat) := List (Nat × BitVec w)

/-- A byte buffer the host hands over (20_memory.md rule R50): addresses 0..size-1 exist. -/
structure Buffer where
  size : Nat
  cells : List Host.Cell
deriving DecidableEq, Repr

/-- The StreamContext registers of 10_state.md rules R22 to R24 and the flag `loopEnabled` of rule R21. -/
structure Ctx where
  version : BitVec 16
  headerSize : BitVec 16
  channelCount : BitVec 8
  sampleRate : BitVec 24
  frameCount : BitVec 32
  encoderDelay : BitVec 16
  encoderPadding : BitVec 16
  frameSize : BitVec 16
  minResolution : BitVec 8
  maxResolution : BitVec 8
  trackCount : BitVec 8
  channelConfig : BitVec 8
  totalBandCount : BitVec 9
  baseBandCount : BitVec 9
  stereoBandCount : BitVec 9
  bandsPerHfrGroup : BitVec 8
  msStereo : BitVec 8
  reserved : BitVec 8
  stereoType : BitVec 8
  hfrGroupCount : BitVec 8
  vbrMaxFrameSize : BitVec 16
  vbrNoiseLevel : BitVec 16
  athType : BitVec 16
  loopStartFrame : BitVec 32
  loopEndFrame : BitVec 32
  loopStartDelay : BitVec 16
  loopEndPadding : BitVec 16
  loopEnabled : Bool
  cipherType : BitVec 16
  rvaVolume : F32
  commentLength : BitVec 8
  comment : Vector Byte 255
deriving DecidableEq, Repr

/-- One entry of the Channel array (10_state.md rules R28 to R33). -/
structure Channel where
  type : ChanType
  codedCount : BitVec 8
  intensity : Vector (BitVec 4) 8
  scale : Vector (BitVec 6) 128
  hfrScale : Vector (BitVec 6) 128
  resolution : Vector (BitVec 4) 128
  noises : Vector (BitVec 7) 128
  noiseCount : BitVec 8
  validCount : BitVec 8
  gain : Vector F32 128
  spectra : Vector F32 128
  scratch : Vector F32 128
  prev : Vector F32 128
  wave : Vector (Vector F32 128) 8
deriving DecidableEq, Repr

/-- The BitCursor (10_state.md rule R35): the wrapped buffer, its length in bits, the bit position. The position's
register is signed, of 32 bits, and never negative: a move beyond 2^31 - 1 leaves a free position in the range (log
entry 17), so no step leaves a position of 2^31 or more. -/
structure Cursor where
  buf : Option BufId
  sizeBits : Nat
  pos : Nat
deriving DecidableEq, Repr

/-- One call at the model's input queue: the instruction's port and image, and the bytes of a buffer handed over with
it (30_encoding.md rules R91, R94; log entries 1, 2). A chunk call carries no image: its word is fetched from the
header stream at the cursor. -/
structure Call where
  port : Port
  image : List Byte
  load : Option (BufId × List Byte)
deriving DecidableEq, Repr

/-- The state of one instance. -/
structure State where
  /-- R21: a stream is open. -/
  valid : Bool
  /-- R21: the result code of the last completed command. -/
  status : Status
  /-- R22 to R24. -/
  ctx : Ctx
  /-- R25: `ctx.key`. -/
  key : BitVec 64
  /-- R25: `ctx.cipherTable`. -/
  cipherTable : Vector Byte 256
  /-- R26: `ctx.athCurve`. -/
  athCurve : Vector Byte 128
  /-- R27: `ctx.random`. -/
  random : BitVec 32
  /-- R28 to R33: `ch[0..15]`. -/
  ch : Vector Channel 16
  /-- R34. -/
  packedNoiseLevel : Int
  /-- R35. -/
  cur : Cursor
  /-- R36: the id of the stage in progress, 0 when idle. -/
  stage : Byte
  /-- R36: the subframe counter. -/
  sf : Fin 8
  /-- R36: the channel counter. -/
  c : Fin 16
  /-- R120: HeaderParser's counter of remaining header bytes. -/
  remaining : Nat
  /-- R91: the length operand of the OPEN_STREAM in progress. -/
  hdrLen : BitVec 32
  /-- R91: the length operand of the DECODE_FRAME in progress. -/
  frmLen : BitVec 32
  /-- R103, R104: the u32 returned by the last BC_PEEK or BC_READ. -/
  result : BitVec 32
  /-- R50: the HDR buffer. -/
  hdr : Buffer
  /-- R50: the FRM buffer. -/
  frm : Buffer
  /-- R50: the OUT buffer, by sample. -/
  out : List (Nat × BitVec 16)
  /-- The model's own: a DECODE_FRAME has completed since the last successful OPEN_STREAM (R243). -/
  decoded : Bool
  /-- The model's own: the number of free values drawn (log entries 7, 16, 17). -/
  draws : Nat
  /-- The model's own: host calls not yet issued (log entry 2). -/
  queue : List Call
deriving DecidableEq, Repr

/-- Why the machine stops with a fault. -/
inductive Fault where
  /-- READ_SAMPLES16 while `valid` is 0 or before the first successful DECODE_FRAME of the stream. Raised by
  `readSamples16`; 93_implementation_defined.md U7: "fault (read of unwritten state ...); must not return zeros".
  Safe: the machine stops. -/
  | samplesNotDecoded
  /-- FR_CHECKSUM or FR_DECRYPT, run outside DECODE_FRAME, on a FRM buffer shorter than `ctx.frameSize`: the access
  would leave addresses 0..frmLen-1 of 20_memory.md rule R50. Raised by `frChecksum`, `frDecrypt`. Safe. -/
  | addressOutsideBuffer
deriving DecidableEq, Repr

/-- Why the machine refuses an instruction. -/
inductive Refusal where
  /-- An instruction without a meaning. Raised by an arm of `exec` only; safe. -/
  | notModelled (mnemonic : String)
  /-- The next call's image is no instruction: command opcodes 0, 6, 7 (93_implementation_defined.md U1, "refuse") or a
  word no format defines. Raised by `step`; safe. -/
  | undecodable (e : DecodeError)
  /-- A bit request over 32 bits (U2, "refuse"). Raised by BC_PEEK, BC_READ and, when table contract (a) is violated
  (U9), SP_DEQUANT; safe. -/
  | requestTooWide
  /-- A skip that would make the cursor negative (U3, "refuse"). Raised by BC_SKIP; safe. -/
  | cursorNegative
  /-- A length operand larger than the memory the host provided (U5, "refuse"). Raised by OPEN_STREAM, DECODE_FRAME
  and every BC_WRAP; safe. -/
  | bufferTooShort
  /-- DECODE_FRAME or RESET_STREAM while `valid` is 0 (U6, "refuse"). Raised by `decodeFrame`, `resetStream`; safe. -/
  | noStream
  /-- A host command inside a controller sequence (U8, "refuse"; 60_exceptions.md rule R278). Raised by `stageMeaning`,
  never in a sequence of this model; safe. -/
  | commandInsideCommand
  /-- A stereo stage on channel 15, which has no secondary (an ill-formed term, 43_spectral_reconstruct.md rule R206).
  Raised by SP_ISTEREO, SP_MSSTEREO; safe. -/
  | noSecondaryChannel
deriving DecidableEq, Repr

/-- An empty buffer. -/
def Buffer.empty : Buffer := { size := 0, cells := [] }

/-- The StreamContext registers at power-on: unspecified in rule R38, zero by log entry 5. -/
def Ctx.reset : Ctx where
  version := 0
  headerSize := 0
  channelCount := 0
  sampleRate := 0
  frameCount := 0
  encoderDelay := 0
  encoderPadding := 0
  frameSize := 0
  minResolution := 0
  maxResolution := 0
  trackCount := 0
  channelConfig := 0
  totalBandCount := 0
  baseBandCount := 0
  stereoBandCount := 0
  bandsPerHfrGroup := 0
  msStereo := 0
  reserved := 0
  stereoType := 0
  hfrGroupCount := 0
  vbrMaxFrameSize := 0
  vbrNoiseLevel := 0
  athType := 0
  loopStartFrame := 0
  loopEndFrame := 0
  loopStartDelay := 0
  loopEndPadding := 0
  loopEnabled := false
  cipherType := 0
  rvaVolume := 0
  commentLength := 0
  comment := Vector.replicate 255 0

/-- A channel at power-on: unspecified in rule R38, zero by log entry 5. -/
def Channel.reset : Channel where
  type := .discrete
  codedCount := 0
  intensity := Vector.replicate 8 0
  scale := Vector.replicate 128 0
  hfrScale := Vector.replicate 128 0
  resolution := Vector.replicate 128 0
  noises := Vector.replicate 128 0
  noiseCount := 0
  validCount := 0
  gain := Vector.replicate 128 0
  spectra := Vector.replicate 128 0
  scratch := Vector.replicate 128 0
  prev := Vector.replicate 128 0
  wave := Vector.replicate 8 (Vector.replicate 128 0)

/-- Power-on reset (10_state.md rule R38, 70_reset_and_hazards.md rule R301): `valid = 0`, `status = 0` (OK),
`ctx.key = 0`, the controller idle, no buffer wrapped; every other value is named in log entry 5. -/
def State.reset : State where
  valid := false
  status := .ok
  ctx := Ctx.reset
  key := 0
  cipherTable := Vector.replicate 256 0
  athCurve := Vector.replicate 128 0
  random := 1
  ch := Vector.replicate 16 Channel.reset
  packedNoiseLevel := 0
  cur := { buf := none, sizeBits := 0, pos := 0 }
  stage := 0
  sf := 0
  c := 0
  remaining := 0
  hdrLen := 0
  frmLen := 0
  result := 0
  hdr := Buffer.empty
  frm := Buffer.empty
  out := []
  decoded := false
  draws := 0
  queue := []

end Sys2Proof.Machine
end

