-- ==== Sys2Proof/Machine/Ops.lean ====
section
/-! DEFINITION. The named operations every meaning is written over: memory, the bit cursor, free values, the outcome
of a stage, and raising an error result (60_exceptions.md rule R272). -/

namespace Sys2Proof.Machine

/-! Memory (20_memory.md rules R50 to R53). -/

/-- The value at an address; an unlisted address reads as 0. -/
def Mem.read {w : Nat} : Mem w → Nat → BitVec w
  | [], _ => 0
  | (k, v) :: rest, a => if k = a then v else Mem.read rest a

/-- The listed cells `f 0, ..., f (n-1)`, zeros left out. -/
def Mem.listed {w : Nat} (n : Nat) (f : Nat → BitVec w) : Mem w :=
  (List.range n).filterMap fun k => if f k = 0 then none else some (k, f k)

/-- The one storing operation: cell `k` of `0..n-1` becomes `f k`, every other cell stays. -/
def Mem.fill {w : Nat} (n : Nat) (f : Nat → BitVec w) (m : Mem w) : Mem w :=
  Mem.listed n f ++ m.filter fun c => n ≤ c.1

/-- The canonical form: addresses strictly rising, no cell equal to what an unlisted address reads as. -/
def Mem.wf {w : Nat} : Mem w → Bool
  | [] => true
  | (_, v) :: [] => v != 0
  | (k, v) :: (k', v') :: rest => v != 0 && k < k' && Mem.wf ((k', v') :: rest)

/-- A buffer is well formed: canonical, and every listed address exists. -/
def Buffer.wf (b : Buffer) : Bool := Mem.wf b.cells && b.cells.all fun c => c.1 < b.size

/-- The byte at an address. -/
def Buffer.byte (b : Buffer) (a : Nat) : Byte := Mem.read b.cells a

/-- The bytes 0..n-1. -/
def Buffer.bytes (b : Buffer) (n : Nat) : List Byte := (List.range n).map b.byte

/-- The buffer the host hands over. -/
def Buffer.ofBytes (l : List Byte) : Buffer :=
  { size := l.length, cells := Mem.fill l.length (fun k => l.getD k 0) [] }

/-- A buffer of the state by its name. -/
def State.buffer (s : State) : BufId → Buffer
  | .hdr => s.hdr
  | .frm => s.frm

/-- The active input buffer (20_memory.md rule R50): the one the cursor wraps, none otherwise. -/
def State.active (s : State) : Buffer :=
  match s.cur.buf with
  | some b => s.buffer b
  | none => Buffer.empty

/-! The bit cursor (40_bitcursor.md). -/

/-- `bit(j) = (MemRead(j div 8, 1) >> (7 − (j mod 8))) & 1` (rule R101). -/
def Buffer.bit (b : Buffer) (j : Nat) : Nat := (b.byte (j / 8)).toNat / 2 ^ (7 - j % 8) % 2

/-- The sum of rule R103: `n` bits from stream bit `p`, the first most significant. -/
def Buffer.bits (b : Buffer) (p : Nat) : Nat → Nat
  | 0 => 0
  | n + 1 => 2 * b.bits p n + b.bit (p + n)

/-- `peek(n)` at position `p` (rule R103): 0 for no bit, 0 for a request that does not fit, else the bits. -/
def State.peekAt (s : State) (p n : Nat) : Nat :=
  if n = 0 then 0 else if s.cur.sizeBits < p + n then 0 else s.active.bits p n

/-- `peek(n)` at the cursor. -/
def State.peek (s : State) (n : Nat) : Nat := s.peekAt s.cur.pos n

/-- The cursor moved to position `p`. -/
def State.seek (s : State) (p : Nat) : State := { s with cur := { s.cur with pos := p } }

/-- A field of `n` bits at position `p`, zero-extended (30_encoding.md rule R83) or held in `n` bits. -/
def State.field (s : State) (p n w : Nat) : BitVec w := BitVec.ofNat w (s.peekAt p n)

/-! Outcome of a stage. -/

/-- What running a stage or a controller sequence comes to: it is done, it raised an error result (60_exceptions.md rule
R272), or the machine stops. -/
inductive Res where
  | done (s : State)
  | raised (e : Status) (s : State)
  | faulted (f : Fault)
  | refused (r : Refusal)
deriving Repr

/-- The next part runs only where the one before it is done (rule R272: "no later stage of the command runs"). -/
def Res.andThen (r : Res) (f : State → Res) : Res :=
  match r with
  | .done s => f s
  | .raised e s => .raised e s
  | .faulted x => .faulted x
  | .refused x => .refused x

/-- The controller counters during a stage (10_state.md rule R36). -/
def State.enter (s : State) (id : Byte) : State := { s with stage := id }

/-- The counters during a stage of channel `c`. -/
def State.enterChan (s : State) (id : Byte) (c : Fin 16) : State := { s with stage := id, c := c }

/-- The counters during a stage of channel `c` and subframe `sf`. -/
def State.enterSub (s : State) (id : Byte) (c : Fin 16) (sf : Fin 8) : State :=
  { s with stage := id, c := c, sf := sf }

/-- The controller idle again: counters at rest, no active input buffer (20_memory.md rule R50: "none otherwise"). -/
def State.idle (s : State) : State :=
  { s with stage := 0, c := 0, sf := 0, cur := { s.cur with buf := none, sizeBits := 0 } }

/-- BC_WRAP (40_bitcursor.md rule R102). A length beyond the buffer is 93_implementation_defined.md U5. -/
def wrap (b : BufId) (len p0 : Nat) (s : State) : Res :=
  if (s.buffer b).size < len then .refused .bufferTooShort
  else .done { s with cur := { buf := some b, sizeBits := 8 * len, pos := p0 } }

/-! The range of the cursor's register (10_state.md rule R35, 92_eei_decisions.md D6: 0 .. 2^31 - 1; log entry 17). -/

/-- How a stage moves the cursor: `mv k p` is the position after its `k`-th move, `p` being the sum the rule forms. -/
abbrev Moves := Nat → Int → Nat

/-- The moves of a stage that stays in the range, as every stage inside a command does (40_bitcursor.md rule R108). -/
def Moves.plain : Moves := fun _ p => p.toNat

/-- The moves of any stage: the sum where it is in the range, else a free position, since no rule says what the register
then holds. -/
def Moves.free (cfg : Config) (draws : Nat) : Moves := fun k p =>
  if 0 ≤ p ∧ p < 2 ^ 31 then p.toNat else ((cfg.freeBits (draws + k)).setWidth 31).toNat

/-- The position before the `i`-th of a row of reads of `w` bits that starts at `p`. -/
def Moves.walk (mv : Moves) (w p : Nat) : Nat → Nat
  | 0 => p
  | i + 1 => mv (i + 4) (mv.walk w p i + w : Nat)

/-- No stage moves the cursor further than this: at most 255 fields, none longer than 16 bits (30_encoding.md rules R85
to R88). -/
def stageReach : Nat := 4096

/-- No stage moves the cursor more often than this. -/
def stageDraws : Nat := 1024

/-- A stage that may use `n` free values has ended. -/
def Res.drew (n : Nat) : Res → Res
  | .done s => .done { s with draws := s.draws + n }
  | .raised e s => .raised e { s with draws := s.draws + n }
  | .faulted x => .faulted x
  | .refused x => .refused x

/-- A stage run by itself, none of whose moves goes further than `reach` bits: plain moves where none can leave the
range of the register, else free ones. -/
def alone (cfg : Config) (reach : Nat) (stage : Moves → State → Res) (s : State) : Res :=
  if s.cur.pos + reach < 2 ^ 31 then stage .plain s else (stage (.free cfg s.draws) s).drew stageDraws

/-! Free values (log entries 7, 16). -/

/-- The `k`-th free NaN of the stage in progress. -/
def State.nan (cfg : Config) (s : State) (k : Nat) : F32 := cfg.freeNaN (s.draws + k)

/-- A stage that may draw `n` free values has ended. -/
def State.drew (s : State) (n : Nat) : State := { s with draws := s.draws + n }

/-- A channel type from two free bits; "value 3 never occurs" (10_state.md rule R28). -/
def ChanType.ofBits (w : BitVec 2) : ChanType :=
  if w = 1 then .primary else if w = 2 then .secondary else .discrete

/-- Every register of a channel at a free value. -/
def Channel.unspecified (f : Nat → BitVec 64) : Channel where
  type := ChanType.ofBits ((f 0).setWidth 2)
  codedCount := (f 1).setWidth 8
  noiseCount := (f 2).setWidth 8
  validCount := (f 3).setWidth 8
  intensity := tabulate 8 fun i => (f (8 + i)).setWidth 4
  scale := tabulate 128 fun i => (f (16 + i)).setWidth 6
  hfrScale := tabulate 128 fun i => (f (144 + i)).setWidth 6
  resolution := tabulate 128 fun i => (f (272 + i)).setWidth 4
  noises := tabulate 128 fun i => (f (400 + i)).setWidth 7
  gain := tabulate 128 fun i => (f (528 + i)).setWidth 32
  spectra := tabulate 128 fun i => (f (656 + i)).setWidth 32
  scratch := tabulate 128 fun i => (f (784 + i)).setWidth 32
  prev := tabulate 128 fun i => (f (912 + i)).setWidth 32
  wave := tabulate 8 fun r => tabulate 128 fun i => (f (1040 + 128 * r + i)).setWidth 32

/-- Every StreamContext register of rules R22 to R24 at a free value. -/
def Ctx.unspecified (f : Nat → BitVec 64) : Ctx where
  version := (f 0).setWidth 16
  headerSize := (f 1).setWidth 16
  channelCount := (f 2).setWidth 8
  sampleRate := (f 3).setWidth 24
  frameCount := (f 4).setWidth 32
  encoderDelay := (f 5).setWidth 16
  encoderPadding := (f 6).setWidth 16
  frameSize := (f 7).setWidth 16
  minResolution := (f 8).setWidth 8
  maxResolution := (f 9).setWidth 8
  trackCount := (f 10).setWidth 8
  channelConfig := (f 11).setWidth 8
  totalBandCount := (f 12).setWidth 9
  baseBandCount := (f 13).setWidth 9
  stereoBandCount := (f 14).setWidth 9
  bandsPerHfrGroup := (f 15).setWidth 8
  msStereo := (f 16).setWidth 8
  reserved := (f 17).setWidth 8
  stereoType := (f 18).setWidth 8
  hfrGroupCount := (f 19).setWidth 8
  vbrMaxFrameSize := (f 20).setWidth 16
  vbrNoiseLevel := (f 21).setWidth 16
  athType := (f 22).setWidth 16
  loopStartFrame := (f 23).setWidth 32
  loopEndFrame := (f 24).setWidth 32
  loopStartDelay := (f 25).setWidth 16
  loopEndPadding := (f 26).setWidth 16
  loopEnabled := (f 27).getLsbD 0
  cipherType := (f 28).setWidth 16
  rvaVolume := (f 29).setWidth 32
  commentLength := (f 30).setWidth 8
  comment := tabulate 255 fun i => (f (31 + i)).setWidth 8

/-- Free values used by one `unspecify`: 1024 for the registers, 4096 for each of the 16 channels. -/
def unspecifyDraws : Nat := 1024 + 16 * 4096

/-- Every register of the StreamContext and the Channel array "is unspecified, except `ctx.key`, which is unchanged"
(41_header_parser.md rule R156, 10_state.md rule R38): each takes a fresh free value. So does the frame-transient
`packedNoiseLevel`, which 60_exceptions.md rule R277 leaves unspecified after HeaderInvalid: an 18-bit two's complement
value (10_state.md rule R34). Log entry 7. -/
def State.unspecify (cfg : Config) (s : State) : State :=
  { s with
    ctx := Ctx.unspecified fun k => cfg.freeBits (s.draws + k)
    cipherTable := tabulate 256 fun i => (cfg.freeBits (s.draws + 512 + i)).setWidth 8
    athCurve := tabulate 128 fun i => (cfg.freeBits (s.draws + 768 + i)).setWidth 8
    random := (cfg.freeBits (s.draws + 1000)).setWidth 32
    packedNoiseLevel := ((cfg.freeBits (s.draws + 1001)).setWidth 18).toInt
    ch := tabulate 16 fun c => Channel.unspecified fun k => cfg.freeBits (s.draws + 1024 + 4096 * c + k)
    draws := s.draws + unspecifyDraws }

/-! Error results: the block's exceptions (60_exceptions.md). -/

/-- Taking an error result (rule R272): "the command writes `status <- E` and returns E. For E = HeaderInvalid it also
writes `valid <- 0`", every register but the key being unspecified then (rule R156). There is no handler and no saved
context (rule R270); the controller is idle and the next command is accepted normally (rule R278). -/
def takeError (cfg : Config) (e : Status) (s : State) : State :=
  match e with
  | .headerInvalid => { (s.unspecify cfg).idle with status := e, valid := false, decoded := false }
  | _ => { s.idle with status := e }

/-- The return of a command without an error (rule R270: "the error *is* the return"; 45_controller_and_host.md rule
R243: "Every command ends by writing `status` and returning it"). -/
def endCommand (s : State) : State := { s.idle with status := .ok }

/-- The outcome of a step from what its stage or sequence came to. -/
def Res.outcome (cfg : Config) : Res → Host.Outcome State Fault Refusal
  | .done s => .next s
  | .raised e s => .next (takeError cfg e s)
  | .faulted f => .fault f
  | .refused r => .refused r

end Sys2Proof.Machine
end

