-- ==== Sys2Proof/Machine/Operands.lean ====
section
/-! DEFINITION. The operand forms of the stages: a channel of the array, the entries of its register files, the live
channels, the stream registers as numbers. -/

namespace Sys2Proof.Machine

/-- Entry `i` of a register file of `w`-bit entries. No rule reads at or above `n` on a stream that opened; such a read
answers 0 (log entry 21). -/
def rd {w n : Nat} (v : Vector (BitVec w) n) (i : Nat) : BitVec w := v.getD i 0

/-- A register file with entry `i` written. No rule writes at or above `n` on a stream that opened; such a write is
dropped (log entry 21). -/
def wr {w n : Nat} (v : Vector (BitVec w) n) (i : Nat) (x : BitVec w) : Vector (BitVec w) n := v.setIfInBounds i x

/-- Channel `c` (10_state.md rule R28). -/
def State.chan (s : State) (c : Fin 16) : Channel := s.ch[c]

/-- Channel `c` replaced. -/
def State.setChan (s : State) (c : Fin 16) (x : Channel) : State := { s with ch := s.ch.set c x }

/-- The live channels in ascending order, 0 to `ctx.channelCount - 1` (rule R20). -/
def State.liveChannels (s : State) : List (Fin 16) :=
  (List.finRange 16).filter fun c => c.val < s.ctx.channelCount.toNat

/-- Every live channel changed by `f`, the others kept. -/
def State.mapLive (s : State) (f : Channel → Channel) : State :=
  { s with ch := tabulate 16 fun c => if c < s.ctx.channelCount.toNat then f (s.ch.getD c Channel.reset)
                                       else s.ch.getD c Channel.reset }

/-- The secondary of the pair whose primary is `c`: channel c + 1 (41_header_parser.md rule R153: "Every Primary at
index k has its Secondary at index k + 1"). -/
def secondaryOf (c : Fin 16) : Option (Fin 16) := if h : c.val + 1 < 16 then some ⟨c.val + 1, h⟩ else none

/-- `baseBandCount`, `stereoBandCount`, `totalBandCount` as numbers. -/
def Ctx.base (x : Ctx) : Nat := x.baseBandCount.toNat
def Ctx.stereo (x : Ctx) : Nat := x.stereoBandCount.toNat
def Ctx.total (x : Ctx) : Nat := x.totalBandCount.toNat

/-- `n_c`, that is `ch[c].codedCount`, as a number. -/
def Channel.coded (x : Channel) : Nat := x.codedCount.toNat

/-- The f32 register file whose entry `i` is `f i` where `p i` holds and the old entry elsewhere. -/
def fillWhere (p : Nat → Bool) (f : Nat → F32) (v : Vector F32 128) : Vector F32 128 :=
  tabulate 128 fun i => if p i then f i else rd v i

/-- A byte of a table held as a register file of 256 entries, by its byte index. -/
def tableByte (t : Vector Byte 256) (b : Byte) : Byte := t.getD b.toNat 0

end Sys2Proof.Machine
end

