-- ==== Sys2Proof/Machine/BitCursor.lean ====
section
/-! DEFINITION. The four BitCursor micro-operations (40_bitcursor.md) as instructions of their own. Inside the other
stages the same peek, read and skip appear as `State.peekAt` and `State.seek` over the same moves. -/

namespace Sys2Proof.Machine

/-- BC_WRAP (rule R102). -/
def bcWrap (buf : BufId) (len : BitVec 16) (p0 : Byte) (s : State) : Res :=
  wrap buf len.toNat p0.toNat (s.enter 0x01)

/-- BC_PEEK (rule R103): the value is returned, the cursor stays; `n > 32` is 93_implementation_defined.md U2. -/
def bcPeek (n : Byte) (s : State) : Res :=
  if 32 < n.toNat then .refused .requestTooWide
  else .done { s.enter 0x02 with result := BitVec.ofNat 32 (s.peek n.toNat) }

/-- BC_READ (rule R104): "equivalent to peek then advance cursor by `n`", also when the request did not fit. -/
def bcRead (mv : Moves) (n : Byte) (s : State) : Res :=
  if 32 < n.toNat then .refused .requestTooWide
  else .done { (s.enter 0x03).seek (mv 0 (s.cur.pos + n.toNat : Nat)) with result := BitVec.ofNat 32 (s.peek n.toNat) }

/-- BC_SKIP (rule R105): a signed move, no bound at the buffer's end; below 0 is 93_implementation_defined.md U3. -/
def bcSkip (mv : Moves) (delta : BitVec 32) (s : State) : Res :=
  let p : Int := s.cur.pos + delta.toInt
  if p < 0 then .refused .cursorNegative else .done ((s.enter 0x04).seek (mv 0 p))

/-- The meaning of BC_WRAP. -/
def execBcWrap (buf : BufId) (len : BitVec 16) (p0 : Byte) (s : State) : Host.Outcome State Fault Refusal :=
  (bcWrap buf len p0 s).outcome Config.hw

/-- The meaning of BC_PEEK. -/
def execBcPeek (n : Byte) (s : State) : Host.Outcome State Fault Refusal := (bcPeek n s).outcome Config.hw

/-- The meaning of BC_READ. -/
def execBcRead (n : Byte) (s : State) : Host.Outcome State Fault Refusal :=
  (alone Config.hw n.toNat (fun mv => bcRead mv n) s).outcome Config.hw

/-- The meaning of BC_SKIP. -/
def execBcSkip (delta : BitVec 32) (s : State) : Host.Outcome State Fault Refusal :=
  (alone Config.hw delta.toInt.toNat (fun mv => bcSkip mv delta) s).outcome Config.hw

end Sys2Proof.Machine
end

