-- ==== Sys2Proof/Machine/Flags.lean ====
section
/-! DEFINITION. The status flags of the block (10_state.md rule R21): `valid`, `ctx.loopEnabled`, `status`. "There are
no arithmetic condition codes: no operation sets a carry, zero, overflow or floating-point exception flag." -/

namespace Sys2Proof.Machine

/-- The 3-bit code of a result (60_exceptions.md rule R271; 92_eei_decisions.md D29). Code 7 is never returned. -/
def Status.code : Status → BitVec 3
  | .ok => 0
  | .headerInvalid => 1
  | .syncError => 2
  | .checksumError => 3
  | .shortBuffer => 4
  | .invalidScaleFactor => 5
  | .invalidIntensity => 6

/-- The 2-bit code of a channel type (10_state.md rule R28; D35). -/
def ChanType.code : ChanType → BitVec 2
  | .discrete => 0
  | .primary => 1
  | .secondary => 2

/-- A successful OPEN_STREAM sets `valid` (rule R21, 41_header_parser.md rule R155); no frame of the new stream has been
decoded (45_controller_and_host.md rule R243). -/
def State.openedStream (s : State) : State := { endCommand s with valid := true, decoded := false }

/-- A successful DECODE_FRAME: `wave` holds a frame of the stream (rule R243). -/
def State.decodedFrame (s : State) : State := { endCommand s with decoded := true }

/-- The precondition of DECODE_FRAME and RESET_STREAM (rule R243). -/
def State.streamOpen (s : State) : Bool := s.valid

/-- The precondition of READ_SAMPLES16 (rule R243): "yes, and a completed DECODE_FRAME since the last successful
OPEN_STREAM". -/
def State.samplesReady (s : State) : Bool := s.valid && s.decoded

end Sys2Proof.Machine
end

