-- ==== Sys2Proof/Machine/FrameUnpack.lean ====
section
/-! DEFINITION. FrameDecoder steps 0 to 5 (42_frame_unpack.md): frame checks, decryption, noise level, and per channel
scale factors, intensity or high-band scales, resolution, gain. All errors of DECODE_FRAME are raised here. -/

namespace Sys2Proof.Machine

/-- FR_CHECKLEN (rule R161). -/
def frChecklen (s : State) : Res :=
  let s := s.enter 0x20
  if s.frmLen.toNat < s.ctx.frameSize.toNat then .raised .shortBuffer s else .done s

/-- FR_SYNC (rule R162): the first 16 bits, still encrypted, must be 0xFFFF. -/
def frSync (s : State) : Res :=
  (wrap .frm s.ctx.frameSize.toNat 0 (s.enter 0x21)).andThen fun s =>
    if s.peek 16 ≠ 0xFFFF then .raised .syncError (s.seek 16) else .done (s.seek 16)

/-- FR_CHECKSUM (rule R163): the external primitive over the raw `frameSize` bytes. -/
def frChecksum (cfg : Config) (s : State) : Res :=
  let s := s.enter 0x22
  let n := s.ctx.frameSize.toNat
  if s.frm.size < n then .faulted .addressOutsideBuffer
  else if cfg.checksumFrame (s.frm.bytes n) ≠ 0 then .raised .checksumError s
  else .done s

/-- `CipherDecrypt(table, FRM)` on the first `n` bytes (00_scope.md rule R9): every byte by its substitution. -/
def Buffer.substitute (b : Buffer) (table : Vector Byte 256) (n : Nat) : Buffer :=
  { b with cells := Mem.fill n (fun k => tableByte table (b.byte k)) b.cells }

/-- FR_DECRYPT (rule R165): decrypt in place, then re-wrap behind the sync word. -/
def frDecrypt (s : State) : Res :=
  let s := s.enter 0x23
  let n := s.ctx.frameSize.toNat
  if s.frm.size < n then .faulted .addressOutsideBuffer
  else wrap .frm n 16 { s with frm := s.frm.substitute s.cipherTable n }

/-- FR_NOISELEVEL (rule R166): `(noiseLevel << 8) − boundary`, a signed integer. -/
def frNoiselevel (mv : Moves) (s : State) : Res :=
  let s := s.enter 0x24
  let p := s.cur.pos
  let q := mv 0 (p + 9 : Nat)
  let noiseLevel := s.peekAt p 9
  let boundary := s.peekAt q 7
  .done { s.seek (mv 1 (q + 7 : Nat)) with packedNoiseLevel := (noiseLevel * 256 : Int) - boundary }

/-! The delta idiom, shared by scale factors (rule R170) and intensities (rule R172): a field of `dw` bits is the
sentinel `2^dw - 1`, which announces a literal of `lw` bits, or the step `field − (sentinel >> 1)`. -/

/-- Where a run of delta-coded values stands: still in range, the cursor, the file written so far. -/
structure DeltaRun (lw n : Nat) where
  ok : Bool
  pos : Nat
  file : Vector (BitVec lw) n
deriving DecidableEq, Repr

/-- `k` values from entry `i` on, `value` being the one before them. A computed value outside 0 .. 2^lw - 1 ends the
run as malformed, its entry unwritten. `pk p n` is the `n`-bit field at `p`. -/
def deltaRun {n : Nat} (pk : Nat → Nat → Nat) (mv : Moves) (dw lw : Nat) :
    (k i pos value : Nat) → Vector (BitVec lw) n → DeltaRun lw n
  | 0, _, pos, _, file => { ok := true, pos := pos, file := file }
  | k + 1, i, pos, value, file =>
    let delta := pk pos dw
    let q := mv (2 * k + 4) (pos + dw : Nat)
    if delta = 2 ^ dw - 1 then
      let v := pk q lw
      deltaRun pk mv dw lw k (i + 1) (mv (2 * k + 5) (q + lw : Nat)) v (wr file i (BitVec.ofNat lw v))
    else
      let t : Int := (value : Int) - ((2 ^ dw - 1) / 2 : Nat) + delta
      if t < 0 ∨ (2 ^ lw : Nat) ≤ t then { ok := false, pos := q, file := file }
      else deltaRun pk mv dw lw k (i + 1) q t.toNat (wr file i (BitVec.ofNat lw t.toNat))

/-- FR_SCALE (rules R168 to R171). -/
def frScale (mv : Moves) (c : Fin 16) (s : State) : Res :=
  let s := s.enterChan 0x25 c
  let k := s.chan c
  let n := k.coded
  let p := s.cur.pos
  let q := mv 0 (p + 3 : Nat)
  let deltaBits := s.peekAt p 3
  if 6 ≤ deltaBits then
    let file := tabulate 128 fun i => if i < n then s.field (mv.walk 6 q i) 6 6 else rd k.scale i
    .done ((s.setChan c { k with scale := file }).seek (mv.walk 6 q n))
  else if deltaBits = 0 then
    let file := tabulate 128 fun i => if i < n then 0 else rd k.scale i
    .done ((s.setChan c { k with scale := file }).seek q)
  else
    let value := s.peekAt q 6
    let first := if 1 ≤ n then wr k.scale 0 (BitVec.ofNat 6 value) else k.scale
    let run := deltaRun s.peekAt mv deltaBits 6 (n - 1) 1 (mv 1 (q + 6 : Nat)) value first
    let t := (s.setChan c { k with scale := run.file }).seek run.pos
    if run.ok then .done t else .raised .invalidScaleFactor t

/-- A first value `v` and seven 4-bit literals, the `i`-th at `p i` (rule R172). -/
def intensityLiterals (pk : Nat → Nat → Nat) (p : Nat → Nat) (v : Nat) : Vector (BitVec 4) 8 :=
  tabulate 8 fun i => if i = 0 then BitVec.ofNat 4 v else BitVec.ofNat 4 (pk (p (i - 1)) 4)

/-- FR_INTENSITY of a secondary channel under a version at most 0x0200 (rule R172): a flag of 15 is not consumed, and
`intensity[1..7]` keep their values. -/
def intensityOld (mv : Moves) (c : Fin 16) (s : State) : Res :=
  let k := s.chan c
  let p := s.cur.pos
  let v := s.peekAt p 4
  if v < 15 then
    let q := mv 0 (p + 4 : Nat)
    .done ((s.setChan c { k with intensity := intensityLiterals s.peekAt (mv.walk 4 q) v }).seek (mv.walk 4 q 7))
  else .done (s.setChan c { k with intensity := wr k.intensity 0 (BitVec.ofNat 4 v) })

/-- FR_INTENSITY of a secondary channel under a version above 0x0200 (rule R172). -/
def intensityNew (mv : Moves) (c : Fin 16) (s : State) : Res :=
  let k := s.chan c
  let p := s.cur.pos
  let v := s.peekAt p 4
  let q := mv 0 (p + 4 : Nat)
  if v < 15 then
    let db := s.peekAt q 2
    let q := mv 1 (q + 2 : Nat)
    if db = 3 then
      .done ((s.setChan c { k with intensity := intensityLiterals s.peekAt (mv.walk 4 q) v }).seek (mv.walk 4 q 7))
    else
      let run := deltaRun s.peekAt mv (db + 1) 4 7 1 q v (wr k.intensity 0 (BitVec.ofNat 4 v))
      let t := (s.setChan c { k with intensity := run.file }).seek run.pos
      if run.ok then .done t else .raised .invalidIntensity t
  else .done ((s.setChan c { k with intensity := Vector.replicate 8 7 }).seek q)

/-- The high-band scales of a non-secondary channel (rule R173): 6 bits per HFR group. -/
def highBandScales (mv : Moves) (c : Fin 16) (s : State) : Res :=
  let k := s.chan c
  let p := s.cur.pos
  let n := s.ctx.hfrGroupCount.toNat
  let file := tabulate 128 fun g => if g < n then s.field (mv.walk 6 p g) 6 6 else rd k.hfrScale g
  .done ((s.setChan c { k with hfrScale := file }).seek (mv.walk 6 p n))

/-- FR_INTENSITY (rules R172, R173). -/
def frIntensity (mv : Moves) (c : Fin 16) (s : State) : Res :=
  let s := s.enterChan 0x26 c
  if (s.chan c).type = .secondary then
    (if s.ctx.version.toNat ≤ 0x0200 then intensityOld mv c s else intensityNew mv c s)
  else highBandScales mv c s

/-- The resolution rule R175 derives from a non-zero scale factor: `athCurve[i]`, the packed level, the index and the
scale give `p`; the table `T_INVERT`; the clamp, maximum first. -/
def resolutionOf (cfg : Config) (ath : Nat) (packed : Int) (i scale minR maxR : Nat) : Nat :=
  let noise : Int := ath + (packed + i) / 256
  let p : Int := noise + 1 - (5 * scale / 2 : Nat)
  let r : Nat := if p < 0 then 15 else if p ≤ 65 then (cfg.tInvert p.toNat).toNat else 0
  if maxR < r then maxR else if r < minR then minR else r

/-- The files FR_RESOLUTION fills, and their counts. -/
structure Partition where
  resolution : Vector (BitVec 4) 128
  noises : Vector (BitVec 7) 128
  noiseCount : Nat
  validCount : Nat
deriving DecidableEq, Repr

/-- One coefficient of rule R175: with scale 0 it has resolution 0 and is in neither partition; else resolution 0 puts
it behind the noise indices, a higher one in front of the valid indices. -/
def Partition.step (f : Nat → Nat) (scale : Nat → Nat) (i : Nat) (q : Partition) : Partition :=
  if scale i = 0 then { q with resolution := wr q.resolution i 0 }
  else
    let r := f i
    if r < 1 then
      { q with resolution := wr q.resolution i (BitVec.ofNat 4 r)
               noises := wr q.noises q.noiseCount (BitVec.ofNat 7 i)
               noiseCount := q.noiseCount + 1 }
    else
      { q with resolution := wr q.resolution i (BitVec.ofNat 4 r)
               noises := wr q.noises (127 - q.validCount) (BitVec.ofNat 7 i)
               validCount := q.validCount + 1 }

/-- The loop of rule R175 over the coefficients 0..n-1 in ascending order. -/
def partitionUpTo (f : Nat → Nat) (scale : Nat → Nat) (start : Partition) : Nat → Partition
  | 0 => start
  | n + 1 => Partition.step f scale n (partitionUpTo f scale start n)

/-- FR_RESOLUTION (rule R175). Entries between the two partitions are not written (10_state.md rule R30). -/
def frResolution (cfg : Config) (c : Fin 16) (s : State) : Res :=
  let s := s.enterChan 0x27 c
  let k := s.chan c
  let f i := resolutionOf cfg (s.athCurve.getD i 0).toNat s.packedNoiseLevel i (rd k.scale i).toNat
    s.ctx.minResolution.toNat s.ctx.maxResolution.toNat
  let q := partitionUpTo f (fun i => (rd k.scale i).toNat)
    { resolution := Vector.replicate 128 0, noises := k.noises, noiseCount := 0, validCount := 0 } k.coded
  .done (s.setChan c { k with
    resolution := q.resolution
    noises := q.noises
    noiseCount := BitVec.ofNat 8 q.noiseCount
    validCount := BitVec.ofNat 8 q.validCount })

/-- FR_GAIN (rule R178): one f32 multiplication per coded coefficient. -/
def frGain (cfg : Config) (c : Fin 16) (s : State) : Res :=
  let s := s.enterChan 0x28 c
  let k := s.chan c
  let product i := F32.mul (s.nan cfg i) (cfg.tScale (rd k.scale i).toNat) (cfg.tRange (rd k.resolution i).toNat)
  .done ((s.setChan c { k with gain := fillWhere (fun i => i < k.coded) product k.gain }).drew 128)

/-- The meaning of FR_CHECKLEN. -/
def execFrChecklen (s : State) : Host.Outcome State Fault Refusal := (frChecklen s).outcome Config.hw
/-- The meaning of FR_SYNC. -/
def execFrSync (s : State) : Host.Outcome State Fault Refusal := (frSync s).outcome Config.hw
/-- The meaning of FR_CHECKSUM. -/
def execFrChecksum (s : State) : Host.Outcome State Fault Refusal := (frChecksum Config.hw s).outcome Config.hw
/-- The meaning of FR_DECRYPT. -/
def execFrDecrypt (s : State) : Host.Outcome State Fault Refusal := (frDecrypt s).outcome Config.hw
/-- The meaning of FR_NOISELEVEL. -/
def execFrNoiselevel (s : State) : Host.Outcome State Fault Refusal :=
  (alone Config.hw stageReach frNoiselevel s).outcome Config.hw
/-- The meaning of FR_SCALE. -/
def execFrScale (c : Fin 16) (s : State) : Host.Outcome State Fault Refusal :=
  (alone Config.hw stageReach (fun mv => frScale mv c) s).outcome Config.hw
/-- The meaning of FR_INTENSITY. -/
def execFrIntensity (c : Fin 16) (s : State) : Host.Outcome State Fault Refusal :=
  (alone Config.hw stageReach (fun mv => frIntensity mv c) s).outcome Config.hw
/-- The meaning of FR_RESOLUTION. -/
def execFrResolution (c : Fin 16) (s : State) : Host.Outcome State Fault Refusal :=
  (frResolution Config.hw c s).outcome Config.hw
/-- The meaning of FR_GAIN. -/
def execFrGain (c : Fin 16) (s : State) : Host.Outcome State Fault Refusal := (frGain Config.hw c s).outcome Config.hw

end Sys2Proof.Machine
end

