-- ==== Sys2Proof/Machine/HeaderParser.lean ====
section
/-! DEFINITION. HeaderParser (41_header_parser.md): the prolog, the chunks, validation, derived parameters, channel
types. The only error any of its stages raises is HeaderInvalid. Fields are read with `read(n)` one after another;
here each is read at its offset from the chunk's start, which the same cursor reaches. -/

namespace Sys2Proof.Machine

/-- `present(K)` (rule R123): the counter allows the chunk's fixed size and the masked word at the cursor is its tag. -/
def present (s : State) (tag : BitVec 32) (size : Nat) : Bool :=
  size ≤ s.remaining && (BitVec.ofNat 32 (s.peek 32) &&& tagMask) == tag

/-- The end of a recognised chunk: the cursor behind its `size` bytes, the counter decremented (rule R123). -/
def State.leaveChunk (s : State) (size : Nat) : State :=
  { s.seek (s.cur.pos + 8 * size) with remaining := s.remaining - size }

/-- HD_PROLOG (rule R121). -/
def hdProlog (cfg : Config) (s : State) : Res :=
  let s := s.enter 0x10
  if s.hdrLen.toNat < 8 then .raised .headerInvalid s
  else
    (wrap .hdr 8 0 s).andThen fun s =>
      if (BitVec.ofNat 32 (s.peek 32) &&& tagMask) != tagProlog then .raised .headerInvalid (s.seek 32)
      else
        let version : BitVec 16 := s.field 32 16 16
        let t := { s.seek 64 with ctx := { s.ctx with version := version, headerSize := s.field 48 16 16 } }
        if cfg.versions version then .done t else .raised .headerInvalid t

/-- The re-wrap on the declared length (rule R122), a controller action between HD_PROLOG and HD_FMT. -/
def rewrapHeader (s : State) : Res :=
  let n := s.ctx.headerSize.toNat
  if n < 8 then .raised .headerInvalid s
  else if s.hdrLen.toNat < n then .raised .headerInvalid s
  else (wrap .hdr n 0 s).andThen fun s => .done { s.seek 64 with remaining := n - 8 }

/-- HD_FMT (rule R124; fields of 30_encoding.md rule R73), mandatory. -/
def hdFmt (s : State) : Res :=
  let s := s.enter 0x11
  let p := s.cur.pos
  if present s tagFmt 16 then
    .done ({ s with ctx := { s.ctx with
      channelCount := s.field (p + 32) 8 8
      sampleRate := s.field (p + 40) 24 24
      frameCount := s.field (p + 64) 32 32
      encoderDelay := s.field (p + 96) 16 16
      encoderPadding := s.field (p + 112) 16 16 } }.leaveChunk 16)
  else .raised .headerInvalid s

/-- HD_COMP (rule R125; fields of rule R74): "Runs when `present(comp)`"; otherwise "the cursor and the counter are
unchanged" (rule R123). -/
def hdComp (s : State) : Res :=
  let s := s.enter 0x12
  let p := s.cur.pos
  if present s tagComp 16 then
    .done ({ s with ctx := { s.ctx with
      frameSize := s.field (p + 32) 16 16
      minResolution := s.field (p + 48) 8 8
      maxResolution := s.field (p + 56) 8 8
      trackCount := s.field (p + 64) 8 8
      channelConfig := s.field (p + 72) 8 8
      totalBandCount := s.field (p + 80) 8 9
      baseBandCount := s.field (p + 88) 8 9
      stereoBandCount := s.field (p + 96) 8 9
      bandsPerHfrGroup := s.field (p + 104) 8 8
      msStereo := s.field (p + 112) 8 8
      reserved := s.field (p + 120) 8 8
      stereoType := 0 } }.leaveChunk 16)
  else .done s

/-- HD_DEC (rule R127; fields of rule R75): "Runs when comp is absent and `present(dec)`"; otherwise nothing changes
(rule R123). -/
def hdDec (s : State) : Res :=
  let s := s.enter 0x13
  let p := s.cur.pos
  if present s tagDec 12 then
    let total : BitVec 9 := s.field (p + 64) 8 9 + 1
    let stereoType : BitVec 8 := s.field (p + 88) 8 8
    let base : BitVec 9 := if stereoType = 0 then total else s.field (p + 72) 8 9 + 1
    let x := { s.ctx with
      frameSize := s.field (p + 32) 16 16
      minResolution := s.field (p + 48) 8 8
      maxResolution := s.field (p + 56) 8 8
      totalBandCount := total
      baseBandCount := base
      trackCount := s.field (p + 80) 4 8
      channelConfig := s.field (p + 84) 4 8
      stereoType := stereoType }
    if total.toNat < base.toNat then .raised .headerInvalid ({ s with ctx := x }.seek (p + 96))
    else .done ({ s with ctx := { x with
      stereoBandCount := total - base
      bandsPerHfrGroup := 0
      msStereo := 0
      reserved := 0 } }.leaveChunk 12)
  else .done s

/-- Exactly one of comp and dec, after HD_FMT (rule R126). -/
def compOrDec (s : State) : Res :=
  if present s tagComp 16 then hdComp s
  else if present s tagDec 12 then hdDec s
  else .raised .headerInvalid s

/-- HD_VBR (rule R129; fields of rule R76). -/
def hdVbr (s : State) : Res :=
  let s := s.enter 0x14
  let p := s.cur.pos
  if present s tagVbr 8 then
    let size : BitVec 16 := s.field (p + 32) 16 16
    let t := { s with ctx := { s.ctx with vbrMaxFrameSize := size, vbrNoiseLevel := s.field (p + 48) 16 16 } }
    if s.ctx.frameSize = 0 ∧ 8 < size.toNat ∧ size.toNat ≤ 0x1FF then .done (t.leaveChunk 8)
    else .raised .headerInvalid (t.seek (p + 64))
  else .done { s with ctx := { s.ctx with vbrMaxFrameSize := 0, vbrNoiseLevel := 0 } }

/-- HD_ATH (rule R130; field of rule R77). -/
def hdAth (s : State) : Res :=
  let s := s.enter 0x15
  if present s tagAth 6 then
    .done ({ s with ctx := { s.ctx with athType := s.field (s.cur.pos + 32) 16 16 } }.leaveChunk 6)
  else .done { s with ctx := { s.ctx with athType := if s.ctx.version.toNat < 0x0200 then 1 else 0 } }

/-- HD_LOOP (rule R131; fields of rule R78). -/
def hdLoop (s : State) : Res :=
  let s := s.enter 0x16
  let p := s.cur.pos
  if present s tagLoop 16 then
    let first : BitVec 32 := s.field (p + 32) 32 32
    let last : BitVec 32 := s.field (p + 64) 32 32
    let t := { s with ctx := { s.ctx with
      loopStartFrame := first
      loopEndFrame := last
      loopStartDelay := s.field (p + 96) 16 16
      loopEndPadding := s.field (p + 112) 16 16
      loopEnabled := true } }
    if first.toNat ≤ last.toNat ∧ last.toNat < s.ctx.frameCount.toNat then .done (t.leaveChunk 16)
    else .raised .headerInvalid (t.seek (p + 128))
  else .done { s with ctx := { s.ctx with
      loopStartFrame := 0
      loopEndFrame := 0
      loopStartDelay := 0
      loopEndPadding := 0
      loopEnabled := false } }

/-- HD_CIPH (rule R132; field of rule R79): types other than 0, 1, 56 are illegal. -/
def hdCiph (s : State) : Res :=
  let s := s.enter 0x17
  let p := s.cur.pos
  if present s tagCiph 6 then
    let type : BitVec 16 := s.field (p + 32) 16 16
    let t := { s with ctx := { s.ctx with cipherType := type } }
    if type = 0 ∨ type = 1 ∨ type = 56 then .done (t.leaveChunk 6) else .raised .headerInvalid (t.seek (p + 48))
  else .done { s with ctx := { s.ctx with cipherType := 0 } }

/-- HD_RVA (rule R133; field of rule R80): the pattern is kept as it is. -/
def hdRva (s : State) : Res :=
  let s := s.enter 0x18
  if present s tagRva 8 then
    .done ({ s with ctx := { s.ctx with rvaVolume := s.field (s.cur.pos + 32) 32 32 } }.leaveChunk 8)
  else .done { s with ctx := { s.ctx with rvaVolume := 0x3F800000#32 } }

/-- HD_COMM (rule R134; fields of rule R81): entries at or above the length keep their value (10_state.md rule R24:
unspecified). -/
def hdComm (s : State) : Res :=
  let s := s.enter 0x19
  let p := s.cur.pos
  if present s tagComm 5 then
    let len := s.peekAt (p + 32) 8
    if s.remaining < 5 + len then .raised .headerInvalid (s.seek (p + 40))
    else .done ({ s with ctx := { s.ctx with
      commentLength := BitVec.ofNat 8 len
      comment := tabulate 255 fun i => if i < len then s.field (p + 40 + 8 * i) 8 8 else rd s.ctx.comment i }
      }.leaveChunk (5 + len))
  else .done { s with ctx := { s.ctx with commentLength := 0 } }

/-- HD_PAD (rule R135): "if present(pad): (nothing)"; it ends the chunk scan and has no architectural effect. -/
def hdPad (s : State) : Res := .done (s.enter 0x1A)

/-! Validation (rules R140 to R147): each condition is what must hold of the registers. -/

/-- Rule R141. -/
def Ctx.fmtLegal (x : Ctx) : Bool :=
  1 ≤ x.channelCount.toNat && x.channelCount.toNat ≤ 16 &&
  1 ≤ x.sampleRate.toNat && x.sampleRate.toNat ≤ 0x7FFFFF && 0 < x.frameCount.toNat

/-- Rule R142; the upper bound 0xFFFF always holds of a 16-bit register. -/
def Ctx.frameSizeLegal (x : Ctx) : Bool := 8 ≤ x.frameSize.toNat

/-- Rule R143. -/
def Ctx.resolutionLegal (x : Ctx) : Bool :=
  if x.version.toNat ≤ 0x0200 then x.minResolution == 1 && x.maxResolution == 15
  else x.maxResolution.toNat ≤ 15 && x.minResolution.toNat ≤ x.maxResolution.toNat

/-- Rule R145, after a coded 0 has been stored as 1. -/
def Ctx.trackLegal (x : Ctx) : Bool :=
  1 ≤ x.trackCount.toNat && x.trackCount.toNat ≤ x.channelCount.toNat

/-- Rule R146. -/
def Ctx.bandsLegal (x : Ctx) : Bool :=
  x.total ≤ 128 && x.base ≤ 128 && x.stereo ≤ 128 && x.bandsPerHfrGroup.toNat ≤ 128 && x.base + x.stereo ≤ 128

/-- Rule R147, the precondition of rule R148. A header that violates it is HeaderInvalid here, the total choice of
93_implementation_defined.md U4 (log entry 9). -/
def Ctx.totalLegal (x : Ctx) : Bool := x.base + x.stereo ≤ x.total

/-- Rule R145: "if trackCount == 0: trackCount <- 1". -/
def Ctx.normalizeTracks (x : Ctx) : Ctx := if x.trackCount = 0 then { x with trackCount := 1 } else x

/-- All of rules R141 to R147. -/
def Ctx.headerLegal (x : Ctx) : Bool :=
  x.fmtLegal && x.frameSizeLegal && x.resolutionLegal && x.trackLegal && x.bandsLegal && x.totalLegal

/-- HD_VALIDATE (rules R140 to R147). -/
def hdValidate (s : State) : Res :=
  let s := { s.enter 0x1B with ctx := s.ctx.normalizeTracks }
  if s.ctx.headerLegal then .done s else .raised .headerInvalid s

/-! Derived parameters. -/

/-- The two-argument `ceil` of rule R148. -/
def ceilDiv (a b : Nat) : Nat := if b = 0 then 0 else a / b + (if a % b ≠ 0 then 1 else 0)

/-- `hfrGroupCount` of rule R148. -/
def Ctx.hfrGroups (x : Ctx) : Nat := ceilDiv (x.total - x.base - x.stereo) x.bandsPerHfrGroup.toNat

/-- `CipherInit(type, key)` as the 256-byte table of 10_state.md rule R25. -/
def cipherTableOf (cfg : Config) (type : BitVec 16) (key : BitVec 64) : Vector Byte 256 :=
  tabulate 256 fun b => cfg.cipherInit type key (BitVec.ofNat 8 b)

/-- Rule R151 for one channel: the overlap buffer all +0.0, the intensities 0. -/
def Channel.freshStart (x : Channel) : Channel :=
  { x with prev := Vector.replicate 128 F32.zero, intensity := Vector.replicate 8 0 }

/-- HD_DERIVE (rules R148 to R151). A total below base plus stereo is 93_implementation_defined.md U4 (log entry 9). -/
def hdDerive (cfg : Config) (s : State) : Res :=
  let s := s.enter 0x1C
  if s.ctx.totalLegal then
    let groups : BitVec 8 := BitVec.ofNat 8 s.ctx.hfrGroups
    let t := { s with
      ctx := { s.ctx with hfrGroupCount := groups }
      athCurve := tabulate 128 fun i => cfg.noiseCurveInit s.ctx.athType s.ctx.sampleRate i
      cipherTable := cipherTableOf cfg s.ctx.cipherType s.key }
    if 0 < s.ctx.msStereo.toNat then .raised .headerInvalid t
    else if 0 < groups.toNat ∧ s.ctx.version = cfg.vNewest then .raised .headerInvalid t
    else .done ({ t with random := 1 }.mapLive Channel.freshStart)
  else .raised .headerInvalid s

/-! Channel types. -/

/-- The pairing table of rule R153: (Primary, Secondary) indices relative to a track's first channel. -/
def pairsOf (cpt config : Nat) : List (Nat × Nat) :=
  if cpt = 2 ∨ cpt = 3 then [(0, 1)]
  else if cpt = 4 then (if config = 0 then [(0, 1), (2, 3)] else [(0, 1)])
  else if cpt = 5 then (if config ≤ 2 then [(0, 1), (3, 4)] else [(0, 1)])
  else if cpt = 6 ∨ cpt = 7 then [(0, 1), (4, 5)]
  else if cpt = 8 then [(0, 1), (4, 5), (6, 7)]
  else []

/-- `channelsPerTrack` (rule R152), a truncating division. A stream that opened has at least one track (rule R145). For
`trackCount = 0`, which only HD_CHANTYPE run by itself meets, the rule states no quotient; that the stage goes on with
the quotient 0 is a DESIGN CHOICE, unsafe (log entry 21). The rule's loop over the tracks is then empty, so every live
channel is Discrete whatever the quotient. -/
def Ctx.channelsPerTrack (x : Ctx) : Nat := x.channelCount.toNat / x.trackCount.toNat

/-- The type rule R152 assigns to channel `c`. -/
def Ctx.typeOf (x : Ctx) (c : Nat) : ChanType :=
  let cpt := x.channelsPerTrack
  if 0 < x.stereo ∧ 1 < cpt ∧ c < x.trackCount.toNat * cpt then
    let pairs := pairsOf cpt x.channelConfig.toNat
    if pairs.any fun q => q.1 = c % cpt then .primary
    else if pairs.any fun q => q.2 = c % cpt then .secondary
    else .discrete
  else .discrete

/-- The coded count of rule R154. -/
def Ctx.codedOf (x : Ctx) (t : ChanType) : BitVec 8 :=
  BitVec.ofNat 8 (if t = .secondary then x.base else x.base + x.stereo)

/-- Rules R152 and R154 for channel `c`. -/
def Channel.assign (x : Ctx) (c : Nat) (k : Channel) : Channel :=
  { k with type := x.typeOf c, codedCount := x.codedOf (x.typeOf c) }

/-- HD_CHANTYPE (rules R152 to R154). -/
def hdChantype (s : State) : Res :=
  .done { s.enter 0x1D with ch := tabulate 16 fun c =>
    let k := s.ch.getD c Channel.reset
    if c < s.ctx.channelCount.toNat then k.assign s.ctx c else k }

/-- The meaning of HD_PROLOG. -/
def execHdProlog (s : State) : Host.Outcome State Fault Refusal := (hdProlog Config.hw s).outcome Config.hw
/-- The meaning of HD_FMT. -/
def execHdFmt (s : State) : Host.Outcome State Fault Refusal := (hdFmt s).outcome Config.hw
/-- The meaning of HD_COMP. -/
def execHdComp (s : State) : Host.Outcome State Fault Refusal := (hdComp s).outcome Config.hw
/-- The meaning of HD_DEC. -/
def execHdDec (s : State) : Host.Outcome State Fault Refusal := (hdDec s).outcome Config.hw
/-- The meaning of HD_VBR. -/
def execHdVbr (s : State) : Host.Outcome State Fault Refusal := (hdVbr s).outcome Config.hw
/-- The meaning of HD_ATH. -/
def execHdAth (s : State) : Host.Outcome State Fault Refusal := (hdAth s).outcome Config.hw
/-- The meaning of HD_LOOP. -/
def execHdLoop (s : State) : Host.Outcome State Fault Refusal := (hdLoop s).outcome Config.hw
/-- The meaning of HD_CIPH. -/
def execHdCiph (s : State) : Host.Outcome State Fault Refusal := (hdCiph s).outcome Config.hw
/-- The meaning of HD_RVA. -/
def execHdRva (s : State) : Host.Outcome State Fault Refusal := (hdRva s).outcome Config.hw
/-- The meaning of HD_COMM. -/
def execHdComm (s : State) : Host.Outcome State Fault Refusal := (hdComm s).outcome Config.hw
/-- The meaning of HD_PAD. -/
def execHdPad (s : State) : Host.Outcome State Fault Refusal := (hdPad s).outcome Config.hw
/-- The meaning of HD_VALIDATE. -/
def execHdValidate (s : State) : Host.Outcome State Fault Refusal := (hdValidate s).outcome Config.hw
/-- The meaning of HD_DERIVE. -/
def execHdDerive (s : State) : Host.Outcome State Fault Refusal := (hdDerive Config.hw s).outcome Config.hw
/-- The meaning of HD_CHANTYPE. -/
def execHdChantype (s : State) : Host.Outcome State Fault Refusal := (hdChantype s).outcome Config.hw

end Sys2Proof.Machine
end

