-- ==== Sys2Proof/Machine/Imdct.lean ====
section
/-! DEFINITION. InverseTransform (44_imdct.md): two passes of seven stages over the two working buffers, then the window
with overlap-add. The "current" and "scratch" roles swap with the parity of the stage number (rule R220). -/

namespace Sys2Proof.Machine

/-- Stage `s` of the first pass (rule R222), by the entry it writes: entry `o` lies in block `j = o / (2*count2)`; the
lower half of a block takes sums, the upper half differences, of the pair `p = j*count2 + k`. -/
def pass1Entry (nan : Nat → F32) (s : Nat) (src : Vector F32 128) (o : Nat) : F32 :=
  let count2 := 64 / 2 ^ s
  let j := o / (2 * count2)
  let k := o % (2 * count2)
  if k < count2 then
    let p := j * count2 + k
    F32.add (nan (128 * s + o)) (rd src (2 * p)) (rd src (2 * p + 1))
  else
    let p := j * count2 + (k - count2)
    F32.sub (nan (128 * s + o)) (rd src (2 * p)) (rd src (2 * p + 1))

/-- Stage `s` of the second pass (rule R224), by the entry it writes: the lower half of a block ascends with
`(a *f sn) −f (b *f cs)`, the upper half descends with `(a *f cs) +f (b *f sn)`; `q` is the table column. -/
def pass2Entry (cfg : Config) (nan : Nat → F32) (s : Nat) (src : Vector F32 128) (o : Nat) : F32 :=
  let count2 := 2 ^ s
  let j := o / (2 * count2)
  let k := o % (2 * count2)
  let base := 2 * j * count2
  let slot := 3 * (128 * s + o)
  if k < count2 then
    let q := j * count2 + k
    let a := rd src (base + k)
    let b := rd src (base + count2 + k)
    F32.sub (nan slot) (F32.mul (nan (slot + 1)) a (cfg.tSin s q)) (F32.mul (nan (slot + 2)) b (cfg.tCos s q))
  else
    let i := 2 * count2 - 1 - k
    let q := j * count2 + i
    let a := rd src (base + i)
    let b := rd src (base + count2 + i)
    F32.add (nan slot) (F32.mul (nan (slot + 1)) a (cfg.tCos s q)) (F32.mul (nan (slot + 2)) b (cfg.tSin s q))

/-- The two working buffers: `fst` is read by even stages and written by odd ones, `snd` the other way round. -/
abbrev PingPong := Vector F32 128 × Vector F32 128

/-- Stages 0..n-1 of a pass whose stage `s` writes `entry s src`. -/
def pingPong (entry : Nat → Vector F32 128 → Nat → F32) (start : PingPong) : Nat → PingPong
  | 0 => start
  | s + 1 =>
    let b := pingPong entry start s
    if s % 2 = 0 then (b.1, tabulate 128 (entry s b.1)) else (tabulate 128 (entry s b.2), b.2)

/-- IM_PASS1 (rule R222): even stages read `spectra`; after stage 6 the result is in `scratch`. -/
def imPass1 (cfg : Config) (c : Fin 16) (s : State) : Res :=
  let s := s.enterChan 0x40 c
  let k := s.chan c
  let b := pingPong (pass1Entry (s.nan cfg)) (k.spectra, k.scratch) 7
  .done ((s.setChan c { k with spectra := b.1, scratch := b.2 }).drew 896)

/-- IM_PASS2 (rule R224): even stages read `scratch`; after stage 6 the result is in `spectra`. -/
def imPass2 (cfg : Config) (c : Fin 16) (s : State) : Res :=
  let s := s.enterChan 0x41 c
  let k := s.chan c
  let b := pingPong (pass2Entry cfg (s.nan cfg)) (k.scratch, k.spectra) 7
  .done ((s.setChan c { k with scratch := b.1, spectra := b.2 }).drew 2688)

/-- The row of samples of rule R226. -/
def windowRow (cfg : Config) (nan : Nat → F32) (buf prev : Vector F32 128) : Vector F32 128 :=
  tabulate 128 fun i =>
    if i < 64 then
      F32.add (nan (2 * i)) (F32.mul (nan (2 * i + 1)) (cfg.tWindow i) (rd buf (i + 64))) (rd prev i)
    else
      F32.sub (nan (2 * i)) (F32.mul (nan (2 * i + 1)) (cfg.tWindow i) (rd buf (127 - (i - 64)))) (rd prev i)

/-- The overlap buffer for the next call (rule R226). -/
def windowPrev (cfg : Config) (nan : Nat → F32) (buf : Vector F32 128) : Vector F32 128 :=
  tabulate 128 fun i =>
    if i < 64 then F32.mul (nan (256 + i)) (cfg.tWindow (127 - i)) (rd buf (63 - i))
    else F32.mul (nan (256 + i)) (cfg.tWindow (63 - (i - 64))) (rd buf (i - 64))

/-- IM_WINDOW (rule R226): both right-hand sides use the old `prev` and the unmodified `buf`. -/
def imWindow (cfg : Config) (c : Fin 16) (sf : Fin 8) (s : State) : Res :=
  let s := s.enterSub 0x42 c sf
  let k := s.chan c
  .done ((s.setChan c { k with
    wave := k.wave.set sf (windowRow cfg (s.nan cfg) k.spectra k.prev)
    prev := windowPrev cfg (s.nan cfg) k.spectra }).drew 384)

/-- The meaning of IM_PASS1. -/
def execImPass1 (c : Fin 16) (s : State) : Host.Outcome State Fault Refusal :=
  (imPass1 Config.hw c s).outcome Config.hw
/-- The meaning of IM_PASS2. -/
def execImPass2 (c : Fin 16) (s : State) : Host.Outcome State Fault Refusal :=
  (imPass2 Config.hw c s).outcome Config.hw
/-- The meaning of IM_WINDOW. -/
def execImWindow (c : Fin 16) (sf : Fin 8) (s : State) : Host.Outcome State Fault Refusal :=
  (imWindow Config.hw c sf s).outcome Config.hw

end Sys2Proof.Machine
end

