-- ==== Sys2Proof/Machine/Spectral.lean ====
section
/-! DEFINITION. FrameDecoder steps 6a to 6d (43_spectral_reconstruct.md): coefficient unpacking, noise reconstruction,
high-frequency reconstruction, stereo recombination. None raises an error. -/

namespace Sys2Proof.Machine

/-! Coefficient unpacking (rules R191 to R193). -/

/-- A code of resolution above 7 (rule R192): sign-magnitude with the sign in the least significant bit; a zero
magnitude is +0.0 and one bit is un-read. Answers the value and the bits to skip. -/
def dequantHigh (code : Nat) : F32 × Int :=
  if code / 2 = 0 then (F32.zero, -1)
  else (F32.ofInt ((1 - 2 * (code % 2 : Nat) : Int) * (code / 2 : Nat)), 0)

/-- A code of resolution 0 to 7 (rule R193): the table's value, the cursor corrected to the table's width. -/
def dequantLow (cfg : Config) (r code w : Nat) : F32 × Int :=
  (cfg.tReadVal r code, (cfg.tReadBits r code : Int) - w)

/-- The `i`-th coefficient code, of resolution `r`, at `pos` (rule R191): its value and the cursor behind it. -/
def dequantOne (cfg : Config) (pk : Nat → Nat → Nat) (mv : Moves) (i r pos : Nat) : Except Refusal (F32 × Nat) :=
  let w := cfg.tMaxBits r
  if 32 < w then .error .requestTooWide
  else
    let code := pk pos w
    let x := if 7 < r then dequantHigh code else dequantLow cfg r code w
    .ok (x.1, mv (2 * i + 1) ((mv (2 * i) (pos + w : Nat) : Int) + x.2))

/-- The coefficients 0..n-1 in order: entry `i` is `g i q` of its dequantized value `q`. -/
def dequantUpTo (cfg : Config) (pk : Nat → Nat → Nat) (mv : Moves) (res : Nat → Nat) (g : Nat → F32 → F32)
    (start : Nat × Vector F32 128) : Nat → Except Refusal (Nat × Vector F32 128)
  | 0 => .ok start
  | n + 1 =>
    match dequantUpTo cfg pk mv res g start n with
    | .error e => .error e
    | .ok (pos, file) =>
      match dequantOne cfg pk mv n (res n) pos with
      | .error e => .error e
      | .ok (q, pos') => .ok (pos', wr file n (g n q))

/-- SP_DEQUANT (rule R191): coefficients beyond `codedCount` are +0.0. -/
def spDequant (cfg : Config) (mv : Moves) (c : Fin 16) (s : State) : Res :=
  let s := s.enterChan 0x30 c
  let k := s.chan c
  match dequantUpTo cfg s.peekAt mv (fun i => (rd k.resolution i).toNat)
      (fun i q => F32.mul (s.nan cfg i) (rd k.gain i) q) (s.cur.pos, Vector.replicate 128 F32.zero) k.coded with
  | .error e => .refused e
  | .ok (pos, file) => .done (((s.setChan c { k with spectra := file }).seek pos).drew 128)

/-! Noise reconstruction (rules R196 to R198). -/

/-- The generator of rule R196: `(random × 0x343FD + 0x269EC3) mod 2^32`. -/
def lcg (r : BitVec 32) : BitVec 32 := r * 0x343FD#32 + 0x269EC3#32

/-- The donor index of rule R197. FR_RESOLUTION leaves at most 128 valid entries (10_state.md rule R30). For a greater
`validCount`, which only SP_NOISE run by itself meets, the rule's `128 − validCount` is negative and names no entry; that
the model takes 0 for it is a DESIGN CHOICE, unsafe (log entry 21). -/
def donorIndex (cfg : Config) (random : BitVec 32) (validCount : Nat) : Nat :=
  128 - validCount + (cfg.rand15 random).toNat * validCount / 2 ^ 15

/-- The noise scaling factor of rule R198: index `max(0, sn − sv + 62)`. -/
def noiseFactor (cfg : Config) (sn sv : Nat) : F32 := cfg.tScaleConv (sn + 62 - sv)

/-- Noise entry `i`: one generator step, one donor, one product. The pair is the generator and the spectrum. -/
def noiseStep (cfg : Config) (x : Channel) (nan : F32) (i : Nat) (p : BitVec 32 × Vector F32 128) :
    BitVec 32 × Vector F32 128 :=
  let random := lcg p.1
  let ni := (rd x.noises i).toNat
  let vi := (rd x.noises (donorIndex cfg random x.validCount.toNat)).toNat
  (random, wr p.2 ni (F32.mul nan (noiseFactor cfg (rd x.scale ni).toNat (rd x.scale vi).toNat) (rd p.2 vi)))

/-- The noise entries 0..k-1 in order. -/
def noiseUpTo (cfg : Config) (x : Channel) (nan : Nat → F32) (start : BitVec 32 × Vector F32 128) :
    Nat → BitVec 32 × Vector F32 128
  | 0 => start
  | k + 1 => noiseStep cfg x (nan k) k (noiseUpTo cfg x nan start k)

/-- The early returns of rule R196. -/
def noiseApplies (x : Ctx) (k : Channel) : Bool :=
  x.minResolution == 0 && !(x.msStereo != 0 && k.type == .primary) && k.validCount != 0 && k.noiseCount != 0

/-- SP_NOISE (rule R196). -/
def spNoise (cfg : Config) (c : Fin 16) (s : State) : Res :=
  let s := s.enterChan 0x31 c
  let k := s.chan c
  if noiseApplies s.ctx k then
    let r := noiseUpTo cfg k (s.nan cfg) (s.random, k.spectra) k.noiseCount.toNat
    .done ({ s.setChan c { k with spectra := r.2 } with random := r.1 }.drew 256)
  else .done s

/-! High-frequency reconstruction (rules R202, R203). -/

/-- The HFR scaling factor of rule R203: index `max(0, hs − sl + HFR_BIAS)`. -/
def hfrFactor (cfg : Config) (hs sl : Nat) : F32 := cfg.tScaleConv ((hs : Int) - sl + cfg.hfrBias).toNat

/-- The sliding indices of rule R202 and the spectrum under reconstruction. -/
structure HfrRun where
  high : Nat
  low : Int
  sp : Vector F32 128
deriving DecidableEq, Repr

/-- `j` bands of a group whose scale is `hs`: stop at the top band or below band 0; `down` says whether the low index
steps. -/
def hfrGroup (cfg : Config) (nan : Nat → F32) (scale : Nat → Nat) (total hs : Nat) (down : Bool) :
    Nat → HfrRun → HfrRun
  | 0, q => q
  | j + 1, q =>
    if total ≤ q.high ∨ q.low < 0 then q
    else
      let l := q.low.toNat
      let v := F32.mul (nan q.high) (hfrFactor cfg hs (scale l)) (rd q.sp l)
      hfrGroup cfg nan scale total hs down j
        { high := q.high + 1, low := if down then q.low - 1 else q.low, sp := wr q.sp q.high v }

/-- Groups 0..n-1 in order; the low index steps below `groupLimit`. -/
def hfrGroupsUpTo (cfg : Config) (nan : Nat → F32) (scale hfrScale : Nat → Nat) (total bands limit : Nat)
    (start : HfrRun) : Nat → HfrRun
  | 0 => start
  | g + 1 => hfrGroup cfg nan scale total (hfrScale g) (g < limit) bands
      (hfrGroupsUpTo cfg nan scale hfrScale total bands limit start g)

/-- SP_HFR (rule R202), with the forced zero at `high - 1`. -/
def spHfr (cfg : Config) (c : Fin 16) (s : State) : Res :=
  let s := s.enterChan 0x32 c
  let k := s.chan c
  let x := s.ctx
  if x.bandsPerHfrGroup = 0 ∨ k.type = .secondary then .done s
  else
    let start := x.base + x.stereo
    let q := hfrGroupsUpTo cfg (s.nan cfg) (fun i => (rd k.scale i).toNat) (fun g => (rd k.hfrScale g).toNat)
      x.total x.bandsPerHfrGroup.toNat (x.hfrGroupCount.toNat / 2)
      { high := start, low := (start : Int) - 1, sp := k.spectra } x.hfrGroupCount.toNat
    let sp := if 1 ≤ q.high then wr q.sp (q.high - 1) F32.zero else q.sp
    .done ((s.setChan c { k with spectra := sp }).drew 512)

/-! Stereo recombination (rules R206 to R209). -/

/-- The band range of both stereo stages: `baseBandCount .. totalBandCount − 1` (rule R206). -/
def Ctx.stereoBand (x : Ctx) (b : Nat) : Bool := x.base ≤ b && b < x.total

/-- The primary's spectrum after SP_ISTEREO (rule R207): its band range times `ratio`. -/
def istereoPrimary (cfg : Config) (s : State) (ratio : F32) (sp : Vector F32 128) : Vector F32 128 :=
  fillWhere s.ctx.stereoBand (fun b => F32.mul (s.nan cfg (1 + b)) (rd sp b) ratio) sp

/-- The secondary's spectrum after SP_ISTEREO (rule R207): the primary's old band range times `2 − ratio`. -/
def istereoSecondary (cfg : Config) (s : State) (ratio : F32) (sp other : Vector F32 128) : Vector F32 128 :=
  fillWhere s.ctx.stereoBand
    (fun b => F32.mul (s.nan cfg (129 + b)) (rd sp b) (F32.sub (s.nan cfg 0) F32.two ratio)) other

/-- SP_ISTEREO (rule R207); `c` is the primary. -/
def spIstereo (cfg : Config) (c : Fin 16) (sf : Fin 8) (s : State) : Res :=
  let s := s.enterSub 0x33 c sf
  match secondaryOf c with
  | none => .refused .noSecondaryChannel
  | some d =>
    let k := s.chan c
    let m := s.chan d
    let ratio := cfg.tIntensity m.intensity[sf].toNat
    .done (((s.setChan c { k with spectra := istereoPrimary cfg s ratio k.spectra }).setChan d
      { m with spectra := istereoSecondary cfg s ratio k.spectra m.spectra }).drew 257)

/-- SP_MSSTEREO (rule R209); `c` is the primary. The sum or difference is rounded before the multiplication. -/
def spMsstereo (cfg : Config) (c : Fin 16) (s : State) : Res :=
  let s := s.enterChan 0x34 c
  match secondaryOf c with
  | none => .refused .noSecondaryChannel
  | some d =>
    let k := s.chan c
    let m := s.chan d
    let l b := rd k.spectra b
    let r b := rd m.spectra b
    let mid b := F32.mul (s.nan cfg (4 * b)) (F32.add (s.nan cfg (4 * b + 1)) (l b) (r b)) F32.sqrtHalf
    let side b := F32.mul (s.nan cfg (4 * b + 2)) (F32.sub (s.nan cfg (4 * b + 3)) (l b) (r b)) F32.sqrtHalf
    .done (((s.setChan c { k with spectra := fillWhere s.ctx.stereoBand mid k.spectra }).setChan d
      { m with spectra := fillWhere s.ctx.stereoBand side m.spectra }).drew 512)

/-- The meaning of SP_DEQUANT. -/
def execSpDequant (c : Fin 16) (s : State) : Host.Outcome State Fault Refusal :=
  (alone Config.hw stageReach (fun mv => spDequant Config.hw mv c) s).outcome Config.hw
/-- The meaning of SP_NOISE. -/
def execSpNoise (c : Fin 16) (s : State) : Host.Outcome State Fault Refusal :=
  (spNoise Config.hw c s).outcome Config.hw
/-- The meaning of SP_HFR. -/
def execSpHfr (c : Fin 16) (s : State) : Host.Outcome State Fault Refusal :=
  (spHfr Config.hw c s).outcome Config.hw
/-- The meaning of SP_ISTEREO. -/
def execSpIstereo (c : Fin 16) (sf : Fin 8) (s : State) : Host.Outcome State Fault Refusal :=
  (spIstereo Config.hw c sf s).outcome Config.hw
/-- The meaning of SP_MSSTEREO. -/
def execSpMsstereo (c : Fin 16) (s : State) : Host.Outcome State Fault Refusal :=
  (spMsstereo Config.hw c s).outcome Config.hw

end Sys2Proof.Machine
end

