-- ==== Sys2Proof/Machine/Controller.lean ====
section
/-! DEFINITION. The controller sequences (45_controller_and_host.md rules R240, R241), the five host commands, and the
host's register read. A command is one atomic step (rule R260, log entry 1). -/

namespace Sys2Proof.Machine

/-- A stage, a micro-operation or a chunk over the moves `mv` of the cursor. A host command is never run inside another
(60_exceptions.md rule R278, 93_implementation_defined.md U8). -/
def stageBy (cfg : Config) (mv : Moves) (i : Instr) (s : State) : Res :=
  match i with
  | .openStream _ => .refused .commandInsideCommand
  | .setKey _ => .refused .commandInsideCommand
  | .decodeFrame _ => .refused .commandInsideCommand
  | .readSamples16 => .refused .commandInsideCommand
  | .resetStream => .refused .commandInsideCommand
  | .bcWrap b l p => bcWrap b l p s
  | .bcPeek n => bcPeek n s
  | .bcRead n => bcRead mv n s
  | .bcSkip d => bcSkip mv d s
  | .hdProlog => hdProlog cfg s
  | .hdFmt => hdFmt s
  | .hdComp => hdComp s
  | .hdDec => hdDec s
  | .hdVbr => hdVbr s
  | .hdAth => hdAth s
  | .hdLoop => hdLoop s
  | .hdCiph => hdCiph s
  | .hdRva => hdRva s
  | .hdComm => hdComm s
  | .hdPad => hdPad s
  | .hdValidate => hdValidate s
  | .hdDerive => hdDerive cfg s
  | .hdChantype => hdChantype s
  | .frChecklen => frChecklen s
  | .frSync => frSync s
  | .frChecksum => frChecksum cfg s
  | .frDecrypt => frDecrypt s
  | .frNoiselevel => frNoiselevel mv s
  | .frScale c => frScale mv c s
  | .frIntensity c => frIntensity mv c s
  | .frResolution c => frResolution cfg c s
  | .frGain c => frGain cfg c s
  | .spDequant c => spDequant cfg mv c s
  | .spNoise c => spNoise cfg c s
  | .spHfr c => spHfr cfg c s
  | .spIstereo c sf => spIstereo cfg c sf s
  | .spMsstereo c => spMsstereo cfg c s
  | .imPass1 c => imPass1 cfg c s
  | .imPass2 c => imPass2 cfg c s
  | .imWindow c sf => imWindow cfg c sf s

/-- What the controller runs inside a command, where "`pos` is never negative and never reaches 2^31" (40_bitcursor.md
rule R108): plain moves. -/
def stageMeaning (cfg : Config) (i : Instr) (s : State) : Res := stageBy cfg .plain i s

/-- A list of stages in order, left at the first that is not done (60_exceptions.md rule R272). -/
def runStages (cfg : Config) : List Instr → State → Res
  | [], s => .done s
  | i :: is, s => (stageMeaning cfg i s).andThen (runStages cfg is)

/-- The stages of OPEN_STREAM behind the choice of comp or dec (rule R240). -/
def headerTail : List Instr :=
  [.hdVbr, .hdAth, .hdLoop, .hdCiph, .hdRva, .hdComm, .hdPad, .hdValidate, .hdDerive, .hdChantype]

/-- The sequence of OPEN_STREAM (rule R240). -/
def openSequence (cfg : Config) (s : State) : Res :=
  ((((stageMeaning cfg .hdProlog s).andThen rewrapHeader).andThen (stageMeaning cfg .hdFmt)).andThen
    compOrDec).andThen (runStages cfg headerTail)

/-- The frame checks and the noise level (rule R241, first line). -/
def frameChecks : List Instr := [.frChecklen, .frSync, .frChecksum, .frDecrypt, .frNoiselevel]

/-- The four unpacking stages of one channel (42_frame_unpack.md rule R167). -/
def unpackChannel (c : Fin 16) : List Instr := [.frScale c, .frIntensity c, .frResolution c, .frGain c]

/-- The stereo stages of the pair whose primary is `c`, none when `c` is no primary or has no successor among the live
channels (43_spectral_reconstruct.md rule R206). -/
def stereoPair (s : State) (sf : Fin 8) (c : Fin 16) : List Instr :=
  if 0 < s.ctx.stereo ∧ c.val + 1 < s.ctx.channelCount.toNat ∧ (s.chan c).type = .primary then
    .spIstereo c sf :: (if s.ctx.msStereo = 0 then [.spMsstereo c] else [])
  else []

/-- One subframe (rule R241; 43_spectral_reconstruct.md rule R190: "Each lettered step finishes for all channels before
the next begins"). -/
def subframe (s : State) (sf : Fin 8) : List Instr :=
  s.liveChannels.map .spDequant ++ s.liveChannels.map .spNoise ++ s.liveChannels.map .spHfr ++
  s.liveChannels.flatMap (stereoPair s sf) ++
  s.liveChannels.flatMap fun c => [.imPass1 c, .imPass2 c, .imWindow c sf]

/-- The sequence of DECODE_FRAME (rule R241): every bound is a register fixed at OPEN_STREAM. -/
def frameSequence (s : State) : List Instr :=
  frameChecks ++ s.liveChannels.flatMap unpackChannel ++ (List.finRange 8).flatMap (subframe s)

/-- OPEN_STREAM (rule R245). Whatever the sequence does not write is unspecified afterwards (10_state.md rule R38, log
entry 7). -/
def openStream (cfg : Config) (hdrLen : BitVec 32) (s : State) : Res :=
  if s.hdr.size < hdrLen.toNat then .refused .bufferTooShort
  else (openSequence cfg { s.unspecify cfg with hdrLen := hdrLen }).andThen fun t => .done t.openedStream

/-- SET_KEY (rule R247). -/
def setKey (cfg : Config) (key : BitVec 64) (s : State) : Res :=
  .done (endCommand { s with
    key := key
    cipherTable := if s.valid then cipherTableOf cfg s.ctx.cipherType key else s.cipherTable })

/-- DECODE_FRAME (rule R249). -/
def decodeFrame (cfg : Config) (frmLen : BitVec 32) (s : State) : Res :=
  if !s.streamOpen then .refused .noStream
  else if s.frm.size < frmLen.toNat then .refused .bufferTooShort
  else (runStages cfg (frameSequence s) { s with frmLen := frmLen }).andThen fun t => .done t.decodedFrame

/-- The sample at an index of OUT (20_memory.md rule R53): index `(s×128 + j) × channelCount + c`. -/
def outSample (s : State) (n i : Nat) : BitVec 16 :=
  let x := s.ch.getD (i % n) Channel.reset
  F32.pcm16 (rd (x.wave.getD (i / n / 128) (Vector.replicate 128 0)) (i / n % 128))

/-- READ_SAMPLES16 (rule R252): "changes no state of the block" but OUT and `status`. -/
def readSamples16 (s : State) : Res :=
  if !s.samplesReady then .faulted .samplesNotDecoded
  else
    let n := s.ctx.channelCount.toNat
    .done (endCommand { s with out := Mem.fill (1024 * n) (outSample s n) s.out })

/-- RESET_STREAM (rule R250). -/
def resetStream (s : State) : Res :=
  if !s.streamOpen then .refused .noStream
  else .done (endCommand
    { s.mapLive fun x => { x with prev := Vector.replicate 128 F32.zero } with random := 1 })

/-! The register read of rule R256, a function of the state and no instruction. -/

/-- What the host may read while a stream is open: every StreamContext register of 10_state.md rules R21 to R24 and
`ch[c].type`, `ch[c].codedCount`. -/
structure HostView where
  status : BitVec 3
  ctx : Ctx
  types : List (BitVec 2)
  codedCounts : List (BitVec 8)
deriving DecidableEq, Repr

/-- The host's register read (rule R256): "Between commands, while `valid = 1`". -/
def State.hostView (s : State) : Option HostView :=
  if s.valid then
    some {
      status := s.status.code
      ctx := s.ctx
      types := s.liveChannels.map fun c => (s.chan c).type.code
      codedCounts := s.liveChannels.map fun c => (s.chan c).codedCount }
  else none

/-- The meaning of OPEN_STREAM. -/
def execOpenStream (hdrLen : BitVec 32) (s : State) : Host.Outcome State Fault Refusal :=
  (openStream Config.hw hdrLen s).outcome Config.hw
/-- The meaning of SET_KEY. -/
def execSetKey (key : BitVec 64) (s : State) : Host.Outcome State Fault Refusal :=
  (setKey Config.hw key s).outcome Config.hw
/-- The meaning of DECODE_FRAME. -/
def execDecodeFrame (frmLen : BitVec 32) (s : State) : Host.Outcome State Fault Refusal :=
  (decodeFrame Config.hw frmLen s).outcome Config.hw
/-- The meaning of READ_SAMPLES16. -/
def execReadSamples16 (s : State) : Host.Outcome State Fault Refusal := (readSamples16 s).outcome Config.hw
/-- The meaning of RESET_STREAM. -/
def execResetStream (s : State) : Host.Outcome State Fault Refusal := (resetStream s).outcome Config.hw

end Sys2Proof.Machine
end

