-- ==== Sys2Proof/Machine/Dispatch.lean ====
section
/-! DEFINITION. One arm per instruction: the meaning it has. -/

namespace Sys2Proof.Machine

def exec (i : Instr) (s : State) : Host.Outcome State Fault Refusal :=
  match i with
  | .openStream hdrLen => Sys2Proof.Machine.execOpenStream hdrLen s
  | .setKey key => Sys2Proof.Machine.execSetKey key s
  | .decodeFrame frmLen => Sys2Proof.Machine.execDecodeFrame frmLen s
  | .readSamples16 => Sys2Proof.Machine.execReadSamples16 s
  | .resetStream => Sys2Proof.Machine.execResetStream s
  | .bcWrap buf len p0 => Sys2Proof.Machine.execBcWrap buf len p0 s
  | .bcPeek n => Sys2Proof.Machine.execBcPeek n s
  | .bcRead n => Sys2Proof.Machine.execBcRead n s
  | .bcSkip delta => Sys2Proof.Machine.execBcSkip delta s
  | .hdProlog => Sys2Proof.Machine.execHdProlog s
  | .hdFmt => Sys2Proof.Machine.execHdFmt s
  | .hdComp => Sys2Proof.Machine.execHdComp s
  | .hdDec => Sys2Proof.Machine.execHdDec s
  | .hdVbr => Sys2Proof.Machine.execHdVbr s
  | .hdAth => Sys2Proof.Machine.execHdAth s
  | .hdLoop => Sys2Proof.Machine.execHdLoop s
  | .hdCiph => Sys2Proof.Machine.execHdCiph s
  | .hdRva => Sys2Proof.Machine.execHdRva s
  | .hdComm => Sys2Proof.Machine.execHdComm s
  | .hdPad => Sys2Proof.Machine.execHdPad s
  | .hdValidate => Sys2Proof.Machine.execHdValidate s
  | .hdDerive => Sys2Proof.Machine.execHdDerive s
  | .hdChantype => Sys2Proof.Machine.execHdChantype s
  | .frChecklen => Sys2Proof.Machine.execFrChecklen s
  | .frSync => Sys2Proof.Machine.execFrSync s
  | .frChecksum => Sys2Proof.Machine.execFrChecksum s
  | .frDecrypt => Sys2Proof.Machine.execFrDecrypt s
  | .frNoiselevel => Sys2Proof.Machine.execFrNoiselevel s
  | .frScale c => Sys2Proof.Machine.execFrScale c s
  | .frIntensity c => Sys2Proof.Machine.execFrIntensity c s
  | .frResolution c => Sys2Proof.Machine.execFrResolution c s
  | .frGain c => Sys2Proof.Machine.execFrGain c s
  | .spDequant c => Sys2Proof.Machine.execSpDequant c s
  | .spNoise c => Sys2Proof.Machine.execSpNoise c s
  | .spHfr c => Sys2Proof.Machine.execSpHfr c s
  | .spIstereo c sf => Sys2Proof.Machine.execSpIstereo c sf s
  | .spMsstereo c => Sys2Proof.Machine.execSpMsstereo c s
  | .imPass1 c => Sys2Proof.Machine.execImPass1 c s
  | .imPass2 c => Sys2Proof.Machine.execImPass2 c s
  | .imWindow c sf => Sys2Proof.Machine.execImWindow c sf s

end Sys2Proof.Machine
end

