-- ==== Sys2Proof/Machine/Step.lean ====
section
/-! DEFINITION. One step: the next call of the host queue is issued, decoded and executed (log entries 1, 2). -/

namespace Sys2Proof.Machine

/-- The host hands over a buffer with its call (45_controller_and_host.md rule R243): it replaces the buffer's content and
length. A cursor that wrapped the old content wraps nothing any more (log entry 18). -/
def State.load (s : State) (l : Option (BufId × List Byte)) : State :=
  match l with
  | none => s
  | some (b, bytes) =>
    let t := match b with
      | .hdr => { s with hdr := Buffer.ofBytes bytes }
      | .frm => { s with frm := Buffer.ofBytes bytes }
    if s.cur.buf = some b then { t with cur := { t.cur with buf := none, sizeBits := 0 } } else t

/-- The instruction a call stands for. A chunk is fetched at the cursor: "each syntax element is fetched at `pos`"
(10_state.md rule R35), its word being `peek(32)` (30_encoding.md rule R70). -/
def fetch (s : State) (c : Call) : Except DecodeError Instr :=
  match c.port with
  | .chunk => decode .chunk (be32 (BitVec.ofNat 32 (s.peek 32)))
  | p => decode p c.image

/-- The state in which a call's instruction runs: the call taken off the queue, its buffer handed over. -/
def State.issue (s : State) (c : Call) (rest : List Call) : State := { s with queue := rest }.load c.load

/-- One step. With no call waiting the block idles: "the block starts nothing by itself and waits for a command"
(70_reset_and_hazards.md rule R301). -/
def step (s : State) : Host.Outcome State Fault Refusal :=
  match s.queue with
  | [] => .next s
  | c :: rest =>
    match fetch (s.issue c rest) c with
    | .ok i => exec i (s.issue c rest)
    | .error e => .refused (.undecodable e)

/-- The call that runs an instruction. -/
def callOf (i : Instr) : Call := { port := (encode i).1, image := (encode i).2, load := none }

/-- The longest chunk: comm with 255 characters (30_encoding.md rule R81). -/
def longestChunk : Nat := 260

/-- The state whose next step runs a table word. A command or stage word becomes the next call; a chunk word is stored at
byte 0 of HDR, the zero bits behind it, with the cursor there and the counter allowing it (log entry 2). -/
def State.withFetchWord (s : State) (nbits w : Nat) : State :=
  match tableImage nbits w with
  | some (.chunk, bytes) =>
    { s with
      hdr := Buffer.ofBytes (bytes ++ List.replicate (longestChunk - bytes.length) 0)
      cur := { buf := some .hdr, sizeBits := 8 * longestChunk, pos := 0 }
      remaining := longestChunk
      hdrLen := BitVec.ofNat 32 longestChunk
      queue := { port := .chunk, image := [], load := none } :: s.queue }
  | some (p, bytes) => { s with queue := { port := p, image := bytes, load := none } :: s.queue }
  | none => s

end Sys2Proof.Machine
end

