-- ==== Sys2Proof/Safety.lean ====
section
/-! DEFINITION. The terms the statements are written in: the bits and bytes ahead of the cursor, the chunks and code
symbols of the bitstream as they are built from their fields, the relations between a float and the operation it is
the result of, and the invariants of a run. None of it is used by the machine. -/

namespace Sys2Proof.Machine

/-! Bits and bytes of a buffer, from 00_scope.md rule R12. -/

/-- Stream bit `j`: "bit `7 - (j mod 8)` of byte `B[j div 8]`", counted from the most significant end. -/
def Buffer.streamBit (b : Buffer) (j : Nat) : Bool := (b.byte (j / 8)).getMsbD (j % 8)

/-- `B{p +: n}`: "the sum over k in 0..n-1 of bit(p + k) × 2^(n-1-k)". -/
def Buffer.fieldValue (b : Buffer) (p n : Nat) : Nat :=
  ∑ k ∈ Finset.range n, (b.streamBit (p + k)).toNat * 2 ^ (n - 1 - k)

/-- The value a request of `n` bits at position `p` has (40_bitcursor.md rule R103). -/
def State.requestValue (s : State) (p n : Nat) : Nat :=
  if n = 0 ∨ s.cur.sizeBits < p + n then 0 else s.active.fieldValue p n

/-- The bits of the active buffer from `p` on are `l`, all inside it. -/
def State.bitsAhead (s : State) (p : Nat) (l : List Bool) : Prop :=
  p + l.length ≤ s.cur.sizeBits ∧ ∀ i, i < l.length → s.active.streamBit (p + i) = l.getD i false

/-- The header stream at the cursor is `l`: HDR is wrapped, the cursor is at a byte, all of `l` is inside. -/
def State.headerAhead (s : State) (l : List Byte) : Prop :=
  s.cur.buf = some .hdr ∧ s.cur.pos % 8 = 0 ∧ s.cur.pos + 8 * l.length ≤ s.cur.sizeBits ∧
  ∀ i, i < l.length → s.hdr.byte (s.cur.pos / 8 + i) = l.getD i 0

/-- What the cursor's registers hold (10_state.md rule R35, 40_bitcursor.md rule R108): 8 times a byte length of at most
65535, and a position from 0 to 2^31 - 1. -/
def Cursor.Legal (k : Cursor) : Prop := k.sizeBits % 8 = 0 ∧ k.sizeBits ≤ 524280 ∧ k.pos < 2 ^ 31

/-- The cursor `n` bits further on. -/
def Cursor.advance (k : Cursor) (n : Nat) : Cursor := { k with pos := k.pos + n }

/-- The `n` bits of a number, most significant first. -/
def bitsOf (n v : Nat) : List Bool := (List.range n).map fun k => v.testBit (n - 1 - k)

/-! Header chunks built from their fields (30_encoding.md rules R71 to R82). A tag may be any of its spellings. -/

/-- Twenty-four bits, most significant byte first. -/
def be24 (w : BitVec 24) : List Byte := [w.extractLsb' 16 8, w.extractLsb' 8 8, w.extractLsb' 0 8]

/-- A spelling of a tag: it is the tag after masking each byte with 0x7F. -/
def spells (w tag : BitVec 32) : Prop := w &&& 0x7F7F7F7F#32 = tag

def prologBytes (w : BitVec 32) (version headerSize : BitVec 16) : List Byte :=
  be32 w ++ be16 version ++ be16 headerSize

def fmtBytes (w : BitVec 32) (channelCount : BitVec 8) (sampleRate : BitVec 24) (frameCount : BitVec 32)
    (encoderDelay encoderPadding : BitVec 16) : List Byte :=
  be32 w ++ [channelCount] ++ be24 sampleRate ++ be32 frameCount ++ be16 encoderDelay ++ be16 encoderPadding

def compBytes (w : BitVec 32) (frameSize : BitVec 16)
    (minRes maxRes tracks config total base stereo bphg ms reserved : BitVec 8) : List Byte :=
  be32 w ++ be16 frameSize ++ [minRes, maxRes, tracks, config, total, base, stereo, bphg, ms, reserved]

def decBytes (w : BitVec 32) (frameSize : BitVec 16) (minRes maxRes total base : BitVec 8)
    (tracks config : BitVec 4) (stereoType : BitVec 8) : List Byte :=
  be32 w ++ be16 frameSize ++ [minRes, maxRes, total, base, tracks ++ config, stereoType]

def vbrBytes (w : BitVec 32) (maxFrameSize noiseLevel : BitVec 16) : List Byte :=
  be32 w ++ be16 maxFrameSize ++ be16 noiseLevel

def athBytes (w : BitVec 32) (athType : BitVec 16) : List Byte := be32 w ++ be16 athType

def loopBytes (w first last : BitVec 32) (startDelay endPadding : BitVec 16) : List Byte :=
  be32 w ++ be32 first ++ be32 last ++ be16 startDelay ++ be16 endPadding

def ciphBytes (w : BitVec 32) (cipherType : BitVec 16) : List Byte := be32 w ++ be16 cipherType

def rvaBytes (w volume : BitVec 32) : List Byte := be32 w ++ be32 volume

def commBytes (w : BitVec 32) (text : List Byte) : List Byte := be32 w ++ [BitVec.ofNat 8 text.length] ++ text

/-- Chunk K is not recognised at the cursor (41_header_parser.md rule R123). -/
def absent (s : State) (tag : BitVec 32) (size : Nat) : Prop :=
  s.remaining < size ∨ BitVec.ofNat 32 (s.requestValue s.cur.pos 32) &&& 0x7F7F7F7F#32 ≠ tag

/-! Headers as a whole. -/

/-- The outcome of a header that raises HeaderInvalid (41_header_parser.md rule R156, 60_exceptions.md rule R272): the
stream is lost, the key and the buffers stay, the controller is idle; everything else may be anything. That a stage run
by itself ends so too, and idle as 0, are the model's choices (log entries 1, 22). -/
def HeaderRejected (s t : State) : Prop :=
  t.valid = false ∧ t.status = .headerInvalid ∧ t.key = s.key ∧ t.hdr = s.hdr ∧ t.frm = s.frm ∧ t.out = s.out ∧
  t.queue = s.queue ∧ t.stage = 0 ∧ t.cur.buf = none

/-- The pairing table of rule R153 by channels per track and channel configuration. -/
def pairTable (cpt config : Nat) : List (Nat × Nat) :=
  match cpt with
  | 2 => [(0, 1)]
  | 3 => [(0, 1)]
  | 4 => (0, 1) :: (if config = 0 then [(2, 3)] else [])
  | 5 => (0, 1) :: (if config ≤ 2 then [(3, 4)] else [])
  | 6 => [(0, 1), (4, 5)]
  | 7 => [(0, 1), (4, 5)]
  | 8 => [(0, 1), (4, 5), (6, 7)]
  | _ => []

/-- Channel `c` is the `side` of a pair of some track (rule R152). -/
def Ctx.inPair (x : Ctx) (side : Nat × Nat → Nat) (c : Nat) : Prop :=
  0 < x.stereoBandCount.toNat ∧ 1 < x.channelCount.toNat / x.trackCount.toNat ∧
  ∃ t, t < x.trackCount.toNat ∧
    ∃ q ∈ pairTable (x.channelCount.toNat / x.trackCount.toNat) x.channelConfig.toNat,
      c = t * (x.channelCount.toNat / x.trackCount.toNat) + side q

/-- The number of HFR groups (rule R148): the quotient rounded up, 0 for a zero divisor. -/
def Ctx.groupCount (x : Ctx) : Nat :=
  if x.bandsPerHfrGroup = 0 then 0
  else (x.totalBandCount.toNat - x.baseBandCount.toNat - x.stereoBandCount.toNat + x.bandsPerHfrGroup.toNat - 1)
    / x.bandsPerHfrGroup.toNat

/-- The band chunk of a header: comp (30_encoding.md rule R74) or dec (rule R75). -/
inductive BandChunk where
  | comp (frameSize : BitVec 16) (minRes maxRes tracks config total base stereo bphg ms reserved : BitVec 8)
  | dec (frameSize : BitVec 16) (minRes maxRes total base : BitVec 8) (tracks config : BitVec 4)
      (stereoType : BitVec 8)
deriving DecidableEq, Repr

def BandChunk.bytes : BandChunk → List Byte
  | .comp fs mn mx tr cf tot b st g ms rs => compBytes 0x636F6D70#32 fs mn mx tr cf tot b st g ms rs
  | .dec fs mn mx tot b tr cf sty => decBytes 0x64656300#32 fs mn mx tot b tr cf sty

/-- The registers a band chunk gives, others kept. -/
def BandChunk.into (x : Ctx) : BandChunk → Ctx
  | .comp fs mn mx tr cf tot b st g ms rs => { x with
      frameSize := fs, minResolution := mn, maxResolution := mx, trackCount := tr, channelConfig := cf
      totalBandCount := tot.setWidth 9, baseBandCount := b.setWidth 9, stereoBandCount := st.setWidth 9
      bandsPerHfrGroup := g, msStereo := ms, reserved := rs, stereoType := 0 }
  | .dec fs mn mx tot b tr cf sty => { x with
      frameSize := fs, minResolution := mn, maxResolution := mx, trackCount := tr.setWidth 8
      channelConfig := cf.setWidth 8, totalBandCount := tot.setWidth 9 + 1
      baseBandCount := if sty = 0 then tot.setWidth 9 + 1 else b.setWidth 9 + 1
      stereoBandCount := if sty = 0 then 0 else tot.setWidth 9 - b.setWidth 9
      bandsPerHfrGroup := 0, msStereo := 0, reserved := 0, stereoType := sty }

/-- A header by its fields: the mandatory chunks, any of the optional chunks a stream can open with, and behind a pad
tag any bytes (30_encoding.md rule R70). -/
structure StreamHeader where
  version : BitVec 16
  channelCount : BitVec 8
  sampleRate : BitVec 24
  frameCount : BitVec 32
  encoderDelay : BitVec 16
  encoderPadding : BitVec 16
  bands : BandChunk
  ath : Option (BitVec 16)
  loop : Option (BitVec 32 × BitVec 32 × BitVec 16 × BitVec 16)
  ciph : Option (BitVec 16)
  rva : Option (BitVec 32)
  comment : Option (List Byte)
  pad : Option (List Byte)
deriving DecidableEq, Repr

namespace StreamHeader

/-- The optional chunks in the fixed order. -/
def optionalBytes (h : StreamHeader) : List Byte :=
  (h.ath.map (athBytes 0x61746800#32)).getD [] ++
  (h.loop.map fun l => loopBytes 0x6C6F6F70#32 l.1 l.2.1 l.2.2.1 l.2.2.2).getD [] ++
  (h.ciph.map (ciphBytes 0x63697068#32)).getD [] ++
  (h.rva.map (rvaBytes 0x72766100#32)).getD [] ++
  (h.comment.map (commBytes 0x636F6D6D#32)).getD [] ++
  (h.pad.map fun junk => be32 0x70616400#32 ++ junk).getD []

/-- What follows the prolog. -/
def chunkBytes (h : StreamHeader) : List Byte :=
  fmtBytes 0x666D7400#32 h.channelCount h.sampleRate h.frameCount h.encoderDelay h.encoderPadding ++
  h.bands.bytes ++ h.optionalBytes

/-- The length of the whole header, the prolog included. -/
def size (h : StreamHeader) : Nat := 8 + h.chunkBytes.length

/-- The header as bytes. -/
def bytes (h : StreamHeader) : List Byte :=
  prologBytes 0x48434100#32 h.version (BitVec.ofNat 16 h.size) ++ h.chunkBytes

/-- The registers the fields and the absent-chunk defaults give (10_state.md rules R22 to R24), before a zero track
count is replaced and the group count is derived; the comment entries are left out. -/
def registers (h : StreamHeader) : Ctx :=
  h.bands.into { Ctx.reset with
    version := h.version
    headerSize := BitVec.ofNat 16 h.size
    channelCount := h.channelCount
    sampleRate := h.sampleRate
    frameCount := h.frameCount
    encoderDelay := h.encoderDelay
    encoderPadding := h.encoderPadding
    athType := h.ath.getD (if h.version.toNat < 0x0200 then 1 else 0)
    loopStartFrame := (h.loop.map fun l => l.1).getD 0
    loopEndFrame := (h.loop.map fun l => l.2.1).getD 0
    loopStartDelay := (h.loop.map fun l => l.2.2.1).getD 0
    loopEndPadding := (h.loop.map fun l => l.2.2.2).getD 0
    loopEnabled := h.loop.isSome
    cipherType := h.ciph.getD 0
    rvaVolume := h.rva.getD 0x3F800000#32
    commentLength := BitVec.ofNat 8 (h.comment.getD []).length }

/-- The registers a successful open leaves. -/
def ctx (h : StreamHeader) : Ctx :=
  let x := h.registers
  { x with trackCount := if x.trackCount = 0 then 1 else x.trackCount
           hfrGroupCount := BitVec.ofNat 8 x.groupCount }

/-- The header is encodable: its size fits the 16-bit field, the comment its 8-bit length. -/
def encodable (h : StreamHeader) : Prop := h.size < 65536 ∧ (h.comment.getD []).length < 256

end StreamHeader

/-! Delta-coded values (30_encoding.md rules R86, R87; 42_frame_unpack.md rules R170, R172). -/

/-- One coded value: a literal behind the sentinel, or a delta field. -/
inductive DeltaSym where
  | literal (v : Nat)
  | delta (d : Nat)
deriving DecidableEq, Repr

/-- Its bits, for delta fields of `dw` bits and literals of `lw` bits: the sentinel is all ones. -/
def DeltaSym.bits (dw lw : Nat) : DeltaSym → List Bool
  | .literal v => List.replicate dw true ++ bitsOf lw v
  | .delta d => bitsOf dw d

/-- The value it codes behind `prev`: "`previous − (sentinel>>1) + delta`". -/
def DeltaSym.value (dw : Nat) (prev : Int) : DeltaSym → Int
  | .literal v => v
  | .delta d => prev - ((2 ^ dw - 1 : Nat) >>> 1 : Nat) + d

/-- A field the encoding has: a literal of `lw` bits, a delta that is not the sentinel. -/
def DeltaSym.encodable (dw lw : Nat) : DeltaSym → Prop
  | .literal v => v < 2 ^ lw
  | .delta d => d < 2 ^ dw - 1

/-- The values of a run of symbols behind `prev`. -/
def deltaValues (dw : Nat) (prev : Int) : List DeltaSym → List Int
  | [] => []
  | y :: ys => y.value dw prev :: deltaValues dw (y.value dw prev) ys

/-- The bits of a run of symbols. -/
def deltaBitsOf (dw lw : Nat) (ys : List DeltaSym) : List Bool := ys.flatMap (DeltaSym.bits dw lw)

/-! A frame as it is coded (42_frame_unpack.md), behind the noise level. -/

/-- The scale block of one channel: `deltaBits` 0; 6 or 7 and literals; 1 to 5, a first value and symbols (rules R168 to
R171). -/
inductive ScaleCode where
  | zeros
  | literals (deltaBits : Nat) (values : List Nat)
  | deltas (deltaBits first : Nat) (rest : List DeltaSym)
deriving DecidableEq, Repr

def ScaleCode.bits : ScaleCode → List Bool
  | .zeros => bitsOf 3 0
  | .literals db vs => bitsOf 3 db ++ vs.flatMap (bitsOf 6)
  | .deltas db first ys => bitsOf 3 db ++ bitsOf 6 first ++ deltaBitsOf db 6 ys

/-- The scale factor it gives coefficient `i`. -/
def ScaleCode.value (i : Nat) : ScaleCode → Nat
  | .zeros => 0
  | .literals _ vs => vs.getD i 0
  | .deltas db first ys => (((first : Int) :: deltaValues db first ys).getD i 0).toNat

/-- A block for `n` coded coefficients, every value in 0..63. -/
def ScaleCode.encodable (n : Nat) : ScaleCode → Prop
  | .zeros => True
  | .literals db vs => (db = 6 ∨ db = 7) ∧ vs.length = n ∧ ∀ v ∈ vs, v < 64
  | .deltas db first ys => 1 ≤ db ∧ db ≤ 5 ∧ first < 64 ∧ ys.length = n - 1 ∧ (∀ y ∈ ys, y.encodable db 6) ∧
      ∀ v ∈ deltaValues db first ys, 0 ≤ v ∧ v < 64

/-- The block behind the scale factors: high-band scales (rule R173) or, for a secondary channel, intensities (rule
R172). `kept` is the flag 15 of an old version, which is not consumed. -/
inductive SideCode where
  | highBands (scales : List Nat)
  | kept
  | sevens
  | literals (values : List Nat)
  | deltas (db first : Nat) (rest : List DeltaSym)
deriving DecidableEq, Repr

/-- Its bits; `old` says that the version is at most 0x0200. -/
def SideCode.bits (old : Bool) : SideCode → List Bool
  | .highBands ss => ss.flatMap (bitsOf 6)
  | .kept => []
  | .sevens => bitsOf 4 15
  | .literals vs => bitsOf 4 (vs.getD 0 0) ++ (if old then [] else bitsOf 2 3) ++ vs.tail.flatMap (bitsOf 4)
  | .deltas db first ys => bitsOf 4 first ++ bitsOf 2 db ++ deltaBitsOf (db + 1) 4 ys

/-- The intensity `i` it leaves, `before` being the one there was. -/
def SideCode.intensity (before i : Nat) : SideCode → Nat
  | .highBands _ => before
  | .kept => if i = 0 then 15 else before
  | .sevens => 7
  | .literals vs => vs.getD i 0
  | .deltas db first ys => (((first : Int) :: deltaValues (db + 1) first ys).getD i 0).toNat

/-- The high-band scale `g` it leaves. -/
def SideCode.highBand (before g : Nat) : SideCode → Nat
  | .highBands ss => ss.getD g before
  | .kept => before
  | .sevens => before
  | .literals _ => before
  | .deltas _ _ _ => before

/-- A block for a channel, `behind` being the bits that follow it. -/
def SideCode.encodable (secondary old : Bool) (groups : Nat) (behind : List Bool) : SideCode → Prop
  | .highBands ss => secondary = false ∧ ss.length = groups ∧ ∀ v ∈ ss, v < 64
  | .kept => secondary = true ∧ old = true ∧ behind.take 4 = [true, true, true, true]
  | .sevens => secondary = true ∧ old = false
  | .literals vs => secondary = true ∧ vs.length = 8 ∧ vs.getD 0 0 < 15 ∧ ∀ v ∈ vs, v < 16
  | .deltas db first ys => secondary = true ∧ old = false ∧ db < 3 ∧ first < 15 ∧ ys.length = 7 ∧
      (∀ y ∈ ys, y.encodable (db + 1) 4) ∧ ∀ v ∈ deltaValues (db + 1) first ys, 0 ≤ v ∧ v ≤ 15

/-- What a frame holds for one channel in front of its coefficient codes. -/
structure ChannelCode where
  scale : ScaleCode
  side : SideCode
deriving DecidableEq, Repr

/-- The version is at most 0x0200. -/
def State.oldVersion (s : State) : Bool := s.ctx.version.toNat ≤ 0x0200

/-- The bits of the channels' codes in channel order. -/
def State.codeBits (s : State) (codes : List ChannelCode) : List Bool :=
  codes.flatMap fun k => k.scale.bits ++ k.side.bits s.oldVersion

/-- The codes fit the channels from `c` on, `behind` being the bits that follow the last one. -/
def State.codesFit (s : State) : Nat → List ChannelCode → List Bool → Prop
  | _, [], _ => True
  | c, k :: ks, behind =>
    (∀ d : Fin 16, d.val = c → k.scale.encodable (s.chan d).codedCount.toNat ∧
      k.side.encodable ((s.chan d).type == .secondary) s.oldVersion s.ctx.hfrGroupCount.toNat
        (s.codeBits ks ++ behind)) ∧
    s.codesFit (c + 1) ks behind

/-- A delta-coded block with a value outside its range: scale factors (rule R170), or the intensities of a secondary
channel behind its scale block, under a version above 0x0200 (rule R172). -/
inductive BadBlock where
  | scale (deltaBits first : Nat) (rest : List DeltaSym)
  | intensity (scale : ScaleCode) (db first : Nat) (rest : List DeltaSym)
deriving DecidableEq, Repr

/-- Its bits, those of the channel's scale block included. -/
def BadBlock.bits : BadBlock → List Bool
  | .scale db first ys => (ScaleCode.deltas db first ys).bits
  | .intensity k db first ys => k.bits ++ (SideCode.deltas db first ys).bits false

/-- The result it is (60_exceptions.md rule R271). -/
def BadBlock.error : BadBlock → Status
  | .scale _ _ _ => .invalidScaleFactor
  | .intensity _ _ _ _ => .invalidIntensity

/-- A block for channel `c`, some value of it outside 0..63, or 0..15. -/
def State.badFits (s : State) (c : Fin 16) : BadBlock → Prop
  | .scale db first ys => 1 ≤ db ∧ db ≤ 5 ∧ first < 64 ∧ ys.length = (s.chan c).codedCount.toNat - 1 ∧
      (∀ y ∈ ys, y.encodable db 6) ∧ ∃ v ∈ deltaValues db first ys, v < 0 ∨ 64 ≤ v
  | .intensity k db first ys => k.encodable (s.chan c).codedCount.toNat ∧ (s.chan c).type = .secondary ∧
      s.oldVersion = false ∧ db < 3 ∧ first < 15 ∧ ys.length = 7 ∧ (∀ y ∈ ys, y.encodable (db + 1) 4) ∧
      ∃ v ∈ deltaValues (db + 1) first ys, v < 0 ∨ 15 < v

/-- Stream bit `j` of the frame once it is decrypted (42_frame_unpack.md rule R165). -/
def State.clearBit (s : State) (j : Nat) : Bool := (tableByte s.cipherTable (s.frm.byte (j / 8))).getMsbD (j % 8)

/-! Results of float operations, up to the NaN that is drawn (00_scope.md rule R14). -/

/-- `r = a *f b` for some drawn NaN. -/
def IsProduct (r a b : F32) : Prop := ∃ nan : F32, nan.isNaN = true ∧ r = F32.mul nan a b

/-- `r = a +f b` for some drawn NaN. -/
def IsSum (r a b : F32) : Prop := ∃ nan : F32, nan.isNaN = true ∧ r = F32.add nan a b

/-- `r = a −f b` for some drawn NaN. -/
def IsDifference (r a b : F32) : Prop := ∃ nan : F32, nan.isNaN = true ∧ r = F32.sub nan a b

/-- The exact value of a finite pattern. -/
def floatValue (x : F32) : ℚ := x.sval / 2 ^ 149

/-- `r` is `v` rounded to nearest, ties to even; from half a unit above the largest finite value on, an infinity. -/
def IsRounded (r : F32) (v : ℚ) : Prop :=
  if |v| < 2 ^ 128 - 2 ^ 103 then
    r.isFinite = true ∧
    ∀ y : F32, y.isFinite = true → |floatValue r - v| ≤ |floatValue y - v| ∧
      (|floatValue y - v| = |floatValue r - v| → floatValue y ≠ floatValue r → r.frac % 2 = 0)
  else r = F32.inf (v < 0)

/-- Entry `i` of a register file. -/
def entry {w n : Nat} (v : Vector (BitVec w) n) (i : Nat) : BitVec w := v.getD i 0

/-! Ends of commands and the order of a frame's stages. -/

/-- A command or a raising stage has ended with a result: `status` is it, the controller is idle, no buffer is wrapped
(60_exceptions.md rule R272, 45_controller_and_host.md rule R243, 20_memory.md rule R50). The counters' 0, the length 0
and the position kept are the model's choices, and so is that a stage run by itself ends like a command (log entries 1,
18, 22). -/
def State.endedWith (s : State) (e : Status) : State :=
  { s with status := e, stage := 0, sf := 0, c := 0, cur := { buf := none, sizeBits := 0, pos := s.cur.pos } }

/-- The live channels, ascending (10_state.md rule R20). -/
def State.live (s : State) : List (Fin 16) := (List.finRange 16).filter fun c => c.val < s.ctx.channelCount.toNat

/-- The stages of the first two lines of 45_controller_and_host.md rule R241. -/
def State.unpackStages (s : State) : List Instr :=
  [.frChecklen, .frSync, .frChecksum, .frDecrypt, .frNoiselevel] ++
  s.live.flatMap fun c => [.frScale c, .frIntensity c, .frResolution c, .frGain c]

/-- The stages of one subframe of rule R241, the stereo stages being those of 43_spectral_reconstruct.md rule R206. -/
def State.subframeStages (s : State) (sf : Fin 8) : List Instr :=
  s.live.map .spDequant ++ s.live.map .spNoise ++ s.live.map .spHfr ++
  (s.live.filter fun c => 0 < s.ctx.stereoBandCount.toNat && c.val + 1 < s.ctx.channelCount.toNat &&
      (s.chan c).type == .primary).flatMap
    (fun c => if s.ctx.msStereo = 0 then [.spIstereo c sf, .spMsstereo c] else [.spIstereo c sf]) ++
  s.live.flatMap fun c => [.imPass1 c, .imPass2 c, .imWindow c sf]

/-- The whole sequence of rule R241. -/
def State.frameStages (s : State) : List Instr :=
  s.unpackStages ++ (List.finRange 8).flatMap s.subframeStages


/-- Instructions run one after another, up to the first that leaves a status other than OK (60_exceptions.md rule R272:
"no later stage of the command runs"). -/
def runUntilError : List Instr → State → Host.Outcome State Fault Refusal
  | [], s => .next s
  | i :: is, s =>
    match exec i s with
    | .next t => if t.status = .ok then runUntilError is t else .next t
    | .fault f => .fault f
    | .refused r => .refused r

/-! Invariants. -/

/-- The memories are in canonical form, the cursor's registers are in their ranges, and it wraps no more than its buffer
holds (10_state.md rule R35, 40_bitcursor.md rule R108, 20_memory.md rule R58). -/
def State.MemoryInv (s : State) : Prop :=
  s.hdr.wf = true ∧ s.frm.wf = true ∧ Mem.wf s.out = true ∧ s.cur.Legal ∧ s.cur.sizeBits ≤ 8 * s.active.size

/-- What a successful OPEN_STREAM leaves in the stream registers (10_state.md rules R22 to R24; 00_scope.md rule R6;
41_header_parser.md rules R141 to R150). -/
structure Ctx.Legal (x : Ctx) : Prop where
  headerSize : 8 ≤ x.headerSize.toNat
  channelCount : 1 ≤ x.channelCount.toNat ∧ x.channelCount.toNat ≤ 16
  sampleRate : 1 ≤ x.sampleRate.toNat ∧ x.sampleRate.toNat ≤ 0x7FFFFF
  frameCount : 0 < x.frameCount.toNat
  frameSize : 8 ≤ x.frameSize.toNat
  resolutionOld : x.version.toNat ≤ 0x0200 → x.minResolution = 1 ∧ x.maxResolution = 15
  resolution : x.minResolution.toNat ≤ x.maxResolution.toNat ∧ x.maxResolution.toNat ≤ 15
  tracks : 1 ≤ x.trackCount.toNat ∧ x.trackCount.toNat ≤ x.channelCount.toNat
  bands : x.totalBandCount.toNat ≤ 128 ∧ x.baseBandCount.toNat + x.stereoBandCount.toNat ≤ x.totalBandCount.toNat
  perGroup : x.bandsPerHfrGroup.toNat ≤ 128
  groups : x.hfrGroupCount.toNat = x.groupCount
  midSide : x.msStereo = 0
  newest : 0 < x.hfrGroupCount.toNat → x.version ≠ Config.hw.vNewest
  vbr : x.vbrMaxFrameSize = 0 ∧ x.vbrNoiseLevel = 0
  cipher : x.cipherType = 0 ∨ x.cipherType = 1 ∨ x.cipherType = 56
  loop : x.loopEnabled = true →
    x.loopStartFrame.toNat ≤ x.loopEndFrame.toNat ∧ x.loopEndFrame.toNat < x.frameCount.toNat

/-- A live channel of an open stream: its coded count follows from its type, and a primary is followed by a live
secondary (10_state.md rule R28; 41_header_parser.md rules R153, R154). -/
def State.ChannelLegal (s : State) (c : Fin 16) : Prop :=
  ((s.chan c).codedCount.toNat = if (s.chan c).type = .secondary then s.ctx.baseBandCount.toNat
      else s.ctx.baseBandCount.toNat + s.ctx.stereoBandCount.toNat) ∧
  ((s.chan c).type = .primary → c.val + 1 < s.ctx.channelCount.toNat ∧
    ∀ d : Fin 16, d.val = c.val + 1 → (s.chan d).type = .secondary)

/-- While a stream is open, its registers and live channels are legal and its cipher table is the one of its type and
the key (10_state.md rule R25). -/
structure State.StreamInv (s : State) : Prop where
  ctx : s.valid = true → s.ctx.Legal
  channels : s.valid = true → ∀ c : Fin 16, c.val < s.ctx.channelCount.toNat → s.ChannelLegal c
  cipher : s.valid = true → ∀ b : Byte,
    tableByte s.cipherTable b = Config.hw.cipherInit s.ctx.cipherType s.key b
  decoded : s.decoded = true → s.valid = true

/-- Only host commands wait: "the host cannot invoke" anything else (40_bitcursor.md rule R100, 45_controller_and_host.md:
"The commands are the only operations a host can invoke"). -/
def State.HostOnly (s : State) : Prop := ∀ k ∈ s.queue, k.port = .command

end Sys2Proof.Machine
end

