-- ==== Sys2Proof/Certificates/Slice0/Obligations.lean ====
section
/-! DEFINITION. The statements for the provers. Each formalises rules of spec/ over the machine whose configuration is
`Config.hw`; a whole next state `{ s with ... }` states the result and the frame at once. `draws`, the model's own
counter of free values, is left open by every statement. -/

open Sys2Proof Sys2Proof.Machine

/-! Encodings and the step. -/

/-- Decoding an encoded well-formed instruction gives it back, whatever bytes follow; so does the stage id of a chunk
instruction (30_encoding.md rules R72, R91, R93). How operands are laid out in bytes is the model's choice (log entry 3). -/
def Obligations.DecodeEncodeAgree : Prop :=
  ∀ (i : Instr) (rest : List Byte), i.wellFormed = true →
    decode (encode i).1 ((encode i).2 ++ rest) = .ok i ∧
    ∀ id, chunkStageId i = some id → decode .stage (id :: rest) = .ok i

/-- Words written out from the tables of rules R72, R91 and R93 decode to the instructions they stand for; the operand
bytes are laid out by the model's choice (log entry 3). -/
def Obligations.SpecWordsDecode : Prop :=
  decode .command [0x01, 0x00, 0x00, 0x00, 0x60] = .ok (.openStream 96) ∧
  decode .command [0x02, 0, 0, 0, 0, 0, 0, 0x30, 0x39] = .ok (.setKey 12345) ∧
  decode .command [0x05] = .ok .resetStream ∧
  decode .chunk [0x48, 0x43, 0x41, 0x00] = .ok .hdProlog ∧
  decode .chunk [0xC8, 0xC3, 0xC1, 0x00] = .ok .hdProlog ∧
  decode .chunk [0x66, 0x6D, 0x74, 0x00] = .ok .hdFmt ∧
  decode .stage [0x05] = .error .unknownStage ∧
  decode .stage [0x03, 9] = .ok (.bcRead 9) ∧
  decode .stage [0x1C] = .ok .hdDerive ∧
  decode .stage [0x25, 15] = .ok (.frScale 15) ∧
  decode .stage [0x34, 2] = .ok (.spMsstereo 2) ∧
  decode .stage [0x42, 3, 7] = .ok (.imWindow 3 7)

/-- A 32-bit word at a chunk position selects a chunk exactly when, each byte masked with 0x7F, it is the chunk's tag
(rules R70, R72): sixteen spellings each, and no other word. -/
def Obligations.TagsSelectChunks : Prop :=
  ∀ (w : BitVec 32) (rest : List Byte),
    (decode .chunk (be32 w ++ rest) = .ok .hdProlog ↔ spells w 0x48434100#32) ∧
    (decode .chunk (be32 w ++ rest) = .ok .hdFmt ↔ spells w 0x666D7400#32) ∧
    (decode .chunk (be32 w ++ rest) = .ok .hdComp ↔ spells w 0x636F6D70#32) ∧
    (decode .chunk (be32 w ++ rest) = .ok .hdDec ↔ spells w 0x64656300#32) ∧
    (decode .chunk (be32 w ++ rest) = .ok .hdVbr ↔ spells w 0x76627200#32) ∧
    (decode .chunk (be32 w ++ rest) = .ok .hdAth ↔ spells w 0x61746800#32) ∧
    (decode .chunk (be32 w ++ rest) = .ok .hdLoop ↔ spells w 0x6C6F6F70#32) ∧
    (decode .chunk (be32 w ++ rest) = .ok .hdCiph ↔ spells w 0x63697068#32) ∧
    (decode .chunk (be32 w ++ rest) = .ok .hdRva ↔ spells w 0x72766100#32) ∧
    (decode .chunk (be32 w ++ rest) = .ok .hdComm ↔ spells w 0x636F6D6D#32) ∧
    (decode .chunk (be32 w ++ rest) = .ok .hdPad ↔ spells w 0x70616400#32) ∧
    ∀ i, decode .chunk (be32 w ++ rest) = .ok i → (encode i).1 = .chunk

/-- A command word with a reserved opcode, 0, 6 or 7, is refused (rule R91; 93_implementation_defined.md U1). -/
def Obligations.ReservedCommandsRefused : Prop :=
  ∀ (s : State) (k : Call) (rest : List Call) (op : Byte) (operands : List Byte),
    s.queue = k :: rest → k.port = .command → k.image = op :: operands → op = 0 ∨ op = 6 ∨ op = 7 →
    step s = .refused (.undecodable .reservedCommand)

/-- A step runs the instruction that the next call's image decodes to, a chunk being fetched at the cursor; the call is
taken off the queue and its buffer handed over first. With no call waiting the block idles (70_reset_and_hazards.md
rule R301). The queue of calls and the unwrapping of a replaced buffer are the model's choice (log entries 2, 18). -/
def Obligations.StepRunsTheDecodedInstruction : Prop :=
  ∀ s : State,
    (s.queue = [] → step s = .next s) ∧
    ∀ (k : Call) (rest : List Call) (i : Instr), s.queue = k :: rest → i.wellFormed = true →
      ((k.port ≠ .chunk → decode k.port k.image = .ok i → step s = exec i (s.issue k rest)) ∧
       (k.port = .chunk →
          decode .chunk (be32 (BitVec.ofNat 32 ((s.issue k rest).requestValue s.cur.pos 32))) = .ok i →
          step s = exec i (s.issue k rest)) ∧
       (k.load = none → s.issue k rest = { s with queue := rest }) ∧
       (∀ bytes, k.load = some (.hdr, bytes) →
          (∀ a, (s.issue k rest).hdr.byte a = bytes.getD a 0) ∧ (s.issue k rest).hdr.size = bytes.length ∧
          { s.issue k rest with hdr := s.hdr, cur := s.cur } = { s with queue := rest } ∧
          (s.issue k rest).cur.pos = s.cur.pos) ∧
       (∀ bytes, k.load = some (.frm, bytes) →
          (∀ a, (s.issue k rest).frm.byte a = bytes.getD a 0) ∧ (s.issue k rest).frm.size = bytes.length ∧
          { s.issue k rest with frm := s.frm, cur := s.cur } = { s with queue := rest } ∧
          (s.issue k rest).cur.pos = s.cur.pos))

/-! Invariants. -/

/-- After power-on reset: no stream is open, the status is OK, the key is 0, the controller is idle, no buffer is
wrapped (70_reset_and_hazards.md rule R301, 10_state.md rule R38), and the invariants hold. -/
def Obligations.ResetState : Prop :=
  State.reset.valid = false ∧ State.reset.status = .ok ∧ State.reset.key = 0 ∧ State.reset.stage = 0 ∧
  State.reset.cur.buf = none ∧ State.reset.MemoryInv ∧ State.reset.StreamInv ∧ State.reset.HostOnly

/-- Every step keeps the memories in canonical form, the wrapped length inside its buffer, and the cursor's position in
0 .. 2^31 - 1 (10_state.md rule R35, 40_bitcursor.md rule R108). That a move beyond gives a free position in that range
is the model's choice (log entry 17). -/
def Obligations.StepKeepsMemoryInv : Prop :=
  ∀ s t : State, s.MemoryInv → step s = .next t → t.MemoryInv

/-- Whatever the host does, an open stream has legal registers, legal channels and the cipher table of its type and
key. -/
def Obligations.HostStepKeepsStreamInv : Prop :=
  ∀ s t : State, s.HostOnly → s.StreamInv → step s = .next t → t.HostOnly ∧ t.StreamInv

/-! BitCursor (40_bitcursor.md). -/

/-- BC_PEEK: the field of `n` bits at the cursor, first bit most significant, 0 for no bit and for a request that does
not fit; nothing else changes; more than 32 bits is refused (rule R103). -/
def Obligations.PeekReturnsTheField : Prop :=
  ∀ (n : Byte) (s : State),
    (n.toNat ≤ 32 → exec (.bcPeek n) s = .next
      { s with stage := 0x02, result := BitVec.ofNat 32 (s.requestValue s.cur.pos n.toNat) }) ∧
    (32 < n.toNat → exec (.bcPeek n) s = .refused .requestTooWide)

/-- BC_READ: peek, then the cursor advances by `n`, also when the request did not fit (rule R104); more than 32 bits is
refused. Beyond 2^31 - 1, which the register of rule R35 cannot hold, the new position is a free value, the model's
choice (log entry 17). -/
def Obligations.ReadReturnsAndAdvances : Prop :=
  ∀ (n : Byte) (s : State),
    (n.toNat ≤ 32 → s.cur.pos + n.toNat < 2 ^ 31 → exec (.bcRead n) s = .next
      { s with stage := 0x03, result := BitVec.ofNat 32 (s.requestValue s.cur.pos n.toNat),
               cur := s.cur.advance n.toNat }) ∧
    (n.toNat ≤ 32 → 2 ^ 31 ≤ s.cur.pos + n.toNat → ∃ p draws : Nat, p < 2 ^ 31 ∧ exec (.bcRead n) s = .next
      { s with stage := 0x03, result := BitVec.ofNat 32 (s.requestValue s.cur.pos n.toNat),
               cur := { s.cur with pos := p }, draws := draws }) ∧
    (32 < n.toNat → exec (.bcRead n) s = .refused .requestTooWide)

/-- BC_SKIP: the cursor moves by a signed bit count, without a bound at the buffer's end; below 0 is refused (rule
R105). Beyond 2^31 - 1 the new position is a free value, the model's choice (log entry 17). -/
def Obligations.SkipMovesTheCursor : Prop :=
  ∀ (delta : BitVec 32) (s : State),
    (∀ p : Nat, (p : Int) = s.cur.pos + delta.toInt →
      (p < 2 ^ 31 → ∃ draws : Nat, exec (.bcSkip delta) s = .next
        { s with stage := 0x04, cur := { s.cur with pos := p }, draws := draws }) ∧
      (2 ^ 31 ≤ p → ∃ q draws : Nat, q < 2 ^ 31 ∧ exec (.bcSkip delta) s = .next
        { s with stage := 0x04, cur := { s.cur with pos := q }, draws := draws })) ∧
    ((s.cur.pos : Int) + delta.toInt < 0 → exec (.bcSkip delta) s = .refused .cursorNegative)

/-- BC_WRAP: the buffer, its length in bits, the initial position (rule R102); a length beyond the buffer is refused
(93_implementation_defined.md U5; log entry 10). -/
def Obligations.WrapSetsTheCursor : Prop :=
  ∀ (b : BufId) (len : BitVec 16) (p0 : Byte) (s : State), p0 = 0 ∨ p0 = 16 →
    (len.toNat ≤ (s.buffer b).size → exec (.bcWrap b len p0) s = .next
      { s with stage := 0x01, cur := { buf := some b, sizeBits := 8 * len.toNat, pos := p0.toNat } }) ∧
    ((s.buffer b).size < len.toNat → exec (.bcWrap b len p0) s = .refused .bufferTooShort)

/-- The laws of rule R107: reading n and then m bits splits what a peek of n + m bits returns; a skip by -1 and a read
of 1 bit reproduce the bit read last. The cursor's registers are in the ranges of rule R35. -/
def Obligations.CursorLaws : Prop :=
  ∀ (s : State) (n m : Byte), s.cur.Legal → n.toNat + m.toNat ≤ 32 →
    s.cur.pos + n.toNat + m.toNat ≤ s.cur.sizeBits →
    ∃ p a b : State,
      exec (.bcPeek (n + m)) s = .next p ∧ exec (.bcRead n) s = .next a ∧ exec (.bcRead m) a = .next b ∧
      a.result.toNat = p.result.toNat / 2 ^ m.toNat ∧ b.result.toNat = p.result.toNat % 2 ^ m.toNat ∧
      p.cur = s.cur ∧ b.cur = s.cur.advance (n.toNat + m.toNat) ∧
      (0 < n.toNat → ∃ u v : State, exec (.bcSkip (-1)) a = .next u ∧ exec (.bcRead 1) u = .next v ∧
        v.result.toNat = a.result.toNat % 2 ∧ v.cur = a.cur)

/-! HeaderParser (41_header_parser.md). -/

/-- HD_PROLOG reads version and header size behind any spelling of the tag, the cursor on the 8 prolog bytes; a short
buffer, another tag or an unaccepted version is HeaderInvalid (rule R121). What an error leaves of cursor and counters
is the model's choice (log entries 1, 18, 22). -/
def Obligations.PrologReadBack : Prop :=
  ∀ (s : State),
    (s.hdrLen.toNat < 8 → ∃ t, exec .hdProlog s = .next t ∧ HeaderRejected s t) ∧
    (8 ≤ s.hdrLen.toNat → 8 ≤ s.hdr.size →
      ∀ (w : BitVec 32) (version headerSize : BitVec 16),
        (∀ i, i < 8 → s.hdr.byte i = (prologBytes w version headerSize).getD i 0) →
        (spells w 0x48434100#32 → Config.hw.versions version = true → exec .hdProlog s = .next
          { s with stage := 0x10, cur := { buf := some .hdr, sizeBits := 64, pos := 64 },
                   ctx := { s.ctx with version := version, headerSize := headerSize } }) ∧
        (¬ spells w 0x48434100#32 ∨ Config.hw.versions version = false →
          ∃ t, exec .hdProlog s = .next t ∧ HeaderRejected s t))

/-- HD_FMT reads its five fields behind any spelling of the tag; an absent fmt chunk is HeaderInvalid (rule R124). What
an error leaves of cursor and counters is the model's choice (log entries 1, 18, 22). -/
def Obligations.FmtReadBack : Prop :=
  ∀ (s : State),
    (absent s 0x666D7400#32 16 → ∃ t, exec .hdFmt s = .next t ∧ HeaderRejected s t) ∧
    ∀ (w : BitVec 32) (channels : BitVec 8) (rate : BitVec 24) (frames : BitVec 32) (delay padding : BitVec 16),
      spells w 0x666D7400#32 → s.headerAhead (fmtBytes w channels rate frames delay padding) → 16 ≤ s.remaining →
      exec .hdFmt s = .next
        { s with stage := 0x11, cur := s.cur.advance 128, remaining := s.remaining - 16,
                 ctx := { s.ctx with channelCount := channels, sampleRate := rate, frameCount := frames,
                                     encoderDelay := delay, encoderPadding := padding } }

/-- HD_COMP reads its eleven fields, zero-extended to their registers, and clears the stereo type (rule R125). -/
def Obligations.CompReadBack : Prop :=
  ∀ (s : State) (w : BitVec 32) (size : BitVec 16)
    (minRes maxRes tracks config total base stereo perGroup ms reserved : BitVec 8),
    spells w 0x636F6D70#32 →
    s.headerAhead (compBytes w size minRes maxRes tracks config total base stereo perGroup ms reserved) →
    16 ≤ s.remaining →
    exec .hdComp s = .next
      { s with stage := 0x12, cur := s.cur.advance 128, remaining := s.remaining - 16,
               ctx := { s.ctx with frameSize := size, minResolution := minRes, maxResolution := maxRes,
                                   trackCount := tracks, channelConfig := config, totalBandCount := total.setWidth 9,
                                   baseBandCount := base.setWidth 9, stereoBandCount := stereo.setWidth 9,
                                   bandsPerHfrGroup := perGroup, msStereo := ms, reserved := reserved,
                                   stereoType := 0 } }

/-- HD_DEC reads its fields, adds 1 to the band fields, takes the total as base when the stereo type is 0, and raises
HeaderInvalid when the base exceeds the total (rule R127). What an error leaves of cursor and counters is the model's
choice (log entries 1, 18, 22). -/
def Obligations.DecReadBack : Prop :=
  ∀ (s : State) (w : BitVec 32) (size : BitVec 16) (minRes maxRes total base : BitVec 8) (tracks config : BitVec 4)
    (stereoType : BitVec 8),
    spells w 0x64656300#32 →
    s.headerAhead (decBytes w size minRes maxRes total base tracks config stereoType) → 12 ≤ s.remaining →
    (stereoType = 0 ∨ base.toNat ≤ total.toNat → ∃ baseBands stereoBands : BitVec 9,
      baseBands.toNat = (if stereoType = 0 then total.toNat + 1 else base.toNat + 1) ∧
      stereoBands.toNat = (if stereoType = 0 then 0 else total.toNat - base.toNat) ∧
      exec .hdDec s = .next
        { s with stage := 0x13, cur := s.cur.advance 96, remaining := s.remaining - 12,
                 ctx := { s.ctx with frameSize := size, minResolution := minRes, maxResolution := maxRes,
                                     totalBandCount := BitVec.ofNat 9 (total.toNat + 1), baseBandCount := baseBands,
                                     stereoBandCount := stereoBands, trackCount := tracks.setWidth 8,
                                     channelConfig := config.setWidth 8, stereoType := stereoType,
                                     bandsPerHfrGroup := 0, msStereo := 0, reserved := 0 } }) ∧
    (stereoType ≠ 0 → total.toNat < base.toNat → ∃ t, exec .hdDec s = .next t ∧ HeaderRejected s t)

/-- The optional chunks with fixed fields: HD_ATH, HD_RVA, and HD_CIPH, whose type must be 0, 1 or 56 (rules R130, R132,
R133). What an error leaves of cursor and counters is the model's choice (log entries 1, 18, 22). -/
def Obligations.AthCiphRvaReadBack : Prop :=
  ∀ (s : State) (w : BitVec 32),
    (∀ type : BitVec 16, spells w 0x61746800#32 → s.headerAhead (athBytes w type) → 6 ≤ s.remaining →
      exec .hdAth s = .next { s with stage := 0x15, cur := s.cur.advance 48, remaining := s.remaining - 6,
                                     ctx := { s.ctx with athType := type } }) ∧
    (∀ type : BitVec 16, spells w 0x63697068#32 → s.headerAhead (ciphBytes w type) → 6 ≤ s.remaining →
      (type.toNat ∈ [0, 1, 56] →
        exec .hdCiph s = .next { s with stage := 0x17, cur := s.cur.advance 48, remaining := s.remaining - 6,
                                        ctx := { s.ctx with cipherType := type } }) ∧
      (type.toNat ∉ [0, 1, 56] → ∃ t, exec .hdCiph s = .next t ∧ HeaderRejected s t)) ∧
    (∀ volume : BitVec 32, spells w 0x72766100#32 → s.headerAhead (rvaBytes w volume) → 8 ≤ s.remaining →
      exec .hdRva s = .next { s with stage := 0x18, cur := s.cur.advance 64, remaining := s.remaining - 8,
                                     ctx := { s.ctx with rvaVolume := volume } })

/-- HD_LOOP: start at most end, end below the frame count, else HeaderInvalid (rule R131). HD_VBR: a frame size of 0 and
a maximum in (8, 0x1FF], else HeaderInvalid (rule R129). What an error leaves of cursor and counters is the model's
choice (log entries 1, 18, 22). -/
def Obligations.LoopVbrReadBack : Prop :=
  ∀ (s : State) (w : BitVec 32),
    (∀ (first last : BitVec 32) (delay padding : BitVec 16), spells w 0x6C6F6F70#32 →
      s.headerAhead (loopBytes w first last delay padding) → 16 ≤ s.remaining →
      (first.toNat ≤ last.toNat ∧ last.toNat < s.ctx.frameCount.toNat →
        exec .hdLoop s = .next
          { s with stage := 0x16, cur := s.cur.advance 128, remaining := s.remaining - 16,
                   ctx := { s.ctx with loopStartFrame := first, loopEndFrame := last, loopStartDelay := delay,
                                       loopEndPadding := padding, loopEnabled := true } }) ∧
      (¬ (first.toNat ≤ last.toNat ∧ last.toNat < s.ctx.frameCount.toNat) →
        ∃ t, exec .hdLoop s = .next t ∧ HeaderRejected s t)) ∧
    (∀ size level : BitVec 16, spells w 0x76627200#32 → s.headerAhead (vbrBytes w size level) → 8 ≤ s.remaining →
      (s.ctx.frameSize = 0 ∧ 8 < size.toNat ∧ size.toNat ≤ 0x1FF →
        exec .hdVbr s = .next
          { s with stage := 0x14, cur := s.cur.advance 64, remaining := s.remaining - 8,
                   ctx := { s.ctx with vbrMaxFrameSize := size, vbrNoiseLevel := level } }) ∧
      (¬ (s.ctx.frameSize = 0 ∧ 8 < size.toNat ∧ size.toNat ≤ 0x1FF) →
        ∃ t, exec .hdVbr s = .next t ∧ HeaderRejected s t))

/-- HD_COMM stores the length and that many characters; entries behind them stay, which is the model's choice (log entry
7); a comment longer than the rest of the header is HeaderInvalid (rule R134). What an error leaves of cursor and
counters is the model's choice (log entries 1, 18, 22). -/
def Obligations.CommReadBack : Prop :=
  ∀ (s : State) (w : BitVec 32) (text : List Byte), spells w 0x636F6D6D#32 → text.length < 256 →
    (s.headerAhead (commBytes w text) → 5 + text.length ≤ s.remaining →
      ∃ comment : Vector Byte 255,
        (∀ i, i < 255 → comment.getD i 0 = if i < text.length then text.getD i 0 else s.ctx.comment.getD i 0) ∧
        exec .hdComm s = .next
          { s with stage := 0x19, cur := s.cur.advance (40 + 8 * text.length),
                   remaining := s.remaining - (5 + text.length),
                   ctx := { s.ctx with commentLength := BitVec.ofNat 8 text.length, comment := comment } }) ∧
    (s.headerAhead (be32 w ++ [BitVec.ofNat 8 text.length]) → 5 ≤ s.remaining → s.remaining < 5 + text.length →
      ∃ t, exec .hdComm s = .next t ∧ HeaderRejected s t)

/-- Where an optional chunk is not recognised, the cursor and the counter stay and its registers take the defaults of
10_state.md rule R24 (rules R123, R129 to R134), the comment's length 0. That HD_COMM then keeps the comment entries,
which R24 leaves unspecified, is the model's choice (log entry 7), as it is that comp and dec run alone change nothing
(log entry 20). HD_PAD never changes anything (rule R135). -/
def Obligations.AbsentChunksTakeDefaults : Prop :=
  ∀ s : State,
    (absent s 0x636F6D70#32 16 → exec .hdComp s = .next { s with stage := 0x12 }) ∧
    (absent s 0x64656300#32 12 → exec .hdDec s = .next { s with stage := 0x13 }) ∧
    (absent s 0x76627200#32 8 → exec .hdVbr s = .next
      { s with stage := 0x14, ctx := { s.ctx with vbrMaxFrameSize := 0, vbrNoiseLevel := 0 } }) ∧
    (absent s 0x61746800#32 6 → exec .hdAth s = .next
      { s with stage := 0x15, ctx := { s.ctx with athType := if s.ctx.version.toNat < 0x0200 then 1 else 0 } }) ∧
    (absent s 0x6C6F6F70#32 16 → exec .hdLoop s = .next
      { s with stage := 0x16, ctx := { s.ctx with loopStartFrame := 0, loopEndFrame := 0, loopStartDelay := 0,
                                                  loopEndPadding := 0, loopEnabled := false } }) ∧
    (absent s 0x63697068#32 6 → exec .hdCiph s = .next
      { s with stage := 0x17, ctx := { s.ctx with cipherType := 0 } }) ∧
    (absent s 0x72766100#32 8 → exec .hdRva s = .next
      { s with stage := 0x18, ctx := { s.ctx with rvaVolume := 0x3F800000 } }) ∧
    (absent s 0x636F6D6D#32 5 → exec .hdComm s = .next
      { s with stage := 0x19, ctx := { s.ctx with commentLength := 0 } }) ∧
    exec .hdPad s = .next { s with stage := 0x1A }

/-- HD_VALIDATE replaces a zero track count by 1 and then checks the documented ranges (rules R141 to R146): all met,
and the precondition of rule R147, nothing else changes; one not met, HeaderInvalid. What an error leaves of cursor and
counters is the model's choice (log entries 1, 18, 22). -/
def Obligations.ValidateChecksRanges : Prop :=
  ∀ (s : State) (tracks : BitVec 8), tracks = (if s.ctx.trackCount = 0 then 1 else s.ctx.trackCount) →
    let ranges : Prop :=
      (1 ≤ s.ctx.channelCount.toNat ∧ s.ctx.channelCount.toNat ≤ 16) ∧
      (1 ≤ s.ctx.sampleRate.toNat ∧ s.ctx.sampleRate.toNat ≤ 0x7FFFFF) ∧ 0 < s.ctx.frameCount.toNat ∧
      8 ≤ s.ctx.frameSize.toNat ∧
      (if s.ctx.version.toNat ≤ 0x0200 then s.ctx.minResolution = 1 ∧ s.ctx.maxResolution = 15
       else s.ctx.maxResolution.toNat ≤ 15 ∧ s.ctx.minResolution.toNat ≤ s.ctx.maxResolution.toNat) ∧
      tracks.toNat ≤ s.ctx.channelCount.toNat ∧
      s.ctx.totalBandCount.toNat ≤ 128 ∧ s.ctx.baseBandCount.toNat ≤ 128 ∧ s.ctx.stereoBandCount.toNat ≤ 128 ∧
      s.ctx.bandsPerHfrGroup.toNat ≤ 128 ∧ s.ctx.baseBandCount.toNat + s.ctx.stereoBandCount.toNat ≤ 128
    (ranges → s.ctx.baseBandCount.toNat + s.ctx.stereoBandCount.toNat ≤ s.ctx.totalBandCount.toNat →
      exec .hdValidate s = .next { s with stage := 0x1B, ctx := { s.ctx with trackCount := tracks } }) ∧
    (¬ ranges → ∃ t, exec .hdValidate s = .next t ∧ HeaderRejected s t)

/-- HD_DERIVE (rules R148 to R151): the group count is the quotient rounded up; the noise curve and the cipher table
come from the collaborators; mid/side streams and HFR groups under the newest version are HeaderInvalid; else the seed
is 1 and every live channel starts with a zero overlap buffer and zero intensities. What an error leaves of cursor and
counters is the model's choice (log entries 1, 18, 22). -/
def Obligations.DeriveInitialises : Prop :=
  ∀ s : State, s.ctx.totalBandCount.toNat ≤ 128 →
    s.ctx.baseBandCount.toNat + s.ctx.stereoBandCount.toNat ≤ s.ctx.totalBandCount.toNat →
    (s.ctx.msStereo = 0 → s.ctx.groupCount = 0 ∨ s.ctx.version ≠ Config.hw.vNewest →
      exec .hdDerive s = .next
        { s with
          stage := 0x1C
          ctx := { s.ctx with hfrGroupCount := BitVec.ofNat 8 s.ctx.groupCount }
          athCurve := Vector.ofFn fun i => Config.hw.noiseCurveInit s.ctx.athType s.ctx.sampleRate i
          cipherTable := Vector.ofFn fun b => Config.hw.cipherInit s.ctx.cipherType s.key (BitVec.ofNat 8 b)
          random := 1
          ch := Vector.ofFn fun c => if c.val < s.ctx.channelCount.toNat
            then { s.chan c with prev := Vector.replicate 128 0, intensity := Vector.replicate 8 0 }
            else s.chan c }) ∧
    (s.ctx.msStereo ≠ 0 ∨ (0 < s.ctx.groupCount ∧ s.ctx.version = Config.hw.vNewest) →
      ∃ t, exec .hdDerive s = .next t ∧ HeaderRejected s t)

/-- HD_CHANTYPE: a live channel is Primary or Secondary exactly where the pairing table says so for its track, else
Discrete; its coded count is base plus stereo, base for a Secondary; nothing else changes (rules R152 to R154). With a
track count of 0, for which rule R152 states no quotient and which HD_VALIDATE never leaves, every live channel is
Discrete: the model's choice (log entry 21). -/
def Obligations.ChannelTypesAssigned : Prop :=
  ∀ s : State, s.ctx.baseBandCount.toNat + s.ctx.stereoBandCount.toNat ≤ 128 →
    ∃ t, exec .hdChantype s = .next t ∧ { t with ch := s.ch, stage := s.stage } = s ∧ t.stage = 0x1D ∧
      ∀ c : Fin 16,
        { t.chan c with type := (s.chan c).type, codedCount := (s.chan c).codedCount } = s.chan c ∧
        (s.ctx.channelCount.toNat ≤ c.val → t.chan c = s.chan c) ∧
        (c.val < s.ctx.channelCount.toNat →
          ((t.chan c).type = .primary ↔ s.ctx.inPair (·.1) c.val) ∧
          ((t.chan c).type = .secondary ↔ s.ctx.inPair (·.2) c.val) ∧
          (t.chan c).codedCount.toNat = if (t.chan c).type = .secondary then s.ctx.baseBandCount.toNat
            else s.ctx.baseBandCount.toNat + s.ctx.stereoBandCount.toNat)

/-- A header built from its fields opens: every field reads back, absent chunks have their defaults, the derived
registers, channel types, cipher table, noise curve and initial decode state are as rules R148 to R155 give them; the
key and the buffers stay (D0 section 8, "header round-trip"; 45_controller_and_host.md rules R240, R245). -/
def Obligations.BuiltHeaderOpens : Prop :=
  ∀ (h : StreamHeader) (s : State) (hdrLen : BitVec 32),
    h.encodable → h.ctx.Legal → Config.hw.versions h.version = true →
    h.size ≤ hdrLen.toNat → hdrLen.toNat ≤ s.hdr.size →
    (∀ i, i < h.size → s.hdr.byte i = h.bytes.getD i 0) →
    ∃ t, exec (.openStream hdrLen) s = .next t ∧ t.valid = true ∧ t.status = .ok ∧ t.key = s.key ∧
      { t.ctx with comment := h.ctx.comment } = h.ctx ∧
      (∀ i, i < (h.comment.getD []).length → t.ctx.comment.getD i 0 = (h.comment.getD []).getD i 0) ∧
      (∀ b, tableByte t.cipherTable b = Config.hw.cipherInit h.ctx.cipherType s.key b) ∧
      (∀ i, i < 128 → t.athCurve.getD i 0 = Config.hw.noiseCurveInit h.ctx.athType h.ctx.sampleRate i) ∧
      t.random = 1 ∧
      (∀ c : Fin 16, c.val < h.ctx.channelCount.toNat →
        (t.chan c).prev = Vector.replicate 128 0 ∧ (t.chan c).intensity = Vector.replicate 8 0 ∧
        ((t.chan c).type = .primary ↔ h.ctx.inPair (·.1) c.val) ∧
        ((t.chan c).type = .secondary ↔ h.ctx.inPair (·.2) c.val) ∧
        (t.chan c).codedCount.toNat = if (t.chan c).type = .secondary then h.ctx.baseBandCount.toNat
          else h.ctx.baseBandCount.toNat + h.ctx.stereoBandCount.toNat) ∧
      t.hdr = s.hdr ∧ t.frm = s.frm ∧ t.out = s.out ∧ t.queue = s.queue ∧ t.stage = 0 ∧ t.cur.buf = none

/-! FrameDecoder, steps 0 to 5 (42_frame_unpack.md). -/

/-- FR_CHECKLEN: a buffer shorter than the frame size is ShortBuffer, before any access; else nothing changes (rule
R161). What an error leaves of cursor and counters is the model's choice (log entries 1, 18, 22). -/
def Obligations.CheckLength : Prop :=
  ∀ s : State,
    (s.ctx.frameSize.toNat ≤ s.frmLen.toNat → exec .frChecklen s = .next { s with stage := 0x20 }) ∧
    (s.frmLen.toNat < s.ctx.frameSize.toNat → exec .frChecklen s = .next (s.endedWith .shortBuffer))

/-- FR_SYNC wraps the frame and reads 16 bits: 0xFFFF, or SyncError (rule R162). Over a buffer shorter than the frame
the wrap is refused (93_implementation_defined.md U5; the model's choice, log entry 10). What an error leaves of cursor
and counters is the model's choice (log entries 1, 18, 22). -/
def Obligations.SyncWord : Prop :=
  ∀ s : State,
    (s.ctx.frameSize.toNat ≤ s.frm.size →
      let cursor : Cursor := { buf := some .frm, sizeBits := 8 * s.ctx.frameSize.toNat, pos := 16 }
      (2 ≤ s.ctx.frameSize.toNat ∧ s.frm.byte 0 = 0xFF ∧ s.frm.byte 1 = 0xFF →
        exec .frSync s = .next { s with stage := 0x21, cur := cursor }) ∧
      (¬ (2 ≤ s.ctx.frameSize.toNat ∧ s.frm.byte 0 = 0xFF ∧ s.frm.byte 1 = 0xFF) →
        exec .frSync s = .next (State.endedWith { s with cur := cursor } .syncError))) ∧
    (s.frm.size < s.ctx.frameSize.toNat → exec .frSync s = .refused .bufferTooShort)

/-- FR_CHECKSUM gives the primitive the raw `frameSize` bytes; a non-zero result is ChecksumError (rule R163). Which
bytes the primitive accepts is open (00_scope.md rule R9). Over a shorter buffer the access does not exist (20_memory.md
rule R50): a fault, the model's choice (log entry 10). What an error leaves of cursor and counters is the model's choice
(log entries 1, 18, 22). -/
def Obligations.FrameChecksum : Prop :=
  ∀ s : State,
    (s.ctx.frameSize.toNat ≤ s.frm.size → exec .frChecksum s = .next
      (if Config.hw.checksumFrame ((List.range s.ctx.frameSize.toNat).map s.frm.byte) = 0 then { s with stage := 0x22 }
       else s.endedWith .checksumError)) ∧
    (s.frm.size < s.ctx.frameSize.toNat → exec .frChecksum s = .fault .addressOutsideBuffer)

/-- FR_DECRYPT replaces each of the first `frameSize` bytes by its entry of the cipher table, leaves every other byte,
and re-wraps behind the sync word (rule R165, 20_memory.md rule R52). Over a shorter buffer it faults, the model's
choice (log entry 10). -/
def Obligations.DecryptSubstitutes : Prop :=
  ∀ s : State,
    (s.ctx.frameSize.toNat ≤ s.frm.size → ∃ f : Buffer, f.size = s.frm.size ∧
      (∀ a, f.byte a = if a < s.ctx.frameSize.toNat then s.cipherTable.getD (s.frm.byte a).toNat 0 else s.frm.byte a) ∧
      exec .frDecrypt s = .next
        { s with stage := 0x23, frm := f,
                 cur := { buf := some .frm, sizeBits := 8 * s.ctx.frameSize.toNat, pos := 16 } }) ∧
    (s.frm.size < s.ctx.frameSize.toNat → exec .frDecrypt s = .fault .addressOutsideBuffer)

/-- FR_NOISELEVEL: `(noiseLevel << 8) - boundary`, a signed integer, from 9 and 7 bits (rule R166). Where a read moves
the cursor beyond 2^31 - 1, its position, and a boundary read from it, are free values, the model's choice (log entry
17). -/
def Obligations.NoiseLevelPacked : Prop :=
  ∀ s : State, ∃ boundary p draws : Nat, boundary < 128 ∧ p < 2 ^ 31 ∧
    (s.cur.pos + 9 < 2 ^ 31 → boundary = s.requestValue (s.cur.pos + 9) 7) ∧
    (s.cur.pos + 16 < 2 ^ 31 → p = s.cur.pos + 16) ∧
    exec .frNoiselevel s = .next
      { s with stage := 0x24, cur := { s.cur with pos := p }, draws := draws,
               packedNoiseLevel := (s.requestValue s.cur.pos 9 : Int) <<< (8 : Nat) - boundary }

/-- FR_SCALE without deltas: `deltaBits` 6 or 7 announces one 6-bit literal per coded coefficient, 0 makes every scale
factor 0 without reading further (rules R168, R169, R171). Entries behind the coded ones stay, the model's choice (log
entry 26). Where a read moves the cursor beyond 2^31 - 1, its position, and literals read from it, are free values, the
model's choice (log entry 17). -/
def Obligations.ScaleLiteralsAndZeros : Prop :=
  ∀ (c : Fin 16) (s : State),
    let n := (s.chan c).codedCount.toNat
    (6 ≤ s.requestValue s.cur.pos 3 → ∃ (scale : Vector (BitVec 6) 128) (p draws : Nat),
      (∀ i, i < 128 → if i < n
        then s.cur.pos + 3 + 6 * i < 2 ^ 31 → entry scale i = BitVec.ofNat 6 (s.requestValue (s.cur.pos + 3 + 6 * i) 6)
        else entry scale i = entry (s.chan c).scale i) ∧
      p < 2 ^ 31 ∧ (s.cur.pos + (3 + 6 * n) < 2 ^ 31 → p = s.cur.pos + (3 + 6 * n)) ∧
      exec (.frScale c) s = .next
        { s with stage := 0x25, c := c, cur := { s.cur with pos := p }, draws := draws,
                 ch := s.ch.set c { s.chan c with scale := scale } }) ∧
    (s.requestValue s.cur.pos 3 = 0 → ∃ p draws : Nat,
      p < 2 ^ 31 ∧ (s.cur.pos + 3 < 2 ^ 31 → p = s.cur.pos + 3) ∧
      exec (.frScale c) s = .next
        { s with stage := 0x25, c := c, cur := { s.cur with pos := p }, draws := draws,
                 ch := s.ch.set c { s.chan c with scale := Vector.ofFn (fun i : Fin 128 =>
                   if i.val < n then 0 else (s.chan c).scale[i]) } })

/-- FR_SCALE with deltas, `deltaBits` 1 to 5: the symbols ahead are a first literal and then, for each further coded
coefficient, a delta or a sentinel with a literal; each value is stored; one that leaves 0..63 is InvalidScaleFactor
(rules R168, R170), everything but this channel's scale file and the ended controller as before. Entries behind the
coded ones stay, the model's choice (log entry 26). The cursor's registers are in the ranges of rule R35. From any
position, whatever bits are read, the stage answers a next state: it goes on or ends as InvalidScaleFactor, with nothing
changed but this channel's scale file, the cursor and the counters; positions beyond 2^31 - 1 are free values, the
model's choice (log entry 17). What an error leaves of cursor and counters is the model's choice (log entries 1, 18,
22). -/
def Obligations.ScaleDeltas : Prop :=
  ∀ (c : Fin 16) (s : State),
    (∀ (db first : Nat) (ys : List DeltaSym), s.cur.Legal →
      1 ≤ db → db ≤ 5 → first < 64 → (s.chan c).codedCount.toNat ≤ 128 →
      ys.length = (s.chan c).codedCount.toNat - 1 → (∀ y ∈ ys, y.encodable db 6) →
      s.bitsAhead s.cur.pos (bitsOf 3 db ++ bitsOf 6 first ++ deltaBitsOf db 6 ys) →
      let values := deltaValues db first ys
      ((∀ v ∈ values, 0 ≤ v ∧ v < 64) → ∃ scale : Vector (BitVec 6) 128,
        (∀ i, i < 128 → (entry scale i).toNat =
          if i < (s.chan c).codedCount.toNat then (((first : Int) :: values).getD i 0).toNat
          else (entry (s.chan c).scale i).toNat) ∧
        exec (.frScale c) s = .next
          { s with stage := 0x25, c := c, cur := s.cur.advance (9 + (deltaBitsOf db 6 ys).length),
                   ch := s.ch.set c { s.chan c with scale := scale } }) ∧
      ((∃ v ∈ values, v < 0 ∨ 64 ≤ v) → ∃ (pos : Nat) (scale : Vector (BitVec 6) 128),
        exec (.frScale c) s = .next (State.endedWith
          { s with cur := { s.cur with pos := pos }, ch := s.ch.set c { s.chan c with scale := scale } }
          .invalidScaleFactor))) ∧
    (s.cur.pos < 2 ^ 31 → ∃ t, exec (.frScale c) s = .next t ∧ t.cur.pos < 2 ^ 31 ∧
      (t.status = s.status ∨ t.status = .invalidScaleFactor) ∧
      { t with cur := s.cur, ch := s.ch, stage := s.stage, c := s.c, sf := s.sf, status := s.status,
               draws := s.draws } = s ∧
      ∀ d, { t.chan d with scale := (s.chan d).scale } = s.chan d ∧ (d ≠ c → t.chan d = s.chan d))

/-- FR_INTENSITY of a secondary channel without deltas (rule R172). Version at most 0x0200: a flag below 15 is the
first value, seven literals follow; a flag of 15 is stored and not consumed, the other seven values stay. Above: 15
is consumed and makes all values 7; below 15, a 2-bit field of 3 announces seven literals. The cursor's registers are in
the ranges of rule R35. Where a read moves it beyond 2^31 - 1, its position, and literals read from it, are free values,
the model's choice (log entry 17). -/
def Obligations.IntensityLiterals : Prop :=
  ∀ (c : Fin 16) (s : State), s.cur.Legal → (s.chan c).type = .secondary →
    let v := s.requestValue s.cur.pos 4
    let literals : Vector (BitVec 4) 8 := Vector.ofFn fun i =>
      BitVec.ofNat 4 (if i.val = 0 then v else s.requestValue (s.cur.pos + 6 + 4 * (i.val - 1)) 4)
    (s.ctx.version.toNat ≤ 0x0200 →
      (v < 15 → ∃ (intensity : Vector (BitVec 4) 8) (p draws : Nat),
        (∀ i, i < 8 → s.cur.pos + 4 * i < 2 ^ 31 →
          entry intensity i = BitVec.ofNat 4 (s.requestValue (s.cur.pos + 4 * i) 4)) ∧
        p < 2 ^ 31 ∧ (s.cur.pos + 32 < 2 ^ 31 → p = s.cur.pos + 32) ∧
        exec (.frIntensity c) s = .next
          { s with stage := 0x26, c := c, cur := { s.cur with pos := p }, draws := draws,
                   ch := s.ch.set c { s.chan c with intensity := intensity } }) ∧
      (v = 15 → exec (.frIntensity c) s = .next
        { s with stage := 0x26, c := c,
                 ch := s.ch.set c { s.chan c with intensity := (s.chan c).intensity.set 0 15 } })) ∧
    (0x0200 < s.ctx.version.toNat →
      (v = 15 → exec (.frIntensity c) s = .next
        { s with stage := 0x26, c := c, cur := s.cur.advance 4,
                 ch := s.ch.set c { s.chan c with intensity := Vector.replicate 8 7 } }) ∧
      (v < 15 → s.requestValue (s.cur.pos + 4) 2 = 3 → exec (.frIntensity c) s = .next
        { s with stage := 0x26, c := c, cur := s.cur.advance 34,
                 ch := s.ch.set c { s.chan c with intensity := literals } }))

/-- FR_INTENSITY of a secondary channel with deltas, version above 0x0200, `db` below 3: fields of `db + 1` bits, a
value that leaves 0..15 is InvalidIntensity (rule R172). The cursor's registers are in the ranges of rule R35. From any
position, whatever bits are read, FR_INTENSITY of any channel answers a next state (rules R172, R173): it goes on, or
under such a version ends a secondary channel as InvalidIntensity, with nothing changed but the file of the channel's
type, the cursor and the counters; positions beyond 2^31 - 1 are free values, the model's choice (log entry 17). What an
error leaves of cursor and counters is the model's choice (log entries 1, 18, 22). -/
def Obligations.IntensityDeltas : Prop :=
  ∀ (c : Fin 16) (s : State),
    (∀ (first db : Nat) (ys : List DeltaSym), s.cur.Legal →
      (s.chan c).type = .secondary → 0x0200 < s.ctx.version.toNat → first < 15 → db < 3 → ys.length = 7 →
      (∀ y ∈ ys, y.encodable (db + 1) 4) →
      s.bitsAhead s.cur.pos (bitsOf 4 first ++ bitsOf 2 db ++ deltaBitsOf (db + 1) 4 ys) →
      let values := deltaValues (db + 1) first ys
      ((∀ v ∈ values, 0 ≤ v ∧ v ≤ 15) → ∃ intensity : Vector (BitVec 4) 8,
        (∀ i, i < 8 → (entry intensity i).toNat = (((first : Int) :: values).getD i 0).toNat) ∧
        exec (.frIntensity c) s = .next
          { s with stage := 0x26, c := c, cur := s.cur.advance (6 + (deltaBitsOf (db + 1) 4 ys).length),
                   ch := s.ch.set c { s.chan c with intensity := intensity } }) ∧
      ((∃ v ∈ values, v < 0 ∨ 15 < v) → ∃ (pos : Nat) (intensity : Vector (BitVec 4) 8),
        exec (.frIntensity c) s = .next (State.endedWith
          { s with cur := { s.cur with pos := pos }, ch := s.ch.set c { s.chan c with intensity := intensity } }
          .invalidIntensity))) ∧
    (s.cur.pos < 2 ^ 31 → ∃ t, exec (.frIntensity c) s = .next t ∧ t.cur.pos < 2 ^ 31 ∧
      (t.status = s.status ∨
        (s.chan c).type = .secondary ∧ 0x0200 < s.ctx.version.toNat ∧ t.status = .invalidIntensity) ∧
      { t with cur := s.cur, ch := s.ch, stage := s.stage, c := s.c, sf := s.sf, status := s.status,
               draws := s.draws } = s ∧
      ∀ d, { t.chan d with intensity := (s.chan d).intensity, hfrScale := (s.chan d).hfrScale } = s.chan d ∧
        ((s.chan d).type ≠ .secondary → (t.chan d).intensity = (s.chan d).intensity) ∧
        ((s.chan d).type = .secondary → (t.chan d).hfrScale = (s.chan d).hfrScale) ∧
        (d ≠ c → t.chan d = s.chan d))

/-- FR_INTENSITY of any other channel reads one 6-bit high-band scale per HFR group (rule R173). Where a read moves the
cursor beyond 2^31 - 1, its position, and scales read from it, are free values, the model's choice (log entry 17). -/
def Obligations.HighBandScales : Prop :=
  ∀ (c : Fin 16) (s : State), (s.chan c).type ≠ .secondary → s.cur.pos < 2 ^ 31 →
    let n := s.ctx.hfrGroupCount.toNat
    ∃ (hfrScale : Vector (BitVec 6) 128) (p draws : Nat),
      (∀ g, g < 128 → if g < n
        then s.cur.pos + 6 * g < 2 ^ 31 → entry hfrScale g = BitVec.ofNat 6 (s.requestValue (s.cur.pos + 6 * g) 6)
        else entry hfrScale g = entry (s.chan c).hfrScale g) ∧
      p < 2 ^ 31 ∧ (s.cur.pos + 6 * n < 2 ^ 31 → p = s.cur.pos + 6 * n) ∧
      exec (.frIntensity c) s = .next
        { s with stage := 0x26, c := c, cur := { s.cur with pos := p }, draws := draws,
                 ch := s.ch.set c { s.chan c with hfrScale := hfrScale } }

/-- FR_RESOLUTION (rule R175, 10_state.md rule R30): the resolution of each coded coefficient, 0 behind them; the
indices of resolution 0 with a scale ascending from the front, those of a higher resolution from the end. Entries
between, which rule R30 calls unspecified, stay: the model's choice (log entry 26). -/
def Obligations.ResolutionAndPartition : Prop :=
  ∀ (c : Fin 16) (s : State), (s.chan c).codedCount.toNat ≤ 128 →
    s.ctx.minResolution.toNat ≤ s.ctx.maxResolution.toNat → s.ctx.maxResolution.toNat ≤ 15 →
    let k := s.chan c
    let p (i : Nat) : Int := ((entry s.athCurve i).toNat + (s.packedNoiseLevel + i) >>> (8 : Nat)) + 1
      - ((5 * (entry k.scale i).toNat) >>> 1 : Nat)
    let r (i : Nat) : Nat := if p i < 0 then 15 else if p i ≤ 65 then (Config.hw.tInvert (p i).toNat).toNat else 0
    let res (i : Nat) : Nat := if (entry k.scale i).toNat = 0 then 0
      else max s.ctx.minResolution.toNat (min (r i) s.ctx.maxResolution.toNat)
    let noise := (List.range k.codedCount.toNat).filter fun i => (entry k.scale i).toNat ≠ 0 ∧ res i = 0
    let valid := (List.range k.codedCount.toNat).filter fun i => (entry k.scale i).toNat ≠ 0 ∧ res i ≠ 0
    ∃ (resolution : Vector (BitVec 4) 128) (noises : Vector (BitVec 7) 128),
      (∀ i, i < 128 → (entry resolution i).toNat = if i < k.codedCount.toNat then res i else 0) ∧
      (∀ j, j < noise.length → (entry noises j).toNat = noise.getD j 0) ∧
      (∀ j, j < valid.length → (entry noises (127 - j)).toNat = valid.getD j 0) ∧
      (∀ j, noise.length ≤ j → j < 128 - valid.length → entry noises j = entry k.noises j) ∧
      exec (.frResolution c) s = .next
        { s with stage := 0x27, c := c,
                 ch := s.ch.set c { k with resolution := resolution, noises := noises,
                                           noiseCount := BitVec.ofNat 8 noise.length,
                                           validCount := BitVec.ofNat 8 valid.length } }

/-- FR_GAIN: scale table times range table, one rounded product per coded coefficient; other entries stay (rule
R178). -/
def Obligations.GainProducts : Prop :=
  ∀ (c : Fin 16) (s : State), ∃ (gain : Vector F32 128) (draws : Nat),
    (∀ i, i < 128 →
      if i < (s.chan c).codedCount.toNat then
        IsProduct (entry gain i) (Config.hw.tScale (entry (s.chan c).scale i).toNat)
          (Config.hw.tRange (entry (s.chan c).resolution i).toNat)
      else entry gain i = entry (s.chan c).gain i) ∧
    exec (.frGain c) s = .next
      { s with stage := 0x28, c := c, draws := draws, ch := s.ch.set c { s.chan c with gain := gain } }

/-! FrameDecoder, steps 6a to 6d (43_spectral_reconstruct.md). -/

/-- SP_DEQUANT: `p i` is the cursor before coefficient `i`. A code above resolution 7 is sign-magnitude, a zero
magnitude is +0.0 and un-reads one bit; below, the table gives value and width; the result is gain times value,
+0.0 behind the coded coefficients (rules R191 to R193). Where the read of a code moves the cursor beyond 2^31 - 1, the
position behind that code is a free value, the model's choice (log entry 17). -/
def Obligations.DequantReadsCodes : Prop :=
  ∀ (c : Fin 16) (s : State), (s.chan c).codedCount.toNat ≤ 128 →
    ∃ (p : Nat → Nat) (spectra : Vector F32 128) (draws : Nat),
      p 0 = s.cur.pos ∧
      (∀ i, i < (s.chan c).codedCount.toNat →
        let r := (entry (s.chan c).resolution i).toNat
        let w := Config.hw.tMaxBits r
        let code := s.requestValue (p i) w
        p (i + 1) < 2 ^ 31 ∧
        if 7 < r then
          (if code >>> 1 = 0 then
            (p i + w < 2 ^ 31 → p (i + 1) + 1 = p i + w) ∧ IsProduct (entry spectra i) (entry (s.chan c).gain i) 0
          else (p i + w < 2 ^ 31 → p (i + 1) = p i + w) ∧ IsProduct (entry spectra i) (entry (s.chan c).gain i)
            (F32.ofInt ((1 - 2 * (code % 2 : Nat)) * (code >>> 1 : Nat))))
        else (p i + w < 2 ^ 31 → p (i + 1) = p i + Config.hw.tReadBits r code) ∧
          IsProduct (entry spectra i) (entry (s.chan c).gain i) (Config.hw.tReadVal r code)) ∧
      (∀ i, (s.chan c).codedCount.toNat ≤ i → i < 128 → entry spectra i = 0) ∧
      exec (.spDequant c) s = .next
        { s with stage := 0x30, c := c, draws := draws,
                 cur := { s.cur with pos := p (s.chan c).codedCount.toNat },
                 ch := s.ch.set c { s.chan c with spectra := spectra } }

/-- SP_NOISE: nothing when the minimum resolution is not 0, for a mid/side primary, or without a donor or a noise entry;
else one generator step, one donor of the valid partition and one product per noise entry, in order (rules R196 to
R198). `f j` is the spectrum and `g j` the generator before entry `j`. For counts above 128, outside the range of
10_state.md rule R30, the entries read are the model's choice (log entry 21): 0 for an index of 128 or more, and 0 for
the difference 128 - validCount. -/
def Obligations.NoiseReconstruction : Prop :=
  ∀ (c : Fin 16) (s : State),
    let k := s.chan c
    let applies : Prop := s.ctx.minResolution = 0 ∧ ¬ (s.ctx.msStereo ≠ 0 ∧ k.type = .primary) ∧
      k.validCount ≠ 0 ∧ k.noiseCount ≠ 0
    (¬ applies → exec (.spNoise c) s = .next { s with stage := 0x31, c := c }) ∧
    (applies → ∃ (f : Nat → Vector F32 128) (g : Nat → BitVec 32) (draws : Nat),
      f 0 = k.spectra ∧ g 0 = s.random ∧
      (∀ j, j < k.noiseCount.toNat →
        (g (j + 1)).toNat = ((g j).toNat * 0x343FD + 0x269EC3) % 2 ^ 32 ∧
        let d := 128 - k.validCount.toNat + ((Config.hw.rand15 (g (j + 1))).toNat * k.validCount.toNat) >>> 15
        let ni := (entry k.noises j).toNat
        let vi := (entry k.noises d).toNat
        IsProduct (entry (f (j + 1)) ni)
          (Config.hw.tScaleConv (((entry k.scale ni).toNat : Int) - (entry k.scale vi).toNat + 62).toNat)
          (entry (f j) vi) ∧
        ∀ i, i ≠ ni → entry (f (j + 1)) i = entry (f j) i) ∧
      exec (.spNoise c) s = .next
        { s with stage := 0x31, c := c, draws := draws, random := g k.noiseCount.toNat,
                 ch := s.ch.set c { k with spectra := f k.noiseCount.toNat } })

/-- SP_HFR: nothing without HFR bands or for a secondary; else band `start + m` is copied from band
`start - 1 - min m (groupLimit * bandsPerHfrGroup)`, scaled by its group, until the top band or until the low index
runs out; the last band reconstructed, or the last coded one when there is none, is +0.0 (rules R202 to R204). -/
def Obligations.HighFrequencyReconstruction : Prop :=
  ∀ (c : Fin 16) (s : State),
    let k := s.chan c
    let start := s.ctx.baseBandCount.toNat + s.ctx.stereoBandCount.toNat
    let total := s.ctx.totalBandCount.toNat
    let step := (s.ctx.hfrGroupCount.toNat >>> 1) * s.ctx.bandsPerHfrGroup.toNat
    let count := if start ≤ step then min start (total - start) else total - start
    (s.ctx.bandsPerHfrGroup = 0 ∨ k.type = .secondary → exec (.spHfr c) s = .next { s with stage := 0x32, c := c }) ∧
    (¬ (s.ctx.bandsPerHfrGroup = 0 ∨ k.type = .secondary) → start ≤ total → total ≤ 128 →
      s.ctx.hfrGroupCount.toNat = s.ctx.groupCount →
      ∃ (spectra : Vector F32 128) (draws : Nat),
        (∀ m, m + 1 < count →
          let low := start - 1 - min m step
          IsProduct (entry spectra (start + m))
            (Config.hw.tScaleConv (((entry k.hfrScale (m / s.ctx.bandsPerHfrGroup.toNat)).toNat : Int)
              - (entry k.scale low).toNat + Config.hw.hfrBias).toNat)
            (entry k.spectra low)) ∧
        (1 ≤ start + count → entry spectra (start + count - 1) = 0) ∧
        (∀ i, i < 128 → i + 1 < start ∨ start + count ≤ i ∨ (i < start ∧ 1 ≤ count) →
          entry spectra i = entry k.spectra i) ∧
        exec (.spHfr c) s = .next
          { s with stage := 0x32, c := c, draws := draws, ch := s.ch.set c { k with spectra := spectra } })

/-- SP_ISTEREO: over the bands base to total - 1 the primary is scaled by the ratio and the secondary becomes the
primary's old value times 2 - ratio; other bands stay (rule R207). Channel 15 has no secondary: refused,
the model's choice (log entry 25). -/
def Obligations.IntensityStereo : Prop :=
  ∀ (c : Fin 16) (sf : Fin 8) (s : State),
    (∀ d : Fin 16, d.val = c.val + 1 → ∃ (x y : Vector F32 128) (complement : F32) (draws : Nat),
      let ratio := Config.hw.tIntensity ((s.chan d).intensity[sf]).toNat
      IsDifference complement F32.two ratio ∧
      (∀ b, b < 128 →
        if s.ctx.baseBandCount.toNat ≤ b ∧ b < s.ctx.totalBandCount.toNat then
          IsProduct (entry x b) (entry (s.chan c).spectra b) ratio ∧
          IsProduct (entry y b) (entry (s.chan c).spectra b) complement
        else entry x b = entry (s.chan c).spectra b ∧ entry y b = entry (s.chan d).spectra b) ∧
      exec (.spIstereo c sf) s = .next
        { s with stage := 0x33, c := c, sf := sf, draws := draws,
                 ch := (s.ch.set c { s.chan c with spectra := x }).set d { s.chan d with spectra := y } }) ∧
    (c.val = 15 → exec (.spIstereo c sf) s = .refused .noSecondaryChannel)

/-- SP_MSSTEREO: over the same bands, the rounded sum and the rounded difference, each times 1/√2 (rule R209). Channel 15
is refused, the model's choice (log entry 25). -/
def Obligations.MidSideStereo : Prop :=
  ∀ (c : Fin 16) (s : State),
    (∀ d : Fin 16, d.val = c.val + 1 → ∃ (x y : Vector F32 128) (draws : Nat),
      (∀ b, b < 128 →
        if s.ctx.baseBandCount.toNat ≤ b ∧ b < s.ctx.totalBandCount.toNat then
          (∃ sum, IsSum sum (entry (s.chan c).spectra b) (entry (s.chan d).spectra b) ∧
            IsProduct (entry x b) sum 0x3F3504F3#32) ∧
          (∃ difference, IsDifference difference (entry (s.chan c).spectra b) (entry (s.chan d).spectra b) ∧
            IsProduct (entry y b) difference 0x3F3504F3#32)
        else entry x b = entry (s.chan c).spectra b ∧ entry y b = entry (s.chan d).spectra b) ∧
      exec (.spMsstereo c) s = .next
        { s with stage := 0x34, c := c, draws := draws,
                 ch := (s.ch.set c { s.chan c with spectra := x }).set d { s.chan d with spectra := y } }) ∧
    (c.val = 15 → exec (.spMsstereo c) s = .refused .noSecondaryChannel)

/-! InverseTransform (44_imdct.md). -/

/-- IM_PASS1: seven stages of sums and differences, `f t` the file stage `t` reads; the two working buffers take turns
(rule R222). -/
def Obligations.FirstPass : Prop :=
  ∀ (c : Fin 16) (s : State), ∃ (f : Nat → Vector F32 128) (draws : Nat),
    f 0 = (s.chan c).spectra ∧
    (∀ t j k, t < 7 → j < 1 <<< t → k < 64 >>> t →
      let half := 64 >>> t
      let pair := j * half + k
      IsSum (entry (f (t + 1)) (2 * j * half + k)) (entry (f t) (2 * pair)) (entry (f t) (2 * pair + 1)) ∧
      IsDifference (entry (f (t + 1)) (2 * j * half + half + k)) (entry (f t) (2 * pair)) (entry (f t) (2 * pair + 1))) ∧
    exec (.imPass1 c) s = .next
      { s with stage := 0x40, c := c, draws := draws,
               ch := s.ch.set c { s.chan c with spectra := f 6, scratch := f 7 } }

/-- IM_PASS2: seven stages of rotations by the table row of the stage, each product rounded (rule R224). -/
def Obligations.SecondPass : Prop :=
  ∀ (c : Fin 16) (s : State), ∃ (f : Nat → Vector F32 128) (draws : Nat),
    f 0 = (s.chan c).scratch ∧
    (∀ t j k, t < 7 → j < 64 >>> t → k < 1 <<< t →
      let half := 1 <<< t
      let base := 2 * j * half
      let a := entry (f t) (base + k)
      let b := entry (f t) (base + half + k)
      let sn := Config.hw.tSin t (j * half + k)
      let cs := Config.hw.tCos t (j * half + k)
      (∃ u v, IsProduct u a sn ∧ IsProduct v b cs ∧ IsDifference (entry (f (t + 1)) (base + k)) u v) ∧
      (∃ u v, IsProduct u a cs ∧ IsProduct v b sn ∧ IsSum (entry (f (t + 1)) (base + 2 * half - 1 - k)) u v)) ∧
    exec (.imPass2 c) s = .next
      { s with stage := 0x41, c := c, draws := draws,
               ch := s.ch.set c { s.chan c with scratch := f 6, spectra := f 7 } }

/-- The first pass turns a unit spectrum into 1.0 everywhere, and an all-zero one into all +0.0 (rule R223). -/
def Obligations.UnitAndZeroSpectra : Prop :=
  ∀ (c : Fin 16) (s t : State), exec (.imPass1 c) s = .next t →
    ((∀ i, i < 128 → entry (s.chan c).spectra i = if i = 0 then 0x3F800000#32 else 0) →
      ∀ i, i < 128 → entry (t.chan c).scratch i = 0x3F800000#32) ∧
    ((∀ i, i < 128 → entry (s.chan c).spectra i = 0) → ∀ i, i < 128 → entry (t.chan c).scratch i = 0)

/-- IM_WINDOW writes one row of samples from the windowed buffer and the old overlap, and the overlap of the next call
(rule R226). -/
def Obligations.WindowOverlapAdd : Prop :=
  ∀ (c : Fin 16) (sf : Fin 8) (s : State), ∃ (row prev : Vector F32 128) (draws : Nat),
    let buf := (s.chan c).spectra
    (∀ i, i < 64 →
      (∃ u, IsProduct u (Config.hw.tWindow i) (entry buf (i + 64)) ∧
        IsSum (entry row i) u (entry (s.chan c).prev i)) ∧
      (∃ u, IsProduct u (Config.hw.tWindow (i + 64)) (entry buf (127 - i)) ∧
        IsDifference (entry row (i + 64)) u (entry (s.chan c).prev (i + 64))) ∧
      IsProduct (entry prev i) (Config.hw.tWindow (127 - i)) (entry buf (63 - i)) ∧
      IsProduct (entry prev (i + 64)) (Config.hw.tWindow (63 - i)) (entry buf i)) ∧
    exec (.imWindow c sf) s = .next
      { s with stage := 0x42, c := c, sf := sf, draws := draws,
               ch := s.ch.set c { s.chan c with wave := (s.chan c).wave.set sf row, prev := prev } }

/-! Arithmetic (00_scope.md rule R14). -/

/-- Sums, differences and products of finite numbers round once to nearest, ties to even; an exact zero sum is +0.0
unless both operands are negative zeros, a product has the sign of its operands; a NaN operand gives a NaN. -/
def Obligations.FloatOperationsRoundOnce : Prop :=
  ∀ nan a b : F32, nan.isNaN = true →
    (a.isFinite = true → b.isFinite = true →
      IsRounded (F32.add nan a b) (floatValue a + floatValue b) ∧
      IsRounded (F32.sub nan a b) (floatValue a - floatValue b) ∧
      IsRounded (F32.mul nan a b) (floatValue a * floatValue b) ∧
      (F32.mul nan a b).sign = (a.sign != b.sign) ∧
      (floatValue a + floatValue b = 0 → F32.add nan a b = if a.sign && b.sign then 0x80000000#32 else 0)) ∧
    (a.isNaN = true ∨ b.isNaN = true →
      (F32.add nan a b).isNaN = true ∧ (F32.sub nan a b).isNaN = true ∧ (F32.mul nan a b).isNaN = true)

/-- `pcm16`: 0 for a NaN; else 32768 times the sample, clamped to -32767 and 32767, and in between the nearest integer,
ties to the even one (rule R252). -/
def Obligations.PcmConversion : Prop :=
  ∀ x : F32,
    (x.isNaN = true → F32.pcm16 x = 0) ∧
    (x = F32.inf false → (F32.pcm16 x).toInt = 32767) ∧ (x = F32.inf true → (F32.pcm16 x).toInt = -32767) ∧
    (x.isFinite = true →
      let y : ℚ := 32768 * floatValue x
      (32767 ≤ y → (F32.pcm16 x).toInt = 32767) ∧ (y ≤ -32767 → (F32.pcm16 x).toInt = -32767) ∧
      (-32767 < y → y < 32767 → |((F32.pcm16 x).toInt : ℚ) - y| ≤ 1 / 2 ∧
        (|((F32.pcm16 x).toInt : ℚ) - y| = 1 / 2 → (F32.pcm16 x).toInt % 2 = 0)))

/-! Host commands (45_controller_and_host.md). -/

/-- SET_KEY stores the key and, while a stream is open, derives the cipher table anew; it touches nothing else (rule
R247). What the command's end leaves of cursor and counters is the model's choice (log entries 18, 22). -/
def Obligations.SetKeyDerivesTheTable : Prop :=
  ∀ (key : BitVec 64) (s : State), exec (.setKey key) s = .next (State.endedWith
    { s with key := key,
             cipherTable := if s.valid = true
               then Vector.ofFn fun b => Config.hw.cipherInit s.ctx.cipherType key (BitVec.ofNat 8 b)
               else s.cipherTable } .ok)

/-- RESET_STREAM clears the overlap buffer of every live channel and reseeds the generator, and touches nothing else
(rules R250, R302). With no stream open it is refused (rule R243, 93_implementation_defined.md U6). What the command's
end leaves of cursor and counters is the model's choice (log entries 18, 22). -/
def Obligations.ResetClearsTheOverlap : Prop :=
  ∀ s : State,
    (s.valid = true → exec .resetStream s = .next (State.endedWith
      { s with random := 1,
               ch := Vector.ofFn (fun c => if c.val < s.ctx.channelCount.toNat
                 then { s.chan c with prev := Vector.replicate 128 0 } else s.chan c) } .ok)) ∧
    (s.valid = false → exec .resetStream s = .refused .noStream)

/-- After a successful OPEN_STREAM a RESET_STREAM finds nothing to change: for the state that influences decoded samples
the two leave the same (70_reset_and_hazards.md rule R303). -/
def Obligations.ResetAfterOpenChangesNothing : Prop :=
  ∀ (n : BitVec 32) (s t : State), exec (.openStream n) s = .next t → t.status = .ok → exec .resetStream t = .next t

/-- READ_SAMPLES16 writes the sample of channel c, row r, column j at index `(r * 128 + j) * channelCount + c` of OUT
and changes nothing else (rules R252, R53). Without a decoded frame it is a fault (93_implementation_defined.md U7); the
flag `decoded` is the model's (log entry 11). What the command's end leaves of cursor and counters is the model's choice
(log entries 18, 22). -/
def Obligations.SamplesInterleaved : Prop :=
  ∀ s : State,
    (s.valid = true → s.decoded = true → ∃ out : Mem 16,
      (∀ (c : Fin 16) (r j : Nat), c.val < s.ctx.channelCount.toNat → r < 8 → j < 128 →
        out.read ((r * 128 + j) * s.ctx.channelCount.toNat + c.val) =
          F32.pcm16 (entry ((s.chan c).wave.getD r (Vector.replicate 128 0)) j)) ∧
      (∀ i, 1024 * s.ctx.channelCount.toNat ≤ i → out.read i = Mem.read s.out i) ∧
      exec .readSamples16 s = .next (State.endedWith { s with out := out } .ok)) ∧
    (s.valid = false ∨ s.decoded = false → exec .readSamples16 s = .fault .samplesNotDecoded)

/-- OPEN_STREAM over any bytes ends: a stream with legal registers is open, or the header is invalid; the key and the
buffers stay (rules R240, R245; 41_header_parser.md rules R121, R156). It is invalid for fewer than 8 bytes, another
prolog tag, a declared size below 8 or above the length, an absent fmt chunk, or neither a comp nor a dec chunk behind
it (rules R121, R122, R124, R126). A length beyond the buffer is refused (93_implementation_defined.md U5). What the
command's end leaves of cursor and counters is the model's choice (log entries 18, 22). -/
def Obligations.OpenEndsEitherWay : Prop :=
  ∀ (n : BitVec 32) (s : State),
    (s.hdr.size < n.toNat → exec (.openStream n) s = .refused .bufferTooShort) ∧
    (n.toNat ≤ s.hdr.size → ∃ t, exec (.openStream n) s = .next t ∧
      (HeaderRejected s t ∨
        (t.valid = true ∧ t.status = .ok ∧ t.ctx.Legal ∧ (∀ c : Fin 16, c.val < t.ctx.channelCount.toNat →
            t.ChannelLegal c ∧ (t.chan c).prev = Vector.replicate 128 0) ∧
          (∀ b, tableByte t.cipherTable b = Config.hw.cipherInit t.ctx.cipherType s.key b) ∧ t.random = 1 ∧
          t.ctx.headerSize.toNat ≤ n.toNat ∧
          t.key = s.key ∧ t.hdr = s.hdr ∧ t.frm = s.frm ∧ t.out = s.out ∧ t.queue = s.queue ∧ t.stage = 0 ∧
          t.cur.buf = none)) ∧
      let word (a : Nat) : BitVec 32 := BitVec.ofNat 32 (s.hdr.fieldValue (8 * a) 32)
      let size := s.hdr.fieldValue 48 16
      (n.toNat < 8 → HeaderRejected s t) ∧
      (¬ spells (word 0) 0x48434100#32 → HeaderRejected s t) ∧
      (size < 8 ∨ n.toNat < size → HeaderRejected s t) ∧
      (size < 8 + 16 ∨ ¬ spells (word 8) 0x666D7400#32 → HeaderRejected s t) ∧
      ((size < 24 + 16 ∨ ¬ spells (word 24) 0x636F6D70#32) → (size < 24 + 12 ∨ ¬ spells (word 24) 0x64656300#32) →
        HeaderRejected s t))

/-- OPEN_STREAM is its sequence (rule R240): the stages run one after another, up to the end or the first error, leave
what the command leaves. Behind HD_PROLOG the controller wraps the declared size, at least 8 and at most the length
operand (rule R122); behind HD_FMT it takes HD_COMP, else HD_DEC, and without either chunk the header is invalid (rule
R126). The run starts from free values in the registers the command leaves unspecified (10_state.md rule R38; log entry
7). What the command's end leaves of cursor and counters is the model's choice (log entries 18, 22). -/
def Obligations.OpenStreamIsItsStages : Prop :=
  ∀ (n : BitVec 32) (s t : State), exec (.openStream n) s = .next t →
    ∃ r p : State,
      { r with ctx := s.ctx, cipherTable := s.cipherTable, athCurve := s.athCurve, random := s.random, ch := s.ch,
               packedNoiseLevel := s.packedNoiseLevel, draws := s.draws } = { s with hdrLen := n, status := .ok } ∧
      exec .hdProlog r = .next p ∧ (p.status ≠ .ok → t = p) ∧
      (p.status = .ok →
        let size := p.ctx.headerSize.toNat
        (size < 8 ∨ n.toNat < size → HeaderRejected s t) ∧
        (8 ≤ size → size ≤ n.toNat → ∃ f : State,
          exec .hdFmt { p with cur := { buf := some .hdr, sizeBits := 8 * size, pos := 64 }, remaining := size - 8 } =
            .next f ∧ (f.status ≠ .ok → t = f) ∧
          (f.status = .ok →
            let comp : Prop := ¬ absent f 0x636F6D70#32 16
            let dec : Prop := ¬ absent f 0x64656300#32 12
            (¬ comp → ¬ dec → HeaderRejected s t) ∧
            ∀ i : Instr, (comp ∧ i = .hdComp) ∨ (¬ comp ∧ dec ∧ i = .hdDec) → ∃ v : State,
              runUntilError [i, .hdVbr, .hdAth, .hdLoop, .hdCiph, .hdRva, .hdComm, .hdPad, .hdValidate, .hdDerive,
                .hdChantype] f = .next v ∧
              (v.status ≠ .ok → t = v) ∧
              (v.status = .ok → t = { v.endedWith .ok with valid := true, decoded := false }))))

/-- Which result DECODE_FRAME reports: ShortBuffer before SyncError before ChecksumError before the errors of step 5; a
frame past these checks never stops the machine (rules R241, R243; 60_exceptions.md rules R271, R274;
93_implementation_defined.md U5, U6). A frame whose next block behind the valid codes of some channels leaves its range
is InvalidScaleFactor or InvalidIntensity, by the kind of the block, where the checksum primitive accepts it; which bytes
it accepts is open (00_scope.md rule R9). -/
def Obligations.FrameResultOrder : Prop :=
  ∀ (n : BitVec 32) (s : State),
    (s.valid = false → exec (.decodeFrame n) s = .refused .noStream) ∧
    (s.valid = true → s.frm.size < n.toNat → exec (.decodeFrame n) s = .refused .bufferTooShort) ∧
    (s.valid = true → s.StreamInv → n.toNat ≤ s.frm.size →
      ∃ t, exec (.decodeFrame n) s = .next t ∧
        (n.toNat < s.ctx.frameSize.toNat → t.status = .shortBuffer) ∧
        (s.ctx.frameSize.toNat ≤ n.toNat →
          let sync : Prop := s.frm.byte 0 = 0xFF ∧ s.frm.byte 1 = 0xFF
          let sum := Config.hw.checksumFrame ((List.range s.ctx.frameSize.toNat).map s.frm.byte)
          (¬ sync → t.status = .syncError) ∧ (sync → sum ≠ 0 → t.status = .checksumError) ∧
          (sync → sum = 0 → t.status ∈ [.ok, .invalidScaleFactor, .invalidIntensity]) ∧
          ∀ (codes : List ChannelCode) (bad : BadBlock) (noise boundary : Nat) (behind : List Bool) (c : Fin 16),
            c.val = codes.length → c.val < s.ctx.channelCount.toNat → noise < 512 → boundary < 128 →
            s.codesFit 0 codes (bad.bits ++ behind) → s.badFits c bad →
            let bits := bitsOf 9 noise ++ bitsOf 7 boundary ++ (s.codeBits codes ++ (bad.bits ++ behind))
            16 + bits.length ≤ 8 * s.ctx.frameSize.toNat →
            (∀ i, i < bits.length → s.clearBit (16 + i) = bits.getD i false) →
            sync → sum = 0 → t.status = bad.error))

/-- What DECODE_FRAME leaves alone, whatever its result: the stream, its key and tables, HDR and OUT, the channels'
types and counts, the channels that are not live, FRM behind the frame. -/
def Obligations.FrameKeepsTheStream : Prop :=
  ∀ (n : BitVec 32) (s t : State), s.StreamInv → exec (.decodeFrame n) s = .next t →
    t.valid = s.valid ∧ t.ctx = s.ctx ∧ t.key = s.key ∧ t.cipherTable = s.cipherTable ∧ t.athCurve = s.athCurve ∧
    t.hdr = s.hdr ∧ t.out = s.out ∧ t.queue = s.queue ∧ t.stage = 0 ∧ t.cur.buf = none ∧
    t.frm.size = s.frm.size ∧ (∀ a, s.ctx.frameSize.toNat ≤ a → t.frm.byte a = s.frm.byte a) ∧
    ∀ c : Fin 16, (t.chan c).type = (s.chan c).type ∧ (t.chan c).codedCount = (s.chan c).codedCount ∧
      (s.ctx.channelCount.toNat ≤ c.val → t.chan c = s.chan c)

/-- A failed frame leaves the sound alone: overlap, generator and samples are those of before, as if the frame had not
been presented; an error raised before decryption leaves FRM and the channels as they were, a later one leaves FRM
decrypted; intensities of a channel that is not secondary stay (60_exceptions.md rule R277). -/
def Obligations.FailedFrameKeepsTheSound : Prop :=
  ∀ (n : BitVec 32) (s t : State), s.StreamInv → exec (.decodeFrame n) s = .next t → t.status ≠ .ok →
    t.random = s.random ∧ t.decoded = s.decoded ∧
    (∀ c, (t.chan c).prev = (s.chan c).prev ∧ (t.chan c).wave = (s.chan c).wave ∧
      ((s.chan c).type ≠ .secondary → (t.chan c).intensity = (s.chan c).intensity)) ∧
    (t.status ∈ [.shortBuffer, .syncError, .checksumError] →
      t.frm = s.frm ∧ t.ch = s.ch ∧ t.packedNoiseLevel = s.packedNoiseLevel) ∧
    (t.status ∈ [.invalidScaleFactor, .invalidIntensity] → ∀ a, a < s.ctx.frameSize.toNat →
      t.frm.byte a = s.cipherTable.getD (s.frm.byte a).toNat 0)

/-- A frame written from its fields decodes: sync word, noise level, and per channel a scale block and an intensity or
high-band block in any coding, then any bits; where the checksum primitive accepts it the result is OK, the files hold
the coded values and FRM is decrypted, else it is ChecksumError (rules R241, R249; 42_frame_unpack.md rules R161 to
R173). Which bytes the primitive accepts is open (00_scope.md rule R9); that scale factors behind the coded ones stay is
the model's choice (log entry 26). -/
def Obligations.BuiltFrameDecodes : Prop :=
  ∀ (n : BitVec 32) (s : State) (noise boundary : Nat) (codes : List ChannelCode) (behind : List Bool),
    s.StreamInv → s.valid = true → s.ctx.frameSize.toNat ≤ n.toNat → n.toNat ≤ s.frm.size →
    s.frm.byte 0 = 0xFF → s.frm.byte 1 = 0xFF →
    noise < 512 → boundary < 128 → codes.length = s.ctx.channelCount.toNat → s.codesFit 0 codes behind →
    let bits := bitsOf 9 noise ++ bitsOf 7 boundary ++ (s.codeBits codes ++ behind)
    16 + bits.length ≤ 8 * s.ctx.frameSize.toNat →
    (∀ i, i < bits.length → s.clearBit (16 + i) = bits.getD i false) →
    ∃ t, exec (.decodeFrame n) s = .next t ∧
      let sum := Config.hw.checksumFrame ((List.range s.ctx.frameSize.toNat).map s.frm.byte)
      (sum ≠ 0 → t.status = .checksumError) ∧
      (sum = 0 → t.status = .ok ∧ t.decoded = true ∧
        t.packedNoiseLevel = (noise : Int) <<< (8 : Nat) - boundary ∧
        (∀ a, t.frm.byte a = if a < s.ctx.frameSize.toNat then tableByte s.cipherTable (s.frm.byte a)
          else s.frm.byte a) ∧
        ∀ (c : Fin 16) (k : ChannelCode), codes[c.val]? = some k →
          (∀ i, i < 128 → (entry (t.chan c).scale i).toNat =
            if i < (s.chan c).codedCount.toNat then k.scale.value i else (entry (s.chan c).scale i).toNat) ∧
          (∀ i, i < 8 → (entry (t.chan c).intensity i).toNat =
            k.side.intensity (entry (s.chan c).intensity i).toNat i) ∧
          ∀ g, g < 128 → (entry (t.chan c).hfrScale g).toNat =
            k.side.highBand (entry (s.chan c).hfrScale g).toNat g)

/-- DECODE_FRAME is its sequence: the stages of rule R241 run one step each, up to the end or the first error, leave
what the command leaves (rule R260; 60_exceptions.md rule R272); only `status`, `decoded` and the controller's counters
are the command's own. An OK frame has no stage that raised; a failed one reports the error of the first that did. What
the command's end leaves of cursor and counters is the model's choice (log entries 18, 22). -/
def Obligations.DecodeFrameIsItsStages : Prop :=
  ∀ (n : BitVec 32) (s t : State), s.valid = true → exec (.decodeFrame n) s = .next t →
    let start : State := { s with frmLen := n, status := .ok, queue := s.frameStages.map callOf }
    let quiet (k : Nat) : Prop := ∃ u, Sys2Proof.core.run k start = .next u ∧ u.status = .ok
    (t.status = .ok → (∀ k, k ≤ s.frameStages.length → quiet k) ∧
      ∃ u, Sys2Proof.core.run s.frameStages.length start = .next u ∧ u.queue = [] ∧
        t = { u.endedWith .ok with decoded := true, queue := s.queue }) ∧
    (t.status ≠ .ok → ∃ (k : Nat) (v : State), k < s.frameStages.length ∧ (∀ j, j ≤ k → quiet j) ∧
      Sys2Proof.core.run (k + 1) start = .next v ∧ t = { v with queue := s.queue })

/-- Who writes what, over all instructions (rule R257; 10_state.md rules R21, R25 to R27, R32, R33; 20_memory.md rules
R51 to R53): HDR is never written, OUT by READ_SAMPLES16 only, FRM by decryption only, the key by SET_KEY only, the
stream registers by OPEN_STREAM and its stages only, the generator, the overlap and the samples by the rules named. -/
def Obligations.WritersOfTheState : Prop :=
  ∀ (i : Instr) (s t : State), exec i s = .next t →
    let opens : Prop := (∃ n, i = .openStream n) ∨ (encode i).1 = .chunk ∨ i = .hdValidate ∨ i = .hdDerive ∨
      i = .hdChantype
    let decodes : Prop := ∃ n, i = .decodeFrame n
    t.hdr = s.hdr ∧ t.queue = s.queue ∧
    (i ≠ .readSamples16 → t.out = s.out) ∧
    (i ≠ .frDecrypt → ¬ decodes → t.frm = s.frm) ∧
    ((∀ k, i ≠ .setKey k) → t.key = s.key) ∧
    (¬ opens → t.ctx = s.ctx ∧ t.valid = s.valid ∧ t.athCurve = s.athCurve ∧
      ((∀ k, i ≠ .setKey k) → t.cipherTable = s.cipherTable) ∧
      (∀ c, (t.chan c).type = (s.chan c).type ∧ (t.chan c).codedCount = (s.chan c).codedCount) ∧
      ((∀ c, i ≠ .spNoise c) → i ≠ .resetStream → ¬ decodes → t.random = s.random) ∧
      ((∀ c sf, i ≠ .imWindow c sf) → i ≠ .resetStream → ¬ decodes → ∀ c, (t.chan c).prev = (s.chan c).prev) ∧
      ((∀ c sf, i ≠ .imWindow c sf) → ¬ decodes → ∀ c, (t.chan c).wave = (s.chan c).wave) ∧
      ((∀ c, i ≠ .frIntensity c) → ¬ decodes → ∀ c, (t.chan c).intensity = (s.chan c).intensity))
end

