-- ==== Sys2Proof/Laws/State.lean ====
section
/-! SUPPORT. What each named update of the state changes, field by field, so that no proof unfolds a record update. -/

namespace Sys2Proof.Machine

variable (s : State)

@[simp] theorem State.seek_valid (p : Nat) : (s.seek p).valid = s.valid := rfl
@[simp] theorem State.seek_status (p : Nat) : (s.seek p).status = s.status := rfl
@[simp] theorem State.seek_ctx (p : Nat) : (s.seek p).ctx = s.ctx := rfl
@[simp] theorem State.seek_key (p : Nat) : (s.seek p).key = s.key := rfl
@[simp] theorem State.seek_cipherTable (p : Nat) : (s.seek p).cipherTable = s.cipherTable := rfl
@[simp] theorem State.seek_athCurve (p : Nat) : (s.seek p).athCurve = s.athCurve := rfl
@[simp] theorem State.seek_random (p : Nat) : (s.seek p).random = s.random := rfl
@[simp] theorem State.seek_ch (p : Nat) : (s.seek p).ch = s.ch := rfl
@[simp] theorem State.seek_packedNoiseLevel (p : Nat) : (s.seek p).packedNoiseLevel = s.packedNoiseLevel := rfl
@[simp] theorem State.seek_cur (p : Nat) : (s.seek p).cur = { s.cur with pos := p } := rfl
@[simp] theorem State.seek_stage (p : Nat) : (s.seek p).stage = s.stage := rfl
@[simp] theorem State.seek_sf (p : Nat) : (s.seek p).sf = s.sf := rfl
@[simp] theorem State.seek_c (p : Nat) : (s.seek p).c = s.c := rfl
@[simp] theorem State.seek_remaining (p : Nat) : (s.seek p).remaining = s.remaining := rfl
@[simp] theorem State.seek_hdrLen (p : Nat) : (s.seek p).hdrLen = s.hdrLen := rfl
@[simp] theorem State.seek_frmLen (p : Nat) : (s.seek p).frmLen = s.frmLen := rfl
@[simp] theorem State.seek_result (p : Nat) : (s.seek p).result = s.result := rfl
@[simp] theorem State.seek_hdr (p : Nat) : (s.seek p).hdr = s.hdr := rfl
@[simp] theorem State.seek_frm (p : Nat) : (s.seek p).frm = s.frm := rfl
@[simp] theorem State.seek_out (p : Nat) : (s.seek p).out = s.out := rfl
@[simp] theorem State.seek_decoded (p : Nat) : (s.seek p).decoded = s.decoded := rfl
@[simp] theorem State.seek_draws (p : Nat) : (s.seek p).draws = s.draws := rfl
@[simp] theorem State.seek_queue (p : Nat) : (s.seek p).queue = s.queue := rfl

@[simp] theorem State.enter_valid (id : Byte) : (s.enter id).valid = s.valid := rfl
@[simp] theorem State.enter_status (id : Byte) : (s.enter id).status = s.status := rfl
@[simp] theorem State.enter_ctx (id : Byte) : (s.enter id).ctx = s.ctx := rfl
@[simp] theorem State.enter_key (id : Byte) : (s.enter id).key = s.key := rfl
@[simp] theorem State.enter_cipherTable (id : Byte) : (s.enter id).cipherTable = s.cipherTable := rfl
@[simp] theorem State.enter_athCurve (id : Byte) : (s.enter id).athCurve = s.athCurve := rfl
@[simp] theorem State.enter_random (id : Byte) : (s.enter id).random = s.random := rfl
@[simp] theorem State.enter_ch (id : Byte) : (s.enter id).ch = s.ch := rfl
@[simp] theorem State.enter_packedNoiseLevel (id : Byte) : (s.enter id).packedNoiseLevel = s.packedNoiseLevel := rfl
@[simp] theorem State.enter_cur (id : Byte) : (s.enter id).cur = s.cur := rfl
@[simp] theorem State.enter_stage (id : Byte) : (s.enter id).stage = id := rfl
@[simp] theorem State.enter_sf (id : Byte) : (s.enter id).sf = s.sf := rfl
@[simp] theorem State.enter_c (id : Byte) : (s.enter id).c = s.c := rfl
@[simp] theorem State.enter_remaining (id : Byte) : (s.enter id).remaining = s.remaining := rfl
@[simp] theorem State.enter_hdrLen (id : Byte) : (s.enter id).hdrLen = s.hdrLen := rfl
@[simp] theorem State.enter_frmLen (id : Byte) : (s.enter id).frmLen = s.frmLen := rfl
@[simp] theorem State.enter_result (id : Byte) : (s.enter id).result = s.result := rfl
@[simp] theorem State.enter_hdr (id : Byte) : (s.enter id).hdr = s.hdr := rfl
@[simp] theorem State.enter_frm (id : Byte) : (s.enter id).frm = s.frm := rfl
@[simp] theorem State.enter_out (id : Byte) : (s.enter id).out = s.out := rfl
@[simp] theorem State.enter_decoded (id : Byte) : (s.enter id).decoded = s.decoded := rfl
@[simp] theorem State.enter_draws (id : Byte) : (s.enter id).draws = s.draws := rfl
@[simp] theorem State.enter_queue (id : Byte) : (s.enter id).queue = s.queue := rfl

@[simp] theorem State.enterChan_valid (id : Byte) (c : Fin 16) : (s.enterChan id c).valid = s.valid := rfl
@[simp] theorem State.enterChan_status (id : Byte) (c : Fin 16) : (s.enterChan id c).status = s.status := rfl
@[simp] theorem State.enterChan_ctx (id : Byte) (c : Fin 16) : (s.enterChan id c).ctx = s.ctx := rfl
@[simp] theorem State.enterChan_key (id : Byte) (c : Fin 16) : (s.enterChan id c).key = s.key := rfl
@[simp] theorem State.enterChan_cipherTable (id : Byte) (c : Fin 16) : (s.enterChan id c).cipherTable = s.cipherTable := rfl
@[simp] theorem State.enterChan_athCurve (id : Byte) (c : Fin 16) : (s.enterChan id c).athCurve = s.athCurve := rfl
@[simp] theorem State.enterChan_random (id : Byte) (c : Fin 16) : (s.enterChan id c).random = s.random := rfl
@[simp] theorem State.enterChan_ch (id : Byte) (c : Fin 16) : (s.enterChan id c).ch = s.ch := rfl
@[simp] theorem State.enterChan_packedNoiseLevel (id : Byte) (c : Fin 16) : (s.enterChan id c).packedNoiseLevel = s.packedNoiseLevel := rfl
@[simp] theorem State.enterChan_cur (id : Byte) (c : Fin 16) : (s.enterChan id c).cur = s.cur := rfl
@[simp] theorem State.enterChan_stage (id : Byte) (c : Fin 16) : (s.enterChan id c).stage = id := rfl
@[simp] theorem State.enterChan_sf (id : Byte) (c : Fin 16) : (s.enterChan id c).sf = s.sf := rfl
@[simp] theorem State.enterChan_c (id : Byte) (c : Fin 16) : (s.enterChan id c).c = c := rfl
@[simp] theorem State.enterChan_remaining (id : Byte) (c : Fin 16) : (s.enterChan id c).remaining = s.remaining := rfl
@[simp] theorem State.enterChan_hdrLen (id : Byte) (c : Fin 16) : (s.enterChan id c).hdrLen = s.hdrLen := rfl
@[simp] theorem State.enterChan_frmLen (id : Byte) (c : Fin 16) : (s.enterChan id c).frmLen = s.frmLen := rfl
@[simp] theorem State.enterChan_result (id : Byte) (c : Fin 16) : (s.enterChan id c).result = s.result := rfl
@[simp] theorem State.enterChan_hdr (id : Byte) (c : Fin 16) : (s.enterChan id c).hdr = s.hdr := rfl
@[simp] theorem State.enterChan_frm (id : Byte) (c : Fin 16) : (s.enterChan id c).frm = s.frm := rfl
@[simp] theorem State.enterChan_out (id : Byte) (c : Fin 16) : (s.enterChan id c).out = s.out := rfl
@[simp] theorem State.enterChan_decoded (id : Byte) (c : Fin 16) : (s.enterChan id c).decoded = s.decoded := rfl
@[simp] theorem State.enterChan_draws (id : Byte) (c : Fin 16) : (s.enterChan id c).draws = s.draws := rfl
@[simp] theorem State.enterChan_queue (id : Byte) (c : Fin 16) : (s.enterChan id c).queue = s.queue := rfl

@[simp] theorem State.enterSub_valid (id : Byte) (c : Fin 16) (f : Fin 8) : (s.enterSub id c f).valid = s.valid := rfl
@[simp] theorem State.enterSub_status (id : Byte) (c : Fin 16) (f : Fin 8) : (s.enterSub id c f).status = s.status := rfl
@[simp] theorem State.enterSub_ctx (id : Byte) (c : Fin 16) (f : Fin 8) : (s.enterSub id c f).ctx = s.ctx := rfl
@[simp] theorem State.enterSub_key (id : Byte) (c : Fin 16) (f : Fin 8) : (s.enterSub id c f).key = s.key := rfl
@[simp] theorem State.enterSub_cipherTable (id : Byte) (c : Fin 16) (f : Fin 8) : (s.enterSub id c f).cipherTable = s.cipherTable := rfl
@[simp] theorem State.enterSub_athCurve (id : Byte) (c : Fin 16) (f : Fin 8) : (s.enterSub id c f).athCurve = s.athCurve := rfl
@[simp] theorem State.enterSub_random (id : Byte) (c : Fin 16) (f : Fin 8) : (s.enterSub id c f).random = s.random := rfl
@[simp] theorem State.enterSub_ch (id : Byte) (c : Fin 16) (f : Fin 8) : (s.enterSub id c f).ch = s.ch := rfl
@[simp] theorem State.enterSub_packedNoiseLevel (id : Byte) (c : Fin 16) (f : Fin 8) : (s.enterSub id c f).packedNoiseLevel = s.packedNoiseLevel := rfl
@[simp] theorem State.enterSub_cur (id : Byte) (c : Fin 16) (f : Fin 8) : (s.enterSub id c f).cur = s.cur := rfl
@[simp] theorem State.enterSub_stage (id : Byte) (c : Fin 16) (f : Fin 8) : (s.enterSub id c f).stage = id := rfl
@[simp] theorem State.enterSub_sf (id : Byte) (c : Fin 16) (f : Fin 8) : (s.enterSub id c f).sf = f := rfl
@[simp] theorem State.enterSub_c (id : Byte) (c : Fin 16) (f : Fin 8) : (s.enterSub id c f).c = c := rfl
@[simp] theorem State.enterSub_remaining (id : Byte) (c : Fin 16) (f : Fin 8) : (s.enterSub id c f).remaining = s.remaining := rfl
@[simp] theorem State.enterSub_hdrLen (id : Byte) (c : Fin 16) (f : Fin 8) : (s.enterSub id c f).hdrLen = s.hdrLen := rfl
@[simp] theorem State.enterSub_frmLen (id : Byte) (c : Fin 16) (f : Fin 8) : (s.enterSub id c f).frmLen = s.frmLen := rfl
@[simp] theorem State.enterSub_result (id : Byte) (c : Fin 16) (f : Fin 8) : (s.enterSub id c f).result = s.result := rfl
@[simp] theorem State.enterSub_hdr (id : Byte) (c : Fin 16) (f : Fin 8) : (s.enterSub id c f).hdr = s.hdr := rfl
@[simp] theorem State.enterSub_frm (id : Byte) (c : Fin 16) (f : Fin 8) : (s.enterSub id c f).frm = s.frm := rfl
@[simp] theorem State.enterSub_out (id : Byte) (c : Fin 16) (f : Fin 8) : (s.enterSub id c f).out = s.out := rfl
@[simp] theorem State.enterSub_decoded (id : Byte) (c : Fin 16) (f : Fin 8) : (s.enterSub id c f).decoded = s.decoded := rfl
@[simp] theorem State.enterSub_draws (id : Byte) (c : Fin 16) (f : Fin 8) : (s.enterSub id c f).draws = s.draws := rfl
@[simp] theorem State.enterSub_queue (id : Byte) (c : Fin 16) (f : Fin 8) : (s.enterSub id c f).queue = s.queue := rfl

@[simp] theorem State.setChan_valid (c : Fin 16) (x : Channel) : (s.setChan c x).valid = s.valid := rfl
@[simp] theorem State.setChan_status (c : Fin 16) (x : Channel) : (s.setChan c x).status = s.status := rfl
@[simp] theorem State.setChan_ctx (c : Fin 16) (x : Channel) : (s.setChan c x).ctx = s.ctx := rfl
@[simp] theorem State.setChan_key (c : Fin 16) (x : Channel) : (s.setChan c x).key = s.key := rfl
@[simp] theorem State.setChan_cipherTable (c : Fin 16) (x : Channel) : (s.setChan c x).cipherTable = s.cipherTable := rfl
@[simp] theorem State.setChan_athCurve (c : Fin 16) (x : Channel) : (s.setChan c x).athCurve = s.athCurve := rfl
@[simp] theorem State.setChan_random (c : Fin 16) (x : Channel) : (s.setChan c x).random = s.random := rfl
@[simp] theorem State.setChan_ch (c : Fin 16) (x : Channel) : (s.setChan c x).ch = s.ch.set c x := rfl
@[simp] theorem State.setChan_packedNoiseLevel (c : Fin 16) (x : Channel) : (s.setChan c x).packedNoiseLevel = s.packedNoiseLevel := rfl
@[simp] theorem State.setChan_cur (c : Fin 16) (x : Channel) : (s.setChan c x).cur = s.cur := rfl
@[simp] theorem State.setChan_stage (c : Fin 16) (x : Channel) : (s.setChan c x).stage = s.stage := rfl
@[simp] theorem State.setChan_sf (c : Fin 16) (x : Channel) : (s.setChan c x).sf = s.sf := rfl
@[simp] theorem State.setChan_c (c : Fin 16) (x : Channel) : (s.setChan c x).c = s.c := rfl
@[simp] theorem State.setChan_remaining (c : Fin 16) (x : Channel) : (s.setChan c x).remaining = s.remaining := rfl
@[simp] theorem State.setChan_hdrLen (c : Fin 16) (x : Channel) : (s.setChan c x).hdrLen = s.hdrLen := rfl
@[simp] theorem State.setChan_frmLen (c : Fin 16) (x : Channel) : (s.setChan c x).frmLen = s.frmLen := rfl
@[simp] theorem State.setChan_result (c : Fin 16) (x : Channel) : (s.setChan c x).result = s.result := rfl
@[simp] theorem State.setChan_hdr (c : Fin 16) (x : Channel) : (s.setChan c x).hdr = s.hdr := rfl
@[simp] theorem State.setChan_frm (c : Fin 16) (x : Channel) : (s.setChan c x).frm = s.frm := rfl
@[simp] theorem State.setChan_out (c : Fin 16) (x : Channel) : (s.setChan c x).out = s.out := rfl
@[simp] theorem State.setChan_decoded (c : Fin 16) (x : Channel) : (s.setChan c x).decoded = s.decoded := rfl
@[simp] theorem State.setChan_draws (c : Fin 16) (x : Channel) : (s.setChan c x).draws = s.draws := rfl
@[simp] theorem State.setChan_queue (c : Fin 16) (x : Channel) : (s.setChan c x).queue = s.queue := rfl

@[simp] theorem State.drew_valid (n : Nat) : (s.drew n).valid = s.valid := rfl
@[simp] theorem State.drew_status (n : Nat) : (s.drew n).status = s.status := rfl
@[simp] theorem State.drew_ctx (n : Nat) : (s.drew n).ctx = s.ctx := rfl
@[simp] theorem State.drew_key (n : Nat) : (s.drew n).key = s.key := rfl
@[simp] theorem State.drew_cipherTable (n : Nat) : (s.drew n).cipherTable = s.cipherTable := rfl
@[simp] theorem State.drew_athCurve (n : Nat) : (s.drew n).athCurve = s.athCurve := rfl
@[simp] theorem State.drew_random (n : Nat) : (s.drew n).random = s.random := rfl
@[simp] theorem State.drew_ch (n : Nat) : (s.drew n).ch = s.ch := rfl
@[simp] theorem State.drew_packedNoiseLevel (n : Nat) : (s.drew n).packedNoiseLevel = s.packedNoiseLevel := rfl
@[simp] theorem State.drew_cur (n : Nat) : (s.drew n).cur = s.cur := rfl
@[simp] theorem State.drew_stage (n : Nat) : (s.drew n).stage = s.stage := rfl
@[simp] theorem State.drew_sf (n : Nat) : (s.drew n).sf = s.sf := rfl
@[simp] theorem State.drew_c (n : Nat) : (s.drew n).c = s.c := rfl
@[simp] theorem State.drew_remaining (n : Nat) : (s.drew n).remaining = s.remaining := rfl
@[simp] theorem State.drew_hdrLen (n : Nat) : (s.drew n).hdrLen = s.hdrLen := rfl
@[simp] theorem State.drew_frmLen (n : Nat) : (s.drew n).frmLen = s.frmLen := rfl
@[simp] theorem State.drew_result (n : Nat) : (s.drew n).result = s.result := rfl
@[simp] theorem State.drew_hdr (n : Nat) : (s.drew n).hdr = s.hdr := rfl
@[simp] theorem State.drew_frm (n : Nat) : (s.drew n).frm = s.frm := rfl
@[simp] theorem State.drew_out (n : Nat) : (s.drew n).out = s.out := rfl
@[simp] theorem State.drew_decoded (n : Nat) : (s.drew n).decoded = s.decoded := rfl
@[simp] theorem State.drew_draws (n : Nat) : (s.drew n).draws = s.draws + n := rfl
@[simp] theorem State.drew_queue (n : Nat) : (s.drew n).queue = s.queue := rfl

@[simp] theorem State.idle_valid : (s.idle).valid = s.valid := rfl
@[simp] theorem State.idle_status : (s.idle).status = s.status := rfl
@[simp] theorem State.idle_ctx : (s.idle).ctx = s.ctx := rfl
@[simp] theorem State.idle_key : (s.idle).key = s.key := rfl
@[simp] theorem State.idle_cipherTable : (s.idle).cipherTable = s.cipherTable := rfl
@[simp] theorem State.idle_athCurve : (s.idle).athCurve = s.athCurve := rfl
@[simp] theorem State.idle_random : (s.idle).random = s.random := rfl
@[simp] theorem State.idle_ch : (s.idle).ch = s.ch := rfl
@[simp] theorem State.idle_packedNoiseLevel : (s.idle).packedNoiseLevel = s.packedNoiseLevel := rfl
@[simp] theorem State.idle_cur : (s.idle).cur = { s.cur with buf := none, sizeBits := 0 } := rfl
@[simp] theorem State.idle_stage : (s.idle).stage = 0 := rfl
@[simp] theorem State.idle_sf : (s.idle).sf = 0 := rfl
@[simp] theorem State.idle_c : (s.idle).c = 0 := rfl
@[simp] theorem State.idle_remaining : (s.idle).remaining = s.remaining := rfl
@[simp] theorem State.idle_hdrLen : (s.idle).hdrLen = s.hdrLen := rfl
@[simp] theorem State.idle_frmLen : (s.idle).frmLen = s.frmLen := rfl
@[simp] theorem State.idle_result : (s.idle).result = s.result := rfl
@[simp] theorem State.idle_hdr : (s.idle).hdr = s.hdr := rfl
@[simp] theorem State.idle_frm : (s.idle).frm = s.frm := rfl
@[simp] theorem State.idle_out : (s.idle).out = s.out := rfl
@[simp] theorem State.idle_decoded : (s.idle).decoded = s.decoded := rfl
@[simp] theorem State.idle_draws : (s.idle).draws = s.draws := rfl
@[simp] theorem State.idle_queue : (s.idle).queue = s.queue := rfl

@[simp] theorem State.leaveChunk_valid (n : Nat) : (s.leaveChunk n).valid = s.valid := rfl
@[simp] theorem State.leaveChunk_status (n : Nat) : (s.leaveChunk n).status = s.status := rfl
@[simp] theorem State.leaveChunk_ctx (n : Nat) : (s.leaveChunk n).ctx = s.ctx := rfl
@[simp] theorem State.leaveChunk_key (n : Nat) : (s.leaveChunk n).key = s.key := rfl
@[simp] theorem State.leaveChunk_cipherTable (n : Nat) : (s.leaveChunk n).cipherTable = s.cipherTable := rfl
@[simp] theorem State.leaveChunk_athCurve (n : Nat) : (s.leaveChunk n).athCurve = s.athCurve := rfl
@[simp] theorem State.leaveChunk_random (n : Nat) : (s.leaveChunk n).random = s.random := rfl
@[simp] theorem State.leaveChunk_ch (n : Nat) : (s.leaveChunk n).ch = s.ch := rfl
@[simp] theorem State.leaveChunk_packedNoiseLevel (n : Nat) : (s.leaveChunk n).packedNoiseLevel = s.packedNoiseLevel := rfl
@[simp] theorem State.leaveChunk_cur (n : Nat) : (s.leaveChunk n).cur = { s.cur with pos := s.cur.pos + 8 * n } := rfl
@[simp] theorem State.leaveChunk_stage (n : Nat) : (s.leaveChunk n).stage = s.stage := rfl
@[simp] theorem State.leaveChunk_sf (n : Nat) : (s.leaveChunk n).sf = s.sf := rfl
@[simp] theorem State.leaveChunk_c (n : Nat) : (s.leaveChunk n).c = s.c := rfl
@[simp] theorem State.leaveChunk_remaining (n : Nat) : (s.leaveChunk n).remaining = s.remaining - n := rfl
@[simp] theorem State.leaveChunk_hdrLen (n : Nat) : (s.leaveChunk n).hdrLen = s.hdrLen := rfl
@[simp] theorem State.leaveChunk_frmLen (n : Nat) : (s.leaveChunk n).frmLen = s.frmLen := rfl
@[simp] theorem State.leaveChunk_result (n : Nat) : (s.leaveChunk n).result = s.result := rfl
@[simp] theorem State.leaveChunk_hdr (n : Nat) : (s.leaveChunk n).hdr = s.hdr := rfl
@[simp] theorem State.leaveChunk_frm (n : Nat) : (s.leaveChunk n).frm = s.frm := rfl
@[simp] theorem State.leaveChunk_out (n : Nat) : (s.leaveChunk n).out = s.out := rfl
@[simp] theorem State.leaveChunk_decoded (n : Nat) : (s.leaveChunk n).decoded = s.decoded := rfl
@[simp] theorem State.leaveChunk_draws (n : Nat) : (s.leaveChunk n).draws = s.draws := rfl
@[simp] theorem State.leaveChunk_queue (n : Nat) : (s.leaveChunk n).queue = s.queue := rfl

@[simp] theorem State.chan_set (c : Fin 16) (x : Channel) : (s.setChan c x).chan c = x := by
  simp [State.chan, State.setChan]

theorem State.chan_set_ne (c d : Fin 16) (x : Channel) (h : c ≠ d) : (s.setChan c x).chan d = s.chan d := by
  have h' : c.val ≠ d.val := fun e => h (Fin.ext e)
  simp [State.chan, State.setChan, h']

@[simp] theorem State.chan_seek (p : Nat) (c : Fin 16) : (s.seek p).chan c = s.chan c := rfl
@[simp] theorem State.chan_enter (i : Byte) (c : Fin 16) : (s.enter i).chan c = s.chan c := rfl
@[simp] theorem State.chan_enterChan (i : Byte) (d c : Fin 16) : (s.enterChan i d).chan c = s.chan c := rfl
@[simp] theorem State.chan_enterSub (i : Byte) (d c : Fin 16) (f : Fin 8) : (s.enterSub i d f).chan c = s.chan c := rfl
@[simp] theorem State.chan_drew (n : Nat) (c : Fin 16) : (s.drew n).chan c = s.chan c := rfl

end Sys2Proof.Machine
end

