-- ==== Sys2Proof/Laws/Memory.lean ====
section
/-! SUPPORT. Laws of the sparse memories: what a read answers after a fill, that every memory operation keeps the
canonical form, and that canonical memories with equal reads are equal. -/

namespace Sys2Proof.Machine

variable {w : Nat}

/-- The canonical form as a statement about all listed cells. -/
theorem Mem.wf_iff (m : Mem w) : Mem.wf m = true ↔ m.Pairwise (fun a b => a.1 < b.1) ∧ ∀ c ∈ m, c.2 ≠ 0 := by
  induction m with
  | nil => simp [Mem.wf]
  | cons x rest ih =>
    obtain ⟨k, v⟩ := x
    cases rest with
    | nil => simp [Mem.wf]
    | cons y rest =>
      obtain ⟨k', v'⟩ := y
      simp only [Mem.wf, Bool.and_eq_true, ih, decide_eq_true_eq, bne_iff_ne, List.pairwise_cons, List.mem_cons,
        forall_eq_or_imp]
      constructor
      · rintro ⟨⟨hv, hk⟩, ⟨hp, hrest⟩, hv', hall⟩
        exact ⟨⟨⟨hk, fun c hc => Nat.lt_trans hk (hp c hc)⟩, hp, hrest⟩, hv, hv', hall⟩
      · rintro ⟨⟨⟨hk, -⟩, hp, hrest⟩, hv, hv', hall⟩
        exact ⟨⟨hv, hk⟩, ⟨hp, hrest⟩, hv', hall⟩

/-- A listed cell is what a read answers, addresses being distinct. -/
theorem Mem.read_of_mem {m : Mem w} (h : m.Pairwise (fun a b => a.1 < b.1)) {a : Nat} {v : BitVec w}
    (hm : (a, v) ∈ m) : Mem.read m a = v := by
  induction m with
  | nil => cases hm
  | cons x rest ih =>
    obtain ⟨k, u⟩ := x
    rw [List.pairwise_cons] at h
    rw [Mem.read]
    rcases List.mem_cons.1 hm with e | hm
    · injection e with e1 e2
      simp [e1, e2]
    · have := h.1 _ hm
      rw [if_neg (by simp at this; omega), ih h.2 hm]

/-- An address without a cell reads as 0. -/
theorem Mem.read_of_not_mem {m : Mem w} {a : Nat} (h : ∀ v, (a, v) ∉ m) : Mem.read m a = 0 := by
  induction m with
  | nil => rfl
  | cons x rest ih =>
    obtain ⟨k, u⟩ := x
    rw [Mem.read, if_neg, ih fun v hv => h v (List.mem_cons_of_mem _ hv)]
    rintro rfl
    exact h u (List.mem_cons_self ..)

theorem Mem.read_append (l m : Mem w) (a : Nat) :
    Mem.read (l ++ m) a = if ∃ v, (a, v) ∈ l then Mem.read l a else Mem.read m a := by
  induction l with
  | nil => simp
  | cons x rest ih =>
    obtain ⟨k, u⟩ := x
    simp only [List.cons_append, Mem.read]
    by_cases hk : k = a
    · subst hk
      rw [if_pos rfl, if_pos ⟨u, List.mem_cons_self ..⟩, if_pos rfl]
    · have : (∃ v, (a, v) ∈ (k, u) :: rest) ↔ ∃ v, (a, v) ∈ rest := by simp [Ne.symm hk]
      simp only [hk, if_false, ih, this]

theorem Mem.mem_listed (n : Nat) (f : Nat → BitVec w) (a : Nat) (v : BitVec w) :
    (a, v) ∈ Mem.listed n f ↔ a < n ∧ f a ≠ 0 ∧ v = f a := by
  simp only [Mem.listed, List.mem_filterMap, List.mem_range]
  constructor
  · rintro ⟨k, hk, h⟩
    split at h
    · cases h
    · rename_i h0
      injection h with h
      injection h with h1 h2
      subst h1
      exact ⟨hk, h0, h2.symm⟩
  · rintro ⟨h1, h2, rfl⟩
    exact ⟨a, h1, by rw [if_neg h2]⟩

theorem Mem.listed_pairwise (n : Nat) (f : Nat → BitVec w) :
    (Mem.listed n f).Pairwise (fun a b => a.1 < b.1) := by
  rw [Mem.listed, List.pairwise_filterMap]
  refine List.Pairwise.imp ?_ List.pairwise_lt_range
  intro a b hab x hx y hy
  split at hx <;> split at hy <;> cases hx <;> cases hy
  exact hab

theorem Mem.read_listed (n : Nat) (f : Nat → BitVec w) (a : Nat) :
    Mem.read (Mem.listed n f) a = if a < n then f a else 0 := by
  by_cases h : a < n ∧ f a ≠ 0
  · rw [if_pos h.1]
    exact Mem.read_of_mem (Mem.listed_pairwise n f) ((Mem.mem_listed n f a _).2 ⟨h.1, h.2, rfl⟩)
  · rw [Mem.read_of_not_mem fun v hv => h ⟨((Mem.mem_listed n f a v).1 hv).1, ((Mem.mem_listed n f a v).1 hv).2.1⟩]
    split
    · rename_i ha
      exact (not_and_not_right.1 h ha).symm
    · rfl

theorem Mem.read_filter (n : Nat) (m : Mem w) (a : Nat) :
    Mem.read (m.filter fun c => n ≤ c.1) a = if n ≤ a then Mem.read m a else 0 := by
  induction m with
  | nil => simp [Mem.read]
  | cons x rest ih =>
    obtain ⟨k, u⟩ := x
    by_cases hk : n ≤ k
    · rw [List.filter_cons_of_pos (by simpa using hk), Mem.read, ih, Mem.read]
      by_cases hka : k = a
      · subst hka; simp [hk]
      · simp [hka]
    · rw [List.filter_cons_of_neg (by simpa using hk), ih, Mem.read]
      by_cases hka : k = a
      · subst hka; simp [hk]
      · simp [hka]

/-- What a read answers after the one storing operation. -/
theorem Mem.read_fill (n : Nat) (f : Nat → BitVec w) (m : Mem w) (a : Nat) :
    Mem.read (Mem.fill n f m) a = if a < n then f a else Mem.read m a := by
  rw [Mem.fill, Mem.read_append, Mem.read_listed, Mem.read_filter]
  by_cases ha : a < n
  · by_cases hf : f a = 0
    · rw [if_neg (by rintro ⟨v, hv⟩; exact ((Mem.mem_listed n f a v).1 hv).2.1 hf), if_neg (by omega), if_pos ha, hf]
    · rw [if_pos ⟨f a, (Mem.mem_listed n f a _).2 ⟨ha, hf, rfl⟩⟩, if_pos ha, if_pos ha]
  · rw [if_neg (by rintro ⟨v, hv⟩; exact ha ((Mem.mem_listed n f a v).1 hv).1), if_pos (by omega), if_neg ha]

/-- The storing operation keeps the canonical form. -/
theorem Mem.wf_fill (n : Nat) (f : Nat → BitVec w) (m : Mem w) (h : Mem.wf m = true) :
    Mem.wf (Mem.fill n f m) = true := by
  rw [Mem.wf_iff] at *
  constructor
  · rw [Mem.fill, List.pairwise_append]
    refine ⟨Mem.listed_pairwise n f, h.1.filter _, ?_⟩
    intro a ha b hb
    have h1 := ((Mem.mem_listed n f a.1 a.2).1 ha).1
    have h2 := (List.mem_filter.1 hb).2
    simp at h2
    omega
  · intro c hc
    rcases List.mem_append.1 hc with hc | hc
    · have := (Mem.mem_listed n f c.1 c.2).1 hc
      rw [this.2.2]
      exact this.2.1
    · exact h.2 c (List.mem_filter.1 hc).1

@[simp] theorem Mem.wf_nil : Mem.wf ([] : Mem w) = true := rfl

/-- The state's memories as wholes are determined by their reads. -/
theorem Mem.ext_of_wf {m m' : Mem w} (h : Mem.wf m = true) (h' : Mem.wf m' = true)
    (e : ∀ a, Mem.read m a = Mem.read m' a) : m = m' := by
  rw [Mem.wf_iff] at h h'
  have key : ∀ {p q : Mem w}, (p.Pairwise fun a b => a.1 < b.1) → (∀ c ∈ p, c.2 ≠ 0) →
      (∀ a, Mem.read p a = Mem.read q a) → ∀ c ∈ p, c ∈ q := by
    intro p q hp hz e c hc
    by_contra hn
    have h1 : Mem.read p c.1 = c.2 := Mem.read_of_mem hp hc
    by_cases hex : ∃ v, (c.1, v) ∈ q
    · obtain ⟨v, hv⟩ := hex
      have h2 := e c.1
      rw [h1] at h2
      have : Mem.read q c.1 ∈ (q.filter fun d => d.1 = c.1).map (·.2) := by
        clear hn h2 e
        induction q with
        | nil => cases hv
        | cons y rest ih =>
          obtain ⟨k, u⟩ := y
          rw [Mem.read]
          by_cases hk : k = c.1
          · simp [hk]
          · simp only [hk, if_false]
            rcases List.mem_cons.1 hv with e' | hv
            · injection e' with e1 _
              exact absurd e1.symm hk
            · simpa [List.filter_cons, hk] using ih hv
      obtain ⟨d, hd, hdv⟩ := List.mem_map.1 this
      have hd' := List.mem_filter.1 hd
      simp at hd'
      exact hn (by rw [show c = d from Prod.ext hd'.2.symm (by rw [hdv, ← h2])]; exact hd'.1)
    · have h2 := Mem.read_of_not_mem (m := q) (a := c.1) fun v hv => hex ⟨v, hv⟩
      rw [← e, h1] at h2
      exact hz c hc h2
  refine List.Perm.eq_of_pairwise ?_ h.1 h'.1 ?_
  · intro a b _ _ h1 h2
    omega
  · refine (List.perm_ext_iff_of_nodup ?_ ?_).2 fun c =>
      ⟨key h.1 h.2 e c, key h'.1 h'.2 (fun a => (e a).symm) c⟩
    · exact h.1.imp fun hab hne => by rw [hne] at hab; omega
    · exact h'.1.imp fun hab hne => by rw [hne] at hab; omega

/-! Buffers. -/

theorem Buffer.byte_ofBytes (l : List Byte) (a : Nat) : (Buffer.ofBytes l).byte a = l.getD a 0 := by
  rw [Buffer.byte, Buffer.ofBytes, Mem.read_fill]
  split
  · rfl
  · rw [List.getD_eq_default _ _ (by omega)]; rfl

@[simp] theorem Buffer.size_ofBytes (l : List Byte) : (Buffer.ofBytes l).size = l.length := rfl

theorem Buffer.wf_iff (b : Buffer) : b.wf = true ↔ Mem.wf b.cells = true ∧ ∀ c ∈ b.cells, c.1 < b.size := by
  simp [Buffer.wf]

theorem Buffer.wf_ofBytes (l : List Byte) : (Buffer.ofBytes l).wf = true := by
  rw [Buffer.wf_iff]
  refine ⟨Mem.wf_fill _ _ _ rfl, ?_⟩
  intro c hc
  rcases List.mem_append.1 hc with hc | hc
  · exact ((Mem.mem_listed _ _ c.1 c.2).1 hc).1
  · simp at hc

theorem Buffer.byte_substitute (b : Buffer) (t : Vector Byte 256) (n a : Nat) :
    (b.substitute t n).byte a = if a < n then tableByte t (b.byte a) else b.byte a := by
  rw [Buffer.byte, Buffer.substitute, Mem.read_fill]; rfl

@[simp] theorem Buffer.size_substitute (b : Buffer) (t : Vector Byte 256) (n : Nat) :
    (b.substitute t n).size = b.size := rfl

theorem Buffer.wf_substitute (b : Buffer) (t : Vector Byte 256) (n : Nat) (h : b.wf = true) (hn : n ≤ b.size) :
    (b.substitute t n).wf = true := by
  rw [Buffer.wf_iff] at *
  refine ⟨Mem.wf_fill _ _ _ h.1, ?_⟩
  intro c hc
  rcases List.mem_append.1 hc with hc | hc
  · have := ((Mem.mem_listed _ _ c.1 c.2).1 hc).1
    simp; omega
  · exact h.2 c (List.mem_filter.1 hc).1

end Sys2Proof.Machine
end

