-- ==== Sys2Proof/Laws/Bits.lean ====
section
/-! SUPPORT. Laws of the bit cursor's reads: a request is the field it covers, requests split, and a request over bits
or bytes known to be ahead answers their number. -/

namespace Sys2Proof.Machine

/-- The number a list of bits is, the first most significant. -/
def bitsVal (l : List Bool) : Nat := l.foldl (fun a b => 2 * a + b.toNat) 0

/-- The number a list of bytes is, the first most significant. -/
def bytesVal (l : List Byte) : Nat := l.foldl (fun a b => 256 * a + b.toNat) 0

theorem Buffer.bit_eq (b : Buffer) (j : Nat) : b.bit j = (b.streamBit j).toNat := by
  have h : 7 - j % 8 < 8 := by omega
  have h8 : j % 8 < 8 := by omega
  rw [Buffer.bit, Buffer.streamBit, BitVec.getMsbD, decide_eq_true h8, Bool.true_and,
    show 8 - 1 - j % 8 = 7 - j % 8 by omega, BitVec.getLsbD, Nat.testBit_eq_decide_div_mod_eq]
  rcases Nat.mod_two_eq_zero_or_one ((b.byte (j / 8)).toNat / 2 ^ (7 - j % 8)) with e | e <;> simp [e]

theorem Buffer.bit_lt (b : Buffer) (j : Nat) : b.bit j < 2 := by
  rw [Buffer.bit]; omega

theorem Buffer.bits_lt (b : Buffer) (p n : Nat) : b.bits p n < 2 ^ n := by
  induction n with
  | zero => simp [Buffer.bits]
  | succ n ih =>
    have := b.bit_lt (p + n)
    rw [Buffer.bits, Nat.pow_succ]
    omega

theorem Buffer.bits_add (b : Buffer) (p n m : Nat) :
    b.bits p (n + m) = b.bits p n * 2 ^ m + b.bits (p + n) m := by
  induction m with
  | zero => simp [Buffer.bits]
  | succ m ih =>
    rw [← Nat.add_assoc, Buffer.bits, ih, Buffer.bits, Nat.pow_succ, Nat.add_assoc p n m]
    ring

theorem Buffer.bits_eq_fieldValue (b : Buffer) (p n : Nat) : b.bits p n = b.fieldValue p n := by
  induction n with
  | zero => simp [Buffer.bits, Buffer.fieldValue]
  | succ n ih =>
    rw [Buffer.bits, ih, Buffer.fieldValue, Buffer.fieldValue, Finset.sum_range_succ, Finset.mul_sum, b.bit_eq]
    congr 1
    · refine Finset.sum_congr rfl fun k hk => ?_
      have hk := Finset.mem_range.1 hk
      rw [show n + 1 - 1 - k = (n - 1 - k) + 1 by omega, Nat.pow_succ]
      ring
    · simp

theorem State.peekAt_eq (s : State) (p n : Nat) : s.peekAt p n = s.requestValue p n := by
  rw [State.peekAt, State.requestValue]
  by_cases h : n = 0
  · simp [h]
  · by_cases h' : s.cur.sizeBits < p + n
    · simp [h']
    · simp [h, h', Buffer.bits_eq_fieldValue]

theorem State.peekAt_lt (s : State) (p n : Nat) : s.peekAt p n < 2 ^ n := by
  rw [State.peekAt]
  split
  · exact Nat.two_pow_pos n
  · split
    · exact Nat.two_pow_pos n
    · exact Buffer.bits_lt ..

@[simp] theorem State.peekAt_zero (s : State) (p : Nat) : s.peekAt p 0 = 0 := by simp [State.peekAt]

/-- A request reads the cursor's buffer and length only. -/
theorem State.peekAt_congr {s t : State} (h1 : t.cur.buf = s.cur.buf) (h2 : t.cur.sizeBits = s.cur.sizeBits)
    (h3 : t.hdr = s.hdr) (h4 : t.frm = s.frm) (p n : Nat) : t.peekAt p n = s.peekAt p n := by
  have : t.active = s.active := by
    simp only [State.active, h1]
    cases s.cur.buf with
    | none => rfl
    | some b => cases b <;> simp [State.buffer, h3, h4]
  rw [State.peekAt, State.peekAt, h2, this]

/-! Numbers of bit lists. -/

@[simp] theorem bitsVal_nil : bitsVal [] = 0 := rfl

theorem bitsVal_foldl (l : List Bool) (a : Nat) :
    l.foldl (fun a b => 2 * a + b.toNat) a = a * 2 ^ l.length + bitsVal l := by
  induction l generalizing a with
  | nil => simp [bitsVal]
  | cons x l ih =>
    have h := ih (2 * 0 + x.toNat)
    rw [List.foldl_cons, ih, show bitsVal (x :: l) = l.foldl (fun a b => 2 * a + b.toNat) (2 * 0 + x.toNat) from rfl, h,
      List.length_cons, Nat.pow_succ]
    ring

theorem bitsVal_append (l l' : List Bool) : bitsVal (l ++ l') = bitsVal l * 2 ^ l'.length + bitsVal l' := by
  rw [bitsVal, List.foldl_append, bitsVal_foldl]; rfl

theorem bitsVal_cons (x : Bool) (l : List Bool) : bitsVal (x :: l) = x.toNat * 2 ^ l.length + bitsVal l := by
  rw [bitsVal, List.foldl_cons, bitsVal_foldl]; simp

theorem bitsVal_lt (l : List Bool) : bitsVal l < 2 ^ l.length := by
  induction l with
  | nil => simp
  | cons x l ih =>
    rw [bitsVal_cons, List.length_cons, Nat.pow_succ]
    cases x <;> simp <;> omega

@[simp] theorem length_bitsOf (n v : Nat) : (bitsOf n v).length = n := by simp [bitsOf]

theorem bitsOf_succ (n v : Nat) : bitsOf (n + 1) v = bitsOf n (v / 2) ++ [v.testBit 0] := by
  rw [bitsOf, List.range_succ, List.map_append, bitsOf]
  congr 1
  · refine List.map_congr_left fun k hk => ?_
    have := List.mem_range.1 hk
    rw [show n + 1 - 1 - k = (n - 1 - k) + 1 by omega, Nat.testBit_succ]
  · simp

theorem bitsVal_bitsOf (n v : Nat) : bitsVal (bitsOf n v) = v % 2 ^ n := by
  induction n generalizing v with
  | zero => simp [bitsOf, Nat.mod_one]
  | succ n ih =>
    rw [bitsOf_succ, bitsVal_append, ih]
    have h := Nat.mod_mul (x := v) (a := 2) (b := 2 ^ n)
    rw [← Nat.pow_succ'] at h
    rw [h, Nat.testBit_zero]
    rcases Nat.mod_two_eq_zero_or_one v with e | e <;> simp [e, bitsVal] <;> omega

theorem bitsVal_bitsOf_lt {n v : Nat} (h : v < 2 ^ n) : bitsVal (bitsOf n v) = v := by
  rw [bitsVal_bitsOf, Nat.mod_eq_of_lt h]

theorem bitsVal_replicate_true (n : Nat) : bitsVal (List.replicate n true) = 2 ^ n - 1 := by
  induction n with
  | zero => rfl
  | succ n ih =>
    rw [List.replicate_succ, bitsVal_cons, ih, List.length_replicate, Nat.pow_succ]
    have := Nat.two_pow_pos n
    simp; omega

theorem Buffer.bits_of_list (b : Buffer) (p : Nat) (l : List Bool)
    (h : ∀ i, i < l.length → b.streamBit (p + i) = l.getD i false) : b.bits p l.length = bitsVal l := by
  induction l using List.reverseRecOn with
  | nil => simp [Buffer.bits]
  | append_singleton l x ih =>
    rw [List.length_append, List.length_singleton, Buffer.bits, ih, bitsVal_append, b.bit_eq, h l.length (by simp)]
    · simp [bitsVal]; omega
    · intro i hi
      rw [h i (by simp; omega), List.getD_append _ _ _ _ hi]

/-! Bits ahead of the cursor. -/

theorem State.bitsAhead.left {s : State} {p : Nat} {l l' : List Bool} (h : s.bitsAhead p (l ++ l')) :
    s.bitsAhead p l := by
  refine ⟨by have := h.1; simp at this; omega, fun i hi => ?_⟩
  rw [h.2 i (by simp; omega), List.getD_append _ _ _ _ hi]

theorem State.bitsAhead.right {s : State} {p : Nat} {l l' : List Bool} (h : s.bitsAhead p (l ++ l')) :
    s.bitsAhead (p + l.length) l' := by
  refine ⟨by have := h.1; simp at this; omega, fun i hi => ?_⟩
  rw [Nat.add_assoc, h.2 (l.length + i) (by simp; omega),
    List.getD_append_right _ _ _ _ (by omega), Nat.add_sub_cancel_left]

/-- A request over bits that are ahead answers their number. -/
theorem State.bitsAhead.peek {s : State} {p : Nat} {l : List Bool} (h : s.bitsAhead p l) :
    s.peekAt p l.length = bitsVal l := by
  rw [State.peekAt]
  split
  · rename_i h0
    rw [List.length_eq_zero_iff.1 h0]; rfl
  · rw [if_neg (by have := h.1; omega)]
    exact Buffer.bits_of_list _ _ _ h.2

/-- The first field of the bits ahead. -/
theorem State.bitsAhead.peek_first {s : State} {p n v : Nat} {l : List Bool} (h : s.bitsAhead p (bitsOf n v ++ l))
    (hv : v < 2 ^ n) : s.peekAt p n = v := by
  have := h.left.peek
  rwa [length_bitsOf, bitsVal_bitsOf_lt hv] at this

/-- What is behind the first field. -/
theorem State.bitsAhead.behind {s : State} {p n v : Nat} {l : List Bool} (h : s.bitsAhead p (bitsOf n v ++ l)) :
    s.bitsAhead (p + n) l := by
  have := h.right
  rwa [length_bitsOf] at this

theorem State.bitsAhead_congr {s t : State} (h1 : t.cur.buf = s.cur.buf) (h2 : t.cur.sizeBits = s.cur.sizeBits)
    (h3 : t.hdr = s.hdr) (h4 : t.frm = s.frm) (p : Nat) (l : List Bool) : t.bitsAhead p l ↔ s.bitsAhead p l := by
  have : t.active = s.active := by
    simp only [State.active, h1]
    cases s.cur.buf with
    | none => rfl
    | some b => cases b <;> simp [State.buffer, h3, h4]
  rw [State.bitsAhead, State.bitsAhead, h2, this]

/-! Bytes. -/

theorem Buffer.bits_eight (b : Buffer) (a : Nat) : b.bits (8 * a) 8 = (b.byte a).toNat := by
  have h : ∀ i, i < 8 → b.bit (8 * a + i) = (b.byte a).toNat / 2 ^ (7 - i) % 2 := by
    intro i hi
    rw [Buffer.bit, show (8 * a + i) / 8 = a by omega, show (8 * a + i) % 8 = i by omega]
  have hb := (b.byte a).isLt
  simp only [Buffer.bits, h 0 (by omega), h 1 (by omega), h 2 (by omega), h 3 (by omega), h 4 (by omega),
    h 5 (by omega), h 6 (by omega), h 7 (by omega)]
  norm_num
  omega

theorem Buffer.bits_four (b : Buffer) (a : Nat) : b.bits (8 * a) 4 = (b.byte a).toNat / 16 := by
  have h1 := b.bits_add (8 * a) 4 4
  have h2 := b.bits_lt (8 * a + 4) 4
  rw [b.bits_eight] at h1
  omega

theorem Buffer.bits_low_four (b : Buffer) (a : Nat) : b.bits (8 * a + 4) 4 = (b.byte a).toNat % 16 := by
  have h1 := b.bits_add (8 * a) 4 4
  have h2 := b.bits_lt (8 * a + 4) 4
  rw [b.bits_eight] at h1
  omega

@[simp] theorem bytesVal_nil : bytesVal [] = 0 := rfl

theorem bytesVal_append_one (l : List Byte) (x : Byte) : bytesVal (l ++ [x]) = 256 * bytesVal l + x.toNat := by
  simp [bytesVal, List.foldl_append]

theorem Buffer.bits_of_bytes (b : Buffer) (a : Nat) (l : List Byte)
    (h : ∀ i, i < l.length → b.byte (a + i) = l.getD i 0) : b.bits (8 * a) (8 * l.length) = bytesVal l := by
  induction l using List.reverseRecOn with
  | nil => simp [Buffer.bits]
  | append_singleton l x ih =>
    rw [List.length_append, List.length_singleton, Nat.mul_add, Buffer.bits_add, ih, bytesVal_append_one,
      show 8 * a + 8 * l.length = 8 * (a + l.length) by omega, Nat.mul_one, b.bits_eight, h l.length (by simp)]
    · simp; omega
    · intro i hi
      rw [h i (by simp; omega), List.getD_append _ _ _ _ hi]

@[simp] theorem length_be16 (w : BitVec 16) : (be16 w).length = 2 := rfl
@[simp] theorem length_be24 (w : BitVec 24) : (be24 w).length = 3 := rfl
@[simp] theorem length_be32 (w : BitVec 32) : (be32 w).length = 4 := rfl

theorem bytesVal_one (x : Byte) : bytesVal [x] = x.toNat := by simp [bytesVal]

theorem bytesVal_be16 (w : BitVec 16) : bytesVal (be16 w) = w.toNat := by
  have := w.isLt
  simp [bytesVal, be16, BitVec.extractLsb'_toNat, Nat.shiftRight_eq_div_pow]; omega

theorem bytesVal_be24 (w : BitVec 24) : bytesVal (be24 w) = w.toNat := by
  have := w.isLt
  simp [bytesVal, be24, BitVec.extractLsb'_toNat, Nat.shiftRight_eq_div_pow]; omega

theorem bytesVal_be32 (w : BitVec 32) : bytesVal (be32 w) = w.toNat := by
  have := w.isLt
  simp [bytesVal, be32, BitVec.extractLsb'_toNat, Nat.shiftRight_eq_div_pow]; omega

/-- A field of whole bytes of the header stream ahead. -/
theorem State.headerAhead.field {s : State} {pre mid post : List Byte} (h : s.headerAhead (pre ++ mid ++ post)) :
    s.peekAt (s.cur.pos + 8 * pre.length) (8 * mid.length) = bytesVal mid := by
  obtain ⟨hb, h8, hs, hl⟩ := h
  rw [State.peekAt]
  split
  · rename_i h0
    have : mid = [] := List.length_eq_zero_iff.1 (by omega)
    rw [this]; rfl
  · rw [if_neg (by simp at hs; omega)]
    have ha : s.active = s.hdr := by simp [State.active, hb, State.buffer]
    rw [ha, show s.cur.pos + 8 * pre.length = 8 * (s.cur.pos / 8 + pre.length) by omega]
    refine Buffer.bits_of_bytes _ _ _ fun i hi => ?_
    rw [Nat.add_assoc, hl (pre.length + i) (by simp; omega), List.append_assoc,
      List.getD_append_right _ _ _ _ (by omega), Nat.add_sub_cancel_left, List.getD_append _ _ _ _ hi]

/-- Byte `k` of the header stream ahead. -/
theorem State.headerAhead.byteAt {s : State} {l : List Byte} (h : s.headerAhead l) {k : Nat} (hk : k < l.length) :
    s.hdr.byte (s.cur.pos / 8 + k) = l.getD k 0 := h.2.2.2 k hk

theorem State.headerAhead.nibbles {s : State} {pre post : List Byte} {x : Byte} (h : s.headerAhead (pre ++ [x] ++ post)) :
    s.peekAt (s.cur.pos + 8 * pre.length) 4 = x.toNat / 16 ∧ s.peekAt (s.cur.pos + 8 * pre.length + 4) 4 = x.toNat % 16 := by
  have hx := h.byteAt (k := pre.length) (by simp)
  obtain ⟨hb, h8, hs, -⟩ := h
  have ha : s.active = s.hdr := by simp [State.active, hb, State.buffer]
  simp at hs
  simp only [List.append_assoc, List.getD_append_right _ _ _ _ (Nat.le_refl _), Nat.sub_self] at hx
  have hx' : s.hdr.byte (s.cur.pos / 8 + pre.length) = x := by simpa using hx
  constructor
  · rw [State.peekAt, if_neg (by omega), if_neg (by omega), ha,
      show s.cur.pos + 8 * pre.length = 8 * (s.cur.pos / 8 + pre.length) by omega, Buffer.bits_four, hx']
  · rw [State.peekAt, if_neg (by omega), if_neg (by omega), ha,
      show s.cur.pos + 8 * pre.length + 4 = 8 * (s.cur.pos / 8 + pre.length) + 4 by omega, Buffer.bits_low_four, hx']

end Sys2Proof.Machine
end

