-- ==== Sys2Proof/Laws/Header.lean ====
section
/-! SUPPORT. What each chunk stage does over the bytes ahead of the cursor: one lemma per chunk that is present, and one
for every absent one. The shared fact is the value of a field of whole bytes. -/

namespace Sys2Proof.Machine

theorem present_iff (s : State) (tag : BitVec 32) (size : Nat) : present s tag size = true ↔ ¬ absent s tag size := by
  simp [present, absent, State.peek, State.peekAt_eq, tagMask]

theorem present_enter (s : State) (id : Byte) (tag : BitVec 32) (size : Nat) :
    present (s.enter id) tag size = present s tag size := rfl

theorem absent_false {s : State} {tag : BitVec 32} {size : Nat} (h : absent s tag size) :
    present s tag size = false := by
  cases hp : present s tag size
  · rfl
  · exact absurd h ((present_iff s tag size).1 hp)

/-- The field of whole bytes `mid` behind `pre` in the header stream ahead. -/
theorem State.headerAhead.fieldEq {s : State} (pre mid post : List Byte) (h : s.headerAhead (pre ++ mid ++ post))
    (w : Nat) : s.field (s.cur.pos + 8 * pre.length) (8 * mid.length) w = BitVec.ofNat w (bytesVal mid) := by
  rw [State.field, h.field]

/-- The tag ahead is present when the counter allows it. -/
theorem State.headerAhead.present {s : State} {w tag : BitVec 32} {rest : List Byte} {size : Nat}
    (h : s.headerAhead (be32 w ++ rest)) (hw : spells w tag) (hs : size ≤ s.remaining) :
    present s tag size = true := by
  have hf := State.headerAhead.field (s := s) (pre := []) (mid := be32 w) (post := rest) h
  have hf' : s.peek 32 = w.toNat := by rw [← bytesVal_be32]; exact hf
  have hw' : w &&& tagMask = tag := hw
  simp [Machine.present, hs, hf', hw']

/-- The bytes ahead of a header stream, one after another. -/
theorem State.headerAhead.left {s : State} {l l' : List Byte} (h : s.headerAhead (l ++ l')) : s.headerAhead l := by
  obtain ⟨h1, h2, h3, h4⟩ := h
  refine ⟨h1, h2, by simp at h3; omega, fun i hi => ?_⟩
  rw [h4 i (by simp; omega), List.getD_append _ _ _ _ hi]

/-- What is ahead once the cursor stands behind the first bytes. -/
theorem State.headerAhead.behind {s t : State} {l l' : List Byte} (h : s.headerAhead (l ++ l'))
    (hh : t.hdr = s.hdr) (hc : t.cur = s.cur.advance (8 * l.length)) : t.headerAhead l' := by
  obtain ⟨h1, h2, h3, h4⟩ := h
  refine ⟨by rw [hc]; exact h1, by rw [hc]; simp [Cursor.advance]; omega,
    by rw [hc]; simp at h3; simp [Cursor.advance]; omega, fun i hi => ?_⟩
  rw [hh, show t.cur.pos / 8 + i = s.cur.pos / 8 + (l.length + i) by rw [hc]; simp [Cursor.advance]; omega,
    h4 _ (by simp; omega), List.getD_append_right _ _ _ _ (by omega), Nat.add_sub_cancel_left]

theorem setWidth_ofNat_toNat {v w : Nat} (x : BitVec v) : BitVec.ofNat w x.toNat = x.setWidth w :=
  BitVec.ofNat_toNat w x

variable {s : State}

/-- HD_FMT over its chunk (rule R124). -/
theorem hdFmt_ahead {w : BitVec 32} {cc : BitVec 8} {sr : BitVec 24} {fc : BitVec 32} {ed ep : BitVec 16}
    (hw : spells w 0x666D7400#32) (h : s.headerAhead (fmtBytes w cc sr fc ed ep)) (hr : 16 ≤ s.remaining) :
    hdFmt s = .done
      { s with stage := 0x11, cur := s.cur.advance 128, remaining := s.remaining - 16,
               ctx := { s.ctx with channelCount := cc, sampleRate := sr, frameCount := fc,
                                   encoderDelay := ed, encoderPadding := ep } } := by
  have hp : present s tagFmt 16 = true := State.headerAhead.present (rest := [cc] ++ be24 sr ++ be32 fc ++ be16 ed ++ be16 ep) h hw hr
  have f1 : s.field (s.cur.pos + 32) 8 8 = _ := h.fieldEq (be32 w) [cc] (be24 sr ++ be32 fc ++ be16 ed ++ be16 ep) 8
  have f2 : s.field (s.cur.pos + 40) 24 24 = _ := h.fieldEq (be32 w ++ [cc]) (be24 sr) (be32 fc ++ be16 ed ++ be16 ep) 24
  have f3 : s.field (s.cur.pos + 64) 32 32 = _ := h.fieldEq (be32 w ++ [cc] ++ be24 sr) (be32 fc) (be16 ed ++ be16 ep) 32
  have f4 : s.field (s.cur.pos + 96) 16 16 = _ := h.fieldEq (be32 w ++ [cc] ++ be24 sr ++ be32 fc) (be16 ed) (be16 ep) 16
  have f5 : s.field (s.cur.pos + 112) 16 16 = _ := h.fieldEq (be32 w ++ [cc] ++ be24 sr ++ be32 fc ++ be16 ed) (be16 ep) [] 16
  simp only [bytesVal_one, bytesVal_be24, bytesVal_be32, bytesVal_be16, BitVec.ofNat_toNat, BitVec.setWidth_eq] at f1 f2 f3 f4 f5
  rw [hdFmt]
  simp only [present_enter, hp, if_true]
  rw [← f1, ← f2, ← f3, ← f4, ← f5]
  rfl

/-- HD_COMP over its chunk (rule R125). -/
theorem hdComp_ahead {w : BitVec 32} {size : BitVec 16} {mn mx tr cf tot b st g ms rs : BitVec 8}
    (hw : spells w 0x636F6D70#32) (h : s.headerAhead (compBytes w size mn mx tr cf tot b st g ms rs))
    (hr : 16 ≤ s.remaining) :
    hdComp s = .done
      { s with stage := 0x12, cur := s.cur.advance 128, remaining := s.remaining - 16,
               ctx := { s.ctx with frameSize := size, minResolution := mn, maxResolution := mx, trackCount := tr,
                                   channelConfig := cf, totalBandCount := tot.setWidth 9,
                                   baseBandCount := b.setWidth 9, stereoBandCount := st.setWidth 9,
                                   bandsPerHfrGroup := g, msStereo := ms, reserved := rs, stereoType := 0 } } := by
  have hp : present s tagComp 16 = true :=
    State.headerAhead.present (rest := be16 size ++ [mn, mx, tr, cf, tot, b, st, g, ms, rs]) h hw hr
  have f0 : s.field (s.cur.pos + 32) 16 16 = _ := h.fieldEq (be32 w) (be16 size) [mn, mx, tr, cf, tot, b, st, g, ms, rs] 16
  have f1 : s.field (s.cur.pos + 48) 8 8 = _ := h.fieldEq (be32 w ++ be16 size) [mn] [mx, tr, cf, tot, b, st, g, ms, rs] 8
  have f2 : s.field (s.cur.pos + 56) 8 8 = _ := h.fieldEq (be32 w ++ be16 size ++ [mn]) [mx] [tr, cf, tot, b, st, g, ms, rs] 8
  have f3 : s.field (s.cur.pos + 64) 8 8 = _ := h.fieldEq (be32 w ++ be16 size ++ [mn, mx]) [tr] [cf, tot, b, st, g, ms, rs] 8
  have f4 : s.field (s.cur.pos + 72) 8 8 = _ := h.fieldEq (be32 w ++ be16 size ++ [mn, mx, tr]) [cf] [tot, b, st, g, ms, rs] 8
  have f5 : s.field (s.cur.pos + 80) 8 9 = _ := h.fieldEq (be32 w ++ be16 size ++ [mn, mx, tr, cf]) [tot] [b, st, g, ms, rs] 9
  have f6 : s.field (s.cur.pos + 88) 8 9 = _ := h.fieldEq (be32 w ++ be16 size ++ [mn, mx, tr, cf, tot]) [b] [st, g, ms, rs] 9
  have f7 : s.field (s.cur.pos + 96) 8 9 = _ := h.fieldEq (be32 w ++ be16 size ++ [mn, mx, tr, cf, tot, b]) [st] [g, ms, rs] 9
  have f8 : s.field (s.cur.pos + 104) 8 8 = _ := h.fieldEq (be32 w ++ be16 size ++ [mn, mx, tr, cf, tot, b, st]) [g] [ms, rs] 8
  have f9 : s.field (s.cur.pos + 112) 8 8 = _ := h.fieldEq (be32 w ++ be16 size ++ [mn, mx, tr, cf, tot, b, st, g]) [ms] [rs] 8
  have f10 : s.field (s.cur.pos + 120) 8 8 = _ := h.fieldEq (be32 w ++ be16 size ++ [mn, mx, tr, cf, tot, b, st, g, ms]) [rs] [] 8
  simp only [bytesVal_one, bytesVal_be16, BitVec.ofNat_toNat, BitVec.setWidth_eq] at f0 f1 f2 f3 f4 f5 f6 f7 f8 f9 f10
  rw [hdComp]
  simp only [present_enter, hp, if_true]
  rw [← f0, ← f1, ← f2, ← f3, ← f4, ← f5, ← f6, ← f7, ← f8, ← f9, ← f10]
  rfl

/-- HD_DEC over its chunk (rule R127). -/
theorem hdDec_ahead {w : BitVec 32} {size : BitVec 16} {mn mx tot b : BitVec 8} {tr cf : BitVec 4} {sty : BitVec 8}
    (hw : spells w 0x64656300#32) (h : s.headerAhead (decBytes w size mn mx tot b tr cf sty))
    (hr : 12 ≤ s.remaining) :
    let total : BitVec 9 := tot.setWidth 9 + 1
    let base : BitVec 9 := if sty = 0 then total else b.setWidth 9 + 1
    let x := { s.ctx with
      frameSize := size, minResolution := mn, maxResolution := mx, totalBandCount := total, baseBandCount := base
      trackCount := tr.setWidth 8, channelConfig := cf.setWidth 8, stereoType := sty }
    hdDec s =
      if total.toNat < base.toNat then
        .raised .headerInvalid { s with stage := 0x13, cur := s.cur.advance 96, ctx := x }
      else .done
        { s with stage := 0x13, cur := s.cur.advance 96, remaining := s.remaining - 12,
                 ctx := { x with stereoBandCount := total - base, bandsPerHfrGroup := 0, msStereo := 0,
                                 reserved := 0 } } := by
  have hp : present s tagDec 12 = true :=
    State.headerAhead.present (rest := be16 size ++ [mn, mx, tot, b, tr ++ cf, sty]) h hw hr
  have f0 : s.field (s.cur.pos + 32) 16 16 = _ := h.fieldEq (be32 w) (be16 size) [mn, mx, tot, b, tr ++ cf, sty] 16
  have f1 : s.field (s.cur.pos + 48) 8 8 = _ := h.fieldEq (be32 w ++ be16 size) [mn] [mx, tot, b, tr ++ cf, sty] 8
  have f2 : s.field (s.cur.pos + 56) 8 8 = _ := h.fieldEq (be32 w ++ be16 size ++ [mn]) [mx] [tot, b, tr ++ cf, sty] 8
  have f3 : s.field (s.cur.pos + 64) 8 9 = _ := h.fieldEq (be32 w ++ be16 size ++ [mn, mx]) [tot] [b, tr ++ cf, sty] 9
  have f4 : s.field (s.cur.pos + 72) 8 9 = _ := h.fieldEq (be32 w ++ be16 size ++ [mn, mx, tot]) [b] [tr ++ cf, sty] 9
  have fn := State.headerAhead.nibbles (s := s) (pre := be32 w ++ be16 size ++ [mn, mx, tot, b]) (x := tr ++ cf) (post := [sty]) h
  have f7 : s.field (s.cur.pos + 88) 8 8 = _ := h.fieldEq (be32 w ++ be16 size ++ [mn, mx, tot, b, tr ++ cf]) [sty] [] 8
  have hn : (tr ++ cf).toNat = tr.toNat * 16 + cf.toNat := by
    rw [BitVec.toNat_append, ← Nat.shiftLeft_add_eq_or_of_lt cf.isLt, Nat.shiftLeft_eq]
  have f5 : s.field (s.cur.pos + 80) 4 8 = tr.setWidth 8 := by
    have e : s.peekAt (s.cur.pos + 80) 4 = _ := fn.1
    rw [State.field, e, hn, ← setWidth_ofNat_toNat]
    have := cf.isLt
    congr 1; omega
  have f6 : s.field (s.cur.pos + 84) 4 8 = cf.setWidth 8 := by
    have e : s.peekAt (s.cur.pos + 84) 4 = _ := fn.2
    rw [State.field, e, hn, ← setWidth_ofNat_toNat]
    have := cf.isLt
    congr 1; omega
  simp only [bytesVal_one, bytesVal_be16, BitVec.ofNat_toNat, BitVec.setWidth_eq] at f0 f1 f2 f3 f4 f7
  intro total base x
  rw [hdDec]
  simp only [present_enter, hp, if_true]
  simp only [total, base, x]
  rw [← f0, ← f1, ← f2, ← f3, ← f4, ← f5, ← f6, ← f7]
  rfl

/-- HD_ATH over its chunk (rule R130). -/
theorem hdAth_ahead {w : BitVec 32} {type : BitVec 16} (hw : spells w 0x61746800#32)
    (h : s.headerAhead (athBytes w type)) (hr : 6 ≤ s.remaining) :
    hdAth s = .done { s with stage := 0x15, cur := s.cur.advance 48, remaining := s.remaining - 6,
                             ctx := { s.ctx with athType := type } } := by
  have hp : present s tagAth 6 = true := State.headerAhead.present (rest := be16 type) h hw hr
  have f0 : s.field (s.cur.pos + 32) 16 16 = _ := h.fieldEq (be32 w) (be16 type) [] 16
  simp only [bytesVal_be16, BitVec.ofNat_toNat, BitVec.setWidth_eq] at f0
  rw [hdAth]
  simp only [present_enter, hp, if_true]
  rw [← f0]
  rfl

/-- HD_CIPH over its chunk (rule R132). -/
theorem hdCiph_ahead {w : BitVec 32} {type : BitVec 16} (hw : spells w 0x63697068#32)
    (h : s.headerAhead (ciphBytes w type)) (hr : 6 ≤ s.remaining) :
    hdCiph s = if type = 0 ∨ type = 1 ∨ type = 56
      then .done { s with stage := 0x17, cur := s.cur.advance 48, remaining := s.remaining - 6,
                          ctx := { s.ctx with cipherType := type } }
      else .raised .headerInvalid
        { s with stage := 0x17, cur := s.cur.advance 48, ctx := { s.ctx with cipherType := type } } := by
  have hp : present s tagCiph 6 = true := State.headerAhead.present (rest := be16 type) h hw hr
  have f0 : s.field (s.cur.pos + 32) 16 16 = _ := h.fieldEq (be32 w) (be16 type) [] 16
  simp only [bytesVal_be16, BitVec.ofNat_toNat, BitVec.setWidth_eq] at f0
  rw [hdCiph]
  simp only [present_enter, hp, if_true]
  rw [← f0]
  rfl

/-- HD_RVA over its chunk (rule R133). -/
theorem hdRva_ahead {w volume : BitVec 32} (hw : spells w 0x72766100#32)
    (h : s.headerAhead (rvaBytes w volume)) (hr : 8 ≤ s.remaining) :
    hdRva s = .done { s with stage := 0x18, cur := s.cur.advance 64, remaining := s.remaining - 8,
                             ctx := { s.ctx with rvaVolume := volume } } := by
  have hp : present s tagRva 8 = true := State.headerAhead.present (rest := be32 volume) h hw hr
  have f0 : s.field (s.cur.pos + 32) 32 32 = _ := h.fieldEq (be32 w) (be32 volume) [] 32
  simp only [bytesVal_be32, BitVec.ofNat_toNat, BitVec.setWidth_eq] at f0
  rw [hdRva]
  simp only [present_enter, hp, if_true]
  rw [← f0]
  rfl

/-- HD_LOOP over its chunk (rule R131). -/
theorem hdLoop_ahead {w first last : BitVec 32} {sd ep : BitVec 16} (hw : spells w 0x6C6F6F70#32)
    (h : s.headerAhead (loopBytes w first last sd ep)) (hr : 16 ≤ s.remaining) :
    let x := { s.ctx with loopStartFrame := first, loopEndFrame := last, loopStartDelay := sd,
                          loopEndPadding := ep, loopEnabled := true }
    hdLoop s = if first.toNat ≤ last.toNat ∧ last.toNat < s.ctx.frameCount.toNat
      then .done { s with stage := 0x16, cur := s.cur.advance 128, remaining := s.remaining - 16, ctx := x }
      else .raised .headerInvalid { s with stage := 0x16, cur := s.cur.advance 128, ctx := x } := by
  have hp : present s tagLoop 16 = true :=
    State.headerAhead.present (rest := be32 first ++ be32 last ++ be16 sd ++ be16 ep) h hw hr
  have f0 : s.field (s.cur.pos + 32) 32 32 = _ := h.fieldEq (be32 w) (be32 first) (be32 last ++ be16 sd ++ be16 ep) 32
  have f1 : s.field (s.cur.pos + 64) 32 32 = _ := h.fieldEq (be32 w ++ be32 first) (be32 last) (be16 sd ++ be16 ep) 32
  have f2 : s.field (s.cur.pos + 96) 16 16 = _ := h.fieldEq (be32 w ++ be32 first ++ be32 last) (be16 sd) (be16 ep) 16
  have f3 : s.field (s.cur.pos + 112) 16 16 = _ := h.fieldEq (be32 w ++ be32 first ++ be32 last ++ be16 sd) (be16 ep) [] 16
  simp only [bytesVal_be32, bytesVal_be16, BitVec.ofNat_toNat, BitVec.setWidth_eq] at f0 f1 f2 f3
  intro x
  rw [hdLoop]
  simp only [present_enter, hp, if_true]
  simp only [x]
  rw [← f0, ← f1, ← f2, ← f3]
  rfl

/-- HD_VBR over its chunk (rule R129). -/
theorem hdVbr_ahead {w : BitVec 32} {size level : BitVec 16} (hw : spells w 0x76627200#32)
    (h : s.headerAhead (vbrBytes w size level)) (hr : 8 ≤ s.remaining) :
    let x := { s.ctx with vbrMaxFrameSize := size, vbrNoiseLevel := level }
    hdVbr s = if s.ctx.frameSize = 0 ∧ 8 < size.toNat ∧ size.toNat ≤ 0x1FF
      then .done { s with stage := 0x14, cur := s.cur.advance 64, remaining := s.remaining - 8, ctx := x }
      else .raised .headerInvalid { s with stage := 0x14, cur := s.cur.advance 64, ctx := x } := by
  have hp : present s tagVbr 8 = true := State.headerAhead.present (rest := be16 size ++ be16 level) h hw hr
  have f0 : s.field (s.cur.pos + 32) 16 16 = _ := h.fieldEq (be32 w) (be16 size) (be16 level) 16
  have f1 : s.field (s.cur.pos + 48) 16 16 = _ := h.fieldEq (be32 w ++ be16 size) (be16 level) [] 16
  simp only [bytesVal_be16, BitVec.ofNat_toNat, BitVec.setWidth_eq] at f0 f1
  intro x
  rw [hdVbr]
  simp only [present_enter, hp, if_true]
  simp only [x]
  rw [← f0, ← f1]
  rfl

/-- HD_COMM over its chunk (rule R134): the stored length is the number of characters. -/
theorem hdComm_ahead {w : BitVec 32} {text : List Byte} (hw : spells w 0x636F6D6D#32) (hl : text.length < 256)
    (h : s.headerAhead (commBytes w text)) (hr : 5 + text.length ≤ s.remaining) :
    hdComm s = .done
      { s with stage := 0x19, cur := s.cur.advance (40 + 8 * text.length),
               remaining := s.remaining - (5 + text.length)
               ctx := { s.ctx with
                 commentLength := BitVec.ofNat 8 text.length
                 comment := tabulate 255 fun i => if i < text.length then text.getD i 0 else rd s.ctx.comment i } } := by
  have hp : present s tagComm 5 = true :=
    State.headerAhead.present (rest := [BitVec.ofNat 8 text.length] ++ text) (by simpa [commBytes] using h) hw (by omega)
  have f0 : s.peekAt (s.cur.pos + 32) 8 = text.length := by
    have e := State.headerAhead.field (s := s) (pre := be32 w) (mid := [BitVec.ofNat 8 text.length]) (post := text) h
    rw [bytesVal_one, BitVec.toNat_ofNat, Nat.mod_eq_of_lt hl] at e
    exact e
  have f1 : ∀ i, i < text.length → s.field (s.cur.pos + 40 + 8 * i) 8 8 = text.getD i 0 := by
    intro i hi
    have hsplit : text = text.take i ++ ([text.getD i 0] ++ text.drop (i + 1)) := by
      rw [List.singleton_append, List.getD_eq_getElem _ _ hi, List.cons_getElem_drop_succ, List.take_append_drop]
    have h' : s.headerAhead ((be32 w ++ [BitVec.ofNat 8 text.length] ++ text.take i) ++ [text.getD i 0]
        ++ text.drop (i + 1)) := by
      rw [commBytes] at h
      have : be32 w ++ [BitVec.ofNat 8 text.length] ++ text.take i ++ [text.getD i 0] ++ text.drop (i + 1)
        = be32 w ++ [BitVec.ofNat 8 text.length] ++ text := by
        rw [List.append_assoc, List.append_assoc, ← hsplit]
      rw [this]; exact h
    have e := h'.fieldEq _ _ _ 8
    simp only [bytesVal_one, BitVec.ofNat_toNat, BitVec.setWidth_eq, List.length_append, length_be32, List.length_take,
      List.length_singleton, Nat.min_eq_left (Nat.le_of_lt hi)] at e
    rw [← e]
    congr 1
    omega
  rw [hdComm]
  simp only [present_enter, hp, if_true]
  have f0' : (s.enter 0x19).peekAt ((s.enter 0x19).cur.pos + 32) 8 = text.length := f0
  rw [f0', if_neg (by simp; omega)]
  have f1' : (tabulate 255 fun i => if i < text.length then (s.enter 0x19).field ((s.enter 0x19).cur.pos + 40 + 8 * i) 8 8
      else rd (s.enter 0x19).ctx.comment i) =
      tabulate 255 fun i => if i < text.length then text.getD i 0 else rd s.ctx.comment i := by
    congr 1
    funext i
    split
    · exact f1 i ‹_›
    · rfl
  rw [f1']
  have hc : s.cur.advance (40 + 8 * text.length) = { s.cur with pos := s.cur.pos + 8 * (5 + text.length) } := by
    simp [Cursor.advance]; omega
  rw [hc]
  rfl

/-! Absent chunks (rule R123). -/

theorem hdComp_absent (h : absent s 0x636F6D70#32 16) :
    hdComp s = .done { s with stage := 0x12 } := by
  have hp : present s tagComp 16 = false := absent_false h
  rw [hdComp]
  simp only [present_enter, hp, Bool.false_eq_true, if_false]
  rfl

theorem hdDec_absent (h : absent s 0x64656300#32 12) :
    hdDec s = .done { s with stage := 0x13 } := by
  have hp : present s tagDec 12 = false := absent_false h
  rw [hdDec]
  simp only [present_enter, hp, Bool.false_eq_true, if_false]
  rfl

theorem hdVbr_absent (h : absent s 0x76627200#32 8) :
    hdVbr s = .done
      { s with stage := 0x14, ctx := { s.ctx with vbrMaxFrameSize := 0, vbrNoiseLevel := 0 } } := by
  have hp : present s tagVbr 8 = false := absent_false h
  rw [hdVbr]
  simp only [present_enter, hp, Bool.false_eq_true, if_false]
  rfl

theorem hdAth_absent (h : absent s 0x61746800#32 6) :
    hdAth s = .done
      { s with stage := 0x15, ctx := { s.ctx with athType := if s.ctx.version.toNat < 0x0200 then 1 else 0 } } := by
  have hp : present s tagAth 6 = false := absent_false h
  rw [hdAth]
  simp only [present_enter, hp, Bool.false_eq_true, if_false]
  rfl

theorem hdLoop_absent (h : absent s 0x6C6F6F70#32 16) :
    hdLoop s = .done
      { s with stage := 0x16,
               ctx := { s.ctx with loopStartFrame := 0, loopEndFrame := 0, loopStartDelay := 0, loopEndPadding := 0,
                                   loopEnabled := false } } := by
  have hp : present s tagLoop 16 = false := absent_false h
  rw [hdLoop]
  simp only [present_enter, hp, Bool.false_eq_true, if_false]
  rfl

theorem hdCiph_absent (h : absent s 0x63697068#32 6) :
    hdCiph s = .done
      { s with stage := 0x17, ctx := { s.ctx with cipherType := 0 } } := by
  have hp : present s tagCiph 6 = false := absent_false h
  rw [hdCiph]
  simp only [present_enter, hp, Bool.false_eq_true, if_false]
  rfl

theorem hdRva_absent (h : absent s 0x72766100#32 8) :
    hdRva s = .done
      { s with stage := 0x18, ctx := { s.ctx with rvaVolume := 0x3F800000 } } := by
  have hp : present s tagRva 8 = false := absent_false h
  rw [hdRva]
  simp only [present_enter, hp, Bool.false_eq_true, if_false]
  rfl

theorem hdComm_absent (h : absent s 0x636F6D6D#32 5) :
    hdComm s = .done
      { s with stage := 0x19, ctx := { s.ctx with commentLength := 0 } } := by
  have hp : present s tagComm 5 = false := absent_false h
  rw [hdComm]
  simp only [present_enter, hp, Bool.false_eq_true, if_false]
  rfl

theorem hdFmt_absent (h : absent s 0x666D7400#32 16) : hdFmt s = .raised .headerInvalid (s.enter 0x11) := by
  have hp : present s tagFmt 16 = false := absent_false h
  rw [hdFmt]
  simp only [present_enter, hp, Bool.false_eq_true, if_false]

end Sys2Proof.Machine
end

