-- ==== Sys2Proof/Laws/Derive.lean ====
section
/-! SUPPORT. The derived parameters: the rounded-up quotient, the pairing table as the channel types use it, the header
checks as one condition, and what HD_PROLOG, HD_VALIDATE and HD_DERIVE do. -/

namespace Sys2Proof.Machine

theorem ceilDiv_eq (a b : Nat) : ceilDiv a b = if b = 0 then 0 else (a + b - 1) / b := by
  unfold ceilDiv
  by_cases hb : b = 0
  · simp [hb]
  · simp only [hb, if_false]
    have hb' : 0 < b := Nat.pos_of_ne_zero hb
    have h1 := Nat.div_add_mod a b
    have h2 := Nat.mod_lt a hb'
    split
    · symm
      rw [Nat.div_eq_iff hb']
      constructor
      · rw [Nat.add_mul, Nat.mul_comm (a / b) b]; omega
      · rw [Nat.add_mul, Nat.mul_comm (a / b) b]; omega
    · rename_i h; simp at h
      symm
      rw [Nat.div_eq_iff hb']
      constructor
      · rw [Nat.add_zero, Nat.mul_comm]; omega
      · rw [Nat.add_zero, Nat.mul_comm]; omega

theorem Ctx.hfrGroups_eq (x : Ctx) : x.hfrGroups = x.groupCount := by
  rw [Ctx.hfrGroups, ceilDiv_eq, Ctx.groupCount]
  simp only [Ctx.total, Ctx.base, Ctx.stereo, ← BitVec.toNat_inj]
  rfl

theorem Ctx.groupCount_le (x : Ctx) (h : x.totalBandCount.toNat ≤ 128) : x.groupCount ≤ 128 := by
  rw [Ctx.groupCount]
  split
  · omega
  · rename_i hb
    have hb' : 0 < x.bandsPerHfrGroup.toNat := by
      have := (BitVec.toNat_inj (x := x.bandsPerHfrGroup) (y := 0)).not.2 hb; simp at this; omega
    rw [Nat.div_le_iff_le_mul_add_pred hb']
    have : 128 ≤ x.bandsPerHfrGroup.toNat * 128 := by omega
    omega

theorem pairsOf_eq (cpt cfg : Nat) (h : 1 < cpt) : pairsOf cpt cfg = pairTable cpt cfg := by
  by_cases h8 : cpt ≤ 8
  · unfold pairsOf pairTable
    have : cpt = 2 ∨ cpt = 3 ∨ cpt = 4 ∨ cpt = 5 ∨ cpt = 6 ∨ cpt = 7 ∨ cpt = 8 := by omega
    rcases this with rfl | rfl | rfl | rfl | rfl | rfl | rfl <;> simp <;> split <;> rfl
  · rw [pairsOf, if_neg (by omega), if_neg (by omega), if_neg (by omega), if_neg (by omega), if_neg (by omega)]
    unfold pairTable
    split <;> first | rfl | omega

theorem pairTable_sides (cpt cfg : Nat) : ∀ q ∈ pairTable cpt cfg, q.1 < cpt ∧ q.2 < cpt ∧ q.1 ∉ (pairTable cpt cfg).map (·.2) := by
  unfold pairTable
  split <;> first | (split <;> decide) | decide | simp

theorem Ctx.inPair_iff (x : Ctx) (side : Nat × Nat → Nat) (hs : side = (·.1) ∨ side = (·.2)) (c : Nat) :
    x.inPair side c ↔ (0 < x.stereo ∧ 1 < x.channelsPerTrack ∧ c < x.trackCount.toNat * x.channelsPerTrack) ∧
      ∃ q ∈ pairsOf x.channelsPerTrack x.channelConfig.toNat, side q = c % x.channelsPerTrack := by
  unfold Ctx.inPair Ctx.stereo Ctx.channelsPerTrack
  constructor
  · rintro ⟨h1, h2, t, ht, q, hq, rfl⟩
    rw [pairsOf_eq _ _ h2]
    have hl : side q < x.channelCount.toNat / x.trackCount.toNat := by
      rcases hs with rfl | rfl
      · exact (pairTable_sides _ _ q hq).1
      · exact (pairTable_sides _ _ q hq).2.1
    refine ⟨⟨h1, h2, ?_⟩, q, hq, ?_⟩
    · calc _ < (t + 1) * (x.channelCount.toNat / x.trackCount.toNat) := by rw [Nat.add_mul]; omega
        _ ≤ _ := Nat.mul_le_mul_right _ ht
    · rw [Nat.mul_comm, Nat.mul_add_mod, Nat.mod_eq_of_lt hl]
  · rintro ⟨⟨h1, h2, h3⟩, q, hq, e⟩
    rw [pairsOf_eq _ _ h2] at hq
    refine ⟨h1, h2, c / (x.channelCount.toNat / x.trackCount.toNat), ?_, q, hq, ?_⟩
    · exact (Nat.div_lt_iff_lt_mul (by omega)).2 h3
    · rw [e, Nat.mul_comm]; exact (Nat.div_add_mod _ _).symm

theorem Ctx.typeOf_iff (x : Ctx) (c : Nat) : (x.typeOf c = .primary ↔ x.inPair (·.1) c) ∧ (x.typeOf c = .secondary ↔ x.inPair (·.2) c) := by
  rw [Ctx.inPair_iff x _ (.inl rfl), Ctx.inPair_iff x _ (.inr rfl)]
  unfold Ctx.typeOf
  by_cases h : 0 < x.stereo ∧ 1 < x.channelsPerTrack ∧ c < x.trackCount.toNat * x.channelsPerTrack
  · simp only [h, and_self, true_and, if_true]
    rw [pairsOf_eq _ _ h.2.1]
    simp only [List.any_eq_true, decide_eq_true_eq]
    have key := pairTable_sides x.channelsPerTrack x.channelConfig.toNat
    constructor
    · split
      · simp_all
      · rename_i h1
        split <;> simp_all
    · split
      · rename_i h1
        obtain ⟨q, hq, e⟩ := h1
        simp only [reduceCtorEq, false_iff]
        rintro ⟨q', hq', e'⟩
        exact (key q hq).2.2 (List.mem_map.2 ⟨q', hq', by rw [e, e']⟩)
      · split <;> simp_all
  · simp [h]

/-- The documented ranges of a context whose track count has been replaced (rules R141 to R147). -/
theorem Ctx.headerLegal_iff (x : Ctx) : x.headerLegal = true ↔
    (1 ≤ x.channelCount.toNat ∧ x.channelCount.toNat ≤ 16) ∧
    (1 ≤ x.sampleRate.toNat ∧ x.sampleRate.toNat ≤ 0x7FFFFF) ∧ 0 < x.frameCount.toNat ∧ 8 ≤ x.frameSize.toNat ∧
    (if x.version.toNat ≤ 0x0200 then x.minResolution = 1 ∧ x.maxResolution = 15
      else x.maxResolution.toNat ≤ 15 ∧ x.minResolution.toNat ≤ x.maxResolution.toNat) ∧
    (1 ≤ x.trackCount.toNat ∧ x.trackCount.toNat ≤ x.channelCount.toNat) ∧
    (x.totalBandCount.toNat ≤ 128 ∧ x.baseBandCount.toNat ≤ 128 ∧ x.stereoBandCount.toNat ≤ 128 ∧
      x.bandsPerHfrGroup.toNat ≤ 128 ∧ x.baseBandCount.toNat + x.stereoBandCount.toNat ≤ 128) ∧
    x.baseBandCount.toNat + x.stereoBandCount.toNat ≤ x.totalBandCount.toNat := by
  simp only [Ctx.headerLegal, Ctx.fmtLegal, Ctx.frameSizeLegal, Ctx.resolutionLegal, Ctx.trackLegal, Ctx.bandsLegal,
    Ctx.totalLegal, Bool.and_eq_true, decide_eq_true_eq]
  simp only [Ctx.base, Ctx.stereo, Ctx.total]
  by_cases hv : x.version.toNat ≤ 0x0200 <;>
    simp only [hv, if_true, if_false, Bool.and_eq_true, decide_eq_true_eq, beq_iff_eq] <;> tauto

theorem Ctx.normalizeTracks_eq (x : Ctx) :
    x.normalizeTracks = { x with trackCount := if x.trackCount = 0 then 1 else x.trackCount } := by
  rw [Ctx.normalizeTracks]; split <;> rfl

/-- HD_DERIVE as one conditional (rules R148 to R151). -/
theorem hdDerive_eq (cfg : Config) (s : State) (h128 : s.ctx.totalBandCount.toNat ≤ 128)
    (hle : s.ctx.baseBandCount.toNat + s.ctx.stereoBandCount.toNat ≤ s.ctx.totalBandCount.toNat) :
    let t : State := { s.enter 0x1C with
      ctx := { s.ctx with hfrGroupCount := BitVec.ofNat 8 s.ctx.groupCount }
      athCurve := tabulate 128 fun i => cfg.noiseCurveInit s.ctx.athType s.ctx.sampleRate i
      cipherTable := cipherTableOf cfg s.ctx.cipherType s.key }
    hdDerive cfg s =
      if 0 < s.ctx.msStereo.toNat ∨ (0 < s.ctx.groupCount ∧ s.ctx.version = cfg.vNewest) then .raised .headerInvalid t
      else .done (State.mapLive { t with random := 1 } Channel.freshStart) := by
  intro t
  have hl : s.ctx.totalLegal = true := by rw [Ctx.totalLegal, decide_eq_true_eq]; exact hle
  have hg := Ctx.groupCount_le s.ctx h128
  have hgn : (BitVec.ofNat 8 s.ctx.groupCount).toNat = s.ctx.groupCount := by
    rw [BitVec.toNat_ofNat, Nat.mod_eq_of_lt (by omega)]
  have e : (s.enter 0x1C).ctx = s.ctx := rfl
  rw [hdDerive]
  simp only [e, hl, if_true, Ctx.hfrGroups_eq, hgn]
  by_cases h1 : 0 < s.ctx.msStereo.toNat
  · simp only [h1, if_true, true_or]; rfl
  · simp only [h1, if_false, false_or]; rfl

theorem getD_tabulate {n : Nat} {α : Type} (f : Nat → α) (d : α) {i : Nat} (h : i < n) :
    (tabulate n f).getD i d = f i := by
  simp [tabulate, Vector.getD, h]

/-- The cipher table is the collaborator's, entry by entry. -/
theorem tableByte_cipherTableOf (cfg : Config) (type : BitVec 16) (key : BitVec 64) (b : Byte) :
    tableByte (cipherTableOf cfg type key) b = cfg.cipherInit type key b := by
  rw [tableByte, cipherTableOf, getD_tabulate _ _ b.isLt, BitVec.ofNat_toNat, BitVec.setWidth_eq]

/-- Channel `c` of a state whose live channels were changed. -/
theorem State.chan_mapLive (s : State) (f : Channel → Channel) (c : Fin 16) :
    (s.mapLive f).chan c = if c.val < s.ctx.channelCount.toNat then f (s.chan c) else s.chan c := by
  simp [State.chan, State.mapLive, tabulate, Vector.getD]

/-- HD_PROLOG over the 8 prolog bytes (rule R121). -/
theorem hdProlog_ahead (cfg : Config) {s : State} {w : BitVec 32} {v n : BitVec 16} (h8 : 8 ≤ s.hdrLen.toNat)
    (hs : 8 ≤ s.hdr.size) (hb : ∀ i, i < 8 → s.hdr.byte i = (prologBytes w v n).getD i 0) :
    let t : State := { s with stage := 0x10, cur := { buf := some .hdr, sizeBits := 64, pos := 64 },
                              ctx := { s.ctx with version := v, headerSize := n } }
    hdProlog cfg s =
      if w &&& 0x7F7F7F7F#32 = 0x48434100#32 then
        if cfg.versions v then .done t else .raised .headerInvalid t
      else .raised .headerInvalid
        { s with stage := 0x10, cur := { buf := some .hdr, sizeBits := 64, pos := 32 } } := by
  intro t
  let s1 : State := { s.enter 0x10 with cur := { buf := some .hdr, sizeBits := 64, pos := 0 } }
  have ha : s1.headerAhead (prologBytes w v n) := by
    refine ⟨rfl, rfl, Nat.le_refl _, fun i hi => ?_⟩
    have := hb i hi
    simpa [s1] using this
  have f0 : s1.peek 32 = w.toNat := by
    have e := ha.field (pre := []) (mid := be32 w) (post := be16 v ++ be16 n)
    rw [bytesVal_be32] at e; exact e
  have f1 : s1.field 32 16 16 = _ := State.headerAhead.fieldEq (be32 w) (be16 v) (be16 n) ha 16
  have f2 : s1.field 48 16 16 = _ := State.headerAhead.fieldEq (be32 w ++ be16 v) (be16 n) [] ha 16
  simp only [bytesVal_be16, BitVec.ofNat_toNat, BitVec.setWidth_eq] at f1 f2
  have hw : wrap .hdr 8 0 (s.enter 0x10) = .done s1 := by
    rw [wrap, if_neg (by show ¬ s.hdr.size < 8; omega)]
  rw [hdProlog]; simp only
  rw [if_neg (by show ¬ s.hdrLen.toNat < 8; omega), hw]
  simp only [Res.andThen, f0, f1, f2, BitVec.ofNat_toNat, BitVec.setWidth_eq]
  by_cases hsp : w &&& 0x7F7F7F7F#32 = 0x48434100#32
  · have hsp' : w &&& tagMask = tagProlog := hsp
    simp only [hsp, hsp', if_true, bne_self_eq_false, Bool.false_eq_true, if_false]
    rfl
  · have hsp' : (w &&& tagMask != tagProlog) = true := bne_iff_ne.2 hsp
    simp only [hsp, hsp', if_true, if_false]
    rfl

end Sys2Proof.Machine
end

