-- ==== Sys2Proof/Laws/Config.lean ====
section
/-! SUPPORT. The machine's configuration meets the table contracts, by construction. -/

namespace Sys2Proof

theorem F32.forceFinite_finite (x : F32) : (F32.forceFinite x).isFinite = true := by
  rw [F32.forceFinite]
  split
  · assumption
  · have e : (x &&& 0x807FFFFF#32).expo = 0 := by
      rw [F32.expo, BitVec.toNat_and]
      have h : ∀ i, i < 8 → ((x.toNat &&& (0x807FFFFF#32).toNat) / 2 ^ 23 % 2 ^ 8).testBit i = false := by
        intro i hi
        rw [Nat.testBit_mod_two_pow, Nat.testBit_div_two_pow, Nat.testBit_and]
        have : ∀ j, j < 8 → ((0x807FFFFF#32).toNat).testBit (j + 23) = false := by decide
        rw [this i hi, Bool.and_false, Bool.and_false]
      have : (x.toNat &&& (0x807FFFFF#32).toNat) / 2 ^ 23 % 2 ^ 8 = 0 := by
        apply Nat.eq_of_testBit_eq
        intro i
        rw [Nat.zero_testBit]
        by_cases hi : i < 8
        · exact h i hi
        · rw [Nat.testBit_mod_two_pow]; simp [hi]
      exact this
    simp [F32.isFinite, e]

theorem F32.forceNaN_isNaN (x : F32) : (F32.forceNaN x).isNaN = true := by
  rw [F32.forceNaN]
  split
  · assumption
  · decide

/-- The contracts (a) to (d) of 00_scope.md rule R10, rule R9 and rule R14 hold of `Config.hw`. -/
theorem Config.hw_contract : Config.hw.Contract where
  maxBits_le r := by show hwMaxBits r ≤ 16; unfold hwMaxBits; split <;> omega
  maxBits_low r h := by show hwMaxBits r ≤ 4; unfold hwMaxBits; rw [if_pos h]; omega
  maxBits_high r h _ := by show 1 ≤ hwMaxBits r; unfold hwMaxBits; rw [if_neg (by omega)]; omega
  readBits_le r c _ _ := Nat.min_le_right _ _
  scale_finite _ := F32.forceFinite_finite _
  range_finite _ := F32.forceFinite_finite _
  readVal_finite _ _ := F32.forceFinite_finite _
  scaleConv_finite _ := F32.forceFinite_finite _
  intensity_finite _ := F32.forceFinite_finite _
  sin_finite _ _ := F32.forceFinite_finite _
  cos_finite _ _ := F32.forceFinite_finite _
  window_finite _ := F32.forceFinite_finite _
  nan_isNaN _ := F32.forceNaN_isNaN _
  cipher_identity _ _ := rfl
  cipher_fixed _ _ _ := rfl

/-- The width read for a low resolution never exceeds the nominal one. -/
theorem Config.hw_readBits_le (r c : Nat) : Config.hw.tReadBits r c ≤ Config.hw.tMaxBits r := Nat.min_le_right _ _

/-- A code of a high resolution has a first bit. -/
theorem Config.hw_maxBits_pos (r : Nat) (h : 7 < r) : 1 ≤ Config.hw.tMaxBits r := by
  show 1 ≤ Config.hwMaxBits r
  rw [Config.hwMaxBits, if_neg (by omega)]; omega

/-- Every code is a legal request. -/
theorem Config.hw_maxBits_le (r : Nat) : Config.hw.tMaxBits r ≤ 16 := Config.hw_contract.maxBits_le r

end Sys2Proof
end

