-- ==== Sys2Proof/Laws/Stages.lean ====
section
/-! SUPPORT. What the shared loops of the frame stages come to: register files as functions of the index, runs of
delta-coded values, the noise and valid partition, dequantized codes, noise and high-band runs, the ping-pong passes. -/

namespace Sys2Proof.Machine

theorem rd_eq {w n : Nat} (v : Vector (BitVec w) n) (i : Nat) : rd v i = entry v i := rfl

theorem entry_tabulate {w n : Nat} (f : Nat → BitVec w) (i : Nat) :
    entry (tabulate n f) i = if i < n then f i else 0 := by
  by_cases h : i < n <;> simp [entry, tabulate, Vector.getD, h]

theorem entry_wr {w n : Nat} (v : Vector (BitVec w) n) (i j : Nat) (x : BitVec w) :
    entry (wr v i x) j = if i = j ∧ j < n then x else entry v j := by
  by_cases h : j < n
  · by_cases e : i = j
    · subst e; simp [entry, wr, Vector.getD, h]
    · simp [entry, wr, Vector.getD, h, e]
  · simp [entry, Vector.getD, h]

theorem entry_replicate {w n : Nat} (x : BitVec w) (i : Nat) :
    entry (Vector.replicate n x) i = if i < n then x else 0 := by
  by_cases h : i < n <;> simp [entry, Vector.getD, h]

theorem entry_ge {w n : Nat} (v : Vector (BitVec w) n) {i : Nat} (h : n ≤ i) : entry v i = 0 := by
  simp [entry, Vector.getD, show ¬ i < n by omega]

theorem entry_ext {w n : Nat} {u v : Vector (BitVec w) n} (h : ∀ i, i < n → entry u i = entry v i) : u = v := by
  apply Vector.ext
  intro i hi
  have := h i hi
  simpa [entry, Vector.getD, hi] using this

theorem entry_fillWhere (p : Nat → Bool) (f : Nat → F32) (v : Vector F32 128) {i : Nat} (h : i < 128) :
    entry (fillWhere p f v) i = if p i then f i else entry v i := by
  rw [fillWhere, entry_tabulate, if_pos h]; rfl

/-! Drawn NaNs. -/

theorem isProduct_mul (s : State) (k : Nat) (a b : F32) : IsProduct (F32.mul (s.nan Config.hw k) a b) a b :=
  ⟨_, Config.hw_contract.nan_isNaN _, rfl⟩

theorem isSum_add (s : State) (k : Nat) (a b : F32) : IsSum (F32.add (s.nan Config.hw k) a b) a b :=
  ⟨_, Config.hw_contract.nan_isNaN _, rfl⟩

theorem isDifference_sub (s : State) (k : Nat) (a b : F32) :
    IsDifference (F32.sub (s.nan Config.hw k) a b) a b :=
  ⟨_, Config.hw_contract.nan_isNaN _, rfl⟩

/-! The cursor's moves. -/

@[simp] theorem Moves.plain_nat (k n : Nat) : Moves.plain k (n : Int) = n := rfl

/-- In the range a free move is the plain one. -/
theorem Moves.free_nat (cfg : Config) (draws k : Nat) {n : Nat} (h : n < 2 ^ 31) :
    Moves.free cfg draws k (n : Int) = n := by
  rw [Moves.free, if_pos ⟨by omega, by omega⟩, Int.toNat_natCast]

/-- A free move ends in the range. -/
theorem Moves.free_lt (cfg : Config) (draws k : Nat) (p : Int) : Moves.free cfg draws k p < 2 ^ 31 := by
  rw [Moves.free]
  split
  · omega
  · exact BitVec.isLt _

@[simp] theorem Moves.walk_plain (w p i : Nat) : Moves.plain.walk w p i = p + w * i := by
  induction i with
  | zero => rfl
  | succ i ih => rw [Moves.walk, ih, Moves.plain_nat, Nat.mul_succ]; omega

/-! Delta-coded values (rules R170, R172). -/

theorem deltaBitsOf_cons (dw lw : Nat) (y : DeltaSym) (ys : List DeltaSym) :
    deltaBitsOf dw lw (y :: ys) = y.bits dw lw ++ deltaBitsOf dw lw ys := by
  simp [deltaBitsOf]

/-- A run over the bits of its symbols: it succeeds exactly when every value is in range, the cursor then stands behind
the symbols and the entries are the values. -/
theorem deltaRun_ahead {n : Nat} (s : State) (dw lw : Nat) (ys : List DeltaSym) :
    ∀ (i pos value : Nat) (file : Vector (BitVec lw) n), (∀ y ∈ ys, y.encodable dw lw) →
      s.bitsAhead pos (deltaBitsOf dw lw ys) →
      ((∀ v ∈ deltaValues dw value ys, 0 ≤ v ∧ v < (2 ^ lw : Nat)) →
        let r := deltaRun s.peekAt .plain dw lw ys.length i pos value file
        r.ok = true ∧ r.pos = pos + (deltaBitsOf dw lw ys).length ∧
        ∀ m, m < n → entry r.file m = if i ≤ m ∧ m < i + ys.length
          then BitVec.ofNat lw ((deltaValues dw value ys).getD (m - i) 0).toNat else entry file m) ∧
      ((∃ v ∈ deltaValues dw value ys, v < 0 ∨ (2 ^ lw : Nat) ≤ v) →
        (deltaRun s.peekAt .plain dw lw ys.length i pos value file).ok = false) := by
  induction ys with
  | nil =>
    intro i pos value file _ _
    refine ⟨fun _ => ⟨rfl, rfl, fun m hm => ?_⟩, fun ⟨v, hv, _⟩ => by cases hv⟩
    simp only [List.length_nil]
    rw [if_neg (by omega)]; rfl
  | cons y ys ih =>
    intro i pos value file henc hb
    rw [deltaBitsOf_cons] at hb
    have henc' : ∀ y ∈ ys, y.encodable dw lw := fun z hz => henc z (List.mem_cons_of_mem _ hz)
    have hy := henc y (List.mem_cons_self ..)
    simp only [deltaBitsOf_cons, List.length_append, List.length_cons, deltaValues]
    cases y with
    | literal v =>
      have hb1 : s.bitsAhead pos (List.replicate dw true ++ (bitsOf lw v ++ deltaBitsOf dw lw ys)) := by
        rw [DeltaSym.bits, List.append_assoc] at hb; exact hb
      have e1 := hb1.left.peek
      rw [List.length_replicate, bitsVal_replicate_true] at e1
      have hb2 := hb1.right
      rw [List.length_replicate] at hb2
      have e2 := hb2.peek_first hy
      have hb3 := hb2.behind
      have hstep : ∀ k, deltaRun s.peekAt .plain dw lw (k + 1) i pos value file =
          deltaRun s.peekAt .plain dw lw k (i + 1) (pos + dw + lw) v (wr file i (BitVec.ofNat lw v)) := by
        intro k
        rw [deltaRun]; simp only [Moves.plain_nat, e1, if_true, e2]
      obtain ⟨h1, h2⟩ := ih (i + 1) (pos + dw + lw) v (wr file i (BitVec.ofNat lw v)) henc' hb3
      rw [hstep]
      have hval : DeltaSym.value dw value (.literal v) = (v : Int) := rfl
      rw [hval]
      constructor
      · intro hall
        obtain ⟨a1, a2, a3⟩ := h1 fun z hz => hall z (List.mem_cons_of_mem _ hz)
        refine ⟨a1, ?_, fun m hm => ?_⟩
        · rw [a2, DeltaSym.bits, List.length_append, List.length_replicate, length_bitsOf]; omega
        · rw [a3 m hm, entry_wr]
          by_cases hmi : m = i
          · subst hmi
            rw [if_neg (by omega), if_pos ⟨rfl, hm⟩, if_pos (by omega), Nat.sub_self]; simp
          · by_cases hin : i + 1 ≤ m ∧ m < i + 1 + ys.length
            · rw [if_pos hin, if_pos (by omega), show m - i = (m - (i + 1)) + 1 by omega]; rfl
            · rw [if_neg hin, if_neg (by omega), if_neg (by omega)]
      · rintro ⟨z, hz, hbad⟩
        refine h2 ⟨z, ?_, hbad⟩
        rcases List.mem_cons.1 hz with rfl | hz
        · have hy' : v < 2 ^ lw := hy
          omega
        · exact hz
    | delta d =>
      have hd : d < 2 ^ dw - 1 := hy
      have hb1 : s.bitsAhead pos (bitsOf dw d ++ deltaBitsOf dw lw ys) := hb
      have e1 := hb1.peek_first (by omega)
      have hb3 := hb1.behind
      have hval : DeltaSym.value dw value (.delta d) = (value : Int) - ((2 ^ dw - 1) / 2 : Nat) + d := by
        rw [DeltaSym.value, Nat.shiftRight_eq_div_pow]
      rw [hval]
      have hstep : ∀ k, deltaRun s.peekAt .plain dw lw (k + 1) i pos value file =
          if (value : Int) - ((2 ^ dw - 1) / 2 : Nat) + d < 0 ∨ (2 ^ lw : Nat) ≤ (value : Int) - ((2 ^ dw - 1) / 2 : Nat) + d
          then { ok := false, pos := pos + dw, file := file }
          else deltaRun s.peekAt .plain dw lw k (i + 1) (pos + dw) ((value : Int) - ((2 ^ dw - 1) / 2 : Nat) + d).toNat
            (wr file i (BitVec.ofNat lw ((value : Int) - ((2 ^ dw - 1) / 2 : Nat) + d).toNat)) := by
        intro k
        rw [deltaRun]; simp only [Moves.plain_nat, e1]; rw [if_neg (by omega)]
      generalize (value : Int) - ((2 ^ dw - 1) / 2 : Nat) + d = t at hstep ⊢
      obtain ⟨h1, h2⟩ := ih (i + 1) (pos + dw) t.toNat (wr file i (BitVec.ofNat lw t.toNat)) henc' hb3
      rw [hstep]
      by_cases hbad : t < 0 ∨ (2 ^ lw : Nat) ≤ t
      · rw [if_pos hbad]
        refine ⟨fun hall => ?_, fun _ => rfl⟩
        have := hall t (List.mem_cons_self ..)
        omega
      · rw [if_neg hbad]
        have ht : ((t.toNat : Nat) : Int) = t := by omega
        rw [ht] at h1 h2
        constructor
        · intro hall
          obtain ⟨a1, a2, a3⟩ := h1 fun z hz => hall z (List.mem_cons_of_mem _ hz)
          refine ⟨a1, ?_, fun m hm => ?_⟩
          · rw [a2, DeltaSym.bits, length_bitsOf]; omega
          · rw [a3 m hm, entry_wr]
            by_cases hmi : m = i
            · subst hmi
              rw [if_neg (by omega), if_pos ⟨rfl, hm⟩, if_pos (by omega), Nat.sub_self]; simp
            · by_cases hin : i + 1 ≤ m ∧ m < i + 1 + ys.length
              · rw [if_pos hin, if_pos (by omega), show m - i = (m - (i + 1)) + 1 by omega]; rfl
              · rw [if_neg hin, if_neg (by omega), if_neg (by omega)]
        · rintro ⟨z, hz, hbad'⟩
          refine h2 ⟨z, ?_, hbad'⟩
          rcases List.mem_cons.1 hz with rfl | hz
          · exact absurd hbad' hbad
          · exact hz

/-! The partition of FR_RESOLUTION (rule R175). -/

theorem partitionUpTo_noise (f scale : Nat → Nat) (q : Partition) (n : Nat) (h0 : q.noiseCount = 0) :
    (partitionUpTo f scale q n).noiseCount = ((List.range n).filter fun i => scale i ≠ 0 ∧ f i = 0).length := by
  induction n with
  | zero => simpa [partitionUpTo] using h0
  | succ n ih =>
    rw [partitionUpTo, Partition.step, List.range_succ, List.filter_append, List.length_append, ← ih]
    by_cases h1 : scale n = 0
    · simp [h1]
    · by_cases h2 : f n = 0
      · simp [h1, h2]
      · rw [if_neg h1]; simp only; rw [if_neg (by omega)]; simp [h1, h2]

theorem partitionUpTo_valid (f scale : Nat → Nat) (q : Partition) (n : Nat) (h0 : q.validCount = 0) :
    (partitionUpTo f scale q n).validCount = ((List.range n).filter fun i => scale i ≠ 0 ∧ f i ≠ 0).length := by
  induction n with
  | zero => simpa [partitionUpTo] using h0
  | succ n ih =>
    rw [partitionUpTo, Partition.step, List.range_succ, List.filter_append, List.length_append, ← ih]
    by_cases h1 : scale n = 0
    · simp [h1]
    · by_cases h2 : f n = 0
      · simp [h1, h2]
      · rw [if_neg h1]; simp only; rw [if_neg (by omega)]; simp [h1, h2]

theorem partitionUpTo_counts (f scale : Nat → Nat) (n : Nat) :
    ((List.range n).filter fun i => scale i ≠ 0 ∧ f i = 0).length +
      ((List.range n).filter fun i => scale i ≠ 0 ∧ f i ≠ 0).length ≤ n := by
  induction n with
  | zero => simp
  | succ n ih =>
    rw [List.range_succ, List.filter_append, List.filter_append, List.length_append, List.length_append]
    by_cases h1 : scale n = 0
    · simp only [h1, List.filter_cons, List.filter_nil]
      simp at ih ⊢; omega
    · by_cases h2 : f n = 0
      · simp [h1, h2] at ih ⊢; omega
      · simp [h1, h2] at ih ⊢; omega

theorem partitionUpTo_resolution (f scale : Nat → Nat) (q : Partition) (n : Nat) (hn : n ≤ 128) (i : Nat) :
    entry (partitionUpTo f scale q n).resolution i =
      if i < n then (if scale i = 0 then 0 else BitVec.ofNat 4 (f i)) else entry q.resolution i := by
  induction n with
  | zero => simp [partitionUpTo]
  | succ n ih =>
    have hn' : n < 128 := by omega
    have key : ∀ (v : BitVec 4) (r : Vector (BitVec 4) 128), (∀ j, entry r j = if j = n then v else entry (partitionUpTo f scale q n).resolution j) →
        v = (if scale n = 0 then 0 else BitVec.ofNat 4 (f n)) →
        entry r i = if i < n + 1 then (if scale i = 0 then 0 else BitVec.ofNat 4 (f i)) else entry q.resolution i := by
      intro v r hr hv
      rw [hr]
      by_cases e : i = n
      · subst e; rw [if_pos rfl, if_pos (by omega), hv]
      · rw [if_neg e, ih (by omega)]
        by_cases hi : i < n
        · rw [if_pos hi, if_pos (show i < n + 1 by omega)]
        · rw [if_neg hi, if_neg (show ¬ i < n + 1 by omega)]
    rw [partitionUpTo, Partition.step]
    have hw : ∀ (x : BitVec 4) j, entry (wr (partitionUpTo f scale q n).resolution n x) j =
        if j = n then x else entry (partitionUpTo f scale q n).resolution j := by
      intro x j
      rw [entry_wr]
      by_cases e : j = n
      · subst e; rw [if_pos ⟨rfl, hn'⟩, if_pos rfl]
      · rw [if_neg (by omega), if_neg e]
    split
    · rename_i h1
      exact key 0 _ (hw 0) (by rw [if_pos h1])
    · rename_i h1
      simp only
      split <;> exact key _ _ (hw _) (by rw [if_neg h1])

/-- The noise indices ascend from the front, the valid ones from the end, entries between stay. -/
theorem partitionUpTo_noises (f scale : Nat → Nat) (q : Partition) (h0 : q.noiseCount = 0) (h0' : q.validCount = 0)
    (n : Nat) (hn : n ≤ 128) :
    let N := (List.range n).filter fun i => scale i ≠ 0 ∧ f i = 0
    let V := (List.range n).filter fun i => scale i ≠ 0 ∧ f i ≠ 0
    (∀ j, j < N.length → (entry (partitionUpTo f scale q n).noises j).toNat = N.getD j 0) ∧
    (∀ j, j < V.length → (entry (partitionUpTo f scale q n).noises (127 - j)).toNat = V.getD j 0) ∧
    (∀ j, N.length ≤ j → j < 128 - V.length →
      entry (partitionUpTo f scale q n).noises j = entry q.noises j) := by
  induction n with
  | zero => exact ⟨fun j hj => by simp at hj, fun j hj => by simp at hj, fun j _ _ => rfl⟩
  | succ n ih =>
    obtain ⟨i1, i2, i3⟩ := ih (by omega)
    have hN := partitionUpTo_noise f scale q n h0
    have hV := partitionUpTo_valid f scale q n h0'
    have hle := partitionUpTo_counts f scale n
    rw [partitionUpTo, Partition.step]
    intro N V
    have hNe : N = ((List.range n).filter fun i => scale i ≠ 0 ∧ f i = 0) ++ (if scale n ≠ 0 ∧ f n = 0 then [n] else []) := by
      simp only [N]
      rw [List.range_succ, List.filter_append]
      congr 1
      by_cases h : scale n ≠ 0 ∧ f n = 0
      · rw [if_pos h]; simp [h]
      · rw [if_neg h]; simp only [List.filter_cons, List.filter_nil]; rw [if_neg (by simpa using h)]
    have hVe : V = ((List.range n).filter fun i => scale i ≠ 0 ∧ f i ≠ 0) ++ (if scale n ≠ 0 ∧ f n ≠ 0 then [n] else []) := by
      simp only [V]
      rw [List.range_succ, List.filter_append]
      congr 1
      by_cases h : scale n ≠ 0 ∧ f n ≠ 0
      · rw [if_pos h]; simp [h]
      · rw [if_neg h]; simp only [List.filter_cons, List.filter_nil]; rw [if_neg (by simpa using h)]
    have hnn : (BitVec.ofNat 7 n).toNat = n := by rw [BitVec.toNat_ofNat]; omega
    by_cases h1 : scale n = 0
    · rw [if_pos h1]
      rw [if_neg (by simp [h1]), List.append_nil] at hNe hVe
      rw [hNe, hVe]
      exact ⟨i1, i2, i3⟩
    · rw [if_neg h1]
      by_cases h2 : f n = 0
      · rw [if_pos ⟨h1, h2⟩] at hNe
        rw [if_neg (by simp [h2]), List.append_nil] at hVe
        simp only
        rw [if_pos (by omega), hNe, hVe, hN]
        refine ⟨fun j hj => ?_, fun j hj => ?_, fun j hj hj' => ?_⟩
        · rw [List.length_append, List.length_singleton] at hj
          rw [entry_wr]
          by_cases e : j = ((List.range n).filter fun i => scale i ≠ 0 ∧ f i = 0).length
          · subst e
            rw [if_pos ⟨rfl, by omega⟩, hnn, List.getD_append_right _ _ _ _ (Nat.le_refl _)]; simp
          · rw [if_neg (by omega), i1 j (by omega), List.getD_append _ _ _ _ (by omega)]
        · rw [entry_wr, if_neg (by omega), i2 j hj]
        · rw [List.length_append, List.length_singleton] at hj
          rw [entry_wr, if_neg (by omega), i3 j (by omega) hj']
      · rw [if_neg (by simp [h2]), List.append_nil] at hNe
        rw [if_pos ⟨h1, h2⟩] at hVe
        simp only
        rw [if_neg (by omega), hNe, hVe, hV]
        refine ⟨fun j hj => ?_, fun j hj => ?_, fun j hj hj' => ?_⟩
        · rw [entry_wr, if_neg (by omega), i1 j hj]
        · rw [List.length_append, List.length_singleton] at hj
          rw [entry_wr]
          by_cases e : j = ((List.range n).filter fun i => scale i ≠ 0 ∧ f i ≠ 0).length
          · subst e
            rw [if_pos ⟨rfl, by omega⟩, hnn, List.getD_append_right _ _ _ _ (Nat.le_refl _)]; simp
          · rw [if_neg (by omega), i2 j (by omega), List.getD_append _ _ _ _ (by omega)]
        · rw [List.length_append, List.length_singleton] at hj'
          rw [entry_wr, if_neg (by omega), i3 j hj (by omega)]

/-! The ping-pong passes (rules R222, R224). -/

/-- The file each stage reads. -/
def passFile (entry : Nat → Vector F32 128 → Nat → F32) (start : Vector F32 128) : Nat → Vector F32 128
  | 0 => start
  | t + 1 => tabulate 128 (entry t (passFile entry start t))

/-- After an odd number of stages the second buffer was written last, after an even number the first. -/
theorem pingPong_eq (e : Nat → Vector F32 128 → Nat → F32) (a b : Vector F32 128) (n : Nat) :
    pingPong e (a, b) (2 * n + 1) = (passFile e a (2 * n), passFile e a (2 * n + 1)) ∧
    pingPong e (a, b) (2 * n + 2) = (passFile e a (2 * n + 2), passFile e a (2 * n + 1)) := by
  induction n with
  | zero => exact ⟨rfl, rfl⟩
  | succ n ih =>
    have h1 : pingPong e (a, b) (2 * (n + 1) + 1) = (passFile e a (2 * (n + 1)), passFile e a (2 * (n + 1) + 1)) := by
      rw [show 2 * (n + 1) + 1 = (2 * n + 2) + 1 by omega, pingPong, ih.2]
      simp only
      rw [if_pos (by omega)]; rfl
    refine ⟨h1, ?_⟩
    rw [show 2 * (n + 1) + 2 = (2 * (n + 1) + 1) + 1 by omega, pingPong, h1]
    simp only
    rw [if_neg (by omega)]; rfl

theorem pingPong_seven (e : Nat → Vector F32 128 → Nat → F32) (a b : Vector F32 128) :
    pingPong e (a, b) 7 = (passFile e a 6, passFile e a 7) := (pingPong_eq e a b 3).1


/-! Dequantized codes (rules R191 to R193). -/

/-- No code stops the machine under the table contracts. -/
theorem dequantOne_ok (pk : Nat → Nat → Nat) (mv : Moves) (i r pos : Nat) :
    ∃ q p, dequantOne Config.hw pk mv i r pos = .ok (q, p) := by
  have hw := Config.hw_maxBits_le r
  rw [dequantOne, if_neg (by omega)]
  exact ⟨_, _, rfl⟩

/-- The coefficients in order: `p i` is the cursor before coefficient `i`. -/
theorem dequantUpTo_ok (pk : Nat → Nat → Nat) (mv : Moves) (res : Nat → Nat) (g : Nat → F32 → F32) (p0 : Nat)
    (file : Vector F32 128) (n : Nat) (hn : n ≤ 128) :
    ∃ (p : Nat → Nat) (v : Vector F32 128), p 0 = p0 ∧
      dequantUpTo Config.hw pk mv res g (p0, file) n = .ok (p n, v) ∧
      (∀ i, i < n → ∃ q, dequantOne Config.hw pk mv i (res i) (p i) = .ok (q, p (i + 1)) ∧ entry v i = g i q) ∧
      ∀ i, n ≤ i → entry v i = entry file i := by
  induction n with
  | zero => exact ⟨fun _ => p0, file, rfl, rfl, fun i h => by omega, fun _ _ => rfl⟩
  | succ n ih =>
    obtain ⟨p, v, h0, h1, h2, h3⟩ := ih (by omega)
    obtain ⟨q, p', hq⟩ := dequantOne_ok pk mv n (res n) (p n)
    refine ⟨fun i => if i ≤ n then p i else p', wr v n (g n q), ?_, ?_, fun i hi => ?_, fun i hi => ?_⟩
    · simpa using h0
    · rw [dequantUpTo, h1]; simp [hq]
    · by_cases e : i = n
      · subst e
        refine ⟨q, ?_, ?_⟩
        · simpa using hq
        · rw [entry_wr, if_pos ⟨rfl, by omega⟩]
      · obtain ⟨q', a1, a2⟩ := h2 i (by omega)
        refine ⟨q', ?_, ?_⟩
        · simp only [show i ≤ n by omega, show i + 1 ≤ n by omega, if_true]; exact a1
        · rw [entry_wr, if_neg (by omega)]; exact a2
    · rw [entry_wr, if_neg (by omega)]; exact h3 i (by omega)

/-! Noise entries (rules R196 to R198). -/

theorem lcg_toNat (r : BitVec 32) : (lcg r).toNat = (r.toNat * 0x343FD + 0x269EC3) % 2 ^ 32 := by
  rw [lcg, BitVec.toNat_add, BitVec.toNat_mul]
  simp

/-! High bands (rules R202, R203). -/

/-- `j` bands with a falling low index. -/
theorem hfrGroup_down (cfg : Config) (nan : Nat → F32) (scale : Nat → Nat) (total hs : Nat) (hn : total ≤ 128) :
    ∀ (j high low : Nat) (sp : Vector F32 128), low ≤ high → high ≤ total → ∃ (m : Nat) (v : Vector F32 128),
      m = min j (min (total - high) low) ∧
      hfrGroup cfg nan scale total hs true j { high := high, low := (low : Int) - 1, sp := sp } =
        { high := high + m, low := (low : Int) - 1 - m, sp := v } ∧
      (∀ i, i < m → entry v (high + i) =
        F32.mul (nan (high + i)) (hfrFactor cfg hs (scale (low - 1 - i))) (entry sp (low - 1 - i))) ∧
      ∀ i, i < high ∨ high + m ≤ i → entry v i = entry sp i := by
  intro j
  induction j with
  | zero =>
    intro high low sp _ _
    exact ⟨0, sp, by omega, by rw [hfrGroup]; simp, fun i h => by omega, fun _ _ => rfl⟩
  | succ j ih =>
    intro high low sp hl hh
    rw [hfrGroup]
    by_cases hs' : total ≤ high ∨ ((low : Int) - 1) < 0
    · rw [if_pos hs']
      exact ⟨0, sp, by omega, by simp, fun i h => by omega, fun _ _ => rfl⟩
    · rw [if_neg hs']
      obtain ⟨low, rfl⟩ : ∃ n, low = n + 1 := ⟨low - 1, by omega⟩
      have e : ((low + 1 : Nat) : Int) - 1 = low := by omega
      simp only [e, Int.toNat_natCast, if_true]
      obtain ⟨m, v, a1, a2, a3, a4⟩ := ih (high + 1) low
        (wr sp high (F32.mul (nan high) (hfrFactor cfg hs (scale low)) (rd sp low))) (by omega) (by omega)
      refine ⟨m + 1, v, by omega, ?_, fun i hi => ?_, fun i hi => ?_⟩
      · rw [a2, show high + 1 + m = high + (m + 1) by omega,
          show (low : Int) - 1 - m = low - ((m + 1 : Nat) : Int) by omega]
      · rcases i with _ | i
        · rw [Nat.add_zero, a4 _ (by omega), entry_wr, if_pos ⟨rfl, by omega⟩]; rfl
        · rw [show high + (i + 1) = high + 1 + i by omega, a3 i (by omega), entry_wr, if_neg (by omega),
            show low - 1 - i = low + 1 - 1 - (i + 1) by omega]
      · rw [a4 i (by omega), entry_wr, if_neg (by omega)]

/-- `j` bands with the low index at rest. -/
theorem hfrGroup_rest (cfg : Config) (nan : Nat → F32) (scale : Nat → Nat) (total hs : Nat) (hn : total ≤ 128) :
    ∀ (j high low : Nat) (sp : Vector F32 128), low < high → high ≤ total → ∃ (m : Nat) (v : Vector F32 128),
      m = min j (total - high) ∧
      hfrGroup cfg nan scale total hs false j { high := high, low := low, sp := sp } =
        { high := high + m, low := low, sp := v } ∧
      (∀ i, i < m → entry v (high + i) = F32.mul (nan (high + i)) (hfrFactor cfg hs (scale low)) (entry sp low)) ∧
      ∀ i, i < high ∨ high + m ≤ i → entry v i = entry sp i := by
  intro j
  induction j with
  | zero =>
    intro high low sp _ _
    exact ⟨0, sp, by omega, by rw [hfrGroup]; simp, fun i h => by omega, fun _ _ => rfl⟩
  | succ j ih =>
    intro high low sp hl hh
    rw [hfrGroup]
    by_cases hs' : total ≤ high ∨ (low : Int) < 0
    · rw [if_pos hs']
      exact ⟨0, sp, by omega, by simp, fun i h => by omega, fun _ _ => rfl⟩
    · rw [if_neg hs']
      simp only [Int.toNat_natCast, Bool.false_eq_true, if_false]
      obtain ⟨m, v, a1, a2, a3, a4⟩ := ih (high + 1) low
        (wr sp high (F32.mul (nan high) (hfrFactor cfg hs (scale low)) (rd sp low))) (by omega) (by omega)
      refine ⟨m + 1, v, by omega, ?_, fun i hi => ?_, fun i hi => ?_⟩
      · rw [a2, show high + 1 + m = high + (m + 1) by omega]
      · rcases i with _ | i
        · rw [Nat.add_zero, a4 _ (by omega), entry_wr, if_pos ⟨rfl, by omega⟩]; rfl
        · rw [show high + (i + 1) = high + 1 + i by omega, a3 i (by omega), entry_wr, if_neg (by omega)]
      · rw [a4 i (by omega), entry_wr, if_neg (by omega)]

/-- A group that finds no low index changes nothing. -/
theorem hfrGroup_stopped (cfg : Config) (nan : Nat → F32) (scale : Nat → Nat) (total hs : Nat) (down : Bool) (j : Nat)
    (q : HfrRun) (h : total ≤ q.high ∨ q.low < 0) : hfrGroup cfg nan scale total hs down j q = q := by
  cases j with
  | zero => rfl
  | succ j => rw [hfrGroup, if_pos h]

/-- After `g` groups, `m` bands are reconstructed; band `start + i` comes from band `start - 1 - min i step`. -/
theorem hfrGroupsUpTo_eq (cfg : Config) (nan : Nat → F32) (scale hfrScale : Nat → Nat) (total bands limit start : Nat)
    (sp : Vector F32 128) (hb : 0 < bands) (hst : start ≤ total) (hn : total ≤ 128) (g : Nat) :
    ∃ (m : Nat) (v : Vector F32 128),
      m = min (g * bands)
        (if start ≤ limit * bands then min start (total - start) else total - start) ∧
      hfrGroupsUpTo cfg nan scale hfrScale total bands limit
          { high := start, low := (start : Int) - 1, sp := sp } g =
        { high := start + m, low := (start : Int) - 1 - (min m (limit * bands) : Nat), sp := v } ∧
      (∀ i, i < m → entry v (start + i) =
        F32.mul (nan (start + i)) (hfrFactor cfg (hfrScale (i / bands)) (scale (start - 1 - min i (limit * bands))))
          (entry sp (start - 1 - min i (limit * bands)))) ∧
      ∀ i, i < start ∨ start + m ≤ i → entry v i = entry sp i := by
  induction g with
  | zero => exact ⟨0, sp, by omega, by simp [hfrGroupsUpTo], fun i h => by omega, fun _ _ => rfl⟩
  | succ g ih =>
    obtain ⟨m, v, h1, h2, h3, h4⟩ := ih
    have hg : (g + 1) * bands = g * bands + bands := by ring
    have hdiv : ∀ i, g * bands ≤ i → i < g * bands + bands → i / bands = g := by
      intro i ha hb'
      rw [Nat.div_eq_iff hb]; constructor <;> [skip; skip] <;> rw [Nat.mul_comm] at * <;> omega
    rw [hfrGroupsUpTo, h2, hg]
    by_cases hlim : g < limit
    · have hle : g * bands + bands ≤ limit * bands := by
        rw [← hg]; exact Nat.mul_le_mul_right _ hlim
      rw [decide_eq_true hlim]
      have hmin : min m (limit * bands) = m := by omega
      obtain ⟨m', v', a1, a2, a3, a4⟩ := hfrGroup_down cfg nan scale total (hfrScale g) hn bands (start + m) (start - m) v
        (by omega) (by split at h1 <;> omega)
      have hms : m ≤ start := by split at h1 <;> omega
      rw [hmin, show (start : Int) - 1 - m = ((start - m : Nat) : Int) - 1 by omega, a2]
      refine ⟨m + m', v', ?_, ?_, fun i hi => ?_, fun i hi => ?_⟩
      · split at h1 <;> split <;> omega
      · have hq : m + m' ≤ limit * bands := by omega
        rw [show min (m + m') (limit * bands) = m + m' by omega, Nat.add_assoc,
          show ((start - m : Nat) : Int) - 1 - m' = start - 1 - ((m + m' : Nat) : Int) by omega]
      · have hq : min i (limit * bands) = i := by omega
        rw [hq]
        by_cases hi' : i < m
        · rw [a4 _ (by omega), h3 i hi', hq]
        · have hmg : m = g * bands := by split at h1 <;> omega
          rw [show start + i = start + m + (i - m) by omega, a3 (i - m) (by omega), hdiv i (by omega) (by omega),
            show start - m - 1 - (i - m) = start - 1 - i by omega, h4 _ (by omega)]
      · rw [a4 i (by omega), h4 i (by omega)]
    · have hle : limit * bands ≤ g * bands := Nat.mul_le_mul_right _ (by omega)
      rw [decide_eq_false hlim]
      by_cases hst' : start ≤ limit * bands ∨ total ≤ start + m
      · have hm : m = if start ≤ limit * bands then min start (total - start) else total - start := by
          split at h1 <;> split <;> omega
        have hmin' : m = min (g * bands + bands) m := by
          have : m ≤ g * bands := by rw [h1]; exact Nat.min_le_left _ _
          omega
        refine ⟨m, v, by rw [← hm]; exact hmin', ?_, h3, h4⟩
        rw [hfrGroup_stopped]
        simp only
        split at hm <;> omega
      · rw [if_neg (by omega)] at h1
        have hmin : min m (limit * bands) = limit * bands := by omega
        obtain ⟨m', v', a1, a2, a3, a4⟩ := hfrGroup_rest cfg nan scale total (hfrScale g) hn bands (start + m)
          (start - 1 - limit * bands) v (by omega) (by omega)
        rw [hmin, show (start : Int) - 1 - (limit * bands : Nat) = ((start - 1 - limit * bands : Nat) : Int) by omega, a2]
        refine ⟨m + m', v', ?_, ?_, fun i hi => ?_, fun i hi => ?_⟩
        · rw [if_neg (by omega)]; omega
        · rw [show min (m + m') (limit * bands) = limit * bands by omega, Nat.add_assoc,
            show ((start - 1 - limit * bands : Nat) : Int) = start - 1 - (limit * bands : Nat) by omega]
        · by_cases hi' : i < m
          · rw [a4 _ (by omega), h3 i hi']
          · have hq : min i (limit * bands) = limit * bands := by omega
            rw [hq, show start + i = start + m + (i - m) by omega, a3 (i - m) (by omega), hdiv i (by omega) (by omega),
              h4 _ (by omega)]
        · rw [a4 i (by omega), h4 i (by omega)]

end Sys2Proof.Machine
end

