-- ==== Sys2Proof/Laws/Frame.lean ====
section
/-! SUPPORT. What a stage of DECODE_FRAME can do: which state it keeps, that it ends, and what a list of stages comes
to. -/

namespace Sys2Proof.Machine

/-- Every state a result carries has the property. -/
def Res.All (P : State → Prop) : Res → Prop
  | .done t => P t
  | .raised _ t => P t
  | .faulted _ => True
  | .refused _ => True

/-- The stage is done, with the property. -/
def Res.Done (P : State → Prop) (r : Res) : Prop := ∃ t, r = .done t ∧ P t

/-- The stage is done or raises one of the errors, with the property. -/
def Res.Ends (E : Status → Prop) (P : State → Prop) (r : Res) : Prop :=
  (∃ t, r = .done t ∧ P t) ∨ ∃ e t, r = .raised e t ∧ E e ∧ P t

theorem State.chan_setChan (s : State) (c d : Fin 16) (x : Channel) :
    (s.setChan c x).chan d = if d = c then x else s.chan d := by
  by_cases h : d = c
  · subst h; simp [State.chan, State.setChan]
  · have : ¬ c.val = d.val := fun e => h (Fin.ext e.symm)
    simp [State.chan, State.setChan, h, this]

/-- A property of every channel that the new value of one channel keeps. -/
theorem State.setChan_same {α : Type} (f : Channel → α) (s : State) (c : Fin 16) (x : Channel)
    (h : f x = f (s.chan c)) (d : Fin 16) : f ((s.setChan c x).chan d) = f (s.chan d) := by
  rw [State.chan_setChan]; split
  · rename_i e; rw [h, e]
  · rfl

/-- What every stage of DECODE_FRAME keeps: the stream, its key and tables, the buffers HDR and OUT, the channels' types
and coded counts. -/
structure SameStream (s t : State) : Prop where
  valid : t.valid = s.valid
  status : t.status = s.status
  ctx : t.ctx = s.ctx
  key : t.key = s.key
  cipherTable : t.cipherTable = s.cipherTable
  athCurve : t.athCurve = s.athCurve
  hdr : t.hdr = s.hdr
  out : t.out = s.out
  frmSize : t.frm.size = s.frm.size
  decoded : t.decoded = s.decoded
  queue : t.queue = s.queue
  remaining : t.remaining = s.remaining
  hdrLen : t.hdrLen = s.hdrLen
  frmLen : t.frmLen = s.frmLen
  result : t.result = s.result
  type : ∀ c, (t.chan c).type = (s.chan c).type
  coded : ∀ c, (t.chan c).codedCount = (s.chan c).codedCount

theorem SameStream.refl (s : State) : SameStream s s := by constructor <;> intros <;> rfl

theorem SameStream.trans {a b c : State} (h : SameStream a b) (k : SameStream b c) : SameStream a c where
  valid := k.valid.trans h.valid
  status := k.status.trans h.status
  ctx := k.ctx.trans h.ctx
  key := k.key.trans h.key
  cipherTable := k.cipherTable.trans h.cipherTable
  athCurve := k.athCurve.trans h.athCurve
  hdr := k.hdr.trans h.hdr
  out := k.out.trans h.out
  frmSize := k.frmSize.trans h.frmSize
  decoded := k.decoded.trans h.decoded
  queue := k.queue.trans h.queue
  remaining := k.remaining.trans h.remaining
  hdrLen := k.hdrLen.trans h.hdrLen
  frmLen := k.frmLen.trans h.frmLen
  result := k.result.trans h.result
  type c := (k.type c).trans (h.type c)
  coded c := (k.coded c).trans (h.coded c)

/-- What the stages before the subframe loop keep besides: the generator and the float state of the channels. -/
structure SameSound (s t : State) : Prop where
  random : t.random = s.random
  prev : ∀ c, (t.chan c).prev = (s.chan c).prev
  wave : ∀ c, (t.chan c).wave = (s.chan c).wave
  spectra : ∀ c, (t.chan c).spectra = (s.chan c).spectra
  scratch : ∀ c, (t.chan c).scratch = (s.chan c).scratch

theorem SameSound.refl (s : State) : SameSound s s := by constructor <;> intros <;> rfl

theorem SameSound.trans {a b c : State} (h : SameSound a b) (k : SameSound b c) : SameSound a c where
  random := k.random.trans h.random
  prev d := (k.prev d).trans (h.prev d)
  wave d := (k.wave d).trans (h.wave d)
  spectra d := (k.spectra d).trans (h.spectra d)
  scratch d := (k.scratch d).trans (h.scratch d)

/-- What the stages of the subframe loop keep besides: the frame buffer and the files unpacked from it. -/
structure SameFiles (s t : State) : Prop where
  frm : t.frm = s.frm
  noise : t.packedNoiseLevel = s.packedNoiseLevel
  scale : ∀ c, (t.chan c).scale = (s.chan c).scale
  hfrScale : ∀ c, (t.chan c).hfrScale = (s.chan c).hfrScale
  intensity : ∀ c, (t.chan c).intensity = (s.chan c).intensity
  resolution : ∀ c, (t.chan c).resolution = (s.chan c).resolution
  noises : ∀ c, (t.chan c).noises = (s.chan c).noises
  noiseCount : ∀ c, (t.chan c).noiseCount = (s.chan c).noiseCount
  validCount : ∀ c, (t.chan c).validCount = (s.chan c).validCount
  gain : ∀ c, (t.chan c).gain = (s.chan c).gain

theorem SameFiles.refl (s : State) : SameFiles s s := by constructor <;> intros <;> rfl

theorem SameFiles.trans {a b c : State} (h : SameFiles a b) (k : SameFiles b c) : SameFiles a c where
  frm := k.frm.trans h.frm
  noise := k.noise.trans h.noise
  scale d := (k.scale d).trans (h.scale d)
  hfrScale d := (k.hfrScale d).trans (h.hfrScale d)
  intensity d := (k.intensity d).trans (h.intensity d)
  resolution d := (k.resolution d).trans (h.resolution d)
  noises d := (k.noises d).trans (h.noises d)
  noiseCount d := (k.noiseCount d).trans (h.noiseCount d)
  validCount d := (k.validCount d).trans (h.validCount d)
  gain d := (k.gain d).trans (h.gain d)

/-- The cursor wraps what it wrapped. -/
structure SameWrap (s t : State) : Prop where
  buf : t.cur.buf = s.cur.buf
  sizeBits : t.cur.sizeBits = s.cur.sizeBits

theorem SameWrap.refl (s : State) : SameWrap s s := ⟨rfl, rfl⟩

theorem SameWrap.trans {a b c : State} (h : SameWrap a b) (k : SameWrap b c) : SameWrap a c :=
  ⟨k.buf.trans h.buf, k.sizeBits.trans h.sizeBits⟩

theorem State.chan_of_ch {s t : State} (c : Fin 16) (x : Channel) (h : t.ch = s.ch.set c x) (d : Fin 16) :
    t.chan d = (s.setChan c x).chan d := by
  simp only [State.chan, State.setChan, h]

/-- One channel changed, its type and count kept, nothing else of the stream. -/
theorem SameStream.of_setChan {s t : State} (c : Fin 16) (x : Channel) (hch : t.ch = s.ch.set c x)
    (h : SameStream s { t with ch := s.ch }) (h1 : x.type = (s.chan c).type) (h2 : x.codedCount = (s.chan c).codedCount) :
    SameStream s t where
  valid := h.valid
  status := h.status
  ctx := h.ctx
  key := h.key
  cipherTable := h.cipherTable
  athCurve := h.athCurve
  hdr := h.hdr
  out := h.out
  frmSize := h.frmSize
  decoded := h.decoded
  queue := h.queue
  remaining := h.remaining
  hdrLen := h.hdrLen
  frmLen := h.frmLen
  result := h.result
  type d := by rw [State.chan_of_ch c x hch]; exact State.setChan_same (·.type) s c x h1 d
  coded d := by rw [State.chan_of_ch c x hch]; exact State.setChan_same (·.codedCount) s c x h2 d

theorem SameSound.of_setChan {s t : State} (c : Fin 16) (x : Channel) (hch : t.ch = s.ch.set c x)
    (hr : t.random = s.random) (h1 : x.prev = (s.chan c).prev) (h2 : x.wave = (s.chan c).wave)
    (h3 : x.spectra = (s.chan c).spectra) (h4 : x.scratch = (s.chan c).scratch) : SameSound s t where
  random := hr
  prev d := by rw [State.chan_of_ch c x hch]; exact State.setChan_same (·.prev) s c x h1 d
  wave d := by rw [State.chan_of_ch c x hch]; exact State.setChan_same (·.wave) s c x h2 d
  spectra d := by rw [State.chan_of_ch c x hch]; exact State.setChan_same (·.spectra) s c x h3 d
  scratch d := by rw [State.chan_of_ch c x hch]; exact State.setChan_same (·.scratch) s c x h4 d

/-- One channel changed, its sound files apart from nothing. -/
theorem SameFiles.of_setChan {s t : State} (c : Fin 16) (x : Channel) (hch : t.ch = s.ch.set c x)
    (hf : t.frm = s.frm) (hn : t.packedNoiseLevel = s.packedNoiseLevel)
    (hx : { x with spectra := (s.chan c).spectra, scratch := (s.chan c).scratch, prev := (s.chan c).prev,
                   wave := (s.chan c).wave } = s.chan c) : SameFiles s t where
  frm := hf
  noise := hn
  scale d := by rw [State.chan_of_ch c x hch]; exact State.setChan_same (·.scale) s c x (by rw [← hx]) d
  hfrScale d := by rw [State.chan_of_ch c x hch]; exact State.setChan_same (·.hfrScale) s c x (by rw [← hx]) d
  intensity d := by rw [State.chan_of_ch c x hch]; exact State.setChan_same (·.intensity) s c x (by rw [← hx]) d
  resolution d := by rw [State.chan_of_ch c x hch]; exact State.setChan_same (·.resolution) s c x (by rw [← hx]) d
  noises d := by rw [State.chan_of_ch c x hch]; exact State.setChan_same (·.noises) s c x (by rw [← hx]) d
  noiseCount d := by rw [State.chan_of_ch c x hch]; exact State.setChan_same (·.noiseCount) s c x (by rw [← hx]) d
  validCount d := by rw [State.chan_of_ch c x hch]; exact State.setChan_same (·.validCount) s c x (by rw [← hx]) d
  gain d := by rw [State.chan_of_ch c x hch]; exact State.setChan_same (·.gain) s c x (by rw [← hx]) d

/-! Stages before the subframe loop. -/

/-- An unpacking stage keeps the stream, the sound, the frame buffer and the wrap. -/
structure Unpacks (s t : State) : Prop where
  stream : SameStream s t
  sound : SameSound s t
  wrap : SameWrap s t
  frm : t.frm = s.frm

theorem Unpacks.refl (s : State) : Unpacks s s := ⟨.refl s, .refl s, .refl s, rfl⟩

theorem Unpacks.trans {a b c : State} (h : Unpacks a b) (k : Unpacks b c) : Unpacks a c :=
  ⟨h.stream.trans k.stream, h.sound.trans k.sound, h.wrap.trans k.wrap, k.frm.trans h.frm⟩

/-- A change of cursor position, counters, noise level and one channel's unpacked files. -/
theorem Unpacks.of_chan {s t : State} (c : Fin 16) (x : Channel) (hch : t.ch = s.ch.set c x)
    (ht : t = { s with ch := t.ch, stage := t.stage, c := t.c, draws := t.draws,
                       packedNoiseLevel := t.packedNoiseLevel, cur := { s.cur with pos := t.cur.pos } })
    (hx : { s.chan c with scale := x.scale, hfrScale := x.hfrScale, intensity := x.intensity,
                          resolution := x.resolution, noises := x.noises, noiseCount := x.noiseCount,
                          validCount := x.validCount, gain := x.gain } = x) : Unpacks s t where
  stream := by
    refine SameStream.of_setChan c x hch ?_ (by rw [← hx]) (by rw [← hx])
    rw [ht]; constructor <;> intros <;> rfl
  sound := SameSound.of_setChan c x hch (by rw [ht]) (by rw [← hx]) (by rw [← hx]) (by rw [← hx]) (by rw [← hx])
  wrap := by rw [ht]; exact ⟨rfl, rfl⟩
  frm := by rw [ht]

theorem frScale_unpacks (c : Fin 16) (s : State) :
    (frScale .plain c s).Ends (· = .invalidScaleFactor) (Unpacks s) := by
  simp only [frScale]
  repeat' split
  all_goals first
    | (refine .inl ⟨_, rfl, ?_⟩; exact .of_chan c _ rfl rfl rfl)
    | (refine .inr ⟨_, _, rfl, rfl, ?_⟩; exact .of_chan c _ rfl rfl rfl)

theorem frIntensity_unpacks (c : Fin 16) (s : State) :
    (frIntensity .plain c s).Ends (· = .invalidIntensity) (Unpacks s) := by
  simp only [frIntensity, intensityOld, intensityNew, highBandScales]
  repeat' split
  all_goals first
    | (refine .inl ⟨_, rfl, ?_⟩; exact .of_chan c _ rfl rfl rfl)
    | (refine .inr ⟨_, _, rfl, rfl, ?_⟩; exact .of_chan c _ rfl rfl rfl)

theorem frResolution_unpacks (cfg : Config) (c : Fin 16) (s : State) : (frResolution cfg c s).Done (Unpacks s) := by
  rw [frResolution]
  exact ⟨_, rfl, .of_chan c _ rfl rfl rfl⟩

theorem frGain_unpacks (cfg : Config) (c : Fin 16) (s : State) : (frGain cfg c s).Done (Unpacks s) := by
  rw [frGain]
  exact ⟨_, rfl, .of_chan c _ rfl rfl rfl⟩

/-! Stages of the subframe loop. -/

/-- A stage of the subframe loop keeps the stream, the unpacked files and the wrap. -/
structure Sounds (s t : State) : Prop where
  stream : SameStream s t
  files : SameFiles s t
  wrap : SameWrap s t

theorem Sounds.refl (s : State) : Sounds s s := ⟨.refl s, .refl s, .refl s⟩

theorem Sounds.trans {a b c : State} (h : Sounds a b) (k : Sounds b c) : Sounds a c :=
  ⟨h.stream.trans k.stream, h.files.trans k.files, h.wrap.trans k.wrap⟩

/-- A change of cursor position, counters, generator and one channel's sound files. -/
theorem Sounds.of_chan {s t : State} (c : Fin 16) (x : Channel) (hch : t.ch = s.ch.set c x)
    (ht : t = { s with ch := t.ch, stage := t.stage, c := t.c, sf := t.sf, draws := t.draws,
                       random := t.random, cur := { s.cur with pos := t.cur.pos } })
    (hx : { s.chan c with spectra := x.spectra, scratch := x.scratch, prev := x.prev, wave := x.wave } = x) :
    Sounds s t where
  stream := by
    refine SameStream.of_setChan c x hch ?_ (by rw [← hx]) (by rw [← hx])
    rw [ht]; constructor <;> intros <;> rfl
  files := SameFiles.of_setChan c x hch (by rw [ht]) (by rw [ht]) (by rw [← hx])
  wrap := by rw [ht]; exact ⟨rfl, rfl⟩

/-- The same for two channels. -/
theorem Sounds.of_pair {s t : State} (c d : Fin 16) (hne : d ≠ c) (x y : Channel)
    (hch : t.ch = (s.ch.set c x).set d y)
    (ht : t = { s with ch := t.ch, stage := t.stage, c := t.c, sf := t.sf, draws := t.draws,
                       random := t.random, cur := { s.cur with pos := t.cur.pos } })
    (hx : { s.chan c with spectra := x.spectra, scratch := x.scratch, prev := x.prev, wave := x.wave } = x)
    (hy : { s.chan d with spectra := y.spectra, scratch := y.scratch, prev := y.prev, wave := y.wave } = y) :
    Sounds s t := by
  have h1 : Sounds s (s.setChan c x) := .of_chan c x rfl rfl hx
  refine h1.trans (.of_chan d y hch (by rw [ht]; rfl) ?_)
  rw [State.chan_setChan, if_neg hne]; exact hy

/-- A change of counters only. -/
theorem Sounds.of_counters {s t : State}
    (ht : t = { s with stage := t.stage, c := t.c, sf := t.sf }) : Sounds s t := by
  rw [ht]
  refine ⟨?_, ?_, ⟨rfl, rfl⟩⟩ <;> constructor <;> intros <;> rfl

theorem spDequant_sounds (c : Fin 16) (s : State) (h : (s.chan c).codedCount.toNat ≤ 128) :
    (spDequant Config.hw .plain c s).Done (Sounds s) := by
  rw [spDequant]
  obtain ⟨p, v, -, h1, -, -⟩ := dequantUpTo_ok (s.enterChan 0x30 c).peekAt .plain
    (fun i => (rd ((s.enterChan 0x30 c).chan c).resolution i).toNat)
    (fun i q => F32.mul ((s.enterChan 0x30 c).nan Config.hw i) (rd ((s.enterChan 0x30 c).chan c).gain i) q)
    (s.enterChan 0x30 c).cur.pos (Vector.replicate 128 F32.zero) ((s.enterChan 0x30 c).chan c).coded h
  simp only [h1]
  exact ⟨_, rfl, .of_chan c _ rfl rfl rfl⟩

theorem spNoise_sounds (cfg : Config) (c : Fin 16) (s : State) : (spNoise cfg c s).Done (Sounds s) := by
  rw [spNoise]
  simp only
  split
  · exact ⟨_, rfl, .of_chan c _ rfl rfl rfl⟩
  · exact ⟨_, rfl, .of_counters rfl⟩

theorem spHfr_sounds (cfg : Config) (c : Fin 16) (s : State) : (spHfr cfg c s).Done (Sounds s) := by
  rw [spHfr]
  simp only
  split
  · exact ⟨_, rfl, .of_counters rfl⟩
  · exact ⟨_, rfl, .of_chan c _ rfl rfl rfl⟩

theorem secondaryOf_some (c : Fin 16) (h : c.val + 1 < 16) : secondaryOf c = some ⟨c.val + 1, h⟩ := dif_pos h

theorem spIstereo_sounds (cfg : Config) (c : Fin 16) (sf : Fin 8) (s : State) (h : c.val + 1 < 16) :
    (spIstereo cfg c sf s).Done (Sounds s) := by
  rw [spIstereo]
  simp only [secondaryOf_some c h]
  have hne : (⟨c.val + 1, h⟩ : Fin 16) ≠ c := by intro e; have := congrArg Fin.val e; simp at this
  refine ⟨_, rfl, Sounds.of_pair c ⟨c.val + 1, h⟩ hne _ _ rfl rfl rfl rfl⟩

theorem spMsstereo_sounds (cfg : Config) (c : Fin 16) (s : State) (h : c.val + 1 < 16) :
    (spMsstereo cfg c s).Done (Sounds s) := by
  rw [spMsstereo]
  simp only [secondaryOf_some c h]
  have hne : (⟨c.val + 1, h⟩ : Fin 16) ≠ c := by intro e; have := congrArg Fin.val e; simp at this
  refine ⟨_, rfl, Sounds.of_pair c ⟨c.val + 1, h⟩ hne _ _ rfl rfl rfl rfl⟩

theorem imPass1_sounds (cfg : Config) (c : Fin 16) (s : State) : (imPass1 cfg c s).Done (Sounds s) :=
  ⟨_, rfl, .of_chan c _ rfl rfl rfl⟩

theorem imPass2_sounds (cfg : Config) (c : Fin 16) (s : State) : (imPass2 cfg c s).Done (Sounds s) :=
  ⟨_, rfl, .of_chan c _ rfl rfl rfl⟩

theorem imWindow_sounds (cfg : Config) (c : Fin 16) (sf : Fin 8) (s : State) :
    (imWindow cfg c sf s).Done (Sounds s) := ⟨_, rfl, .of_chan c _ rfl rfl rfl⟩

/-! Lists of stages. -/

theorem Res.Done.of_imp {P Q : State → Prop} {r : Res} (h : r.Done P) (hi : ∀ t, P t → Q t) : r.Done Q := by
  obtain ⟨t, e, ht⟩ := h; exact ⟨t, e, hi t ht⟩

theorem Res.Ends.of_imp {E F : Status → Prop} {P Q : State → Prop} {r : Res} (h : r.Ends E P) (he : ∀ e, E e → F e)
    (hi : ∀ t, P t → Q t) : r.Ends F Q := by
  rcases h with ⟨t, e, ht⟩ | ⟨e, t, hr, h1, ht⟩
  · exact .inl ⟨t, e, hi t ht⟩
  · exact .inr ⟨e, t, hr, he e h1, hi t ht⟩

theorem Res.Done.ends {E : Status → Prop} {P : State → Prop} {r : Res} (h : r.Done P) : r.Ends E P := by
  obtain ⟨t, e, ht⟩ := h; exact .inl ⟨t, e, ht⟩

theorem runStages_append (cfg : Config) (l l' : List Instr) (s : State) :
    runStages cfg (l ++ l') s = (runStages cfg l s).andThen (runStages cfg l') := by
  induction l generalizing s with
  | nil => rfl
  | cons i l ih =>
    rw [List.cons_append, runStages, runStages]
    cases stageMeaning cfg i s with
    | done t => exact ih t
    | raised e t => rfl
    | faulted f => rfl
    | refused r => rfl

/-- Stages that each end, keeping a transitive relation, end and keep it. -/
theorem runStages_ends (cfg : Config) (R : State → State → Prop) (E : Status → Prop) (hr : ∀ s, R s s)
    (ht : ∀ a b c, R a b → R b c → R a c) (l : List Instr) (s : State)
    (h : ∀ i ∈ l, ∀ t, R s t → (stageMeaning cfg i t).Ends E (R t)) : (runStages cfg l s).Ends E (R s) := by
  suffices H : ∀ t, R s t → (runStages cfg l t).Ends E (R s) from H s (hr s)
  induction l with
  | nil => intro t hst; exact .inl ⟨t, rfl, hst⟩
  | cons i l ih =>
    intro t hst
    rw [runStages]
    rcases h i (List.mem_cons_self ..) t hst with ⟨u, e, hu⟩ | ⟨x, u, e, hx, hu⟩
    · rw [e]
      exact ih (fun j hj => h j (List.mem_cons_of_mem _ hj)) u (ht _ _ _ hst hu)
    · rw [e]
      exact .inr ⟨x, u, rfl, hx, ht _ _ _ hst hu⟩

/-- Stages that are each done, keeping a transitive relation, are done and keep it. -/
theorem runStages_done (cfg : Config) (R : State → State → Prop) (hr : ∀ s, R s s)
    (ht : ∀ a b c, R a b → R b c → R a c) (l : List Instr) (s : State)
    (h : ∀ i ∈ l, ∀ t, R s t → (stageMeaning cfg i t).Done (R t)) : (runStages cfg l s).Done (R s) := by
  rcases runStages_ends cfg R (fun _ => False) hr ht l s fun i hi t hst => (h i hi t hst).ends with
    ⟨t, e, h⟩ | ⟨e, t, _, hf, _⟩
  · exact ⟨t, e, h⟩
  · exact hf.elim

/-- The stages of step 5 end, with one of their two errors if any. -/
theorem runStages_unpack (l : List (Fin 16)) (s : State) :
    (runStages Config.hw (l.flatMap unpackChannel) s).Ends
      (fun e => e = .invalidScaleFactor ∨ e = .invalidIntensity) (Unpacks s) := by
  refine runStages_ends Config.hw Unpacks _ Unpacks.refl (fun _ _ _ => Unpacks.trans) _ s fun i hi t _ => ?_
  obtain ⟨c, _, hc⟩ := List.mem_flatMap.1 hi
  simp only [unpackChannel, List.mem_cons, List.not_mem_nil, or_false] at hc
  rcases hc with rfl | rfl | rfl | rfl
  · exact (frScale_unpacks c t).of_imp (fun _ => .inl) (fun _ h => h)
  · exact (frIntensity_unpacks c t).of_imp (fun _ => .inr) (fun _ h => h)
  · exact (frResolution_unpacks _ c t).ends
  · exact (frGain_unpacks _ c t).ends

/-- The subframe loop is done, on the channels of an opened stream. -/
theorem runStages_subframes (s u : State) (h16 : s.ctx.channelCount.toNat ≤ 16)
    (hc : ∀ c : Fin 16, c.val < s.ctx.channelCount.toNat → (u.chan c).codedCount.toNat ≤ 128) :
    (runStages Config.hw ((List.finRange 8).flatMap (subframe s)) u).Done (Sounds u) := by
  refine runStages_done Config.hw Sounds Sounds.refl (fun _ _ _ => Sounds.trans) _ u fun i hi t hut => ?_
  obtain ⟨sf, _, hi⟩ := List.mem_flatMap.1 hi
  have live : ∀ c, c ∈ s.liveChannels → c.val < s.ctx.channelCount.toNat := fun c h => by
    simpa [State.liveChannels] using h
  simp only [subframe, List.mem_append, List.mem_map, List.mem_flatMap] at hi
  rcases hi with (((⟨c, hc', rfl⟩ | ⟨c, _, rfl⟩) | ⟨c, _, rfl⟩) | ⟨c, _, hp⟩) | ⟨c, _, hp⟩
  · exact spDequant_sounds c t (by rw [hut.stream.coded]; exact hc c (live c hc'))
  · exact spNoise_sounds _ c t
  · exact spHfr_sounds _ c t
  · rw [stereoPair] at hp
    split at hp
    · rename_i h
      rcases List.mem_cons.1 hp with rfl | hp
      · exact spIstereo_sounds _ c sf t (by omega)
      · split at hp
        · rw [List.mem_singleton] at hp
          subst hp
          exact spMsstereo_sounds _ c t (by omega)
        · simp at hp
    · simp at hp
  · simp only [List.mem_cons, List.not_mem_nil, or_false] at hp
    rcases hp with rfl | rfl | rfl
    · exact imPass1_sounds _ c t
    · exact imPass2_sounds _ c t
    · exact imWindow_sounds _ c sf t

/-- The cursor over a frame, behind the sync word. -/
def frameCursor (s : State) (pos : Nat) : Cursor :=
  { buf := some .frm, sizeBits := 8 * s.ctx.frameSize.toNat, pos := pos }

/-- The sync word is there. -/
def syncOk (s : State) : Prop := s.frm.byte 0 = 0xFF ∧ s.frm.byte 1 = 0xFF

/-- The state behind the frame checks: FRM decrypted, the noise level read. -/
def checkedFrame (s : State) : State :=
  let u : State := { s with stage := 0x24, frm := s.frm.substitute s.cipherTable s.ctx.frameSize.toNat,
                            cur := frameCursor s 16 }
  { u with packedNoiseLevel := (u.peekAt 16 9 * 256 : Int) - u.peekAt 25 7, cur := frameCursor s 32 }

theorem frSync_eq (s : State) (h : s.ctx.frameSize.toNat ≤ s.frm.size) (h2 : 2 ≤ s.ctx.frameSize.toNat) :
    (syncOk s → frSync s = .done { s with stage := 0x21, cur := frameCursor s 16 }) ∧
    (¬ syncOk s → frSync s = .raised .syncError { s with stage := 0x21, cur := frameCursor s 16 }) := by
  let s1 : State := { s.enter 0x21 with cur := frameCursor s 0 }
  have hw : wrap .frm s.ctx.frameSize.toNat 0 (s.enter 0x21) = .done s1 := by
    rw [wrap, if_neg (by show ¬ s.frm.size < _; omega)]; rfl
  have hpk : s1.peek 16 = 0xFFFF ↔ syncOk s := by
    have ha : s1.active = s.frm := rfl
    rw [State.peek, State.peekAt, if_neg (by omega), ha]
    have hb := Buffer.bits_add s.frm (8 * 0) 8 8
    have h8 := Buffer.bits_eight s.frm 1
    rw [Buffer.bits_eight] at hb
    have h8' : s.frm.bits (8 * 0 + 8) 8 = (s.frm.byte 1).toNat := h8
    rw [h8'] at hb
    have hb' : s.frm.bits s1.cur.pos 16 = (s.frm.byte 0).toNat * 2 ^ 8 + (s.frm.byte 1).toNat := hb
    rw [hb', syncOk]
    have c0 : s.frm.byte 0 = 0xFF ↔ (s.frm.byte 0).toNat = 255 := by rw [← BitVec.toNat_inj]; rfl
    have c1 : s.frm.byte 1 = 0xFF ↔ (s.frm.byte 1).toNat = 255 := by rw [← BitVec.toNat_inj]; rfl
    rw [c0, c1]
    have l0 := (s.frm.byte 0).isLt
    have l1 := (s.frm.byte 1).isLt
    have hsz : s1.cur.sizeBits = 8 * s.ctx.frameSize.toNat := rfl
    have hps : s1.cur.pos = 0 := rfl
    rw [hsz, hps]
    split <;> omega
  have key : frSync s = if s1.peek 16 ≠ 0xFFFF then .raised .syncError (s1.seek 16) else .done (s1.seek 16) := by
    show (wrap .frm s.ctx.frameSize.toNat 0 (s.enter 0x21)).andThen _ = _
    rw [hw]; rfl
  constructor
  · intro hc; rw [key, if_neg (by rw [not_not]; exact hpk.2 hc)]; rfl
  · intro hc; rw [key, if_pos (fun e => hc (hpk.1 e))]; rfl

/-- The frame checks in their order (60_exceptions.md rule R274). -/
theorem frameChecks_run (cfg : Config) (s : State) (hn : s.frmLen.toNat ≤ s.frm.size)
    (h2 : 2 ≤ s.ctx.frameSize.toNat) :
    (s.frmLen.toNat < s.ctx.frameSize.toNat →
      runStages cfg frameChecks s = .raised .shortBuffer { s with stage := 0x20 }) ∧
    (s.ctx.frameSize.toNat ≤ s.frmLen.toNat →
      (¬ syncOk s →
        runStages cfg frameChecks s = .raised .syncError { s with stage := 0x21, cur := frameCursor s 16 }) ∧
      (syncOk s → (cfg.checksumFrame (s.frm.bytes s.ctx.frameSize.toNat) ≠ 0 →
        runStages cfg frameChecks s = .raised .checksumError { s with stage := 0x22, cur := frameCursor s 16 }) ∧
      (cfg.checksumFrame (s.frm.bytes s.ctx.frameSize.toNat) = 0 →
        runStages cfg frameChecks s = .done (checkedFrame s)))) := by
  have len : (s.ctx.frameSize.toNat ≤ s.frmLen.toNat → frChecklen s = .done (s.enter 0x20)) ∧
      (s.frmLen.toNat < s.ctx.frameSize.toNat → frChecklen s = .raised .shortBuffer (s.enter 0x20)) :=
    ⟨fun hl => if_neg (by show ¬ s.frmLen.toNat < s.ctx.frameSize.toNat; omega), fun hl => if_pos hl⟩
  refine ⟨fun hl => ?_, fun hl => ?_⟩
  · simp only [frameChecks, runStages, stageMeaning, stageBy, len.2 hl, Res.andThen]; rfl
  have h : s.ctx.frameSize.toNat ≤ s.frm.size := hl.trans hn
  obtain ⟨y1, y2⟩ := frSync_eq (s.enter 0x20) h h2
  refine ⟨fun hn => ?_, fun hy => ⟨fun hc => ?_, fun hc => ?_⟩⟩
  · simp only [frameChecks, runStages, stageMeaning, stageBy, len.1 hl, Res.andThen, y2 hn]; rfl
  · have e : frChecksum cfg { s.enter 0x20 with stage := 0x21, cur := frameCursor (s.enter 0x20) 16 } =
        .raised .checksumError { s with stage := 0x22, cur := frameCursor s 16 } := by
      rw [frChecksum]
      exact (if_neg (by show ¬ s.frm.size < _; simpa using h)).trans (if_pos hc)
    simp only [frameChecks, runStages, stageMeaning, stageBy, len.1 hl, Res.andThen, y1 hy, e]
  · have e : frChecksum cfg { s.enter 0x20 with stage := 0x21, cur := frameCursor (s.enter 0x20) 16 } =
        .done { s with stage := 0x22, cur := frameCursor s 16 } := by
      rw [frChecksum]
      exact (if_neg (by show ¬ s.frm.size < _; simpa using h)).trans (if_neg (by rw [not_not]; exact hc))
    have e2 : frDecrypt { s with stage := 0x22, cur := frameCursor s 16 } =
        .done { s with stage := 0x23, frm := s.frm.substitute s.cipherTable s.ctx.frameSize.toNat,
                       cur := frameCursor s 16 } := by
      rw [frDecrypt]
      refine (if_neg (by show ¬ s.frm.size < _; simpa using h)).trans ?_
      rw [wrap]
      exact if_neg (by show ¬ s.frm.size < _; simpa using h)
    simp only [frameChecks, runStages, stageMeaning, stageBy, len.1 hl, Res.andThen, y1 hy, e, e2]
    rfl

/-- The sequence of the machine is the sequence of rule R241. -/
theorem frameSequence_eq (s : State) : frameSequence s = s.frameStages := by
  have hp : ∀ (l : List (Fin 16)) (sf : Fin 8), l.flatMap (stereoPair s sf) =
      (l.filter fun c => 0 < s.ctx.stereoBandCount.toNat && c.val + 1 < s.ctx.channelCount.toNat &&
        (s.chan c).type == .primary).flatMap
      (fun c => if s.ctx.msStereo = 0 then [.spIstereo c sf, .spMsstereo c] else [.spIstereo c sf]) := by
    intro l sf
    induction l with
    | nil => rfl
    | cons c l ih =>
      rw [List.flatMap_cons, ih, List.filter_cons]
      by_cases h : 0 < s.ctx.stereo ∧ c.val + 1 < s.ctx.channelCount.toNat ∧ (s.chan c).type = .primary
      · have h' : (decide (0 < s.ctx.stereoBandCount.toNat) && decide (c.val + 1 < s.ctx.channelCount.toNat) &&
            (s.chan c).type == .primary) = true := by
          simpa [Ctx.stereo, and_assoc] using h
        rw [stereoPair, if_pos h, if_pos h', List.flatMap_cons]
        split <;> rfl
      · have h' : ¬ (decide (0 < s.ctx.stereoBandCount.toNat) && decide (c.val + 1 < s.ctx.channelCount.toNat) &&
            (s.chan c).type == .primary) = true := by
          simpa [Ctx.stereo, and_assoc] using h
        rw [stereoPair, if_neg h, if_neg h']; rfl
  have hsub : subframe s = s.subframeStages := by
    funext sf
    rw [subframe, State.subframeStages, hp]; rfl
  rw [frameSequence, State.frameStages, hsub]; rfl

/-! Channels a frame does not touch. -/

/-- The channels from `n` on are the same. -/
def SameBeyond (n : Nat) (s t : State) : Prop := ∀ d : Fin 16, n ≤ d.val → t.chan d = s.chan d

theorem SameBeyond.of_set {n : Nat} {s t : State} (c : Fin 16) (x : Channel) (hch : t.ch = s.ch.set c x)
    (hc : c.val < n) : SameBeyond n s t := fun d hd => by
  rw [State.chan_of_ch c x hch, State.chan_setChan, if_neg (fun e => by rw [e] at hd; omega)]

theorem SameBeyond.of_pair {n : Nat} {s t : State} (c d : Fin 16) (x y : Channel)
    (hch : t.ch = (s.ch.set c x).set d y) (hc : c.val < n) (hd : d.val < n) : SameBeyond n s t := fun e he => by
  rw [State.chan_of_ch (s := s.setChan c x) d y hch, State.chan_setChan, if_neg (fun h => by rw [h] at he; omega)]
  exact SameBeyond.of_set c x rfl hc e he

theorem Res.All.andThen {P Q : State → Prop} {r : Res} {f : State → Res} (h : r.All P) (hi : ∀ t, P t → Q t)
    (hf : ∀ t, r = .done t → P t → (f t).All Q) : (r.andThen f).All Q := by
  cases r with
  | done t => exact hf t rfl h
  | raised e t => exact hi t h
  | faulted f => trivial
  | refused f => trivial

/-- A list of stages keeps what each of them keeps. -/
theorem runStages_all (cfg : Config) (R : State → State → Prop) (hr : ∀ s, R s s)
    (ht : ∀ a b c, R a b → R b c → R a c) (l : List Instr) (s : State)
    (h : ∀ i ∈ l, ∀ t, (stageMeaning cfg i t).All (R t)) : (runStages cfg l s).All (R s) := by
  induction l generalizing s with
  | nil => exact hr s
  | cons i l ih =>
    rw [runStages]
    refine (h i (List.mem_cons_self ..) s).andThen (fun _ h => h) fun t _ hst => ?_
    have := ih t fun j hj => h j (List.mem_cons_of_mem _ hj)
    cases e : runStages cfg l t with
    | done u => rw [e] at this; exact ht _ _ _ hst this
    | raised x u => rw [e] at this; exact ht _ _ _ hst this
    | faulted f => trivial
    | refused f => trivial

/-- Every stage of a frame touches live channels only. -/
theorem frameSequence_beyond (cfg : Config) (s : State) (i : Instr) (hi : i ∈ frameSequence s) (t : State) :
    (stageMeaning cfg i t).All (SameBeyond s.ctx.channelCount.toNat t) := by
  have live : ∀ c, c ∈ s.liveChannels → c.val < s.ctx.channelCount.toNat := fun c h => by
    simpa [State.liveChannels] using h
  have same : ∀ u : State, u.ch = t.ch → SameBeyond s.ctx.channelCount.toNat t u := fun u h d _ => by
    simp only [State.chan, h]
  rw [frameSequence, List.mem_append, List.mem_append] at hi
  rcases hi with (hi | hi) | hi
  · simp only [frameChecks, List.mem_cons, List.not_mem_nil, or_false] at hi
    rcases hi with rfl | rfl | rfl | rfl | rfl
    · simp only [stageMeaning, stageBy, frChecklen]; split <;> exact same _ rfl
    · simp only [stageMeaning, stageBy, frSync, wrap]
      split
      · trivial
      · simp only [Res.andThen]; split <;> exact same _ rfl
    · simp only [stageMeaning, stageBy, frChecksum]
      split
      · trivial
      · split <;> exact same _ rfl
    · simp only [stageMeaning, stageBy, frDecrypt, wrap]
      split
      · trivial
      · split
        · trivial
        · exact same _ rfl
    · exact same _ rfl
  · obtain ⟨c, hl, hc⟩ := List.mem_flatMap.1 hi
    have hc' := live c hl
    simp only [unpackChannel, List.mem_cons, List.not_mem_nil, or_false] at hc
    rcases hc with rfl | rfl | rfl | rfl
    · simp only [stageMeaning, stageBy, frScale]
      repeat' split
      all_goals exact .of_set c _ rfl hc'
    · simp only [stageMeaning, stageBy, frIntensity, intensityOld, intensityNew, highBandScales]
      repeat' split
      all_goals exact .of_set c _ rfl hc'
    · simp only [stageMeaning, stageBy, frResolution]; exact .of_set c _ rfl hc'
    · simp only [stageMeaning, stageBy, frGain]; exact .of_set c _ rfl hc'
  · obtain ⟨sf, _, hi⟩ := List.mem_flatMap.1 hi
    simp only [subframe, List.mem_append, List.mem_map, List.mem_flatMap] at hi
    rcases hi with (((⟨c, hl, rfl⟩ | ⟨c, hl, rfl⟩) | ⟨c, hl, rfl⟩) | ⟨c, hl, hp⟩) | ⟨c, hl, hp⟩
    · simp only [stageMeaning, stageBy, spDequant]
      split
      · trivial
      · exact .of_set c _ rfl (live c hl)
    · simp only [stageMeaning, stageBy, spNoise]
      split
      · exact .of_set c _ rfl (live c hl)
      · exact same _ rfl
    · simp only [stageMeaning, stageBy, spHfr]
      split
      · exact same _ rfl
      · exact .of_set c _ rfl (live c hl)
    · rw [stereoPair] at hp
      split at hp
      · rename_i h
        rcases List.mem_cons.1 hp with rfl | hp
        · simp only [stageMeaning, stageBy, spIstereo]
          split
          · trivial
          · rename_i d hd
            have : d.val = c.val + 1 := by
              rw [secondaryOf] at hd; split at hd
              · injection hd with hd; rw [← hd]
              · cases hd
            exact .of_pair c d _ _ rfl (live c hl) (by omega)
        · split at hp
          · rw [List.mem_singleton] at hp
            subst hp
            simp only [stageMeaning, stageBy, spMsstereo]
            split
            · trivial
            · rename_i d hd
              have : d.val = c.val + 1 := by
                rw [secondaryOf] at hd; split at hd
                · injection hd with hd; rw [← hd]
                · cases hd
              exact .of_pair c d _ _ rfl (live c hl) (by omega)
          · simp at hp
      · simp at hp
    · simp only [List.mem_cons, List.not_mem_nil, or_false] at hp
      rcases hp with rfl | rfl | rfl
      · simp only [stageMeaning, stageBy, imPass1]; exact .of_set c _ rfl (live c hl)
      · simp only [stageMeaning, stageBy, imPass2]; exact .of_set c _ rfl (live c hl)
      · simp only [stageMeaning, stageBy, imWindow]; exact .of_set c _ rfl (live c hl)

end Sys2Proof.Machine
end

