-- ==== Sys2Proof/Laws/Cursor.lean ====
section
/-! SUPPORT. How far a stage moves the cursor (40_bitcursor.md rule R108), and what the range of its register means for
an instruction run as a step. -/

namespace Sys2Proof.Machine

/-! A stage run by itself. -/

theorem Res.All.of_imp {P Q : State → Prop} {r : Res} (h : r.All P) (hi : ∀ t, P t → Q t) : r.All Q := by
  cases r with
  | done t => exact hi t h
  | raised e t => exact hi t h
  | faulted f => trivial
  | refused f => trivial

theorem Res.All.drew {P : State → Prop} {r : Res} (h : r.All P) (hi : ∀ t n, P t → P { t with draws := n }) (n : Nat) :
    (r.drew n).All P := by
  cases r with
  | done t => exact hi t _ h
  | raised e t => exact hi t _ h
  | faulted f => trivial
  | refused f => trivial

theorem Res.drew_zero (r : Res) : r.drew 0 = r := by cases r <;> rfl

theorem takeError_pos (cfg : Config) (e : Status) (s : State) : (takeError cfg e s).cur.pos = s.cur.pos := by
  cases e <;> rfl

theorem Res.all_ite {P : State → Prop} {p : Prop} [Decidable p] {x y : Res} (hx : p → x.All P) (hy : ¬ p → y.All P) :
    (if p then x else y).All P := by
  split
  · exact hx ‹_›
  · exact hy ‹_›

/-- A stage run by itself is the stage over some moves, some free values used: moves that are the sum in the range, and
that end in it, unless they are plain because the stage cannot leave it. -/
theorem alone_moves (reach : Nat) (stage : Moves → State → Res) (s : State) :
    ∃ (mv : Moves) (n : Nat), alone Config.hw reach stage s = (stage mv s).drew n ∧
      (∀ (k p : Nat), p < 2 ^ 31 → mv k (p : Int) = p) ∧
      (s.cur.pos + reach < 2 ^ 31 ∧ mv = .plain ∧ n = 0 ∨ ∀ k p, mv k p < 2 ^ 31) := by
  rw [alone]
  split
  · exact ⟨.plain, 0, (Res.drew_zero _).symm, fun _ _ _ => rfl, .inl ⟨‹_›, rfl, rfl⟩⟩
  · exact ⟨_, _, rfl, fun k p h => Moves.free_nat _ _ _ h, .inr (Moves.free_lt _ _)⟩

/-- A row of reads whose plain positions are in the range is read at them. -/
theorem walk_eq {mv : Moves} (h : ∀ (k p : Nat), p < 2 ^ 31 → mv k (p : Int) = p) (w p : Nat) :
    ∀ i, p + w * i < 2 ^ 31 → mv.walk w p i = p + w * i
  | 0, _ => rfl
  | i + 1, hi => by
    rw [Nat.mul_succ] at hi ⊢
    rw [Moves.walk, walk_eq h w p i (by omega), h _ _ (by omega)]; omega

/-- How far the instruction may move the cursor, for those that move it from wherever it stands. -/
def cursorReach : Instr → Option Nat
  | .bcRead n => some n.toNat
  | .bcSkip d => some d.toInt.toNat
  | .frNoiselevel => some stageReach
  | .frScale _ => some stageReach
  | .frIntensity _ => some stageReach
  | .spDequant _ => some stageReach
  | _ => none

/-- Outside the five commands the meaning is the stage's with its outcome: plain moves, or, where the stage may leave the
range of the cursor's register, free ones. -/
theorem exec_stage_eq (i : Instr) (s : State) (h : (encode i).1 ≠ .command) :
    exec i s = (match cursorReach i with
      | some n => alone Config.hw n (fun mv => stageBy Config.hw mv i) s
      | none => stageMeaning Config.hw i s).outcome Config.hw := by
  cases i <;> first | rfl | exact absurd rfl h

/-- A stage that cannot leave the range answers what the controller runs. -/
theorem exec_stage (i : Instr) (s : State) (h : (encode i).1 ≠ .command)
    (hr : ∀ n, cursorReach i = some n → s.cur.pos + n < 2 ^ 31) :
    exec i s = (stageMeaning Config.hw i s).outcome Config.hw := by
  rw [exec_stage_eq i s h]
  split
  · rw [alone, if_pos (hr _ ‹_›)]; rfl
  · rfl

/-- Outside the five commands an instruction is its stage over some moves, some free values used. -/
theorem exec_stage_moves (i : Instr) (s : State) (h : (encode i).1 ≠ .command) :
    ∃ (mv : Moves) (n : Nat), exec i s = ((stageBy Config.hw mv i s).drew n).outcome Config.hw := by
  rw [exec_stage_eq i s h]
  split
  · obtain ⟨mv, n, e, -⟩ := alone_moves _ (fun mv => stageBy Config.hw mv i) s
    exact ⟨mv, n, by rw [e]⟩
  · exact ⟨.plain, 0, by rw [Res.drew_zero]; rfl⟩

/-! How far the loops move the cursor. -/

theorem deltaRun_pos {n : Nat} (pk : Nat → Nat → Nat) (dw lw k : Nat) :
    ∀ (i pos value : Nat) (file : Vector (BitVec lw) n),
      (deltaRun pk .plain dw lw k i pos value file).pos ≤ pos + k * (dw + lw) := by
  induction k with
  | zero => intro i pos value file; rw [deltaRun]; simp only; omega
  | succ k ih =>
    intro i pos value file
    have e : (k + 1) * (dw + lw) = k * (dw + lw) + (dw + lw) := Nat.succ_mul _ _
    rw [deltaRun]
    simp only [Moves.plain_nat]
    split
    · refine (ih ..).trans ?_; omega
    · split
      · simp only; omega
      · refine (ih ..).trans ?_; omega

/-- Over moves that end in the range a run of values does. -/
theorem deltaRun_lt {n : Nat} (pk : Nat → Nat → Nat) {mv : Moves} (hmv : ∀ k p, mv k p < 2 ^ 31) (dw lw k : Nat) :
    ∀ (i pos value : Nat) (file : Vector (BitVec lw) n), pos < 2 ^ 31 →
      (deltaRun pk mv dw lw k i pos value file).pos < 2 ^ 31 := by
  induction k with
  | zero => intro i pos value file h; exact h
  | succ k ih =>
    intro i pos value file h
    rw [deltaRun]
    simp only
    split
    · exact ih _ _ _ _ (hmv _ _)
    · split
      · exact hmv _ _
      · exact ih _ _ _ _ (hmv _ _)

theorem walk_lt {mv : Moves} (hmv : ∀ k p, mv k p < 2 ^ 31) (w p : Nat) (hp : p < 2 ^ 31) :
    ∀ i, mv.walk w p i < 2 ^ 31
  | 0 => hp
  | _ + 1 => hmv _ _

theorem dequantOne_pos {pk : Nat → Nat → Nat} {i r pos p : Nat} {q : F32}
    (h : dequantOne Config.hw pk .plain i r pos = .ok (q, p)) : p ≤ pos + 16 := by
  have hw := Config.hw_maxBits_le r
  have hr := Config.hw_readBits_le r (pk pos (Config.hw.tMaxBits r))
  rw [dequantOne] at h
  simp only at h
  split at h
  · cases h
  · injection h with h; injection h with _ h
    rw [← h]
    show Int.toNat (((pos + Config.hw.tMaxBits r : Nat) : Int) + _) ≤ _
    split
    · rw [dequantHigh]; split <;> (simp only; omega)
    · rw [dequantLow]; simp only; omega

theorem dequantUpTo_pos {pk : Nat → Nat → Nat} {res : Nat → Nat} {g : Nat → F32 → F32} {p0 : Nat}
    {file : Vector F32 128} (n : Nat) : ∀ {p : Nat} {v : Vector F32 128},
      dequantUpTo Config.hw pk .plain res g (p0, file) n = .ok (p, v) → p ≤ p0 + 16 * n := by
  induction n with
  | zero => intro p v h; rw [dequantUpTo] at h; injection h with h; injection h with h _; omega
  | succ n ih =>
    intro p v h
    rw [dequantUpTo] at h
    split at h
    · cases h
    · rename_i a b e
      have := ih e
      split at h
      · cases h
      · rename_i q p' e'
        have := dequantOne_pos e'
        injection h with h; injection h with h _; omega

theorem dequantUpTo_lt {cfg : Config} {pk : Nat → Nat → Nat} {mv : Moves} (hmv : ∀ k p, mv k p < 2 ^ 31)
    {res : Nat → Nat} {g : Nat → F32 → F32} {p0 : Nat} {file : Vector F32 128} (h0 : p0 < 2 ^ 31) (n : Nat)
    {p : Nat} {v : Vector F32 128} (h : dequantUpTo cfg pk mv res g (p0, file) n = .ok (p, v)) : p < 2 ^ 31 := by
  cases n with
  | zero => rw [dequantUpTo] at h; injection h with h; injection h with h _; omega
  | succ n =>
    rw [dequantUpTo] at h
    split at h
    · cases h
    · split at h
      · cases h
      · rename_i q p' e'
        injection h with h; injection h with h _
        rw [dequantOne] at e'
        simp only at e'
        split at e'
        · cases e'
        · injection e' with e'; injection e' with _ e'
          rw [← h, ← e']; exact hmv _ _

/-! How far a stage of DECODE_FRAME moves the cursor. -/

/-- At most `n` bits on, from the old position or from behind the sync word. -/
def AdvancesFrom (n : Nat) (s t : State) : Prop := t.cur.pos ≤ max s.cur.pos 16 + n

theorem AdvancesFrom.mono {m n : Nat} {s t : State} (h : AdvancesFrom m s t) (hn : m ≤ n) : AdvancesFrom n s t := by
  rw [AdvancesFrom] at h ⊢; omega

theorem AdvancesFrom.trans {m n : Nat} {s t u : State} (h : AdvancesFrom m s t) (k : AdvancesFrom n t u) :
    AdvancesFrom (m + n) s u := by
  rw [AdvancesFrom] at h k ⊢; omega

theorem frScale_advance (c : Fin 16) (s : State) :
    (frScale .plain c s).All fun t => t.cur.pos ≤ s.cur.pos + 4096 := by
  have hc : ((s.enterChan 0x25 c).chan c).coded < 256 := ((s.enterChan 0x25 c).chan c).codedCount.isLt
  have hd := State.peekAt_lt (s.enterChan 0x25 c) (s.enterChan 0x25 c).cur.pos 3
  have hm : (((s.enterChan 0x25 c).chan c).coded - 1) *
      ((s.enterChan 0x25 c).peekAt (s.enterChan 0x25 c).cur.pos 3 + 6) ≤ 254 * 13 := Nat.mul_le_mul (by omega) (by omega)
  rw [frScale]
  simp only [Moves.plain_nat, Moves.walk_plain]
  refine Res.all_ite (fun _ => ?_) fun _ => Res.all_ite (fun _ => ?_) fun _ => Res.all_ite (fun _ => ?_) fun _ => ?_
  · show s.cur.pos + 3 + 6 * _ ≤ _; omega
  · show s.cur.pos + 3 ≤ _; omega
  · exact (deltaRun_pos ..).trans (by show s.cur.pos + 3 + 6 + _ ≤ _; omega)
  · exact (deltaRun_pos ..).trans (by show s.cur.pos + 3 + 6 + _ ≤ _; omega)

theorem frScale_lt {mv : Moves} (hmv : ∀ k p, mv k p < 2 ^ 31) (c : Fin 16) (s : State) :
    (frScale mv c s).All fun t => t.cur.pos < 2 ^ 31 := by
  rw [frScale]
  refine Res.all_ite (fun _ => walk_lt hmv _ _ (hmv _ _) _) fun _ => Res.all_ite (fun _ => hmv _ _) fun _ =>
    Res.all_ite (fun _ => deltaRun_lt _ hmv _ _ _ _ _ _ _ (hmv _ _)) fun _ =>
      deltaRun_lt _ hmv _ _ _ _ _ _ _ (hmv _ _)

theorem frIntensity_advance (c : Fin 16) (s : State) :
    (frIntensity .plain c s).All fun t => t.cur.pos ≤ s.cur.pos + 4096 := by
  have hg : (s.enterChan 0x26 c).ctx.hfrGroupCount.toNat < 256 := (s.enterChan 0x26 c).ctx.hfrGroupCount.isLt
  have hd := State.peekAt_lt (s.enterChan 0x26 c) ((s.enterChan 0x26 c).cur.pos + 4) 2
  rw [frIntensity]
  refine Res.all_ite (fun _ => Res.all_ite (fun _ => ?_) fun _ => ?_) fun _ => ?_
  · rw [intensityOld]
    simp only [Moves.plain_nat, Moves.walk_plain]
    refine Res.all_ite (fun _ => ?_) fun _ => ?_
    · show s.cur.pos + 4 + 4 * 7 ≤ _; omega
    · show s.cur.pos ≤ _; omega
  · rw [intensityNew]
    simp only [Moves.plain_nat, Moves.walk_plain]
    refine Res.all_ite (fun _ => Res.all_ite (fun _ => ?_) fun _ => Res.all_ite (fun _ => ?_) fun _ => ?_) fun _ => ?_
    · show s.cur.pos + 4 + 2 + 4 * 7 ≤ _; omega
    · exact (deltaRun_pos ..).trans (by show s.cur.pos + 4 + 2 + _ ≤ _; omega)
    · exact (deltaRun_pos ..).trans (by show s.cur.pos + 4 + 2 + _ ≤ _; omega)
    · show s.cur.pos + 4 ≤ _; omega
  · rw [highBandScales]
    simp only [Moves.walk_plain]
    show s.cur.pos + 6 * _ ≤ _; omega

theorem frIntensity_lt {mv : Moves} (hmv : ∀ k p, mv k p < 2 ^ 31) (c : Fin 16) (s : State) (h : s.cur.pos < 2 ^ 31) :
    (frIntensity mv c s).All fun t => t.cur.pos < 2 ^ 31 := by
  rw [frIntensity]
  refine Res.all_ite (fun _ => Res.all_ite (fun _ => ?_) fun _ => ?_) fun _ => walk_lt hmv _ _ h _
  · rw [intensityOld]
    exact Res.all_ite (fun _ => walk_lt hmv _ _ (hmv _ _) _) fun _ => h
  · rw [intensityNew]
    exact Res.all_ite (fun _ => Res.all_ite (fun _ => walk_lt hmv _ _ (hmv _ _) _) fun _ =>
      Res.all_ite (fun _ => deltaRun_lt _ hmv _ _ _ _ _ _ _ (hmv _ _)) fun _ =>
        deltaRun_lt _ hmv _ _ _ _ _ _ _ (hmv _ _)) fun _ => hmv _ _

theorem spDequant_advance (c : Fin 16) (s : State) :
    (spDequant Config.hw .plain c s).All fun t => t.cur.pos ≤ s.cur.pos + 16 * (s.chan c).coded := by
  rw [spDequant]
  simp only [State.enterChan_cur, State.chan_enterChan]
  split
  · trivial
  · rename_i e
    exact dequantUpTo_pos _ e

theorem spDequant_lt {mv : Moves} (hmv : ∀ k p, mv k p < 2 ^ 31) (c : Fin 16) (s : State) (h : s.cur.pos < 2 ^ 31) :
    (spDequant Config.hw mv c s).All fun t => t.cur.pos < 2 ^ 31 := by
  rw [spDequant]
  simp only [State.enterChan_cur, State.chan_enterChan]
  split
  · trivial
  · rename_i e
    exact dequantUpTo_lt hmv h _ e

theorem frameSequence_advance (u : State) (i : Instr) (hi : i ∈ frameSequence u) (s : State) :
    (stageMeaning Config.hw i s).All (AdvancesFrom 4096 s) := by
  have stay : ∀ t : State, t.cur = s.cur → AdvancesFrom 4096 s t := by
    intro t h; rw [AdvancesFrom, h]; omega
  have coded : ∀ c : Fin 16, (s.chan c).coded < 256 := fun c => (s.chan c).codedCount.isLt
  have far : ∀ {r : Res}, (r.All fun t => t.cur.pos ≤ s.cur.pos + 4096) → r.All (AdvancesFrom 4096 s) := by
    intro r h
    cases r with
    | done t => simp only [Res.All, AdvancesFrom] at h ⊢; omega
    | raised e t => simp only [Res.All, AdvancesFrom] at h ⊢; omega
    | faulted f => trivial
    | refused f => trivial
  rw [frameSequence, List.mem_append, List.mem_append] at hi
  rcases hi with (hi | hi) | hi
  · simp only [frameChecks, List.mem_cons, List.not_mem_nil, or_false] at hi
    rcases hi with rfl | rfl | rfl | rfl | rfl
    · simp only [stageMeaning, stageBy, frChecklen]; split <;> exact stay _ rfl
    · simp only [stageMeaning, stageBy, frSync, wrap]
      split
      · trivial
      · simp only [Res.andThen]
        split <;> (simp only [Res.All, AdvancesFrom, State.seek]; omega)
    · simp only [stageMeaning, stageBy, frChecksum]; repeat' split
      all_goals first | trivial | exact stay _ rfl
    · simp only [stageMeaning, stageBy, frDecrypt, wrap]; repeat' split
      all_goals first | trivial | (simp only [Res.All, AdvancesFrom]; omega)
    · simp only [stageMeaning, stageBy, frNoiselevel, Moves.plain_nat, Res.All, AdvancesFrom, State.seek, State.enter]; omega
  · obtain ⟨c, _, hc⟩ := List.mem_flatMap.1 hi
    simp only [unpackChannel, List.mem_cons, List.not_mem_nil, or_false] at hc
    rcases hc with rfl | rfl | rfl | rfl
    · exact far (frScale_advance c s)
    · exact far (frIntensity_advance c s)
    · exact stay _ rfl
    · exact stay _ rfl
  · obtain ⟨sf, _, hi⟩ := List.mem_flatMap.1 hi
    have stereo : ∀ c, (stageMeaning Config.hw (.spIstereo c sf) s).All (AdvancesFrom 4096 s) ∧
        (stageMeaning Config.hw (.spMsstereo c) s).All (AdvancesFrom 4096 s) := by
      intro c
      simp only [stageMeaning, stageBy, spIstereo, spMsstereo]
      cases secondaryOf c with
      | none => exact ⟨trivial, trivial⟩
      | some d => exact ⟨stay _ rfl, stay _ rfl⟩
    simp only [subframe, List.mem_append, List.mem_map, List.mem_flatMap] at hi
    rcases hi with (((⟨c, hl, rfl⟩ | ⟨c, hl, rfl⟩) | ⟨c, hl, rfl⟩) | ⟨c, hl, hp⟩) | ⟨c, hl, hp⟩
    · refine far ((spDequant_advance c s).of_imp fun t h => ?_)
      have := coded c; omega
    · simp only [stageMeaning, stageBy, spNoise]; split <;> exact stay _ rfl
    · simp only [stageMeaning, stageBy, spHfr]; split <;> exact stay _ rfl
    · rw [stereoPair] at hp
      split at hp
      · rcases List.mem_cons.1 hp with rfl | hp
        · exact (stereo c).1
        · split at hp
          · rw [List.mem_singleton] at hp; subst hp; exact (stereo c).2
          · simp at hp
      · simp at hp
    · simp only [List.mem_cons, List.not_mem_nil, or_false] at hp
      rcases hp with rfl | rfl | rfl <;> exact stay _ rfl

/-- A run of frame stages. -/
theorem runStages_advance (u : State) (l : List Instr) (hl : ∀ i ∈ l, i ∈ frameSequence u) : ∀ s : State,
    (runStages Config.hw l s).All (AdvancesFrom (l.length * 4096) s) := by
  induction l with
  | nil => intro s; exact Nat.le_max_left ..
  | cons i l ih =>
    intro s
    have ih := ih fun j hj => hl j (List.mem_cons_of_mem _ hj)
    have e : (i :: l).length * 4096 = 4096 + l.length * 4096 := by rw [List.length_cons]; omega
    rw [runStages, e]
    refine (frameSequence_advance u i (hl i (List.mem_cons_self ..)) s).andThen
      (fun t ht => ht.mono (Nat.le_add_right ..)) fun t _ ht => ?_
    have := ih t
    cases hr : runStages Config.hw l t with
    | done v => rw [hr] at this; exact ht.trans this
    | raised x v => rw [hr] at this; exact ht.trans this
    | faulted f => trivial
    | refused f => trivial

theorem length_flatMap_le {α β : Type} (f : α → List β) (n : Nat) (l : List α) (h : ∀ a, (f a).length ≤ n) :
    (l.flatMap f).length ≤ l.length * n := by
  induction l with
  | nil => simp
  | cons a l ih =>
    have := h a
    rw [List.flatMap_cons, List.length_append, List.length_cons, Nat.succ_mul]; omega

/-- The sequence has at most 1093 stages. -/
theorem length_frameSequence (s : State) : (frameSequence s).length ≤ 1093 := by
  have hl : s.liveChannels.length ≤ 16 :=
    (List.length_filter_le ..).trans (by rw [List.length_finRange])
  have h1 : (s.liveChannels.flatMap unpackChannel).length ≤ s.liveChannels.length * 4 :=
    length_flatMap_le _ _ _ fun _ => le_refl _
  have h2 : ∀ sf, (subframe s sf).length ≤ 128 := by
    intro sf
    have a := length_flatMap_le (stereoPair s sf) 2 s.liveChannels fun c => by
      rw [stereoPair]; repeat' split
      all_goals simp
    have b := length_flatMap_le (fun c => [Instr.imPass1 c, .imPass2 c, .imWindow c sf]) 3 s.liveChannels
      fun _ => le_refl _
    simp only [subframe, List.length_append, List.length_map]
    omega
  have h3 := length_flatMap_le (subframe s) 128 (List.finRange 8) h2
  rw [List.length_finRange] at h3
  have h4 : frameChecks.length = 5 := rfl
  rw [frameSequence, List.length_append, List.length_append]
  omega

/-- A stage of a frame moves the cursor at most `stageReach` bits from where it stands. -/
theorem frameSequence_reach {u : State} {i : Instr} (hi : i ∈ frameSequence u) :
    cursorReach i = none ∨ cursorReach i = some stageReach := by
  rw [frameSequence, List.mem_append, List.mem_append] at hi
  rcases hi with (hi | hi) | hi
  · simp only [frameChecks, List.mem_cons, List.not_mem_nil, or_false] at hi
    rcases hi with rfl | rfl | rfl | rfl | rfl <;> first | exact .inl rfl | exact .inr rfl
  · obtain ⟨c, _, hc⟩ := List.mem_flatMap.1 hi
    simp only [unpackChannel, List.mem_cons, List.not_mem_nil, or_false] at hc
    rcases hc with rfl | rfl | rfl | rfl <;> first | exact .inl rfl | exact .inr rfl
  · obtain ⟨sf, _, hi⟩ := List.mem_flatMap.1 hi
    simp only [subframe, List.mem_append, List.mem_map, List.mem_flatMap] at hi
    rcases hi with (((⟨c, hl, rfl⟩ | ⟨c, hl, rfl⟩) | ⟨c, hl, rfl⟩) | ⟨c, hl, hp⟩) | ⟨c, hl, hp⟩
    · exact .inr rfl
    · exact .inl rfl
    · exact .inl rfl
    · rw [stereoPair] at hp
      split at hp
      · rcases List.mem_cons.1 hp with rfl | hp
        · exact .inl rfl
        · split at hp
          · rw [List.mem_singleton] at hp; subst hp; exact .inl rfl
          · simp at hp
      · simp at hp
    · simp only [List.mem_cons, List.not_mem_nil, or_false] at hp
      rcases hp with rfl | rfl | rfl <;> exact .inl rfl

/-- Along a frame no stage behind the first can leave the range, whatever the position before the frame. -/
theorem frameSequence_inRange (s : State) (p q : List Instr) (i : Instr) (t u : State)
    (h : frameSequence u = p ++ i :: q) (hr : runStages Config.hw p s = .done t) (hp : p ≠ []) {n : Nat}
    (hn : cursorReach i = some n) : t.cur.pos + n < 2 ^ 31 := by
  have hlen := length_frameSequence u
  have hb : n ≤ 4096 := by
    rcases frameSequence_reach (u := u) (i := i) (by rw [h]; simp) with e | e
    · rw [e] at hn; cases hn
    · rw [e] at hn; injection hn with hn; rw [← hn]; exact le_refl _
  have e : frameSequence u = .frChecklen :: .frSync :: ((frameSequence u).drop 2) := rfl
  have sync : ∀ t, (stageMeaning Config.hw .frSync t).All fun t => t.cur.pos = 16 := by
    intro t
    simp only [stageMeaning, stageBy, frSync, wrap]
    split
    · trivial
    · exact Res.all_ite (fun _ => rfl) fun _ => rfl
  match p, hp with
  | [a], _ =>
    rw [e] at h
    injection h with h1 h
    injection h with h2 h
    rw [← h2] at hn; cases hn
  | a :: b :: p, _ =>
    have hl : (frameSequence u).length = p.length + 2 + 1 + q.length := by rw [h]; simp; omega
    have hd : (frameSequence u).drop 2 = p ++ i :: q := by rw [h]; rfl
    rw [e] at h
    injection h with h1 h
    injection h with h2 h
    rw [← h1, ← h2, runStages] at hr
    cases e1 : stageMeaning Config.hw .frChecklen s with
    | done v =>
      rw [e1] at hr
      have hr : (stageMeaning Config.hw .frSync v).andThen (runStages Config.hw p) = .done t := hr
      have sv := sync v
      cases e2 : stageMeaning Config.hw .frSync v with
      | done w =>
        rw [e2] at hr sv
        have hw : w.cur.pos = 16 := sv
        have hr : runStages Config.hw p w = .done t := hr
        have hm : ∀ j ∈ p, j ∈ frameSequence u := fun j hj => List.mem_of_mem_drop (hd ▸ List.mem_append_left _ hj)
        have a1 := runStages_advance u p hm w
        rw [hr] at a1
        have a1 : AdvancesFrom (p.length * 4096) w t := a1
        rw [AdvancesFrom] at a1
        rw [hw] at a1
        omega
      | raised x w => rw [e2] at hr; cases hr
      | faulted f => rw [e2] at hr; cases hr
      | refused f => rw [e2] at hr; cases hr
    | raised x w => rw [e1] at hr; cases hr
    | faulted f => rw [e1] at hr; cases hr
    | refused f => rw [e1] at hr; cases hr

/-! From a cursor whose registers are in range every stage leaves one. -/

/-- A recognised chunk's tag lies inside the header. -/
theorem present_inside {s : State} {tag : BitVec 32} {size : Nat} (ht : tag ≠ 0) (h : present s tag size = true) :
    s.cur.pos + 32 ≤ s.cur.sizeBits := by
  by_contra hc
  have e : s.peek 32 = 0 := by rw [State.peek, State.peekAt, if_neg (by omega), if_pos (by omega)]
  rw [present, e, Bool.and_eq_true] at h
  exact ht (by simpa using (beq_iff_eq.1 h.2).symm)

/-- A stage that moves the cursor only inside a buffer, or to a fixed position, leaves a position in range. -/
theorem stage_inRange (i : Instr) (s : State) (h : s.cur.Legal) (hi : cursorReach i = none) :
    (stageMeaning Config.hw i s).All fun t => t.cur.pos < 2 ^ 31 := by
  obtain ⟨-, hs, hp⟩ := h
  have stay : ∀ t : State, t.cur.pos = s.cur.pos → t.cur.pos < 2 ^ 31 := fun t e => by rw [e]; exact hp
  have near : ∀ {tag : BitVec 32} {size : Nat} {u : State}, u.cur = s.cur → tag ≠ 0 → present u tag size = true →
      s.cur.pos + 4096 < 2 ^ 31 := by
    intro tag size u hu ht hpr
    have := present_inside ht hpr
    rw [hu] at this; omega
  cases i with
  | openStream n => trivial
  | setKey k => trivial
  | decodeFrame n => trivial
  | readSamples16 => trivial
  | resetStream => trivial
  | bcWrap b l p =>
    have := p.isLt
    simp only [stageMeaning, stageBy, bcWrap, wrap]
    refine Res.all_ite (fun _ => trivial) fun _ => ?_
    show p.toNat < _; omega
  | bcPeek n => exact Res.all_ite (fun _ => trivial) fun _ => stay _ rfl
  | bcRead n => cases hi
  | bcSkip d => cases hi
  | hdProlog =>
    simp only [stageMeaning, stageBy, hdProlog, wrap]
    refine Res.all_ite (fun _ => stay _ rfl) fun _ => ?_
    split
    · trivial
    · refine Res.all_ite (fun _ => ?_) fun _ => Res.all_ite (fun _ => ?_) fun _ => ?_
      · show 32 < _; omega
      · show 64 < _; omega
      · show 64 < _; omega
  | hdFmt =>
    refine Res.all_ite (fun hpr => ?_) fun _ => stay _ rfl
    have := near rfl (by decide) hpr
    show s.cur.pos + 8 * 16 < _; omega
  | hdComp =>
    refine Res.all_ite (fun hpr => ?_) fun _ => stay _ rfl
    have := near rfl (by decide) hpr
    show s.cur.pos + 8 * 16 < _; omega
  | hdDec =>
    refine Res.all_ite (fun hpr => Res.all_ite (fun _ => ?_) fun _ => ?_) fun _ => stay _ rfl
    all_goals have := near rfl (by decide) hpr
    · show s.cur.pos + 96 < _; omega
    · show s.cur.pos + 8 * 12 < _; omega
  | hdVbr =>
    refine Res.all_ite (fun hpr => Res.all_ite (fun _ => ?_) fun _ => ?_) fun _ => stay _ rfl
    all_goals have := near rfl (by decide) hpr
    · show s.cur.pos + 8 * 8 < _; omega
    · show s.cur.pos + 64 < _; omega
  | hdAth =>
    refine Res.all_ite (fun hpr => ?_) fun _ => stay _ rfl
    have := near rfl (by decide) hpr
    show s.cur.pos + 8 * 6 < _; omega
  | hdLoop =>
    refine Res.all_ite (fun hpr => Res.all_ite (fun _ => ?_) fun _ => ?_) fun _ => stay _ rfl
    all_goals have := near rfl (by decide) hpr
    · show s.cur.pos + 8 * 16 < _; omega
    · show s.cur.pos + 128 < _; omega
  | hdCiph =>
    refine Res.all_ite (fun hpr => Res.all_ite (fun _ => ?_) fun _ => ?_) fun _ => stay _ rfl
    all_goals have := near rfl (by decide) hpr
    · show s.cur.pos + 8 * 6 < _; omega
    · show s.cur.pos + 48 < _; omega
  | hdRva =>
    refine Res.all_ite (fun hpr => ?_) fun _ => stay _ rfl
    have := near rfl (by decide) hpr
    show s.cur.pos + 8 * 8 < _; omega
  | hdComm =>
    have hl := State.peekAt_lt (s.enter 0x19) ((s.enter 0x19).cur.pos + 32) 8
    refine Res.all_ite (fun hpr => Res.all_ite (fun _ => ?_) fun _ => ?_) fun _ => stay _ rfl
    all_goals have := near rfl (by decide) hpr
    · show s.cur.pos + 40 < _; omega
    · show s.cur.pos + 8 * (5 + _) < _; omega
  | hdPad => exact stay _ rfl
  | hdValidate => exact Res.all_ite (fun _ => stay _ rfl) fun _ => stay _ rfl
  | hdDerive =>
    exact Res.all_ite (fun _ => Res.all_ite (fun _ => stay _ rfl) fun _ =>
      Res.all_ite (fun _ => stay _ rfl) fun _ => stay _ rfl) fun _ => stay _ rfl
  | hdChantype => exact stay _ rfl
  | frChecklen => exact Res.all_ite (fun _ => stay _ rfl) fun _ => stay _ rfl
  | frSync =>
    simp only [stageMeaning, stageBy, frSync, wrap]
    split
    · trivial
    · refine Res.all_ite (fun _ => ?_) fun _ => ?_ <;> (show 16 < _; omega)
  | frChecksum =>
    exact Res.all_ite (fun _ => trivial) fun _ => Res.all_ite (fun _ => stay _ rfl) fun _ => stay _ rfl
  | frDecrypt =>
    simp only [stageMeaning, stageBy, frDecrypt, wrap]
    refine Res.all_ite (fun _ => trivial) fun _ => Res.all_ite (fun _ => trivial) fun _ => ?_
    show 16 < _; omega
  | frNoiselevel => cases hi
  | frScale c => cases hi
  | frIntensity c => cases hi
  | frResolution c => exact stay _ rfl
  | frGain c => exact stay _ rfl
  | spDequant c => cases hi
  | spNoise c => exact Res.all_ite (fun _ => stay _ rfl) fun _ => stay _ rfl
  | spHfr c => exact Res.all_ite (fun _ => stay _ rfl) fun _ => stay _ rfl
  | spIstereo c sf => simp only [stageMeaning, stageBy, spIstereo]; split <;> trivial
  | spMsstereo c => simp only [stageMeaning, stageBy, spMsstereo]; split <;> trivial
  | imPass1 c => exact stay _ rfl
  | imPass2 c => exact stay _ rfl
  | imWindow c sf => exact stay _ rfl

/-- The stages that move the cursor from wherever it stands: over plain moves that cannot leave the range, and over any
moves that end in it. -/
theorem reach_inRange {i : Instr} {n : Nat} (hi : cursorReach i = some n) (s : State) (h : s.cur.pos < 2 ^ 31) :
    (s.cur.pos + n < 2 ^ 31 → (stageBy Config.hw .plain i s).All fun t => t.cur.pos < 2 ^ 31) ∧
    ∀ {mv : Moves}, (∀ k p, mv k p < 2 ^ 31) → (stageBy Config.hw mv i s).All fun t => t.cur.pos < 2 ^ 31 := by
  cases i with
  | bcRead k =>
    injection hi with hi
    refine ⟨fun hn => Res.all_ite (fun _ => trivial) fun _ => ?_, fun hmv => Res.all_ite (fun _ => trivial) fun _ => hmv _ _⟩
    show s.cur.pos + k.toNat < _; omega
  | bcSkip d =>
    injection hi with hi
    refine ⟨fun hn => Res.all_ite (fun _ => trivial) fun _ => ?_, fun hmv => Res.all_ite (fun _ => trivial) fun _ => hmv _ _⟩
    show Int.toNat ((s.cur.pos : Int) + d.toInt) < _; omega
  | frNoiselevel =>
    injection hi with hi
    refine ⟨fun hn => ?_, fun hmv => hmv _ _⟩
    have : stageReach = 4096 := rfl
    show s.cur.pos + 9 + 7 < _; omega
  | frScale c =>
    injection hi with hi
    have : stageReach = 4096 := rfl
    exact ⟨fun hn => (frScale_advance c s).of_imp fun t ht => by omega, fun hmv => frScale_lt hmv c s⟩
  | frIntensity c =>
    injection hi with hi
    have : stageReach = 4096 := rfl
    exact ⟨fun hn => (frIntensity_advance c s).of_imp fun t ht => by omega, fun hmv => frIntensity_lt hmv c s h⟩
  | spDequant c =>
    injection hi with hi
    have : stageReach = 4096 := rfl
    have hc : (s.chan c).coded < 256 := (s.chan c).codedCount.isLt
    exact ⟨fun hn => (spDequant_advance c s).of_imp fun t ht => by omega, fun hmv => spDequant_lt hmv c s h⟩
  | _ => cases hi

/-- Outside the five commands, an instruction that answers a next state leaves a position in range. -/
theorem exec_inRange {i : Instr} {s t : State} (h : s.cur.Legal) (hp : (encode i).1 ≠ .command)
    (e : exec i s = .next t) : t.cur.pos < 2 ^ 31 := by
  have out : ∀ r : Res, (r.All fun t => t.cur.pos < 2 ^ 31) → r.outcome Config.hw = .next t → t.cur.pos < 2 ^ 31 := by
    intro r hr e
    cases r with
    | done u => injection e with e; subst e; exact hr
    | raised x u => injection e with e; subst e; rw [takeError_pos]; exact hr
    | faulted f => cases e
    | refused f => cases e
  rw [exec_stage_eq i s hp] at e
  split at e
  · have r := reach_inRange ‹_› s h.2.2
    rw [alone] at e
    split at e
    · exact out _ (r.1 ‹_›) e
    · exact out _ ((r.2 (Moves.free_lt _ _)).drew (fun _ _ h => h) _) e
  · exact out _ (stage_inRange i s h ‹_›) e

end Sys2Proof.Machine
end

