-- ==== Sys2Proof/Laws/Open.lean ====
section
/-! SUPPORT. What the stages of OPEN_STREAM can do over any bytes: each ends, done or with HeaderInvalid, the sequence
opens a legal stream or is invalid. -/

namespace Sys2Proof.Machine

/-- What every stage of OPEN_STREAM keeps. -/
structure HeaderKeeps (s t : State) : Prop where
  key : t.key = s.key
  hdr : t.hdr = s.hdr
  frm : t.frm = s.frm
  out : t.out = s.out
  queue : t.queue = s.queue
  hdrLen : t.hdrLen = s.hdrLen

theorem HeaderKeeps.refl (s : State) : HeaderKeeps s s := ⟨rfl, rfl, rfl, rfl, rfl, rfl⟩

theorem HeaderKeeps.trans {a b c : State} (h : HeaderKeeps a b) (k : HeaderKeeps b c) : HeaderKeeps a c :=
  ⟨k.key.trans h.key, k.hdr.trans h.hdr, k.frm.trans h.frm, k.out.trans h.out, k.queue.trans h.queue,
    k.hdrLen.trans h.hdrLen⟩

/-- A stage is done with a property, or the header is invalid; what a stage keeps is kept. -/
def Res.Parses (s : State) (P : State → Prop) (r : Res) : Prop :=
  (∃ t, r = .done t ∧ HeaderKeeps s t ∧ P t) ∨ ∃ t, r = .raised .headerInvalid t ∧ HeaderKeeps s t

theorem Res.Parses.andThen {s : State} {P Q : State → Prop} {r : Res} {f : State → Res} (h : r.Parses s P)
    (hf : ∀ t, HeaderKeeps s t → P t → (f t).Parses t Q) : (r.andThen f).Parses s Q := by
  rcases h with ⟨t, rfl, hk, hp⟩ | ⟨t, rfl, hk⟩
  · rcases hf t hk hp with ⟨u, e, hk', hq⟩ | ⟨u, e, hk'⟩
    · exact .inl ⟨u, e, hk.trans hk', hq⟩
    · exact .inr ⟨u, e, hk.trans hk'⟩
  · exact .inr ⟨t, rfl, hk⟩

theorem hdProlog_parses (cfg : Config) (s : State) (h : s.hdrLen.toNat ≤ s.hdr.size) :
    (hdProlog cfg s).Parses s fun _ => 8 ≤ s.hdrLen.toNat := by
  rw [hdProlog]
  simp only
  by_cases h8 : s.hdrLen.toNat < 8
  · rw [if_pos (by exact h8)]
    exact .inr ⟨_, rfl, ⟨rfl, rfl, rfl, rfl, rfl, rfl⟩⟩
  · rw [if_neg (by exact h8), wrap, if_neg (by show ¬ s.hdr.size < 8; omega)]
    simp only [Res.andThen]
    split
    · exact .inr ⟨_, rfl, ⟨rfl, rfl, rfl, rfl, rfl, rfl⟩⟩
    · split
      · exact .inl ⟨_, rfl, ⟨rfl, rfl, rfl, rfl, rfl, rfl⟩, by omega⟩
      · exact .inr ⟨_, rfl, ⟨rfl, rfl, rfl, rfl, rfl, rfl⟩⟩

theorem rewrapHeader_parses (s : State) (h : s.hdrLen.toNat ≤ s.hdr.size) :
    (rewrapHeader s).Parses s fun t => t.ctx = s.ctx ∧ 8 ≤ t.ctx.headerSize.toNat ∧
      t.ctx.headerSize.toNat ≤ s.hdrLen.toNat := by
  rw [rewrapHeader]
  split
  · exact .inr ⟨_, rfl, ⟨rfl, rfl, rfl, rfl, rfl, rfl⟩⟩
  · split
    · exact .inr ⟨_, rfl, ⟨rfl, rfl, rfl, rfl, rfl, rfl⟩⟩
    · rw [wrap, if_neg (by show ¬ s.hdr.size < _; omega)]
      refine .inl ⟨_, rfl, ⟨rfl, rfl, rfl, rfl, rfl, rfl⟩, rfl, ?_, ?_⟩
      · show 8 ≤ s.ctx.headerSize.toNat; omega
      · show s.ctx.headerSize.toNat ≤ _; omega

theorem hdFmt_parses (s : State) : (hdFmt s).Parses s fun t => t.ctx.headerSize = s.ctx.headerSize := by
  rw [hdFmt]
  simp only
  split
  · exact .inl ⟨_, rfl, ⟨rfl, rfl, rfl, rfl, rfl, rfl⟩, rfl⟩
  · exact .inr ⟨_, rfl, ⟨rfl, rfl, rfl, rfl, rfl, rfl⟩⟩

theorem hdComp_parses (s : State) : (hdComp s).Parses s fun t => t.ctx.headerSize = s.ctx.headerSize := by
  rw [hdComp]
  simp only
  split <;> exact .inl ⟨_, rfl, ⟨rfl, rfl, rfl, rfl, rfl, rfl⟩, rfl⟩

theorem hdDec_parses (s : State) : (hdDec s).Parses s fun t => t.ctx.headerSize = s.ctx.headerSize := by
  simp only [hdDec]
  split
  · by_cases hlt : (State.field (s.enter 0x13) ((s.enter 0x13).cur.pos + 64) 8 9 + 1 : BitVec 9).toNat <
        (if (State.field (s.enter 0x13) ((s.enter 0x13).cur.pos + 88) 8 8 : BitVec 8) = 0 then
          State.field (s.enter 0x13) ((s.enter 0x13).cur.pos + 64) 8 9 + 1
        else State.field (s.enter 0x13) ((s.enter 0x13).cur.pos + 72) 8 9 + 1 : BitVec 9).toNat
    · rw [if_pos hlt]; exact .inr ⟨_, rfl, ⟨rfl, rfl, rfl, rfl, rfl, rfl⟩⟩
    · rw [if_neg hlt]; exact .inl ⟨_, rfl, ⟨rfl, rfl, rfl, rfl, rfl, rfl⟩, rfl⟩
  · exact .inl ⟨_, rfl, ⟨rfl, rfl, rfl, rfl, rfl, rfl⟩, rfl⟩

theorem compOrDec_parses (s : State) : (compOrDec s).Parses s fun t => t.ctx.headerSize = s.ctx.headerSize := by
  rw [compOrDec]
  split
  · exact hdComp_parses s
  · split
    · exact hdDec_parses s
    · exact .inr ⟨_, rfl, HeaderKeeps.refl s⟩

theorem hdVbr_parses (s : State) : (hdVbr s).Parses s fun t => ∃ a b, t.ctx =
    { s.ctx with vbrMaxFrameSize := a, vbrNoiseLevel := b } ∧ (s.ctx.frameSize = 0 ∨ (a = 0 ∧ b = 0)) := by
  rw [hdVbr]
  simp only
  split
  · split
    · rename_i h
      exact .inl ⟨_, rfl, ⟨rfl, rfl, rfl, rfl, rfl, rfl⟩, _, _, rfl, .inl h.1⟩
    · exact .inr ⟨_, rfl, ⟨rfl, rfl, rfl, rfl, rfl, rfl⟩⟩
  · exact .inl ⟨_, rfl, ⟨rfl, rfl, rfl, rfl, rfl, rfl⟩, _, _, rfl, .inr ⟨rfl, rfl⟩⟩

theorem hdAth_parses (s : State) : (hdAth s).Parses s fun t => ∃ a, t.ctx = { s.ctx with athType := a } := by
  rw [hdAth]
  simp only
  split
  · exact .inl ⟨_, rfl, ⟨rfl, rfl, rfl, rfl, rfl, rfl⟩, _, rfl⟩
  · exact .inl ⟨_, rfl, ⟨rfl, rfl, rfl, rfl, rfl, rfl⟩, _, rfl⟩

theorem hdLoop_parses (s : State) : (hdLoop s).Parses s fun t => ∃ a b c d e, t.ctx =
    { s.ctx with loopStartFrame := a, loopEndFrame := b, loopStartDelay := c, loopEndPadding := d, loopEnabled := e } ∧
      (e = true → a.toNat ≤ b.toNat ∧ b.toNat < s.ctx.frameCount.toNat) := by
  rw [hdLoop]
  simp only
  split
  · split
    · rename_i h
      exact .inl ⟨_, rfl, ⟨rfl, rfl, rfl, rfl, rfl, rfl⟩, _, _, _, _, _, rfl, fun _ => h⟩
    · exact .inr ⟨_, rfl, ⟨rfl, rfl, rfl, rfl, rfl, rfl⟩⟩
  · exact .inl ⟨_, rfl, ⟨rfl, rfl, rfl, rfl, rfl, rfl⟩, _, _, _, _, _, rfl, fun h => by cases h⟩

theorem hdCiph_parses (s : State) : (hdCiph s).Parses s fun t => ∃ a, t.ctx = { s.ctx with cipherType := a } ∧
    (a = 0 ∨ a = 1 ∨ a = 56) := by
  rw [hdCiph]
  simp only
  split
  · split
    · rename_i h
      exact .inl ⟨_, rfl, ⟨rfl, rfl, rfl, rfl, rfl, rfl⟩, _, rfl, h⟩
    · exact .inr ⟨_, rfl, ⟨rfl, rfl, rfl, rfl, rfl, rfl⟩⟩
  · exact .inl ⟨_, rfl, ⟨rfl, rfl, rfl, rfl, rfl, rfl⟩, _, rfl, .inl rfl⟩

theorem hdRva_parses (s : State) : (hdRva s).Parses s fun t => ∃ a, t.ctx = { s.ctx with rvaVolume := a } := by
  rw [hdRva]
  simp only
  split
  · exact .inl ⟨_, rfl, ⟨rfl, rfl, rfl, rfl, rfl, rfl⟩, _, rfl⟩
  · exact .inl ⟨_, rfl, ⟨rfl, rfl, rfl, rfl, rfl, rfl⟩, _, rfl⟩

theorem hdComm_parses (s : State) : (hdComm s).Parses s fun t => ∃ a b, t.ctx =
    { s.ctx with commentLength := a, comment := b } := by
  rw [hdComm]
  simp only
  split
  · split
    · exact .inr ⟨_, rfl, ⟨rfl, rfl, rfl, rfl, rfl, rfl⟩⟩
    · exact .inl ⟨_, rfl, ⟨rfl, rfl, rfl, rfl, rfl, rfl⟩, _, _, rfl⟩
  · exact .inl ⟨_, rfl, ⟨rfl, rfl, rfl, rfl, rfl, rfl⟩, _, _, rfl⟩

theorem hdPad_parses (s : State) : (hdPad s).Parses s fun t => t.ctx = s.ctx :=
  .inl ⟨_, rfl, ⟨rfl, rfl, rfl, rfl, rfl, rfl⟩, rfl⟩

theorem hdValidate_parses (s : State) : (hdValidate s).Parses s fun t =>
    t.ctx = s.ctx.normalizeTracks ∧ t.ctx.headerLegal = true := by
  rw [hdValidate]
  simp only
  split
  · rename_i h
    exact .inl ⟨_, rfl, ⟨rfl, rfl, rfl, rfl, rfl, rfl⟩, rfl, h⟩
  · exact .inr ⟨_, rfl, ⟨rfl, rfl, rfl, rfl, rfl, rfl⟩⟩

theorem hdDerive_parses (cfg : Config) (s : State) (h128 : s.ctx.totalBandCount.toNat ≤ 128)
    (hle : s.ctx.baseBandCount.toNat + s.ctx.stereoBandCount.toNat ≤ s.ctx.totalBandCount.toNat) :
    (hdDerive cfg s).Parses s fun t => t.ctx = { s.ctx with hfrGroupCount := BitVec.ofNat 8 s.ctx.groupCount } ∧
      s.ctx.msStereo = 0 ∧ (0 < s.ctx.groupCount → s.ctx.version ≠ cfg.vNewest) ∧ t.random = 1 ∧
      t.cipherTable = cipherTableOf cfg s.ctx.cipherType s.key ∧
      ∀ c : Fin 16, c.val < s.ctx.channelCount.toNat → t.chan c = (s.chan c).freshStart := by
  have e := hdDerive_eq cfg s h128 hle
  simp only at e
  rw [e]
  split
  · exact .inr ⟨_, rfl, ⟨rfl, rfl, rfl, rfl, rfl, rfl⟩⟩
  · rename_i h
    refine .inl ⟨_, rfl, ⟨rfl, rfl, rfl, rfl, rfl, rfl⟩, rfl, ?_, fun h1 h2 => h (.inr ⟨h1, h2⟩), rfl, rfl, fun c hc => ?_⟩
    · apply BitVec.eq_of_toNat_eq
      have : ¬ 0 < s.ctx.msStereo.toNat := fun h' => h (.inl h')
      simp; omega
    · rw [State.chan_mapLive]
      exact if_pos hc

theorem hdChantype_parses (s : State) : (hdChantype s).Parses s fun t => t.ctx = s.ctx ∧ t.random = s.random ∧
    t.cipherTable = s.cipherTable ∧ (∀ c : Fin 16, c.val < s.ctx.channelCount.toNat →
      t.chan c = (s.chan c).assign s.ctx c) := by
  refine .inl ⟨_, rfl, ⟨rfl, rfl, rfl, rfl, rfl, rfl⟩, rfl, rfl, rfl, fun c hc => ?_⟩
  rw [State.chan]
  simp only [tabulate]
  rw [show ∀ (f : Fin 16 → Channel), (Vector.ofFn f)[c] = f c from fun f => by simp]
  rw [if_pos hc]
  simp [Vector.getD, State.chan]

/-- The primary of a pair is followed by its secondary, in the same track (rule R153). -/
theorem pairTable_next (cpt cfg : Nat) : ∀ q ∈ pairTable cpt cfg, q.2 = q.1 + 1 ∧ q.2 < cpt := by
  unfold pairTable
  split <;> first | (split <;> decide) | decide | simp

/-- A primary is followed by a live secondary (10_state.md rule R28). -/
theorem Ctx.primary_next (x : Ctx) (c : Nat) (h : x.typeOf c = .primary) :
    c + 1 < x.channelCount.toNat ∧ x.typeOf (c + 1) = .secondary := by
  obtain ⟨h1, h2, t, ht, q, hq, rfl⟩ := (Ctx.typeOf_iff x c).1.1 h
  obtain ⟨e1, e2⟩ := pairTable_next _ _ q hq
  constructor
  · have : (t + 1) * (x.channelCount.toNat / x.trackCount.toNat) ≤
        x.trackCount.toNat * (x.channelCount.toNat / x.trackCount.toNat) := Nat.mul_le_mul_right _ ht
    have h3 := Nat.mul_div_le x.channelCount.toNat x.trackCount.toNat
    rw [Nat.add_mul, Nat.one_mul] at this
    show _ + q.1 + 1 < _
    omega
  · exact (Ctx.typeOf_iff x _).2.2 ⟨h1, h2, t, ht, q, hq, by
      show _ + q.1 + 1 = _ + q.2
      omega⟩

/-- What a stream has when it opens. -/
structure Opened (key : BitVec 64) (n : Nat) (t : State) : Prop where
  ctx : t.ctx.Legal
  channels : ∀ c : Fin 16, c.val < t.ctx.channelCount.toNat →
    t.ChannelLegal c ∧ (t.chan c).prev = Vector.replicate 128 0
  cipher : ∀ b, tableByte t.cipherTable b = Config.hw.cipherInit t.ctx.cipherType key b
  random : t.random = 1
  size : t.ctx.headerSize.toNat ≤ n

/-- Validation, derivation and channel types (rules R140 to R154), on registers the chunks left. -/
theorem derived_parses (s : State) (n : Nat) (hh : 8 ≤ s.ctx.headerSize.toNat) (hn : s.ctx.headerSize.toNat ≤ n)
    (hv : s.ctx.frameSize = 0 ∨ (s.ctx.vbrMaxFrameSize = 0 ∧ s.ctx.vbrNoiseLevel = 0))
    (hc : s.ctx.cipherType = 0 ∨ s.ctx.cipherType = 1 ∨ s.ctx.cipherType = 56)
    (hl : s.ctx.loopEnabled = true → s.ctx.loopStartFrame.toNat ≤ s.ctx.loopEndFrame.toNat ∧
      s.ctx.loopEndFrame.toNat < s.ctx.frameCount.toNat) :
    (runStages Config.hw [.hdValidate, .hdDerive, .hdChantype] s).Parses s (Opened s.key n) := by
  rw [runStages]
  refine (hdValidate_parses s).andThen fun v kv ⟨cv, lv⟩ => ?_
  rw [Ctx.headerLegal_iff] at lv
  obtain ⟨l1, l2, l3, l4, l5, l6, ⟨l7, l8, l9, l10, l11⟩, l12⟩ := lv
  rw [Ctx.normalizeTracks_eq] at cv
  rw [runStages]
  refine (hdDerive_parses Config.hw v l7 l12).andThen fun d kd ⟨cd, dm, dn, dr, dx, dc⟩ => ?_
  rw [runStages]
  have hg := Ctx.groupCount_le v.ctx l7
  have hg8 : d.ctx.hfrGroupCount.toNat = v.ctx.groupCount := by
    rw [cd]; show (BitVec.ofNat 8 _).toNat = _
    rw [BitVec.toNat_ofNat, Nat.mod_eq_of_lt (by omega)]
  refine (hdChantype_parses d).andThen fun t kt ⟨ct, tr, tx, tc⟩ => ?_
  have hdv : d.ctx.channelCount = v.ctx.channelCount := by rw [cd]
  have frame0 : ¬ v.ctx.frameSize = 0 := fun e => by rw [e] at l4; simp at l4
  have fv : v.ctx.frameSize = s.ctx.frameSize := by rw [cv]
  refine .inl ⟨t, rfl, HeaderKeeps.refl t, ?_, ?_, ?_, by rw [tr, dr], ?_⟩
  · rw [ct]
    constructor
    · rw [cd, cv]; exact hh
    · rw [cd]; exact l1
    · rw [cd]; exact l2
    · rw [cd]; exact l3
    · rw [cd]; exact l4
    · rw [cd]; intro h; exact (if_pos (c := v.ctx.version.toNat ≤ 0x0200) h).mp l5
    · rw [cd]
      by_cases h : v.ctx.version.toNat ≤ 0x0200
      · rw [if_pos h] at l5
        show v.ctx.minResolution.toNat ≤ v.ctx.maxResolution.toNat ∧ v.ctx.maxResolution.toNat ≤ 15
        rw [l5.1, l5.2]; decide
      · rw [if_neg h] at l5; exact ⟨l5.2, l5.1⟩
    · rw [cd]; exact l6
    · rw [cd]; exact ⟨l7, l12⟩
    · rw [cd]; exact l10
    · rw [hg8, cd]; rfl
    · rw [cd]; exact dm
    · rw [hg8, cd]; exact dn
    · rw [cd]
      rcases hv with h | h
      · exact absurd (fv.trans h) frame0
      · show v.ctx.vbrMaxFrameSize = 0 ∧ v.ctx.vbrNoiseLevel = 0
        rw [cv]; exact h
    · rw [cd]; show v.ctx.cipherType = 0 ∨ v.ctx.cipherType = 1 ∨ v.ctx.cipherType = 56; rw [cv]; exact hc
    · rw [cd]
      show v.ctx.loopEnabled = true → v.ctx.loopStartFrame.toNat ≤ v.ctx.loopEndFrame.toNat ∧
        v.ctx.loopEndFrame.toNat < v.ctx.frameCount.toNat
      rw [cv]; exact hl
  · intro c hcl
    rw [ct] at hcl
    have hcd : ∀ e : Fin 16, e.val < d.ctx.channelCount.toNat → t.chan e = ((v.chan e).freshStart).assign d.ctx e := by
      intro e he
      rw [tc e he, dc e (by rw [← hdv]; exact he)]
    have hb : d.ctx.baseBandCount = v.ctx.baseBandCount ∧ d.ctx.stereoBandCount = v.ctx.stereoBandCount := by
      rw [cd]; exact ⟨rfl, rfl⟩
    refine ⟨⟨?_, ?_⟩, ?_⟩
    · rw [ct, hcd c hcl]
      show (d.ctx.codedOf (d.ctx.typeOf c)).toNat = if d.ctx.typeOf c = .secondary then _ else _
      rw [Ctx.codedOf, BitVec.toNat_ofNat, Ctx.base, Ctx.stereo, hb.1, hb.2]
      split <;> rw [Nat.mod_eq_of_lt (by omega)]
    · intro hp
      rw [hcd c hcl] at hp
      obtain ⟨p1, p2⟩ := Ctx.primary_next d.ctx c hp
      rw [ct]
      refine ⟨p1, fun e he => ?_⟩
      rw [hcd e (by omega)]
      show d.ctx.typeOf e = .secondary
      rw [he]; exact p2
    · rw [hcd c hcl]; rfl
  · intro b
    have e1 : t.ctx.cipherType = v.ctx.cipherType := by rw [ct, cd]
    rw [tx, dx, tableByte_cipherTableOf, e1, kv.key]
  · rw [ct, cd]; show v.ctx.headerSize.toNat ≤ n; rw [cv]; exact hn

/-- OPEN_STREAM's sequence over any bytes (rule R240). -/
theorem openSequence_parses (s : State) (h : s.hdrLen.toNat ≤ s.hdr.size) :
    (openSequence Config.hw s).Parses s (Opened s.key s.hdrLen.toNat) := by
  rw [openSequence]
  have H : ((((stageMeaning Config.hw .hdProlog s).andThen rewrapHeader).andThen
      (stageMeaning Config.hw .hdFmt)).andThen compOrDec).Parses s fun t =>
        8 ≤ t.ctx.headerSize.toNat ∧ t.ctx.headerSize.toNat ≤ s.hdrLen.toNat ∧ t.key = s.key := by
    have h1 : ((stageMeaning Config.hw .hdProlog s).andThen rewrapHeader).Parses s fun t =>
        8 ≤ t.ctx.headerSize.toNat ∧ t.ctx.headerSize.toNat ≤ s.hdrLen.toNat ∧ t.key = s.key := by
      refine (hdProlog_parses Config.hw s h).andThen fun p kp hp => ?_
      rcases rewrapHeader_parses p (by rw [kp.hdrLen, kp.hdr]; exact h) with ⟨t, e, k, -, h2, h3⟩ | ⟨t, e, k⟩
      · exact .inl ⟨t, e, k, h2, by rw [← kp.hdrLen]; exact h3, k.key.trans kp.key⟩
      · exact .inr ⟨t, e, k⟩
    have h2 : (((stageMeaning Config.hw .hdProlog s).andThen rewrapHeader).andThen
        (stageMeaning Config.hw .hdFmt)).Parses s fun t =>
        8 ≤ t.ctx.headerSize.toNat ∧ t.ctx.headerSize.toNat ≤ s.hdrLen.toNat ∧ t.key = s.key := by
      refine h1.andThen fun p kp hp => ?_
      rcases hdFmt_parses p with ⟨t, e, k, h2⟩ | ⟨t, e, k⟩
      · exact .inl ⟨t, e, k, by rw [h2]; exact hp.1, by rw [h2]; exact hp.2.1, k.key.trans hp.2.2⟩
      · exact .inr ⟨t, e, k⟩
    refine h2.andThen fun p kp hp => ?_
    rcases compOrDec_parses p with ⟨t, e, k, h2⟩ | ⟨t, e, k⟩
    · exact .inl ⟨t, e, k, by rw [h2]; exact hp.1, by rw [h2]; exact hp.2.1, k.key.trans hp.2.2⟩
    · exact .inr ⟨t, e, k⟩
  refine H.andThen fun a ka ⟨a1, a2, a3⟩ => ?_
  have tail : runStages Config.hw headerTail a =
      (((((((stageMeaning Config.hw .hdVbr a).andThen (stageMeaning Config.hw .hdAth)).andThen
        (stageMeaning Config.hw .hdLoop)).andThen (stageMeaning Config.hw .hdCiph)).andThen
        (stageMeaning Config.hw .hdRva)).andThen (stageMeaning Config.hw .hdComm)).andThen
        (stageMeaning Config.hw .hdPad)).andThen (runStages Config.hw [.hdValidate, .hdDerive, .hdChantype]) := by
    have assoc : ∀ (r : Res) (f g : State → Res), (r.andThen f).andThen g = r.andThen fun t => (f t).andThen g := by
      intro r f g; cases r <;> rfl
    simp only [assoc]; rfl
  rw [tail]
  have V : (stageMeaning Config.hw .hdVbr a).Parses a fun t => t.ctx.headerSize = a.ctx.headerSize ∧ t.key = a.key ∧
      (t.ctx.frameSize = 0 ∨ (t.ctx.vbrMaxFrameSize = 0 ∧ t.ctx.vbrNoiseLevel = 0)) := by
    rcases hdVbr_parses a with ⟨t, e, k, x, y, hx, hp⟩ | ⟨t, e, k⟩
    · exact .inl ⟨t, e, k, by rw [hx], k.key, by rw [hx]; exact hp⟩
    · exact .inr ⟨t, e, k⟩
  have A : ((stageMeaning Config.hw .hdVbr a).andThen (stageMeaning Config.hw .hdAth)).Parses a fun t =>
      t.ctx.headerSize = a.ctx.headerSize ∧ t.key = a.key ∧
      (t.ctx.frameSize = 0 ∨ (t.ctx.vbrMaxFrameSize = 0 ∧ t.ctx.vbrNoiseLevel = 0)) := by
    refine V.andThen fun u ku ⟨u1, u2, u3⟩ => ?_
    rcases hdAth_parses u with ⟨t, e, k, x, hx⟩ | ⟨t, e, k⟩
    · exact .inl ⟨t, e, k, by rw [hx]; exact u1, k.key.trans u2, by rw [hx]; exact u3⟩
    · exact .inr ⟨t, e, k⟩
  have L : (((stageMeaning Config.hw .hdVbr a).andThen (stageMeaning Config.hw .hdAth)).andThen
      (stageMeaning Config.hw .hdLoop)).Parses a fun t =>
      t.ctx.headerSize = a.ctx.headerSize ∧ t.key = a.key ∧
      (t.ctx.frameSize = 0 ∨ (t.ctx.vbrMaxFrameSize = 0 ∧ t.ctx.vbrNoiseLevel = 0)) ∧
      (t.ctx.loopEnabled = true → t.ctx.loopStartFrame.toNat ≤ t.ctx.loopEndFrame.toNat ∧
        t.ctx.loopEndFrame.toNat < t.ctx.frameCount.toNat) := by
    refine A.andThen fun u ku ⟨u1, u2, u3⟩ => ?_
    rcases hdLoop_parses u with ⟨t, e, k, _, _, _, _, _, hx, hp⟩ | ⟨t, e, k⟩
    · exact .inl ⟨t, e, k, by rw [hx]; exact u1, k.key.trans u2, by rw [hx]; exact u3, by rw [hx]; exact hp⟩
    · exact .inr ⟨t, e, k⟩
  have C : ((((stageMeaning Config.hw .hdVbr a).andThen (stageMeaning Config.hw .hdAth)).andThen
      (stageMeaning Config.hw .hdLoop)).andThen (stageMeaning Config.hw .hdCiph)).Parses a fun t =>
      t.ctx.headerSize = a.ctx.headerSize ∧ t.key = a.key ∧
      (t.ctx.frameSize = 0 ∨ (t.ctx.vbrMaxFrameSize = 0 ∧ t.ctx.vbrNoiseLevel = 0)) ∧
      (t.ctx.loopEnabled = true → t.ctx.loopStartFrame.toNat ≤ t.ctx.loopEndFrame.toNat ∧
        t.ctx.loopEndFrame.toNat < t.ctx.frameCount.toNat) ∧
      (t.ctx.cipherType = 0 ∨ t.ctx.cipherType = 1 ∨ t.ctx.cipherType = 56) := by
    refine L.andThen fun u ku ⟨u1, u2, u3, u4⟩ => ?_
    rcases hdCiph_parses u with ⟨t, e, k, _, hx, hp⟩ | ⟨t, e, k⟩
    · exact .inl ⟨t, e, k, by rw [hx]; exact u1, k.key.trans u2, by rw [hx]; exact u3, by rw [hx]; exact u4,
        by rw [hx]; exact hp⟩
    · exact .inr ⟨t, e, k⟩
  have keep : ∀ (r : Res) (f : State → Res), r.Parses a (fun t =>
      t.ctx.headerSize = a.ctx.headerSize ∧ t.key = a.key ∧
      (t.ctx.frameSize = 0 ∨ (t.ctx.vbrMaxFrameSize = 0 ∧ t.ctx.vbrNoiseLevel = 0)) ∧
      (t.ctx.loopEnabled = true → t.ctx.loopStartFrame.toNat ≤ t.ctx.loopEndFrame.toNat ∧
        t.ctx.loopEndFrame.toNat < t.ctx.frameCount.toNat) ∧
      (t.ctx.cipherType = 0 ∨ t.ctx.cipherType = 1 ∨ t.ctx.cipherType = 56)) →
      (∀ u, (f u).Parses u fun t => ∃ v l b, t.ctx = { u.ctx with rvaVolume := v, commentLength := l, comment := b }) →
      (r.andThen f).Parses a (fun t =>
      t.ctx.headerSize = a.ctx.headerSize ∧ t.key = a.key ∧
      (t.ctx.frameSize = 0 ∨ (t.ctx.vbrMaxFrameSize = 0 ∧ t.ctx.vbrNoiseLevel = 0)) ∧
      (t.ctx.loopEnabled = true → t.ctx.loopStartFrame.toNat ≤ t.ctx.loopEndFrame.toNat ∧
        t.ctx.loopEndFrame.toNat < t.ctx.frameCount.toNat) ∧
      (t.ctx.cipherType = 0 ∨ t.ctx.cipherType = 1 ∨ t.ctx.cipherType = 56)) := by
    intro r f hr hf
    refine hr.andThen fun u ku ⟨u1, u2, u3, u4, u5⟩ => ?_
    rcases hf u with ⟨t, e, k, _, _, _, hx⟩ | ⟨t, e, k⟩
    · exact .inl ⟨t, e, k, by rw [hx]; exact u1, k.key.trans u2, by rw [hx]; exact u3, by rw [hx]; exact u4,
        by rw [hx]; exact u5⟩
    · exact .inr ⟨t, e, k⟩
  have R := keep _ (stageMeaning Config.hw .hdRva) C fun u => by
    rcases hdRva_parses u with ⟨t, e, k, _, hx⟩ | ⟨t, e, k⟩
    · exact .inl ⟨t, e, k, _, _, _, by rw [hx]⟩
    · exact .inr ⟨t, e, k⟩
  have M := keep _ (stageMeaning Config.hw .hdComm) R fun u => by
    rcases hdComm_parses u with ⟨t, e, k, _, _, hx⟩ | ⟨t, e, k⟩
    · exact .inl ⟨t, e, k, _, _, _, by rw [hx]⟩
    · exact .inr ⟨t, e, k⟩
  have P := keep _ (stageMeaning Config.hw .hdPad) M fun u => by
    rcases hdPad_parses u with ⟨t, e, k, hx⟩ | ⟨t, e, k⟩
    · exact .inl ⟨t, e, k, _, _, _, by rw [hx]⟩
    · exact .inr ⟨t, e, k⟩
  refine P.andThen fun u ku ⟨u1, u2, u3, u4, u5⟩ => ?_
  have := derived_parses u s.hdrLen.toNat (by rw [u1]; exact a1) (by rw [u1]; exact a2) u3 u5 u4
  rw [u2, a3] at this
  exact this

theorem Res.andThen_eq_done {r : Res} {f : State → Res} {v : State} (h : r.andThen f = .done v) : ∃ u, r = .done u ∧ f u = .done v := by
  cases r with
  | done u => exact ⟨u, rfl, h⟩
  | raised e u => cases h
  | faulted f => cases h
  | refused f => cases h

theorem Res.ite_raised_eq_done {p : Prop} [Decidable p] {e : Status} {x v : State} {r : Res} (h : (if p then Res.raised e x else r) = .done v) : ¬ p ∧ r = .done v := by
  split at h
  · cases h
  · exact ⟨‹_›, h⟩

theorem Res.ite_raised_eq_done' {p : Prop} [Decidable p] {e : Status} {x v : State} {r : Res} (h : (if p then r else Res.raised e x) = .done v) : p ∧ r = .done v := by
  split at h
  · exact ⟨‹_›, h⟩
  · cases h

/-- What HD_PROLOG has checked where it is done (rule R121). -/
theorem hdProlog_eq_done (s p : State) (h : hdProlog Config.hw s = .done p) :
    8 ≤ s.hdrLen.toNat ∧ spells (BitVec.ofNat 32 (s.hdr.fieldValue 0 32)) 0x48434100#32 ∧
    Config.hw.versions (BitVec.ofNat 16 (s.hdr.fieldValue 32 16)) = true ∧
    p.ctx.headerSize = BitVec.ofNat 16 (s.hdr.fieldValue 48 16) ∧ p.hdr = s.hdr ∧ p.hdrLen = s.hdrLen := by
  rw [hdProlog] at h
  simp only at h
  obtain ⟨h8, h⟩ := Res.ite_raised_eq_done h
  obtain ⟨u, hu, h⟩ := Res.andThen_eq_done h
  rw [wrap] at hu
  split at hu
  · cases hu
  injection hu with hu
  obtain ⟨ht, h⟩ := Res.ite_raised_eq_done h
  obtain ⟨hv, h⟩ := Res.ite_raised_eq_done' h
  injection h with h
  have pk : ∀ p n, p + n ≤ 64 → u.peekAt p n = s.hdr.fieldValue p n := by
    intro p n hpn
    rw [← hu, State.peekAt_eq, State.requestValue]
    split
    · rename_i hx
      rcases hx with rfl | hx
      · simp [Buffer.fieldValue]
      · have : (8 * 8 : Nat) < p + n := hx
        omega
    · rfl
  have up : u.cur.pos = 0 := by rw [← hu]
  refine ⟨by simpa using h8, ?_, ?_, ?_, ?_, ?_⟩
  · rw [spells, ← pk 0 32 (by omega)]
    have : (BitVec.ofNat 32 (u.peek 32) &&& tagMask) = tagProlog := by simpa using ht
    rw [State.peek, up] at this
    exact this
  · have : Config.hw.versions (BitVec.ofNat 16 (u.peekAt 32 16)) = true := hv
    rw [pk _ _ (by omega)] at this; exact this
  · rw [← h]
    show BitVec.ofNat 16 (u.peekAt 48 16) = _
    rw [pk _ _ (by omega)]
  · rw [← h, ← hu]; rfl
  · rw [← h, ← hu]; rfl

theorem Buffer.fieldValue_lt (b : Buffer) (p n : Nat) : b.fieldValue p n < 2 ^ n := by
  rw [← Buffer.bits_eq_fieldValue]; exact Buffer.bits_lt _ _ _

/-- A chunk recognised at byte `a` of HDR. -/
theorem present_spells {w : State} {tag : BitVec 32} {size a : Nat} (h : present w tag size = true) (ht : tag ≠ 0) (hp : w.cur.pos = 8 * a) (hb : w.cur.buf = some .hdr) :
   size ≤ w.remaining ∧ spells (BitVec.ofNat 32 (w.hdr.fieldValue (8 * a) 32)) tag := by
  have hin := present_inside ht h
  rw [present, Bool.and_eq_true] at h
  refine ⟨by simpa using h.1, ?_⟩
  have h2 := beq_iff_eq.1 h.2
  rw [State.peek, State.peekAt_eq, State.requestValue, if_neg (by omega), hp] at h2
  have : w.active = w.hdr := by rw [State.active, hb]; rfl
  rw [this] at h2; exact h2

/-- What a header has that the sequence accepts (rules R121 to R126). -/
theorem openSequence_eq_done (s v : State) (h : openSequence Config.hw s = .done v) :
    let word (a : Nat) : BitVec 32 := BitVec.ofNat 32 (s.hdr.fieldValue (8 * a) 32)
    let size := s.hdr.fieldValue 48 16
    8 ≤ s.hdrLen.toNat ∧ spells (word 0) 0x48434100#32 ∧ Config.hw.versions (BitVec.ofNat 16 (s.hdr.fieldValue 32 16)) = true ∧
    8 ≤ size ∧ size ≤ s.hdrLen.toNat ∧ (8 + 16 ≤ size ∧ spells (word 8) 0x666D7400#32) ∧
    ((24 + 16 ≤ size ∧ spells (word 24) 0x636F6D70#32) ∨ (24 + 12 ≤ size ∧ spells (word 24) 0x64656300#32)) := by
  intro word size
  rw [openSequence] at h
  obtain ⟨g1, h, -⟩ := Res.andThen_eq_done h
  obtain ⟨g, h, hcd⟩ := Res.andThen_eq_done h
  obtain ⟨w, h, hf⟩ := Res.andThen_eq_done h
  obtain ⟨p, h, hr⟩ := Res.andThen_eq_done h
  obtain ⟨a1, a2, a3, a4, a5, a6⟩ := hdProlog_eq_done s p h
  have hsz : p.ctx.headerSize.toNat = size := by
    rw [a4, BitVec.toNat_ofNat]; exact Nat.mod_eq_of_lt (Buffer.fieldValue_lt _ _ _)
  rw [rewrapHeader] at hr
  simp only at hr
  obtain ⟨b1, hr⟩ := Res.ite_raised_eq_done hr
  obtain ⟨b2, hr⟩ := Res.ite_raised_eq_done hr
  obtain ⟨x, hx, hr⟩ := Res.andThen_eq_done hr
  rw [wrap] at hx
  split at hx
  · cases hx
  injection hx with hx
  injection hr with hr
  rw [hsz, a6] at b2
  rw [hsz] at b1
  have w1 : w.cur.pos = 8 * 8 := by rw [← hr]; rfl
  have w2 : w.cur.buf = some .hdr := by rw [← hr, ← hx]; rfl
  have w3 : w.hdr = s.hdr := by rw [← hr, ← hx]; exact a5
  have w4 : w.remaining = size - 8 := by rw [← hr]; exact congrArg (· - 8) hsz
  have hf : hdFmt w = .done g := hf
  rw [hdFmt] at hf
  simp only at hf
  obtain ⟨hpf, hf⟩ := Res.ite_raised_eq_done' hf
  injection hf with hf
  obtain ⟨c1, c2⟩ := present_spells (a := 8) (show present (w.enter 0x11) tagFmt 16 = true from hpf) (by decide) w1 w2
  have c1 : 16 ≤ w.remaining := c1
  have c2 : spells (BitVec.ofNat 32 (w.hdr.fieldValue (8 * 8) 32)) _ := c2
  rw [w3] at c2
  rw [w4] at c1
  have g1 : g.cur.pos = 8 * 24 := by rw [← hf]; show w.cur.pos + 8 * 16 = _; rw [w1]
  have g2 : g.cur.buf = some .hdr := by rw [← hf]; exact w2
  have g3 : g.hdr = s.hdr := by rw [← hf]; exact w3
  have g4 : g.remaining = size - 24 := by rw [← hf]; show w.remaining - 16 = _; omega
  refine ⟨a1, a2, a3, by omega, by omega, ⟨by omega, c2⟩, ?_⟩
  rw [compOrDec] at hcd
  split at hcd
  · rename_i hp
    obtain ⟨d1, d2⟩ := present_spells (a := 24) hp (by decide) g1 g2
    rw [g3] at d2
    exact .inl ⟨by omega, d2⟩
  · obtain ⟨hp, -⟩ := Res.ite_raised_eq_done' hcd
    obtain ⟨d1, d2⟩ := present_spells (a := 24) hp (by decide) g1 g2
    rw [g3] at d2
    exact .inr ⟨by omega, d2⟩

end Sys2Proof.Machine
end

