-- ==== Sys2Proof/Laws/PerInstr.lean ====
section
/-! SUPPORT. The round trip of the encodings, one lemma per constructor: the image of a well-formed instruction decodes
to it with any bytes behind it, and so does a chunk instruction's stage id. -/

namespace Sys2Proof.Laws.RoundTrip

/-- What the round trip says of one instruction. -/
def Statement (i : Instr) : Prop :=
  ∀ rest : List Byte, i.wellFormed = true →
    decode (encode i).1 ((encode i).2 ++ rest) = .ok i ∧
    ∀ id, chunkStageId i = some id → decode .stage (id :: rest) = .ok i

theorem of16_be16 (w : BitVec 16) : of16 (w.extractLsb' 8 8) (w.extractLsb' 0 8) = w := by
  apply BitVec.eq_of_toNat_eq
  have := w.isLt
  rw [of16, BitVec.toNat_append, BitVec.extractLsb'_toNat, BitVec.extractLsb'_toNat,
    ← Nat.shiftLeft_add_eq_or_of_lt (by omega), Nat.shiftLeft_eq, Nat.shiftRight_eq_div_pow]
  simp
  omega

theorem toNat_of32 (a b c d : Byte) :
    (of32 a b c d).toNat = ((a.toNat * 256 + b.toNat) * 256 + c.toNat) * 256 + d.toNat := by
  have ha := a.isLt; have hb := b.isLt; have hc := c.isLt; have hd := d.isLt
  simp only [of32, BitVec.toNat_cast, BitVec.toNat_append]
  rw [← Nat.shiftLeft_add_eq_or_of_lt hb, ← Nat.shiftLeft_add_eq_or_of_lt hc, ← Nat.shiftLeft_add_eq_or_of_lt hd]
  simp only [Nat.shiftLeft_eq]

theorem of32_be32 (w : BitVec 32) :
    of32 (w.extractLsb' 24 8) (w.extractLsb' 16 8) (w.extractLsb' 8 8) (w.extractLsb' 0 8) = w := by
  apply BitVec.eq_of_toNat_eq
  have := w.isLt
  rw [toNat_of32]
  simp [BitVec.extractLsb'_toNat, Nat.shiftRight_eq_div_pow]
  omega

theorem append_halves (k : BitVec 64) : (k.extractLsb' 32 32 ++ k.extractLsb' 0 32 : BitVec 64) = k := by
  apply BitVec.eq_of_toNat_eq
  have := k.isLt
  rw [BitVec.toNat_append, BitVec.extractLsb'_toNat, BitVec.extractLsb'_toNat,
    ← Nat.shiftLeft_add_eq_or_of_lt (by omega), Nat.shiftLeft_eq, Nat.shiftRight_eq_div_pow]
  simp
  omega

/-- A command with a 32-bit operand reads it back. -/
theorem operand32 (mk : BitVec 32 → Except DecodeError Instr) (w : BitVec 32) (rest : List Byte) :
    (match be32 w ++ rest with
      | a :: b :: c :: d :: _ => mk (of32 a b c d)
      | _ => .error .truncated) = mk w := by
  simp [be32, of32_be32]

theorem toNat_chanByte (c : Fin 16) : (chanByte c).toNat = c.val := by
  have := c.isLt
  simp [chanByte]; omega

theorem toNat_subByte (s : Fin 8) : (subByte s).toNat = s.val := by
  have := s.isLt
  simp [subByte]; omega

theorem channel_read (c : Fin 16) (rest : List Byte) (mk : Fin 16 → Instr) :
    withChannel (chanByte c :: rest) mk = .ok (mk c) := by
  have h := toNat_chanByte c
  simp [withChannel, h]

theorem channel_subframe_read (c : Fin 16) (s : Fin 8) (rest : List Byte) (mk : Fin 16 → Fin 8 → Instr) :
    withChannelSubframe (chanByte c :: subByte s :: rest) mk = .ok (mk c s) := by
  have h := toNat_chanByte c
  have k := toNat_subByte s
  simp [withChannelSubframe, h, k]

/-- An instruction without a stage id of its own behind its chunk needs its image only. -/
theorem of_image {i : Instr} (hid : chunkStageId i = none)
    (h : ∀ rest : List Byte, i.wellFormed = true → decode (encode i).1 ((encode i).2 ++ rest) = .ok i) :
    Statement i := fun rest hw => ⟨h rest hw, fun id e => by rw [hid] at e; cases e⟩

/-- A decoded well-formed instruction passes the operand checks. -/
theorem checked_ok {i : Instr} (h : i.wellFormed = true) : checked (.ok i) = .ok i := by simp [checked, h]

theorem readSamples16 : Statement (.readSamples16) :=
  of_image rfl fun _ _ => rfl

theorem resetStream : Statement (.resetStream) :=
  of_image rfl fun _ _ => rfl

theorem hdValidate : Statement (.hdValidate) :=
  of_image rfl fun _ _ => rfl

theorem hdDerive : Statement (.hdDerive) :=
  of_image rfl fun _ _ => rfl

theorem hdChantype : Statement (.hdChantype) :=
  of_image rfl fun _ _ => rfl

theorem frChecklen : Statement (.frChecklen) :=
  of_image rfl fun _ _ => rfl

theorem frSync : Statement (.frSync) :=
  of_image rfl fun _ _ => rfl

theorem frChecksum : Statement (.frChecksum) :=
  of_image rfl fun _ _ => rfl

theorem frDecrypt : Statement (.frDecrypt) :=
  of_image rfl fun _ _ => rfl

theorem frNoiselevel : Statement (.frNoiselevel) :=
  of_image rfl fun _ _ => rfl

theorem hdProlog : Statement .hdProlog :=
  fun _ _ => ⟨rfl, fun id e => by cases e; rfl⟩

theorem hdFmt : Statement .hdFmt :=
  fun _ _ => ⟨rfl, fun id e => by cases e; rfl⟩

theorem hdComp : Statement .hdComp :=
  fun _ _ => ⟨rfl, fun id e => by cases e; rfl⟩

theorem hdDec : Statement .hdDec :=
  fun _ _ => ⟨rfl, fun id e => by cases e; rfl⟩

theorem hdVbr : Statement .hdVbr :=
  fun _ _ => ⟨rfl, fun id e => by cases e; rfl⟩

theorem hdAth : Statement .hdAth :=
  fun _ _ => ⟨rfl, fun id e => by cases e; rfl⟩

theorem hdLoop : Statement .hdLoop :=
  fun _ _ => ⟨rfl, fun id e => by cases e; rfl⟩

theorem hdCiph : Statement .hdCiph :=
  fun _ _ => ⟨rfl, fun id e => by cases e; rfl⟩

theorem hdRva : Statement .hdRva :=
  fun _ _ => ⟨rfl, fun id e => by cases e; rfl⟩

theorem hdComm : Statement .hdComm :=
  fun _ _ => ⟨rfl, fun id e => by cases e; rfl⟩

theorem hdPad : Statement .hdPad :=
  fun _ _ => ⟨rfl, fun id e => by cases e; rfl⟩

theorem openStream (n : BitVec 32) : Statement (.openStream n) := of_image rfl fun rest hw => by
  rw [← checked_ok hw]
  exact congrArg checked (operand32 (fun w => .ok (.openStream w)) n rest)

theorem decodeFrame (n : BitVec 32) : Statement (.decodeFrame n) := of_image rfl fun rest hw => by
  rw [← checked_ok hw]
  exact congrArg checked (operand32 (fun w => .ok (.decodeFrame w)) n rest)

theorem setKey (k : BitVec 64) : Statement (.setKey k) := of_image rfl fun rest _ => by
  show checked (.ok (.setKey (of32 _ _ _ _ ++ of32 _ _ _ _))) = _
  rw [of32_be32, of32_be32, append_halves]
  rfl

theorem bcWrap (b : BufId) (l : BitVec 16) (p : Byte) : Statement (.bcWrap b l p) := of_image rfl fun rest hw => by
  rw [← checked_ok hw]
  refine congrArg checked ?_
  cases b <;> simp [encode, decodeStage, be16, bufByte, decodeBuf, of16_be16, Except.map]

theorem bcPeek (n : Byte) : Statement (.bcPeek n) := of_image rfl fun _ hw => (checked_ok hw)

theorem bcRead (n : Byte) : Statement (.bcRead n) := of_image rfl fun _ hw => (checked_ok hw)

theorem bcSkip (d : BitVec 32) : Statement (.bcSkip d) := of_image rfl fun rest hw => by
  rw [← checked_ok hw]
  exact congrArg checked (operand32 (fun w => .ok (.bcSkip w)) d rest)

theorem frScale (c : Fin 16) : Statement (.frScale c) := of_image rfl fun rest hw => by
  rw [← checked_ok hw]
  exact congrArg checked (channel_read c rest .frScale)

theorem frIntensity (c : Fin 16) : Statement (.frIntensity c) := of_image rfl fun rest hw => by
  rw [← checked_ok hw]
  exact congrArg checked (channel_read c rest .frIntensity)

theorem frResolution (c : Fin 16) : Statement (.frResolution c) := of_image rfl fun rest hw => by
  rw [← checked_ok hw]
  exact congrArg checked (channel_read c rest .frResolution)

theorem frGain (c : Fin 16) : Statement (.frGain c) := of_image rfl fun rest hw => by
  rw [← checked_ok hw]
  exact congrArg checked (channel_read c rest .frGain)

theorem spDequant (c : Fin 16) : Statement (.spDequant c) := of_image rfl fun rest hw => by
  rw [← checked_ok hw]
  exact congrArg checked (channel_read c rest .spDequant)

theorem spNoise (c : Fin 16) : Statement (.spNoise c) := of_image rfl fun rest hw => by
  rw [← checked_ok hw]
  exact congrArg checked (channel_read c rest .spNoise)

theorem spHfr (c : Fin 16) : Statement (.spHfr c) := of_image rfl fun rest hw => by
  rw [← checked_ok hw]
  exact congrArg checked (channel_read c rest .spHfr)

theorem spMsstereo (c : Fin 16) : Statement (.spMsstereo c) := of_image rfl fun rest hw => by
  rw [← checked_ok hw]
  exact congrArg checked (channel_read c rest .spMsstereo)

theorem imPass1 (c : Fin 16) : Statement (.imPass1 c) := of_image rfl fun rest hw => by
  rw [← checked_ok hw]
  exact congrArg checked (channel_read c rest .imPass1)

theorem imPass2 (c : Fin 16) : Statement (.imPass2 c) := of_image rfl fun rest hw => by
  rw [← checked_ok hw]
  exact congrArg checked (channel_read c rest .imPass2)

theorem spIstereo (c : Fin 16) (s : Fin 8) : Statement (.spIstereo c s) := of_image rfl fun rest hw => by
  rw [← checked_ok hw]
  exact congrArg checked (channel_subframe_read c s rest .spIstereo)

theorem imWindow (c : Fin 16) (s : Fin 8) : Statement (.imWindow c s) := of_image rfl fun rest hw => by
  rw [← checked_ok hw]
  exact congrArg checked (channel_subframe_read c s rest .imWindow)

end Sys2Proof.Laws.RoundTrip
end

