-- ==== Sys2Proof/Laws/Step.lean ====
section
/-! SUPPORT. A step and the stage it runs: what the queue decodes to, that no stage looks at the queue or the
status. -/

namespace Sys2Proof.Machine

/-- The command port decodes to commands only. -/
theorem decodeCommand_command {l : List Byte} {i : Instr} (h : decodeCommand l = .ok i) : (encode i).1 = .command := by
  unfold decodeCommand at h
  repeat' split at h
  all_goals first | (injection h with h; subst h; rfl) | cases h

theorem checked_eq_ok {r : Except DecodeError Instr} {i : Instr} (h : checked r = .ok i) :
    r = .ok i ∧ i.wellFormed = true := by
  unfold checked at h
  split at h
  · split at h
    · injection h with h; subst h; exact ⟨rfl, ‹_›⟩
    · cases h
  · cases h

theorem decode_command {l : List Byte} {i : Instr} (h : decode .command l = .ok i) :
    (∃ n, i = .openStream n) ∨ (∃ k, i = .setKey k) ∨ (∃ n, i = .decodeFrame n) ∨ i = .readSamples16 ∨
      i = .resetStream := by
  have := decodeCommand_command (checked_eq_ok h).1
  cases i <;> first | (cases this; done) | simp

/-- The next call being that of an instruction that is no chunk, a step runs it. -/
theorem step_callOf (s : State) (i : Instr) (rest : List Call)
    (hp : (encode i).1 ≠ .chunk) (hd : decode (encode i).1 ((encode i).2 ++ []) = .ok i)
    (hq : s.queue = callOf i :: rest) : step s = exec i { s with queue := rest } := by
  rw [step, hq]
  have hissue : s.issue (callOf i) rest = { s with queue := rest } := rfl
  have hf : fetch (s.issue (callOf i) rest) (callOf i) = .ok i := by
    rw [List.append_nil] at hd
    rw [fetch]
    have : (callOf i).port = (encode i).1 := rfl
    have h2 : (callOf i).image = (encode i).2 := rfl
    rw [this, h2]
    split
    · rename_i h; exact absurd h hp
    · exact hd
  simp only [hf]
  rw [hissue]

/-- The state with another queue and status: what a command's own accounting of the host changes. -/
def State.hosted (q : List Call) (x : Status) (s : State) : State := { s with queue := q, status := x }

/-- The same result with another queue and status. -/
def Res.hosted (q : List Call) (x : Status) : Res → Res
  | .done t => .done (t.hosted q x)
  | .raised e t => .raised e (t.hosted q x)
  | .faulted f => .faulted f
  | .refused r => .refused r

theorem Res.hosted_ite (q : List Call) (x : Status) (p : Prop) [Decidable p] (a b : Res) :
    Res.hosted q x (if p then a else b) = if p then a.hosted q x else b.hosted q x := by
  split <;> rfl

theorem Res.andThen_ite (p : Prop) [Decidable p] (x y : Res) (f : State → Res) :
    (if p then x else y).andThen f = if p then x.andThen f else y.andThen f := by
  split <;> rfl

theorem dequant_hosted (cfg : Config) (q : List Call) (x : Status) (c : Fin 16) (s : State) :
    stageMeaning cfg (.spDequant c) (s.hosted q x) = (stageMeaning cfg (.spDequant c) s).hosted q x := by
  have done : ∀ (d : Except Refusal (Nat × Vector F32 128)),
      (match d with
        | .error e => Res.refused e
        | .ok (pos, file) => Res.done (((State.setChan ((s.hosted q x).enterChan 0x30 c) c
            { s.chan c with spectra := file }).seek pos).drew 128)) =
      Res.hosted q x (match d with
        | .error e => Res.refused e
        | .ok (pos, file) => Res.done ((((s.enterChan 0x30 c).setChan c
            { s.chan c with spectra := file }).seek pos).drew 128)) := by
    intro d
    cases d <;> rfl
  exact done _

/-- No stage of a frame reads or writes the queue or the status. -/
theorem frame_hosted (cfg : Config) (q : List Call) (x : Status) (i : Instr) (s u : State) (hi : i ∈ frameSequence u) :
    stageMeaning cfg i (s.hosted q x) = (stageMeaning cfg i s).hosted q x := by
  rw [frameSequence, List.mem_append, List.mem_append] at hi
  rcases hi with (hi | hi) | hi
  · simp only [frameChecks, List.mem_cons, List.not_mem_nil, or_false] at hi
    rcases hi with rfl | rfl | rfl | rfl | rfl
    · simp only [stageMeaning, stageBy, frChecklen, Res.hosted_ite]; rfl
    · simp only [stageMeaning, stageBy, frSync, wrap, Res.andThen_ite]; simp only [Res.andThen, Res.hosted_ite]; rfl
    · simp only [stageMeaning, stageBy, frChecksum, Res.hosted_ite]; rfl
    · simp only [stageMeaning, stageBy, frDecrypt, wrap, Res.hosted_ite]; rfl
    · rfl
  · obtain ⟨c, _, hc⟩ := List.mem_flatMap.1 hi
    simp only [unpackChannel, List.mem_cons, List.not_mem_nil, or_false] at hc
    rcases hc with rfl | rfl | rfl | rfl
    · simp only [stageMeaning, stageBy, frScale, Res.hosted_ite]; rfl
    · simp only [stageMeaning, stageBy, frIntensity, intensityOld, intensityNew, highBandScales, Res.hosted_ite]; rfl
    · rfl
    · rfl
  · obtain ⟨sf, _, hi⟩ := List.mem_flatMap.1 hi
    have stereo : ∀ c, stageMeaning cfg (.spIstereo c sf) (s.hosted q x) =
        (stageMeaning cfg (.spIstereo c sf) s).hosted q x ∧
        stageMeaning cfg (.spMsstereo c) (s.hosted q x) =
        (stageMeaning cfg (.spMsstereo c) s).hosted q x := by
      intro c
      simp only [stageMeaning, stageBy, spIstereo, spMsstereo]
      cases secondaryOf c with
      | none => exact ⟨rfl, rfl⟩
      | some d => exact ⟨rfl, rfl⟩
    simp only [subframe, List.mem_append, List.mem_map, List.mem_flatMap] at hi
    rcases hi with (((⟨c, hl, rfl⟩ | ⟨c, hl, rfl⟩) | ⟨c, hl, rfl⟩) | ⟨c, hl, hp⟩) | ⟨c, hl, hp⟩
    · exact dequant_hosted cfg q x c s
    · simp only [stageMeaning, stageBy, spNoise, Res.hosted_ite]; rfl
    · simp only [stageMeaning, stageBy, spHfr, Res.hosted_ite]; rfl
    · rw [stereoPair] at hp
      split at hp
      · rcases List.mem_cons.1 hp with rfl | hp
        · exact (stereo c).1
        · split at hp
          · rw [List.mem_singleton] at hp; subst hp; exact (stereo c).2
          · simp at hp
      · simp at hp
    · simp only [List.mem_cons, List.not_mem_nil, or_false] at hp
      rcases hp with rfl | rfl | rfl <;> rfl

/-- No stage of OPEN_STREAM reads or writes the queue or the status. -/
theorem header_hosted (q : List Call) (x : Status) (i : Instr) (s : State)
    (hi : i ∈ [Instr.hdProlog, .hdFmt, .hdComp, .hdDec] ++ headerTail) :
    stageMeaning Config.hw i (s.hosted q x) = (stageMeaning Config.hw i s).hosted q x := by
  simp only [headerTail, List.cons_append, List.nil_append, List.mem_cons, List.not_mem_nil, or_false] at hi
  rcases hi with rfl | rfl | rfl | rfl | rfl | rfl | rfl | rfl | rfl | rfl | rfl | rfl | rfl | rfl
  · simp only [stageMeaning, stageBy, hdProlog, wrap, Res.andThen_ite]; simp only [Res.andThen, Res.hosted_ite]; rfl
  · simp only [stageMeaning, stageBy, hdFmt, Res.hosted_ite]; rfl
  · simp only [stageMeaning, stageBy, hdComp, Res.hosted_ite]; rfl
  · simp only [stageMeaning, stageBy, hdDec, Res.hosted_ite]; rfl
  · simp only [stageMeaning, stageBy, hdVbr, Res.hosted_ite]; rfl
  · simp only [stageMeaning, stageBy, hdAth, Res.hosted_ite]; rfl
  · simp only [stageMeaning, stageBy, hdLoop, Res.hosted_ite]; rfl
  · simp only [stageMeaning, stageBy, hdCiph, Res.hosted_ite]; rfl
  · simp only [stageMeaning, stageBy, hdRva, Res.hosted_ite]; rfl
  · simp only [stageMeaning, stageBy, hdComm, Res.hosted_ite]; rfl
  · rfl
  · simp only [stageMeaning, stageBy, hdValidate, Res.hosted_ite]; rfl
  · simp only [stageMeaning, stageBy, hdDerive, Res.hosted_ite]; rfl
  · rfl

/-- The stages of OPEN_STREAM, and the chunk chosen. -/
def headerStages : List Instr := [.hdProlog, .hdFmt, .hdComp, .hdDec] ++ headerTail

/-- The only error a result raises is HeaderInvalid. -/
def Res.RaisesInvalid : Res → Prop
  | .raised e _ => e = .headerInvalid
  | _ => True

theorem Res.raisesInvalid_ite {p : Prop} [Decidable p] {x y : Res} (hx : x.RaisesInvalid) (hy : y.RaisesInvalid) :
    (if p then x else y).RaisesInvalid := by
  split <;> assumption

theorem header_raises (i : Instr) (hi : i ∈ headerStages) (s : State) : (stageMeaning Config.hw i s).RaisesInvalid := by
  simp only [headerStages, headerTail, List.cons_append, List.nil_append, List.mem_cons, List.not_mem_nil, or_false] at hi
  rcases hi with rfl | rfl | rfl | rfl | rfl | rfl | rfl | rfl | rfl | rfl | rfl | rfl | rfl | rfl
  · simp only [stageMeaning, stageBy, hdProlog, wrap]
    refine Res.raisesInvalid_ite rfl ?_
    split
    · trivial
    · exact Res.raisesInvalid_ite rfl (Res.raisesInvalid_ite trivial rfl)
  · exact Res.raisesInvalid_ite trivial rfl
  · exact Res.raisesInvalid_ite trivial trivial
  · exact Res.raisesInvalid_ite (Res.raisesInvalid_ite rfl trivial) trivial
  · exact Res.raisesInvalid_ite (Res.raisesInvalid_ite trivial rfl) trivial
  · exact Res.raisesInvalid_ite trivial trivial
  · exact Res.raisesInvalid_ite (Res.raisesInvalid_ite trivial rfl) trivial
  · exact Res.raisesInvalid_ite (Res.raisesInvalid_ite trivial rfl) trivial
  · exact Res.raisesInvalid_ite trivial trivial
  · exact Res.raisesInvalid_ite (Res.raisesInvalid_ite rfl trivial) trivial
  · trivial
  · exact Res.raisesInvalid_ite trivial rfl
  · exact Res.raisesInvalid_ite (Res.raisesInvalid_ite rfl (Res.raisesInvalid_ite rfl trivial)) rfl
  · trivial

theorem exec_header (i : Instr) (hi : i ∈ headerStages) (s : State) :
    exec i s = (stageMeaning Config.hw i s).outcome Config.hw := by
  have h1 : (encode i).1 ≠ .command ∧ cursorReach i = none := by
    simp only [headerStages, headerTail, List.cons_append, List.nil_append, List.mem_cons, List.not_mem_nil, or_false] at hi
    rcases hi with rfl | rfl | rfl | rfl | rfl | rfl | rfl | rfl | rfl | rfl | rfl | rfl | rfl | rfl <;>
      exact ⟨by simp [encode], rfl⟩
  exact exec_stage i s h1.1 (fun n h => by rw [h1.2] at h; cases h)

theorem headerStages_hosted (l : List Instr) (hl : ∀ i ∈ l, i ∈ headerStages) (q : List Call) (x : Status) (s : State) :
    runStages Config.hw l (s.hosted q x) = (runStages Config.hw l s).hosted q x := by
  induction l generalizing s with
  | nil => rfl
  | cons i l ih =>
    rw [runStages, runStages, header_hosted q x i s (hl i (List.mem_cons_self ..))]
    cases stageMeaning Config.hw i s with
    | done t => exact ih (fun j hj => hl j (List.mem_cons_of_mem _ hj)) t
    | raised e t => rfl
    | faulted f => rfl
    | refused f => rfl

/-- A run of header stages as instructions is the run of the stages, ended by the error taken. -/
theorem runUntilError_header (l : List Instr) (hl : ∀ i ∈ l, i ∈ headerStages) (s : State) (hs : s.status = .ok) :
    (∀ v, runStages Config.hw l s = .done v → runUntilError l s = .next v ∧ v.status = .ok ∧ v.queue = s.queue) ∧
    (∀ e v, runStages Config.hw l s = .raised e v → e = .headerInvalid ∧
      runUntilError l s = .next (takeError Config.hw .headerInvalid v) ∧ v.queue = s.queue) := by
  induction l generalizing s with
  | nil => exact ⟨fun v h => by injection h with h; subst h; exact ⟨rfl, hs, rfl⟩, fun e v h => by cases h⟩
  | cons i l ih =>
    have hm := hl i (List.mem_cons_self ..)
    have hh := header_hosted s.queue .ok i s hm
    have self : s.hosted s.queue .ok = s := by rw [← hs]; rfl
    rw [self] at hh
    have hex := exec_header i hm s
    have ho := header_raises i hm s
    rw [runStages]
    cases e : stageMeaning Config.hw i s with
    | done t =>
      rw [e] at hh hex
      injection hh with hh
      have h1 : t.status = .ok := by rw [hh]; rfl
      have h2 : t.queue = s.queue := by rw [hh]; rfl
      obtain ⟨a, b⟩ := ih (fun j hj => hl j (List.mem_cons_of_mem _ hj)) t h1
      have hu : runUntilError (i :: l) s = runUntilError l t := by
        rw [runUntilError, hex]; simp only [Res.outcome, h1, if_true]
      rw [hu]
      refine ⟨fun v h => ?_, fun x v h => ?_⟩
      · obtain ⟨p, q, r⟩ := a v h; exact ⟨p, q, r.trans h2⟩
      · obtain ⟨p, q, r⟩ := b x v h; exact ⟨p, q, r.trans h2⟩
    | raised x t =>
      rw [e] at hh hex ho
      have ho : x = .headerInvalid := ho
      subst ho
      refine ⟨fun v h => by (cases h), fun y v h => ?_⟩
      injection h with h1 h2; subst h1 h2
      injection hh with _ hh
      refine ⟨rfl, ?_, by rw [hh]; rfl⟩
      rw [runUntilError, hex]; simp only [Res.outcome]
      exact if_neg (by simp [takeError])
    | faulted f => exact ⟨fun v h => by (cases h), fun e v h => by (cases h)⟩
    | refused f => exact ⟨fun v h => by (cases h), fun e v h => by (cases h)⟩

end Sys2Proof.Machine
end

