-- ==== Sys2Proof/Laws/Command.lean ====
section
/-! SUPPORT. What the host commands and the stages come to: the ends of OPEN_STREAM and of DECODE_FRAME, what an
instruction may write, runs of the machine. -/

namespace Sys2Proof.Machine

/-- An error of a frame writes `status` and leaves the rest to the idle controller (60_exceptions.md rule R272). -/
theorem takeError_of_ne (cfg : Config) (e : Status) (h : e ≠ .headerInvalid)
    (s : State) : takeError cfg e s = { s.idle with status := e } := by
  cases e <;> first | rfl | exact absurd rfl h

/-- How DECODE_FRAME ends on an open stream: the errors of the checks in their order, an error of step 5,
    or done (45_controller_and_host.md
rule R241). -/
theorem decodeFrame_cases (n : BitVec 32) (s : State) (hv : s.valid = true) (hi : s.StreamInv)
    (hn : n.toNat ≤ s.frm.size) :
    let s1 : State := { s with frmLen := n }
    (n.toNat < s.ctx.frameSize.toNat ∧ decodeFrame Config.hw n s = .raised .shortBuffer { s1 with stage := 0x20 }) ∨
    (s.ctx.frameSize.toNat ≤ n.toNat ∧ ¬ syncOk s ∧ decodeFrame Config.hw n s = .raised .syncError { s1 with
        stage := 0x21, cur := frameCursor s 16 }) ∨
    (s.ctx.frameSize.toNat ≤ n.toNat ∧ syncOk s ∧ Config.hw.checksumFrame
        (s.frm.bytes s.ctx.frameSize.toNat) ≠ 0 ∧ decodeFrame Config.hw n s = .raised .checksumError { s1 with
            stage := 0x22, cur := frameCursor s 16 }) ∨
    (s.ctx.frameSize.toNat ≤ n.toNat ∧ syncOk s ∧ Config.hw.checksumFrame (s.frm.bytes s.ctx.frameSize.toNat) = 0 ∧
      ((∃ e u, (e = .invalidScaleFactor ∨ e = .invalidIntensity) ∧ runStages Config.hw
          (s.liveChannels.flatMap unpackChannel) (checkedFrame s1) = .raised e u ∧ Unpacks (checkedFrame s1) u ∧
          decodeFrame Config.hw n s = .raised e u) ∨
       ∃ u v, runStages Config.hw (s.liveChannels.flatMap unpackChannel) (checkedFrame s1) = .done u ∧
           Unpacks (checkedFrame s1) u ∧ Sounds u v ∧
          decodeFrame Config.hw n s = .done v.decodedFrame)) := by
  intro s1
  have hl := hi.ctx hv
  have ho : s.streamOpen = true := hv
  have key : decodeFrame Config.hw n s = (runStages Config.hw (frameSequence s1) s1).andThen fun t =>
      .done t.decodedFrame := by
    rw [decodeFrame, ho]
    exact (if_neg (by decide)).trans (if_neg (by omega))
  have h2 : 2 ≤ s.ctx.frameSize.toNat := by have := hl.frameSize; omega
  have hseq : frameSequence s1 = frameChecks ++ (s.liveChannels.flatMap unpackChannel ++
      (List.finRange 8).flatMap (subframe s)) := by
    rw [← List.append_assoc]; rfl
  obtain ⟨c1, c2⟩ := frameChecks_run Config.hw s1 hn h2
  rw [key, hseq, runStages_append]
  by_cases hlen : n.toNat < s.ctx.frameSize.toNat
  · left; rw [c1 hlen]; exact ⟨hlen, rfl⟩
  · right
    have hle : s.ctx.frameSize.toNat ≤ n.toNat := by omega
    obtain ⟨c2, c3⟩ := c2 hle
    by_cases hy : syncOk s
    · right
      obtain ⟨d1, d2⟩ := c3 hy
      by_cases hc : Config.hw.checksumFrame (s.frm.bytes s.ctx.frameSize.toNat) = 0
      · right
        refine ⟨hle, hy, hc, ?_⟩
        rw [d2 hc]
        show (∃ e u, _ ∧ _ ∧ _ ∧ Res.andThen (runStages Config.hw _ (checkedFrame s1)) _ = _) ∨ ∃ u v,
            _ ∧ _ ∧ _ ∧ Res.andThen (runStages Config.hw _ (checkedFrame s1)) _ = _
        rw [runStages_append]
        rcases runStages_unpack s.liveChannels (checkedFrame s1) with ⟨u, eu, hu⟩ | ⟨e, u, eu, he, hu⟩
        · right
          rw [eu]
          obtain ⟨v, ev, hv'⟩ := runStages_subframes s u (hl.channelCount.2) (by
            intro c hc
            rw [hu.stream.coded]
            have := (hi.channels hv c hc).1
            have hb := hl.bands
            show (s.chan c).codedCount.toNat ≤ 128
            rw [this]; split <;> omega)
          refine ⟨u, v, rfl, hu, hv', ?_⟩
          show Res.andThen (runStages Config.hw _ u) _ = _
          rw [ev]; rfl
        · left
          rw [eu]
          exact ⟨e, u, he, rfl, hu, rfl⟩
      · left
        rw [d1 hc]; exact ⟨hle, hy, hc, rfl⟩
    · left; rw [c2 hy]; exact ⟨hle, hy, rfl⟩

/-- DECODE_FRAME runs on an open stream and a buffer of the length given only. -/
theorem decodeFrame_valid (n : BitVec 32) (s t : State) (h : exec
    (.decodeFrame n) s = .next t) : s.valid = true ∧ n.toNat ≤ s.frm.size := by
  have ex : exec (.decodeFrame n) s = (decodeFrame Config.hw n s).outcome Config.hw := rfl
  rw [ex, decodeFrame, State.streamOpen] at h
  by_cases hv : s.valid = true
  · refine ⟨hv, ?_⟩
    by_contra hc
    rw [if_neg (by simp [hv]), if_pos (by omega)] at h
    cases h
  · rw [if_pos (by simp [hv])] at h; cases h

/-- The channels that are not live stay. -/
theorem decodeFrame_beyond (n : BitVec 32) (s : State) :
    (decodeFrame Config.hw n s).All (SameBeyond s.ctx.channelCount.toNat s) := by
  rw [decodeFrame]
  split
  · trivial
  · split
    · trivial
    · refine (runStages_all Config.hw (SameBeyond s.ctx.channelCount.toNat) (fun _ _ _ =>
          rfl) (fun _ _ _ h k d hd => (k d hd).trans (h d hd)) (frameSequence s) { s with frmLen :=
              n } (fun i hi t => frameSequence_beyond Config.hw s i hi t)).andThen (fun _ h => h) ?_
      intro t _ h
      exact h

/-- How OPEN_STREAM ends: the length is refused, the stream is open, or the header is invalid (rules R240, R245). -/
theorem openStream_cases (n : BitVec 32) (s : State) :
    (s.hdr.size < n.toNat ∧ openStream Config.hw n s = .refused .bufferTooShort) ∨
    (n.toNat ≤ s.hdr.size ∧ ((∃ t, openStream Config.hw n s = .done t.openedStream ∧
        HeaderKeeps { s.unspecify Config.hw with hdrLen := n } t ∧ Opened s.key n.toNat t ∧ 8 ≤ n.toNat) ∨
      ∃ t, openStream Config.hw n s = .raised .headerInvalid t ∧ HeaderKeeps { s.unspecify Config.hw with
          hdrLen := n } t)) := by
  by_cases h : s.hdr.size < n.toNat
  · left; exact ⟨h, by rw [openStream, if_pos h]⟩
  · right
    refine ⟨by omega, ?_⟩
    have key : openStream Config.hw n s = (openSequence Config.hw { s.unspecify Config.hw with hdrLen :=
        n }).andThen fun t => .done t.openedStream := by
      rw [openStream, if_neg h]
    rw [key]
    rcases openSequence_parses { s.unspecify Config.hw with hdrLen := n }
        (by show n.toNat ≤ s.hdr.size; omega) with ⟨t, e, k, o⟩ | ⟨t, e, k⟩
    · left
      refine ⟨t, by rw [e]; rfl, k, o, ?_⟩
      by_contra hc
      have : openSequence Config.hw { s.unspecify Config.hw with hdrLen := n } = .raised .headerInvalid
          ({ s.unspecify Config.hw with hdrLen := n }.enter 0x10) := by
        rw [openSequence]
        have : stageMeaning Config.hw .hdProlog { s.unspecify Config.hw with hdrLen :=
            n } = .raised .headerInvalid ({ s.unspecify Config.hw with hdrLen := n }.enter 0x10) := by
          show hdProlog _ _ = _
          rw [hdProlog]
          exact if_pos (by show n.toNat < 8; omega)
        rw [this]; rfl
      rw [this] at e; cases e
    · right; exact ⟨t, by rw [e]; rfl, k⟩

/-- The buffers, the key and the queue stay. -/
structure KeepsHost (s t : State) : Prop where
  hdr : t.hdr = s.hdr
  queue : t.queue = s.queue
  out : t.out = s.out
  frm : t.frm = s.frm
  key : t.key = s.key

/-- What holds of a stage's states, and through an error result, holds of the next state. -/
theorem Res.All.outcome {P : State → Prop} {r : Res} (h : r.All P) (hp : ∀ e t, P t →
    P (takeError Config.hw e t)) {t : State} (e : r.outcome Config.hw = .next t) : P t := by
  cases r with
  | done u => injection e with e; subst e; exact h
  | raised x u => injection e with e; subst e; exact hp _ _ h
  | faulted f => cases e
  | refused f => cases e

theorem KeepsHost.takeError (s : State) : ∀ e t, KeepsHost s t → KeepsHost s (takeError Config.hw e t) := by
  intro e t ⟨a, b, c, d, f⟩
  cases e <;> exact ⟨a, b, c, d, f⟩

/-- No stage of OPEN_STREAM writes a buffer, the key or the queue. -/
theorem header_keepsHost (i : Instr) (s : State) (hi : (encode i).1 = .chunk ∨ i = .hdValidate ∨
    i = .hdDerive ∨ i = .hdChantype) : (stageMeaning Config.hw i s).All (KeepsHost s) := by
  have m : ∀ t : State, t.hdr = s.hdr → t.queue = s.queue → t.out = s.out → t.frm = s.frm → t.key = s.key →
      KeepsHost s t := fun t a b c d e => ⟨a, b, c, d, e⟩
  cases i with
  | hdProlog => simp only [stageMeaning, stageBy, hdProlog, wrap]; repeat' split
                · exact m _ rfl rfl rfl rfl rfl
                · trivial
                · simp only [Res.andThen]
                  split
                  · exact m _ rfl rfl rfl rfl rfl
                  · split <;> exact m _ rfl rfl rfl rfl rfl
  | hdFmt => simp only [stageMeaning, stageBy, hdFmt]; split <;> exact m _ rfl rfl rfl rfl rfl
  | hdComp => simp only [stageMeaning, stageBy, hdComp]; split <;> exact m _ rfl rfl rfl rfl rfl
  | hdDec => simp only [stageMeaning, stageBy, hdDec]; repeat' split
             all_goals exact m _ rfl rfl rfl rfl rfl
  | hdVbr => simp only [stageMeaning, stageBy, hdVbr]; repeat' split
             all_goals exact m _ rfl rfl rfl rfl rfl
  | hdAth => simp only [stageMeaning, stageBy, hdAth]; split <;> exact m _ rfl rfl rfl rfl rfl
  | hdLoop => simp only [stageMeaning, stageBy, hdLoop]; repeat' split
              all_goals exact m _ rfl rfl rfl rfl rfl
  | hdCiph => simp only [stageMeaning, stageBy, hdCiph]; repeat' split
              all_goals exact m _ rfl rfl rfl rfl rfl
  | hdRva => simp only [stageMeaning, stageBy, hdRva]; split <;> exact m _ rfl rfl rfl rfl rfl
  | hdComm => simp only [stageMeaning, stageBy, hdComm]; repeat' split
              all_goals exact m _ rfl rfl rfl rfl rfl
  | hdPad => exact m _ rfl rfl rfl rfl rfl
  | hdValidate => simp only [stageMeaning, stageBy, hdValidate]; split <;> exact m _ rfl rfl rfl rfl rfl
  | hdDerive => simp only [stageMeaning, stageBy, hdDerive]; repeat' split
                all_goals exact m _ rfl rfl rfl rfl rfl
  | hdChantype => exact m _ rfl rfl rfl rfl rfl
  | _ => rcases hi with hi | hi | hi | hi <;> cases hi

theorem openStream_keepsHost (s : State) (n : BitVec 32) : (openStream Config.hw n s).All (KeepsHost s) := by
  rcases openStream_cases n s with ⟨_, e⟩ | ⟨_, ⟨u, e, k, -, -⟩ | ⟨u, e, k⟩⟩
  · rw [e]; trivial
  · rw [e]; exact ⟨k.hdr, k.queue, k.out, k.frm, k.key⟩
  · rw [e]; exact ⟨k.hdr, k.queue, k.out, k.frm, k.key⟩

/-- What a stage outside OPEN_STREAM may write, by the instruction: everything the rules do not name for it stays. -/
structure Writes (i : Instr) (s t : State) : Prop where
  hdr : t.hdr = s.hdr
  queue : t.queue = s.queue
  out : i ≠ .readSamples16 → t.out = s.out
  frm : i ≠ .frDecrypt → t.frm = s.frm
  key : (∀ k, i ≠ .setKey k) → t.key = s.key
  ctx : t.ctx = s.ctx
  valid : t.valid = s.valid
  ath : t.athCurve = s.athCurve
  table : (∀ k, i ≠ .setKey k) → t.cipherTable = s.cipherTable
  chan : ∀ c, (t.chan c).type = (s.chan c).type ∧ (t.chan c).codedCount = (s.chan c).codedCount
  random : (∀ c, i ≠ .spNoise c) → i ≠ .resetStream → t.random = s.random
  prev : (∀ c sf, i ≠ .imWindow c sf) → i ≠ .resetStream → ∀ c, (t.chan c).prev = (s.chan c).prev
  wave : (∀ c sf, i ≠ .imWindow c sf) → ∀ c, (t.chan c).wave = (s.chan c).wave
  inten : (∀ c, i ≠ .frIntensity c) → ∀ c, (t.chan c).intensity = (s.chan c).intensity

/-- Counters, cursor, result and noise level are free. -/
theorem Writes.of_same (i : Instr) (s t : State) 
    (h : t = { s with
      stage := t.stage, c := t.c, sf := t.sf, cur := t.cur, result := t.result
      packedNoiseLevel := t.packedNoiseLevel, draws := t.draws, status := t.status }) : Writes i s t := by
  rw [h]; constructor <;> intros <;> first | rfl | exact ⟨rfl, rfl⟩

/-- One channel changed. -/
theorem Writes.of_chan (i : Instr) (s t : State) (c : Fin 16) (x : Channel) (hch : t.ch = s.ch.set c x)
   (h : t = { s with
      ch := t.ch, stage := t.stage, c := t.c, sf := t.sf, cur := t.cur, draws := t.draws
      random := t.random, packedNoiseLevel := t.packedNoiseLevel })
   (hr : (∀ c, i ≠ .spNoise c) → t.random = s.random)
   (hx : x.type = (s.chan c).type ∧ x.codedCount = (s.chan c).codedCount)
   (hp : (∀ c sf, i ≠ .imWindow c sf) → x.prev = (s.chan c).prev) (hw : (∀ c sf,
       i ≠ .imWindow c sf) → x.wave = (s.chan c).wave)
   (hi : (∀ c, i ≠ .frIntensity c) → x.intensity = (s.chan c).intensity) : Writes i s t := by
  have ch : ∀ d, t.chan d = (s.setChan c x).chan d := fun d => State.chan_of_ch c x hch d
  constructor
  · rw [h]
  · rw [h]
  · intro _; rw [h]
  · intro _; rw [h]
  · intro _; rw [h]
  · rw [h]
  · rw [h]
  · rw [h]
  · intro _; rw [h]
  · intro d; rw [ch]; exact ⟨State.setChan_same (·.type) s c x hx.1 d, State.setChan_same (·.codedCount) s c x hx.2 d⟩
  · exact fun a _ => hr a
  · intro a _ d; rw [ch]; exact State.setChan_same (·.prev) s c x (hp a) d
  · intro a d; rw [ch]; exact State.setChan_same (·.wave) s c x (hw a) d
  · intro a d; rw [ch]; exact State.setChan_same (·.intensity) s c x (hi a) d

theorem Writes.takeError {i : Instr} {s t : State} {e : Status} (he : e ≠ .headerInvalid)
    (h : Writes i s t) : Writes i s (takeError Config.hw e t) := by
  rw [takeError_of_ne _ _ he]
  obtain ⟨a1, a2, a3, a4, a5, a6, a7, a8, a9, a10, a11, a12, a13, a14⟩ := h
  exact ⟨a1, a2, a3, a4, a5, a6, a7, a8, a9, a10, a11, a12, a13, a14⟩

/-- The state a stage comes to is written as it may be; its error is none of a header. -/
def Res.WritesOnly (i : Instr) (s : State) : Res → Prop
  | .done t => Writes i s t
  | .raised e t => e ≠ .headerInvalid ∧ Writes i s t
  | .faulted _ => True
  | .refused _ => True

theorem Res.WritesOnly.outcome {i : Instr} {s : State} {r : Res} (h : Res.WritesOnly i s r) {t : State}
    (e : r.outcome Config.hw = .next t) : Writes i s t := by
  cases r with
  | done u => injection e with e; subst e; exact h
  | raised x u => injection e with e; subst e; exact Writes.takeError h.1 h.2
  | faulted f => cases e
  | refused f => cases e

/-- One channel's unpacked files and spectra changed. -/
theorem Writes.of_set (i : Instr) (s : State) (c : Fin 16) (t : State) (x : Channel) (hch : t.ch = s.ch.set c x)
   (h : t = { s with
      ch := t.ch, stage := t.stage, c := t.c, sf := t.sf, cur := t.cur, draws := t.draws
      packedNoiseLevel := t.packedNoiseLevel })
   (hx : { x with
      scale := (s.chan c).scale, hfrScale := (s.chan c).hfrScale, resolution := (s.chan c).resolution
      noises := (s.chan c).noises, noiseCount := (s.chan c).noiseCount, validCount := (s.chan c).validCount
      gain := (s.chan c).gain, spectra := (s.chan c).spectra, scratch :=
          (s.chan c).scratch } = s.chan c) : Writes i s t :=
  Writes.of_chan i s t c x hch (by rw [h]) (fun _ => by rw [h]) ⟨by rw [← hx], by rw [← hx]⟩ (fun _ =>
      by rw [← hx]) (fun _ => by rw [← hx]) (fun _ => by rw [← hx])

theorem Res.WritesOnly.drew {i : Instr} {s : State} {r : Res} (h : Res.WritesOnly i s r) (n : Nat) :
    Res.WritesOnly i s (r.drew n) := by
  have w : ∀ {t : State}, Writes i s t → Writes i s { t with draws := t.draws + n } := fun h =>
    ⟨h.hdr, h.queue, h.out, h.frm, h.key, h.ctx, h.valid, h.ath, h.table, h.chan, h.random, h.prev, h.wave, h.inten⟩
  cases r with
  | done t => exact w h
  | raised e t => exact ⟨h.1, w h.2⟩
  | faulted f => trivial
  | refused f => trivial

/-- Every stage of DECODE_FRAME and every micro-operation writes what it may, however the cursor moves. -/
theorem stage_writes (mv : Moves) (i : Instr) (s : State) (h0 : (encode i).1 = .stage) (h1 : i ≠ .hdValidate)
    (h2 : i ≠ .hdDerive) (h3 : i ≠ .hdChantype) : Res.WritesOnly i s (stageBy Config.hw mv i s) := by
  cases i with
  | bcWrap b l p => simp only [stageBy, bcWrap, wrap]; split
                    · trivial
                    · exact Writes.of_same _ _ _ rfl
  | bcPeek n => simp only [stageBy, bcPeek]; split <;> first | trivial | exact Writes.of_same _ _ _ rfl
  | bcRead n => simp only [stageBy, bcRead]; split <;> first | trivial | exact Writes.of_same _ _ _ rfl
  | bcSkip d => simp only [stageBy, bcSkip]; split <;> first | trivial | exact Writes.of_same _ _ _ rfl
  | hdValidate => exact absurd rfl h1
  | hdDerive => exact absurd rfl h2
  | hdChantype => exact absurd rfl h3
  | frChecklen => simp only [stageBy, frChecklen]; split
                  · exact ⟨by simp, Writes.of_same _ _ _ rfl⟩
                  · exact Writes.of_same _ _ _ rfl
  | frSync =>
    simp only [stageBy, frSync, wrap]
    split
    · trivial
    · simp only [Res.andThen]
      split
      · exact ⟨by simp, Writes.of_same _ _ _ rfl⟩
      · exact Writes.of_same _ _ _ rfl
  | frChecksum => simp only [stageBy, frChecksum]; repeat' split
                  · trivial
                  · exact ⟨by simp, Writes.of_same _ _ _ rfl⟩
                  · exact Writes.of_same _ _ _ rfl
  | frDecrypt =>
    simp only [stageBy, frDecrypt, wrap]
    repeat' split
    · trivial
    · trivial
    · constructor <;> intros <;> first | rfl | exact ⟨rfl, rfl⟩ | (exact absurd rfl ‹_›)
  | frNoiselevel => exact Writes.of_same _ _ _ rfl
  | frScale c =>
    simp only [stageBy, frScale]; repeat' split
    all_goals first
      | (refine Writes.of_set _ s c _ _ rfl ?_ rfl; rfl)
      | (refine ⟨by simp, Writes.of_set _ s c _ _ rfl ?_ rfl⟩; rfl)
  | frIntensity c =>
    simp only [stageBy, frIntensity, intensityOld, intensityNew, highBandScales]; repeat' split
    all_goals first
      | (refine Writes.of_chan _ s _ c _ rfl rfl (fun _ => rfl) ⟨rfl, rfl⟩ (fun _ => rfl) (fun _ =>
              rfl) (fun h => absurd rfl (h c)))
      | (refine ⟨by simp, Writes.of_chan _ s _ c _ rfl rfl (fun _ => rfl) ⟨rfl, rfl⟩ (fun _ => rfl) (fun _ =>
              rfl) (fun h => absurd rfl (h c))⟩)
  | frResolution c =>
    simp only [stageBy, frResolution]
    refine Writes.of_set _ s c _ _ rfl ?_ rfl; rfl
  | frGain c =>
    simp only [stageBy, frGain]
    refine Writes.of_set _ s c _ _ rfl ?_ rfl; rfl
  | spDequant c =>
    simp only [stageBy, spDequant]; split
    · trivial
    · refine Writes.of_set _ s c _ _ rfl ?_ rfl; rfl
  | spNoise c =>
    simp only [stageBy, spNoise]; split
    · refine Writes.of_chan _ s _ c _ rfl rfl (fun h => absurd rfl (h c)) ⟨rfl, rfl⟩ (fun _ => rfl) (fun _ =>
          rfl) (fun _ => rfl)
    · exact Writes.of_same _ _ _ rfl
  | spHfr c =>
    simp only [stageBy, spHfr]; split
    · exact Writes.of_same _ _ _ rfl
    · refine Writes.of_set _ s c _ _ rfl ?_ rfl; rfl
  | spIstereo c sf =>
    have hs : stageBy Config.hw mv (.spIstereo c sf) s = spIstereo Config.hw c sf s := rfl
    rw [hs]
    by_cases hc : c.val + 1 < 16
    · have := spIstereo_sounds Config.hw c sf s hc
      obtain ⟨t, e, st, fl, wr⟩ := this
      have e0 := e
      rw [e]
      have hp : (∀ d, (t.chan d).prev = (s.chan d).prev ∧ (t.chan d).wave = (s.chan d).wave) ∧
          t.random = s.random := by
        rw [spIstereo] at e
        simp only [secondaryOf_some c hc] at e
        injection e with e
        rw [← e]
        refine ⟨fun d => ?_, rfl⟩
        have gen : ∀ (u : State) (x y : Channel), u.ch = (s.ch.set c x).set (⟨c.val + 1,
            hc⟩ : Fin 16) y → x.prev = (s.chan c).prev → x.wave = (s.chan c).wave →
                y.prev = (s.chan ⟨c.val + 1, hc⟩).prev → y.wave = (s.chan ⟨c.val + 1, hc⟩).wave →
            (u.chan d).prev = (s.chan d).prev ∧ (u.chan d).wave = (s.chan d).wave := by
          intro u x y hu a1 a2 a3 a4
          rw [State.chan_of_ch (s := s.setChan c x) _ y hu, State.chan_setChan, State.chan_setChan]
          split
          · rename_i hd; rw [hd]; exact ⟨a3, a4⟩
          · split
            · rename_i hd; rw [hd]; exact ⟨a1, a2⟩
            · exact ⟨rfl, rfl⟩
        exact gen _ _ _ rfl rfl rfl rfl rfl
      exact ⟨st.hdr, st.queue, fun _ => st.out, fun _ => fl.frm, fun _ => st.key, st.ctx, st.valid,
          st.athCurve, fun _ => st.cipherTable, fun d => ⟨st.type d, st.coded d⟩, fun _ _ => hp.2,
              fun _ _ d => (hp.1 d).1, fun _ d => (hp.1 d).2, fun _ => fl.intensity⟩
    · have : secondaryOf c = none := dif_neg hc
      rw [spIstereo]; simp only [this]; trivial
  | spMsstereo c =>
    have hs : stageBy Config.hw mv (.spMsstereo c) s = spMsstereo Config.hw c s := rfl
    rw [hs]
    by_cases hc : c.val + 1 < 16
    · have := spMsstereo_sounds Config.hw c s hc
      obtain ⟨t, e, st, fl, wr⟩ := this
      have e0 := e
      rw [e]
      have hp : (∀ d, (t.chan d).prev = (s.chan d).prev ∧ (t.chan d).wave = (s.chan d).wave) ∧
          t.random = s.random := by
        rw [spMsstereo] at e
        simp only [secondaryOf_some c hc] at e
        injection e with e
        rw [← e]
        refine ⟨fun d => ?_, rfl⟩
        have gen : ∀ (u : State) (x y : Channel), u.ch = (s.ch.set c x).set (⟨c.val + 1,
            hc⟩ : Fin 16) y → x.prev = (s.chan c).prev → x.wave = (s.chan c).wave →
                y.prev = (s.chan ⟨c.val + 1, hc⟩).prev → y.wave = (s.chan ⟨c.val + 1, hc⟩).wave →
            (u.chan d).prev = (s.chan d).prev ∧ (u.chan d).wave = (s.chan d).wave := by
          intro u x y hu a1 a2 a3 a4
          rw [State.chan_of_ch (s := s.setChan c x) _ y hu, State.chan_setChan, State.chan_setChan]
          split
          · rename_i hd; rw [hd]; exact ⟨a3, a4⟩
          · split
            · rename_i hd; rw [hd]; exact ⟨a1, a2⟩
            · exact ⟨rfl, rfl⟩
        exact gen _ _ _ rfl rfl rfl rfl rfl
      exact ⟨st.hdr, st.queue, fun _ => st.out, fun _ => fl.frm, fun _ => st.key, st.ctx, st.valid,
          st.athCurve, fun _ => st.cipherTable, fun d => ⟨st.type d, st.coded d⟩, fun _ _ => hp.2,
              fun _ _ d => (hp.1 d).1, fun _ d => (hp.1 d).2, fun _ => fl.intensity⟩
    · have : secondaryOf c = none := dif_neg hc
      rw [spMsstereo]; simp only [this]; trivial
  | imPass1 c =>
    simp only [stageBy, imPass1]
    refine Writes.of_set _ s c _ _ rfl ?_ rfl; rfl
  | imPass2 c =>
    simp only [stageBy, imPass2]
    refine Writes.of_set _ s c _ _ rfl ?_ rfl; rfl
  | imWindow c sf =>
    simp only [stageBy, imWindow]
    refine Writes.of_chan _ s _ c _ rfl rfl (fun _ => rfl) ⟨rfl, rfl⟩ (fun h => absurd rfl (h c sf)) (fun h =>
        absurd rfl (h c sf)) (fun _ => rfl)
  | _ => cases h0

/-- A frame's sequence holds stages of FrameDecoder and InverseTransform only. -/
theorem frameSequence_stage (u : State) (i : Instr) (hi : i ∈ frameSequence u) : (encode i).1 = .stage ∧
    i ≠ .hdValidate ∧ i ≠ .hdDerive ∧ i ≠ .hdChantype := by
  rw [frameSequence, List.mem_append, List.mem_append] at hi
  rcases hi with (hi | hi) | hi
  · simp only [frameChecks, List.mem_cons, List.not_mem_nil, or_false] at hi
    rcases hi with rfl | rfl | rfl | rfl | rfl <;> refine ⟨rfl, ?_, ?_, ?_⟩ <;> simp
  · obtain ⟨c, _, hc⟩ := List.mem_flatMap.1 hi
    simp only [unpackChannel, List.mem_cons, List.not_mem_nil, or_false] at hc
    rcases hc with rfl | rfl | rfl | rfl <;> refine ⟨rfl, ?_, ?_, ?_⟩ <;> simp
  · obtain ⟨sf, _, hi⟩ := List.mem_flatMap.1 hi
    simp only [subframe, List.mem_append, List.mem_map, List.mem_flatMap] at hi
    rcases hi with (((⟨c, hl, rfl⟩ | ⟨c, hl, rfl⟩) | ⟨c, hl, rfl⟩) | ⟨c, hl, hp⟩) | ⟨c, hl, hp⟩
    · refine ⟨rfl, ?_, ?_, ?_⟩ <;> simp
    · refine ⟨rfl, ?_, ?_, ?_⟩ <;> simp
    · refine ⟨rfl, ?_, ?_, ?_⟩ <;> simp
    · rw [stereoPair] at hp
      split at hp
      · rcases List.mem_cons.1 hp with rfl | hp
        · refine ⟨rfl, ?_, ?_, ?_⟩ <;> simp
        · split at hp
          · rw [List.mem_singleton] at hp; subst hp; refine ⟨rfl, ?_, ?_, ?_⟩ <;> simp
          · simp at hp
      · simp at hp
    · simp only [List.mem_cons, List.not_mem_nil, or_false] at hp
      rcases hp with rfl | rfl | rfl <;> refine ⟨rfl, ?_, ?_, ?_⟩ <;> simp

/-- A stage leaves `status` to the command; its error is none of a header. -/
def Res.KeepsStatus (s : State) : Res → Prop
  | .done t => t.status = s.status
  | .raised e _ => e ≠ .ok ∧ e ≠ .headerInvalid
  | .faulted _ => True
  | .refused _ => True

/-- No stage of a frame writes `status` unless it raises an error. -/
theorem frameSequence_keepsStatus (u : State) (i : Instr) (hi : i ∈ frameSequence u)
    (s : State) : Res.KeepsStatus s (stageMeaning Config.hw i s) := by
  rw [frameSequence, List.mem_append, List.mem_append] at hi
  rcases hi with (hi | hi) | hi
  · simp only [frameChecks, List.mem_cons, List.not_mem_nil, or_false] at hi
    rcases hi with rfl | rfl | rfl | rfl | rfl
    · simp only [stageMeaning, stageBy, frChecklen]; split
      · exact ⟨by simp, by simp⟩
      · rfl
    · simp only [stageMeaning, stageBy, frSync, wrap]; split
      · trivial
      · simp only [Res.andThen]; split
        · exact ⟨by simp, by simp⟩
        · rfl
    · simp only [stageMeaning, stageBy, frChecksum]; repeat' split
      all_goals trivial
    · simp only [stageMeaning, stageBy, frDecrypt, wrap]; repeat' split
      all_goals trivial
    · rfl
  · obtain ⟨c, _, hc⟩ := List.mem_flatMap.1 hi
    simp only [unpackChannel, List.mem_cons, List.not_mem_nil, or_false] at hc
    rcases hc with rfl | rfl | rfl | rfl
    · simp only [stageMeaning, stageBy, frScale]; repeat' split
      all_goals first | rfl | exact ⟨by simp, by simp⟩
    · simp only [stageMeaning, stageBy, frIntensity, intensityOld, intensityNew, highBandScales]; repeat' split
      all_goals first | rfl | exact ⟨by simp, by simp⟩
    · rfl
    · rfl
  · obtain ⟨sf, _, hi⟩ := List.mem_flatMap.1 hi
    have stereo : ∀ c, Res.KeepsStatus s (stageMeaning Config.hw (.spIstereo c sf) s) ∧
        Res.KeepsStatus s (stageMeaning Config.hw (.spMsstereo c) s) := by
      intro c
      simp only [stageMeaning, stageBy, spIstereo, spMsstereo]
      cases secondaryOf c with
      | none => exact ⟨trivial, trivial⟩
      | some d => exact ⟨rfl, rfl⟩
    simp only [subframe, List.mem_append, List.mem_map, List.mem_flatMap] at hi
    rcases hi with (((⟨c, hl, rfl⟩ | ⟨c, hl, rfl⟩) | ⟨c, hl, rfl⟩) | ⟨c, hl, hp⟩) | ⟨c, hl, hp⟩
    · simp only [stageMeaning, stageBy, spDequant]; split
      · trivial
      · rfl
    · simp only [stageMeaning, stageBy, spNoise]; split <;> rfl
    · simp only [stageMeaning, stageBy, spHfr]; split <;> rfl
    · rw [stereoPair] at hp
      split at hp
      · rcases List.mem_cons.1 hp with rfl | hp
        · exact (stereo c).1
        · split at hp
          · rw [List.mem_singleton] at hp; subst hp; exact (stereo c).2
          · simp at hp
      · simp at hp
    · simp only [List.mem_cons, List.not_mem_nil, or_false] at hp
      rcases hp with rfl | rfl | rfl <;> rfl

/-- A run takes its first step first. -/
theorem core_run_next (k : Nat) (s t : State) (h : step s = .next t) : Sys2Proof.core.run
    (k + 1) s = Sys2Proof.core.run k t := by
  have e := Host.Core.run.eq_2 Sys2Proof.core s k
  have h' : Sys2Proof.core.step s = .next t := h
  refine e.trans ?_
  rw [h']

end Sys2Proof.Machine
end

