-- ==== Sys2Proof/Laws/Float.lean ====
section
/-! SUPPORT. Laws of the binary32 operations: a rounded magnitude is the nearest representable one, ties to even. -/

namespace Sys2Proof.F32

/-- `rne m sh` is within half a unit of `m / 2^sh`, and even where it is exactly half a unit away. -/
theorem rne_spec (m sh : Nat) :
    2 * m ≤ 2 * (rne m sh * 2 ^ sh) + 2 ^ sh ∧ 2 * (rne m sh * 2 ^ sh) ≤ 2 * m + 2 ^ sh ∧
    (2 * m = 2 * (rne m sh * 2 ^ sh) + 2 ^ sh ∨ 2 * (rne m sh * 2 ^ sh) = 2 * m + 2 ^ sh → rne m sh % 2 = 0) := by
  have hS : 0 < 2 ^ sh := by positivity
  have hd : 2 ^ sh * (m / 2 ^ sh) + m % 2 ^ sh = m := Nat.div_add_mod m (2 ^ sh)
  have hr := Nat.mod_lt m hS
  rw [Nat.mul_comm] at hd
  simp only [rne, Nat.shiftRight_eq_div_pow]
  generalize m / 2 ^ sh = q at *
  generalize m % 2 ^ sh = r at *
  generalize 2 ^ sh = S at *
  split
  · rename_i h
    rw [Nat.add_mul, Nat.one_mul]
    refine ⟨by omega, by omega, fun h' => ?_⟩
    omega
  · rename_i h
    refine ⟨by omega, by omega, fun h' => ?_⟩
    omega

/-- The magnitude of the pattern `p`, sign clear, in units of 2^-149. -/
def natMag (p : Nat) : Nat :=
  if p / 2 ^ 23 = 0 then p % 2 ^ 23 else (p % 2 ^ 23 + 2 ^ 23) * 2 ^ (p / 2 ^ 23 - 1)

theorem mag_eq (x : F32) : x.mag = natMag (x.toNat % 2 ^ 31) := by
  have h1 : x.toNat % 2 ^ 31 / 2 ^ 23 = x.expo := by rw [expo]; omega
  have h2 : x.toNat % 2 ^ 31 % 2 ^ 23 = x.frac := by rw [frac]; omega
  rw [mag, natMag, h1, h2, Nat.shiftLeft_eq]

theorem natMag_pattern (e q : Nat) (h : e = 0 ∧ q ≤ 2 ^ 24 ∨ 2 ^ 23 ≤ q ∧ q ≤ 2 ^ 24) :
    natMag (e * 2 ^ 23 + q) = q * 2 ^ e := by
  rw [natMag]
  rcases Nat.lt_or_ge q (2 ^ 23) with hq | hq
  · have he : e = 0 := by omega
    subst he
    rw [if_pos (by omega)]; omega
  · rcases Nat.lt_or_ge q (2 ^ 24) with hq' | hq'
    · have h1 : (e * 2 ^ 23 + q) / 2 ^ 23 = e + 1 := by omega
      have h2 : (e * 2 ^ 23 + q) % 2 ^ 23 = q - 2 ^ 23 := by omega
      rw [h1, h2, if_neg (by omega), Nat.add_sub_cancel]
      congr 1; omega
    · have hq2 : q = 2 ^ 24 := by omega
      have h1 : (e * 2 ^ 23 + q) / 2 ^ 23 = e + 2 := by omega
      have h2 : (e * 2 ^ 23 + q) % 2 ^ 23 = 0 := by omega
      rw [h1, h2, if_neg (by omega), hq2, show e + 2 - 1 = e + 1 by omega, Nat.pow_succ]
      omega

/-- A representable magnitude is a multiple of the unit `2^e`, or lies below the numbers of that unit. -/
theorem natMag_cases (e t : Nat) : (∃ k, natMag t = k * 2 ^ e) ∨ natMag t < 2 ^ 23 * 2 ^ e := by
  rw [natMag]
  split
  · right
    have : t % 2 ^ 23 < 2 ^ 23 := Nat.mod_lt _ (by positivity)
    calc t % 2 ^ 23 < 2 ^ 23 := this
      _ ≤ 2 ^ 23 * 2 ^ e := Nat.le_mul_of_pos_right _ (by positivity)
  · rename_i h
    rcases Nat.lt_or_ge (t / 2 ^ 23 - 1) e with hk | hk
    · right
      have hf : t % 2 ^ 23 + 2 ^ 23 < 2 ^ 24 := by omega
      calc (t % 2 ^ 23 + 2 ^ 23) * 2 ^ (t / 2 ^ 23 - 1) < 2 ^ 24 * 2 ^ (t / 2 ^ 23 - 1) :=
            Nat.mul_lt_mul_of_pos_right hf (by positivity)
        _ = 2 ^ 23 * 2 ^ (t / 2 ^ 23 - 1 + 1) := by rw [Nat.pow_succ]; ring
        _ ≤ 2 ^ 23 * 2 ^ e := Nat.mul_le_mul_left _ (Nat.pow_le_pow_right (by omega) (by omega))
    · left
      refine ⟨(t % 2 ^ 23 + 2 ^ 23) * 2 ^ (t / 2 ^ 23 - 1 - e), ?_⟩
      rw [Nat.mul_assoc, ← Nat.pow_add]
      congr 2; omega

/-- The exponent and the significand of a rounded magnitude. -/
theorem roundMag_parts (u m : Nat) : ∃ e q : Nat, q = rne m (e + u) ∧ roundMag u m = min (e * 2 ^ 23 + q) 0x7F800000 ∧
    (e = 0 ∧ q ≤ 2 ^ 24 ∨ 2 ^ 23 ≤ q ∧ q ≤ 2 ^ 24) ∧ (e = 0 ∨ 2 ^ 23 * 2 ^ (e + u) ≤ m) := by
  refine ⟨max u (m.log2 - 23) - u, rne m (max u (m.log2 - 23)), ?_, ?_, ?_, ?_⟩
  · congr 1; omega
  · rw [roundMag, Nat.shiftLeft_eq]
  · have hlt : m < 2 ^ 24 * 2 ^ (max u (m.log2 - 23)) := by
      rw [← Nat.pow_add]
      exact Nat.lt_log2_self.trans_le (Nat.pow_le_pow_right (by omega) (by omega))
    obtain ⟨a, b, -⟩ := rne_spec m (max u (m.log2 - 23))
    have hS : 0 < 2 ^ max u (m.log2 - 23) := by positivity
    have hle : rne m (max u (m.log2 - 23)) ≤ 2 ^ 24 := by
      by_contra hc
      have : (2 ^ 24 + 1) * 2 ^ max u (m.log2 - 23) ≤ rne m (max u (m.log2 - 23)) * 2 ^ max u (m.log2 - 23) :=
        Nat.mul_le_mul_right _ (by omega)
      omega
    by_cases hu : m.log2 - 23 ≤ u
    · exact .inl ⟨by omega, hle⟩
    · right
      refine ⟨?_, hle⟩
      have hm : m ≠ 0 := by rintro rfl; simp at hu
      have hge : 2 ^ 23 * 2 ^ max u (m.log2 - 23) ≤ m := by
        rw [← Nat.pow_add]
        exact (Nat.pow_le_pow_right (by omega) (by omega)).trans (Nat.log2_self_le hm)
      by_contra hc
      have : rne m (max u (m.log2 - 23)) * 2 ^ max u (m.log2 - 23) ≤ (2 ^ 23 - 1) * 2 ^ max u (m.log2 - 23) :=
        Nat.mul_le_mul_right _ (by omega)
      omega
  · by_cases hu : m.log2 - 23 ≤ u
    · left; omega
    · right
      have hm : m ≠ 0 := by rintro rfl; simp at hu
      rw [← Nat.pow_add]
      exact (Nat.pow_le_pow_right (by omega) (by omega)).trans (Nat.log2_self_le hm)

/-- Below the overflow threshold the rounded magnitude is finite and nearest, ties to even. -/
theorem roundMag_nearest (u m : Nat) (h : m < (2 ^ 25 - 1) * 2 ^ 252 * 2 ^ u) :
    roundMag u m < 0x7F800000 ∧ ∀ t : Nat,
      ((natMag (roundMag u m) * 2 ^ u : Nat) - m : Int).natAbs ≤ ((natMag t * 2 ^ u : Nat) - m : Int).natAbs ∧
      (((natMag t * 2 ^ u : Nat) - m : Int).natAbs = ((natMag (roundMag u m) * 2 ^ u : Nat) - m : Int).natAbs →
        natMag t ≠ natMag (roundMag u m) → roundMag u m % 2 = 0) := by
  obtain ⟨e, q, hq, hp, hr, hlow⟩ := roundMag_parts u m
  obtain ⟨a, b, ev⟩ := rne_spec m (e + u)
  rw [← hq] at a b ev
  have hS : 0 < 2 ^ (e + u) := by positivity
  have hSu : 2 ^ (e + u) = 2 ^ e * 2 ^ u := Nat.pow_add ..
  have hfin : e * 2 ^ 23 + q < 0x7F800000 := by
    have hU : 0 < 2 ^ u := by positivity
    by_contra hc
    have he : 253 ≤ e := by omega
    rcases Nat.eq_or_lt_of_le he with he | he
    · subst he
      have hq : q = 2 ^ 24 := by omega
      rw [hSu, hq] at b
      have ev := ev
      have h1 : 2 ^ 253 * 2 ^ u = 2 * (2 ^ 252 * 2 ^ u) := by ring
      rw [Nat.mul_assoc] at h
      omega
    · rcases hlow with h0 | hlow
      · omega
      · have : 2 ^ 23 * 2 ^ (254 + u) ≤ m :=
          (Nat.mul_le_mul_left _ (Nat.pow_le_pow_right (by omega) (by omega))).trans hlow
        rw [Nat.pow_add] at this
        rw [Nat.mul_assoc] at h
        have h2 : 2 ^ 254 * 2 ^ u = 4 * (2 ^ 252 * 2 ^ u) := by ring
        omega
  have hp' : roundMag u m = e * 2 ^ 23 + q := by rw [hp]; omega
  refine ⟨by omega, fun t => ?_⟩
  rw [hp', natMag_pattern e q hr]
  have hM : q * 2 ^ e * 2 ^ u = q * 2 ^ (e + u) := by rw [hSu]; ring
  rw [hM]
  generalize hSg : 2 ^ (e + u) = S at *
  have multiple : ∀ k : Nat, ((q * S : Nat) - m : Int).natAbs ≤ ((k * S : Nat) - m : Int).natAbs ∧
      (((k * S : Nat) - m : Int).natAbs = ((q * S : Nat) - m : Int).natAbs → k ≠ q → q % 2 = 0) := by
    intro k
    rcases Nat.lt_trichotomy k q with hk | hk | hk
    · have h1 : (k + 1) * S ≤ q * S := Nat.mul_le_mul_right _ hk
      rw [Nat.add_mul, Nat.one_mul] at h1
      refine ⟨by omega, fun h2 _ => ev ?_⟩
      omega
    · subst hk; exact ⟨le_refl _, fun _ h => absurd rfl h⟩
    · have h1 : (q + 1) * S ≤ k * S := Nat.mul_le_mul_right _ hk
      rw [Nat.add_mul, Nat.one_mul] at h1
      refine ⟨by omega, fun h2 _ => ev ?_⟩
      omega
  rcases natMag_cases e t with ⟨k, hk⟩ | hlt
  · have hkS : natMag t * 2 ^ u = k * S := by rw [hk, ← hSg, Nat.pow_add]; ring
    rw [hkS]
    refine ⟨(multiple k).1, fun h1 h2 => ?_⟩
    have := (multiple k).2 h1 (by rintro rfl; exact h2 (by rw [hk]))
    omega
  · rcases hlow with h0 | hlow
    · subst h0
      have hkS : natMag t * 2 ^ u = natMag t * S := by rw [← hSg, Nat.zero_add]
      rw [hkS]
      refine ⟨(multiple _).1, fun h1 h2 => ?_⟩
      have := (multiple _).2 h1 (by simpa using h2)
      omega
    · have h1 : natMag t * 2 ^ u < 2 ^ 23 * S := by
        rw [← hSg, Nat.pow_add, ← Nat.mul_assoc]
        exact Nat.mul_lt_mul_of_pos_right hlt (by positivity)
      have h2 := (multiple (2 ^ 23)).1
      refine ⟨by omega, fun h4 _ => ?_⟩
      omega

/-- From the overflow threshold on the rounded magnitude is infinity's. -/
theorem roundMag_overflow (u m : Nat) (h : (2 ^ 25 - 1) * 2 ^ 252 * 2 ^ u ≤ m) : roundMag u m = 0x7F800000 := by
  obtain ⟨e, q, hq, hp, hr, hlow⟩ := roundMag_parts u m
  obtain ⟨a, b, ev⟩ := rne_spec m (e + u)
  rw [← hq] at a b ev
  have hSu : 2 ^ (e + u) = 2 ^ e * 2 ^ u := Nat.pow_add ..
  have hU : 0 < 2 ^ u := by positivity
  rw [hp]
  by_contra hc
  have hsmall : e * 2 ^ 23 + q < 0x7F800000 := by omega
  have he : e ≤ 253 := by omega
  have hqe : q * 2 ^ e ≤ (2 ^ 24 - 1) * 2 ^ 253 := by
    rcases Nat.eq_or_lt_of_le he with he | he
    · subst he; exact Nat.mul_le_mul_right _ (by omega)
    · calc q * 2 ^ e ≤ 2 ^ 24 * 2 ^ 252 :=
            Nat.mul_le_mul (by omega) (Nat.pow_le_pow_right (by omega) (by omega))
        _ ≤ (2 ^ 24 - 1) * 2 ^ 253 := by norm_num
  have he2 : 2 ^ e ≤ 2 ^ 253 := Nat.pow_le_pow_right (by omega) he
  have h1 : q * 2 ^ e * 2 ^ u ≤ (2 ^ 24 - 1) * 2 ^ 253 * 2 ^ u := Nat.mul_le_mul_right _ hqe
  have h2 : 2 ^ e * 2 ^ u ≤ 2 ^ 253 * 2 ^ u := Nat.mul_le_mul_right _ he2
  rw [hSu, ← Nat.mul_assoc q] at a b ev
  have h4 : 2 ^ 253 * 2 ^ u = 2 * (2 ^ 252 * 2 ^ u) := by ring
  rw [Nat.mul_assoc] at h
  rw [Nat.mul_assoc (2 ^ 24 - 1)] at h1
  have hev : q % 2 = 0 := ev (by omega)
  have hqq : q * 2 ^ e * 2 ^ u = (2 ^ 24 - 1) * 2 ^ 253 * 2 ^ u := by rw [Nat.mul_assoc (2 ^ 24 - 1)]; omega
  have hqq' : q * 2 ^ e = (2 ^ 24 - 1) * 2 ^ 253 := Nat.eq_of_mul_eq_mul_right hU hqq
  have hee : 2 ^ e * 2 ^ u = 2 ^ 253 * 2 ^ u := by omega
  have hee' : 2 ^ e = 2 ^ 253 := Nat.eq_of_mul_eq_mul_right hU hee
  rw [hee'] at hqq'
  have : q = 2 ^ 24 - 1 := Nat.eq_of_mul_eq_mul_right (by positivity) hqq'
  omega

/-! A sign and a rounded magnitude as a pattern. -/

theorem roundMag_le (u m : Nat) : roundMag u m ≤ 0x7F800000 := by
  rw [roundMag]; exact Nat.min_le_right _ _

theorem ofMag_toNat (s : Bool) (u m : Nat) : (ofMag s u m).toNat = roundMag u m + if s then 2 ^ 31 else 0 := by
  have := roundMag_le u m
  rw [ofMag, BitVec.toNat_ofNat, Nat.mod_eq_of_lt]
  split <;> omega

theorem sign_eq (x : F32) : x.sign = decide (2 ^ 31 ≤ x.toNat) := by
  have := x.isLt
  rw [sign, BitVec.getLsbD, Nat.testBit_eq_decide_div_mod_eq]
  congr 1
  rw [eq_iff_iff]; omega

theorem ofMag_sign (s : Bool) (u m : Nat) : (ofMag s u m).sign = s := by
  have := roundMag_le u m
  rw [sign_eq, ofMag_toNat]
  cases s
  · simp; omega
  · simp

theorem ofMag_low (s : Bool) (u m : Nat) : (ofMag s u m).toNat % 2 ^ 31 = roundMag u m := by
  have := roundMag_le u m
  rw [ofMag_toNat]
  split <;> omega

theorem ofMag_frac (s : Bool) (u m : Nat) : (ofMag s u m).frac % 2 = roundMag u m % 2 := by
  have := ofMag_low s u m
  rw [frac]; omega

theorem isFinite_iff (x : F32) : x.isFinite = true ↔ x.toNat % 2 ^ 31 < 0x7F800000 := by
  rw [isFinite, bne_iff_ne, expo]; omega

/-- The value of a pattern with its sign, in units of 2^-149. -/
theorem sval_cases (x : F32) : x.sval = natMag (x.toNat % 2 ^ 31) ∨ x.sval = -(natMag (x.toNat % 2 ^ 31) : Int) := by
  rw [sval, mag_eq]
  split
  · exact .inr rfl
  · exact .inl rfl

theorem ofMag_sval (s : Bool) (u m : Nat) :
    (ofMag s u m).sval = if s then -(natMag (roundMag u m) : Int) else natMag (roundMag u m) := by
  rw [sval, ofMag_sign, mag_eq, ofMag_low]

/-- Sign and magnitude: no pattern of either sign is nearer. -/
theorem nearest_signed (s : Bool) (u m t : Nat) (h : m < (2 ^ 25 - 1) * 2 ^ 252 * 2 ^ u) (y : Int)
    (hy : y = natMag t ∨ y = -(natMag t : Int)) :
    let v : Int := if s then -(m : Int) else m
    let r : Int := (ofMag s u m).sval
    (r * 2 ^ u - v).natAbs ≤ (y * 2 ^ u - v).natAbs ∧
      ((y * 2 ^ u - v).natAbs = (r * 2 ^ u - v).natAbs → y ≠ r → roundMag u m % 2 = 0) := by
  obtain ⟨n1, n2⟩ := (roundMag_nearest u m h).2 t
  have n3 := ((roundMag_nearest u m h).2 0).1
  rw [show natMag 0 = 0 from rfl, Nat.zero_mul] at n3
  have hU : 0 < 2 ^ u := by positivity
  have hmul : ∀ a b : Nat, a * 2 ^ u = b * 2 ^ u → a = b := fun a b e => Nat.eq_of_mul_eq_mul_right hU e
  have hne := hmul (natMag t) (natMag (roundMag u m))
  have hz := hmul (natMag t) 0
  have hz' := hmul (natMag (roundMag u m)) 0
  have e1 : ∀ a : Nat, (a : Int) * 2 ^ u = ((a * 2 ^ u : Nat) : Int) := fun a => by push_cast; rfl
  have e2 : ∀ a : Nat, (-(a : Int)) * 2 ^ u = -((a * 2 ^ u : Nat) : Int) := fun a => by push_cast; ring
  intro v r
  have hr : r = if s then -(natMag (roundMag u m) : Int) else natMag (roundMag u m) := ofMag_sval s u m
  clear_value r
  have n2' : ((natMag t * 2 ^ u : Nat) - m : Int).natAbs =
      ((natMag (roundMag u m) * 2 ^ u : Nat) - m : Int).natAbs → natMag t ≠ natMag (roundMag u m) →
      roundMag u m % 2 = 0 := n2
  clear n2 h
  generalize roundMag u m % 2 = par at *
  generalize natMag (roundMag u m) = P at *
  generalize natMag t = M at *
  have f1 := e1 P
  have f2 := e2 P
  have f3 := e1 M
  have f4 := e2 M
  clear e1 e2 hmul
  subst hr
  generalize P * 2 ^ u = P' at *
  generalize M * 2 ^ u = M' at *
  cases s
  · have hv : v = (m : Int) := rfl
    rw [hv]
    simp only [Bool.false_eq_true, if_false, f1]
    rcases hy with rfl | rfl
    · rw [f3]
      exact ⟨n1, fun a b => n2' a (by omega)⟩
    · rw [f4]
      refine ⟨by omega, fun a b => ?_⟩
      by_cases hPM : M = P
      · omega
      · exact n2' (by omega) hPM
  · have hv : v = -(m : Int) := rfl
    rw [hv]
    simp only [if_true, f2]
    rcases hy with rfl | rfl
    · rw [f3]
      refine ⟨by omega, fun a b => ?_⟩
      by_cases hPM : M = P
      · omega
      · exact n2' (by omega) hPM
    · rw [f4]
      exact ⟨by omega, fun a b => n2' (by omega) (by omega)⟩

/-- The overflow threshold in units. -/
theorem threshold (u m : Nat) :
    (m : ℚ) / 2 ^ (u + 149) < 2 ^ 128 - 2 ^ 103 ↔ m < (2 ^ 25 - 1) * 2 ^ 252 * 2 ^ u := by
  rw [div_lt_iff₀ (by positivity)]
  have : ((2 : ℚ) ^ 128 - 2 ^ 103) * 2 ^ (u + 149) = (((2 ^ 25 - 1) * 2 ^ 252 * 2 ^ u : Nat) : ℚ) := by
    rw [pow_add]
    push_cast
    ring
  rw [this]
  exact Nat.cast_lt

/-- A signed magnitude, rounded once. -/
theorem isRounded_ofMag (s : Bool) (u m : Nat) :
    Machine.IsRounded (ofMag s u m) (((if s then -(m : Int) else m : Int) : ℚ) / 2 ^ (u + 149)) := by
  have hpow : (0 : ℚ) < 2 ^ (u + 149) := by positivity
  have habs : |(((if s then -(m : Int) else m : Int) : ℚ) / 2 ^ (u + 149))| = (m : ℚ) / 2 ^ (u + 149) := by
    have : |((if s then -(m : Int) else m : Int) : ℚ)| = m := by cases s <;> simp
    rw [abs_div, abs_of_pos hpow, this]
  have hdiff : ∀ a b : Int, |(a : ℚ) / 2 ^ 149 - (b : ℚ) / 2 ^ (u + 149)| =
      ((a * 2 ^ u - b : Int).natAbs : ℚ) / 2 ^ (u + 149) := fun a b => by
    have : (a : ℚ) / 2 ^ 149 - (b : ℚ) / 2 ^ (u + 149) = ((a * 2 ^ u - b : Int) : ℚ) / 2 ^ (u + 149) := by
      rw [pow_add]; push_cast; field_simp
    rw [this, abs_div, abs_of_pos hpow, Nat.cast_natAbs, Int.cast_abs]
  rw [Machine.IsRounded, habs]
  by_cases h : m < (2 ^ 25 - 1) * 2 ^ 252 * 2 ^ u
  · rw [if_pos ((threshold u m).2 h)]
    refine ⟨(isFinite_iff _).2 (by rw [ofMag_low]; exact (roundMag_nearest u m h).1), fun y _ => ?_⟩
    obtain ⟨k1, k2⟩ := nearest_signed s u m (y.toNat % 2 ^ 31) h y.sval (sval_cases y)
    rw [Machine.floatValue, Machine.floatValue, hdiff, hdiff]
    refine ⟨div_le_div_of_nonneg_right (by exact_mod_cast k1) hpow.le, fun a b => ?_⟩
    rw [div_left_inj' hpow.ne'] at a
    rw [ofMag_frac]
    exact k2 (by exact_mod_cast a) fun e => b (by rw [e])
  · rw [if_neg (fun h' => h ((threshold u m).1 h'))]
    have hm : 0 < m := by
      have : 0 < (2 ^ 25 - 1) * 2 ^ 252 * 2 ^ u := by positivity
      omega
    have hm' : (0 : ℚ) < m := by exact_mod_cast hm
    have ho := roundMag_overflow u m (by omega)
    rw [ofMag, ho]
    cases s
    · have : ¬ (((if false = true then -(m : Int) else m : Int) : ℚ) / 2 ^ (u + 149) < 0) := by
        simp only [Bool.false_eq_true, if_false, Int.cast_natCast, not_lt]; positivity
      rw [decide_eq_false this]; rfl
    · have : (((if true = true then -(m : Int) else m : Int) : ℚ) / 2 ^ (u + 149) < 0) := by
        simp only [if_true, Int.cast_neg, Int.cast_natCast]
        exact div_neg_of_neg_of_pos (by linarith) hpow
      rw [decide_eq_true this]; rfl

end Sys2Proof.F32
end

