-- ==== Sys2Proof/Tests/Slice0.lean ====
section
/-! SUPPORT. Tests and witnesses. The expected values come from spec/: the tables of 30_encoding.md, the worked examples
of the rules, and 95_test_vectors.md, named in each comment. A `witness_` theorem shows states and operands that meet
the hypotheses of the statement of that name. -/

namespace Sys2Proof.Machine

set_option Elab.async false

/-! Helpers: one field of the next state, a state over a buffer. -/

/-- A field of the next state, none when the machine stops. -/
def after {α : Type} (r : Host.Outcome State Fault Refusal) (f : State → α) : Option α :=
  match r with
  | .next t => some (f t)
  | .fault _ => none
  | .refused _ => none

/-- The refusal, none otherwise. -/
def refusalOf (r : Host.Outcome State Fault Refusal) : Option Refusal :=
  match r with
  | .refused x => some x
  | _ => none

/-- A field of the state a stage is done with. -/
def doneWith {α : Type} (r : Res) (f : State → α) : Option α :=
  match r with
  | .done t => some (f t)
  | _ => none

/-- The members of 95_test_vectors.md's configuration TC1 the tests below read. -/
def tc1 : Config := { Config.hw with
  tMaxBits := fun r => [0, 2, 3, 3, 4, 4, 4, 4, 5, 6, 7, 8, 9, 10, 11, 12].getD r 0
  tReadBits := fun _ c => if c < 2 then 2 else 3
  tReadVal := fun _ c => [0, 0, 0x3F800000, 0xBF800000, 0x40000000, 0xC0000000].getD c 0
  tScaleConv := fun _ => 0x3F000000
  tIntensity := fun _ => 0x3F000000
  tSin := fun _ _ => 0
  tCos := fun _ _ => 0x3F800000
  rand15 := fun x => x.setWidth 15 }

/-- An outcome by a field of its state. -/
theorem after_some {α : Type} {r : Host.Outcome State Fault Refusal} {f : State → α} {x : α} (h : after r f = some x) :
    ∃ t, r = .next t ∧ f t = x := by
  cases r with
  | next t => exact ⟨t, rfl, by simpa [after] using h⟩
  | fault e => simp [after] at h
  | refused e => simp [after] at h

/-- HDR holds `l`, wrapped as a whole, the cursor at bit `p`, the counter allowing all of it. -/
def overHdr (l : List Byte) (p : Nat) : State :=
  { State.reset with
    hdr := Buffer.ofBytes l
    cur := { buf := some .hdr, sizeBits := 8 * l.length, pos := p }
    remaining := l.length
    hdrLen := BitVec.ofNat 32 l.length }

/-- FRM holds `l`, wrapped as a whole, the cursor at bit 0. -/
def overFrm (l : List Byte) : State :=
  { State.reset with
    frm := Buffer.ofBytes l
    cur := { buf := some .frm, sizeBits := 8 * l.length, pos := 0 }
    frmLen := BitVec.ofNat 32 l.length }

/-- Channel `c` changed. -/
def State.withChan (s : State) (c : Fin 16) (f : Channel → Channel) : State := { s with ch := s.ch.set c (f (s.chan c)) }

/-- A register file whose first entries are the numbers listed. -/
def file (w n : Nat) (l : List Nat) : Vector (BitVec w) n := tabulate n fun i => BitVec.ofNat w (l.getD i 0)

/-- The first entries of a register file, as numbers. -/
def heads {w n : Nat} (k : Nat) (v : Vector (BitVec w) n) : List Nat := (List.range k).map fun i => (entry v i).toNat

/-! Well-formedness: each check refuses a term. -/

theorem test_wf_bcWrap : (Instr.bcWrap .hdr 8 5).wellFormed = false := by decide
theorem test_wf_bcPeek : (Instr.bcPeek 33).wellFormed = false := by decide
theorem test_wf_bcRead : (Instr.bcRead 33).wellFormed = false := by decide
theorem test_wf_spIstereo : (Instr.spIstereo 15 0).wellFormed = false := by decide
theorem test_wf_spMsstereo : (Instr.spMsstereo 15).wellFormed = false := by decide
theorem test_wf_decode : decode .stage [0x02, 33] = .error .badOperand := by decide
theorem test_wf_limits : (Instr.bcPeek 32).wellFormed = true ∧ (Instr.bcWrap .frm 0xFFFF 16).wellFormed = true ∧
    (Instr.spIstereo 14 7).wellFormed = true := by decide

/-! Decoding: the words of rules R91 (commands), R72 (tags), R93 (stage ids), every row once. -/

theorem test_decode_commands :
    decode .command [1, 0, 0, 0, 96] = .ok (.openStream 96) ∧
    decode .command [2, 0, 0, 0, 0, 0, 0, 0x30, 0x39] = .ok (.setKey 0x3039) ∧
    decode .command [3, 0, 0, 2, 0] = .ok (.decodeFrame 512) ∧
    decode .command [4] = .ok .readSamples16 ∧ decode .command [5] = .ok .resetStream ∧
    decode .command [0] = .error .reservedCommand ∧ decode .command [6] = .error .reservedCommand ∧
    decode .command [7] = .error .reservedCommand := by decide

theorem test_decode_cursor :
    decode .stage [0x01, 1, 2, 0, 16] = .ok (.bcWrap .frm 512 16) ∧ decode .stage [0x02, 32] = .ok (.bcPeek 32) ∧
    decode .stage [0x03, 9] = .ok (.bcRead 9) ∧ decode .stage [0x04, 0xFF, 0xFF, 0xFF, 0xFF] = .ok (.bcSkip (-1)) := by
  decide

theorem test_decode_tags :
    decode .chunk [0x48, 0x43, 0x41, 0x00] = .ok .hdProlog ∧ decode .chunk [0x66, 0x6D, 0x74, 0x00] = .ok .hdFmt ∧
    decode .chunk [0x63, 0x6F, 0x6D, 0x70] = .ok .hdComp ∧ decode .chunk [0x64, 0x65, 0x63, 0x00] = .ok .hdDec ∧
    decode .chunk [0x76, 0x62, 0x72, 0x00] = .ok .hdVbr ∧ decode .chunk [0x61, 0x74, 0x68, 0x00] = .ok .hdAth ∧
    decode .chunk [0x6C, 0x6F, 0x6F, 0x70] = .ok .hdLoop ∧ decode .chunk [0x63, 0x69, 0x70, 0x68] = .ok .hdCiph ∧
    decode .chunk [0x72, 0x76, 0x61, 0x00] = .ok .hdRva ∧ decode .chunk [0x63, 0x6F, 0x6D, 0x6D] = .ok .hdComm ∧
    decode .chunk [0x70, 0x61, 0x64, 0x00] = .ok .hdPad ∧ decode .chunk [0xC8, 0xC3, 0xC1, 0x80] = .ok .hdProlog ∧
    decode .chunk [0x48, 0x43, 0x41, 0x01] = .error .unknownTag := by decide

theorem test_decode_header_stages :
    decode .stage [0x10] = .ok .hdProlog ∧ decode .stage [0x11] = .ok .hdFmt ∧ decode .stage [0x12] = .ok .hdComp ∧
    decode .stage [0x13] = .ok .hdDec ∧ decode .stage [0x14] = .ok .hdVbr ∧ decode .stage [0x15] = .ok .hdAth ∧
    decode .stage [0x16] = .ok .hdLoop ∧ decode .stage [0x17] = .ok .hdCiph ∧ decode .stage [0x18] = .ok .hdRva ∧
    decode .stage [0x19] = .ok .hdComm ∧ decode .stage [0x1A] = .ok .hdPad ∧ decode .stage [0x1B] = .ok .hdValidate ∧
    decode .stage [0x1C] = .ok .hdDerive ∧ decode .stage [0x1D] = .ok .hdChantype ∧
    decode .stage [0x1E] = .error .unknownStage := by decide

theorem test_decode_frame_stages :
    decode .stage [0x20] = .ok .frChecklen ∧ decode .stage [0x21] = .ok .frSync ∧
    decode .stage [0x22] = .ok .frChecksum ∧ decode .stage [0x23] = .ok .frDecrypt ∧
    decode .stage [0x24] = .ok .frNoiselevel ∧ decode .stage [0x25, 15] = .ok (.frScale 15) ∧
    decode .stage [0x26, 1] = .ok (.frIntensity 1) ∧ decode .stage [0x27, 2] = .ok (.frResolution 2) ∧
    decode .stage [0x28, 3] = .ok (.frGain 3) ∧ decode .stage [0x25, 16] = .error .badOperand := by decide

theorem test_decode_spectral_stages :
    decode .stage [0x30, 4] = .ok (.spDequant 4) ∧ decode .stage [0x31, 5] = .ok (.spNoise 5) ∧
    decode .stage [0x32, 6] = .ok (.spHfr 6) ∧ decode .stage [0x33, 14, 7] = .ok (.spIstereo 14 7) ∧
    decode .stage [0x34, 2] = .ok (.spMsstereo 2) ∧ decode .stage [0x40, 7] = .ok (.imPass1 7) ∧
    decode .stage [0x41, 8] = .ok (.imPass2 8) ∧ decode .stage [0x42, 3, 7] = .ok (.imWindow 3 7) ∧
    decode .stage [0x33, 15, 0] = .error .badOperand ∧ decode .stage [0x42, 0, 8] = .error .badOperand := by decide

theorem test_decode_table_words :
    decodeTableWord 8 5 = some .resetStream ∧ decodeTableWord 8 0x1D = some .hdChantype ∧
    decodeTableWord 32 0x72766100 = some .hdRva ∧ decodeTableWord 8 6 = none := by decide

/-! BitCursor: the buffer `A5 C3 F0 0F 81` of 95_test_vectors.md. -/

/-- V10's buffer, the cursor at `p`. -/
def v10 (p : Nat) : State := overHdr [0xA5, 0xC3, 0xF0, 0x0F, 0x81] p

/-- V10, rows (4, 8), (6, 9), (0, 32), (7, 25). -/
theorem test_peek :
    after (exec (.bcPeek 8) (v10 4)) (·.result) = some 0x5C ∧ after (exec (.bcPeek 9) (v10 6)) (·.result) = some 0xE1 ∧
    after (exec (.bcPeek 32) (v10 0)) (·.result) = some 0xA5C3F00F ∧
    after (exec (.bcPeek 25) (v10 7)) (·.result) = some 0x1C3F00F := by decide +kernel

/-- V11: 36, 4 gives 1; 37, 4 and 9, 32 do not fit. -/
theorem test_peek_edge :
    after (exec (.bcPeek 4) (v10 36)) (·.result) = some 1 ∧ after (exec (.bcPeek 4) (v10 37)) (·.result) = some 0 ∧
    after (exec (.bcPeek 32) (v10 9)) (·.result) = some 0 := by decide +kernel

/-- V13: read(8) at 30 gives 0xE0 at 38, read(4) there gives 0 at 42. -/
theorem test_read :
    after (exec (.bcRead 8) (v10 30)) (fun t => (t.result, t.cur.pos)) = some (0xE0, 38) ∧
    after (exec (.bcRead 4) (v10 38)) (fun t => (t.result, t.cur.pos)) = some (0, 42) := by decide +kernel

/-- V14: skip(-1) from 3. -/
theorem test_skip : after (exec (.bcSkip (-1)) (v10 3)) (·.cur.pos) = some 2 := by decide +kernel

/-- V16: BC_WRAP(buffer, 5, 16). -/
theorem test_wrap : after (exec (.bcWrap .hdr 5 16) (v10 0)) (fun t => (t.cur.sizeBits, t.cur.pos)) = some (40, 16) := by
  decide +kernel

/-- R35, D6: the register ends at 2^31 - 1; a move beyond leaves the position free (log entry 17), every other effect
happens: R104's result, R166's level from a first field that does not fit and a boundary below 2^7. -/
theorem test_cursor_end :
    after (exec (.bcRead 1) (v10 (2 ^ 31 - 2))) (·.cur.pos) = some (2 ^ 31 - 1) ∧
    after (exec (.bcRead 1) (v10 (2 ^ 31 - 1))) (fun t => (t.stage, t.result)) = some (0x03, 0) ∧
    after (exec (.bcSkip 3) (v10 (2 ^ 31 - 3))) (fun t => (t.stage, t.cur.sizeBits)) = some (0x04, 40) ∧
    after (exec .frNoiselevel (v10 (2 ^ 31 - 16))) (fun t => (t.stage, t.packedNoiseLevel)) = some (0x24, 0) := by
  decide +kernel

/-! Header chunks: the bytes of V40 (program P2), V43 and V45. -/

/-- R121's example. -/
theorem test_hdProlog :
    after (exec .hdProlog (overHdr [0xC8, 0xC3, 0xC1, 0x00, 0x02, 0x00, 0x00, 0x60] 0))
      (fun t => (t.ctx.version, t.ctx.headerSize, t.cur.pos)) = some (0x0200, 96, 64) := by decide +kernel

/-- V41: byte 3 = 01. -/
theorem test_hdProlog_tag :
    after (exec .hdProlog (overHdr [0x48, 0x43, 0x41, 0x01, 0x02, 0x00, 0x00, 0x60] 0)) (·.status) =
      some .headerInvalid := by decide +kernel

/-- R124's example. -/
theorem test_hdFmt :
    after (exec .hdFmt (overHdr [0x66, 0x6D, 0x74, 0, 2, 0, 0xAC, 0x44, 0, 0, 4, 0, 0, 0x80, 0, 0xE2] 0))
      (fun t => (t.ctx.channelCount, t.ctx.sampleRate, t.ctx.frameCount, t.ctx.encoderDelay, t.ctx.encoderPadding,
        t.remaining)) = some (2, 44100, 1024, 128, 226, 0) := by decide +kernel

/-- P2's comp chunk. -/
theorem test_hdComp :
    after (exec .hdComp (overHdr [0x63, 0x6F, 0x6D, 0x70, 2, 0, 1, 15, 1, 1, 0x80, 0x40, 0x40, 0, 0, 0] 0))
      (fun t => (t.ctx.frameSize, t.ctx.minResolution, t.ctx.maxResolution, t.ctx.totalBandCount, t.ctx.baseBandCount,
        t.ctx.stereoBandCount)) = some (512, 1, 15, 128, 64, 64) := by decide +kernel

/-- V43's dec chunk: total 128, base 64, stereo 64, track count 1, configuration 0. -/
theorem test_hdDec :
    after (exec .hdDec (overHdr [0x64, 0x65, 0x63, 0, 2, 0, 1, 15, 0x7F, 0x3F, 0x10, 1] 0))
      (fun t => (t.ctx.totalBandCount, t.ctx.baseBandCount, t.ctx.stereoBandCount, t.ctx.trackCount,
        t.ctx.channelConfig)) = some (128, 64, 64, 1, 0) := by decide +kernel

/-- V43 with the last byte 0: base 128, stereo 0. -/
theorem test_hdDec_discrete :
    after (exec .hdDec (overHdr [0x64, 0x65, 0x63, 0, 2, 0, 1, 15, 0x7F, 0x3F, 0x10, 0] 0))
      (fun t => (t.ctx.baseBandCount, t.ctx.stereoBandCount)) = some (128, 0) := by decide +kernel

/-- V44: a vbr chunk over a frame size that is not 0. -/
theorem test_hdVbr :
    after (exec .hdVbr { overHdr [0x76, 0x62, 0x72, 0, 1, 0, 0, 0] 0 with ctx := { Ctx.reset with frameSize := 512 } })
      (·.status) = some .headerInvalid := by decide +kernel

/-- R130: no ath chunk, version 0x0103: 1 (V43). -/
theorem test_hdAth :
    after (exec .hdAth { overHdr [0, 0, 0, 0, 0, 0] 0 with ctx := { Ctx.reset with version := 0x0103 } })
      (·.ctx.athType) = some 1 := by decide +kernel

/-- V45's loop chunk: 2 to 15, delay 16, padding 32, 16 frames. -/
theorem test_hdLoop :
    after (exec .hdLoop { overHdr [0x6C, 0x6F, 0x6F, 0x70, 0, 0, 0, 2, 0, 0, 0, 15, 0, 0x10, 0, 0x20] 0 with
        ctx := { Ctx.reset with frameCount := 16 } })
      (fun t => (t.ctx.loopStartFrame, t.ctx.loopEndFrame, t.ctx.loopStartDelay, t.ctx.loopEndPadding,
        t.ctx.loopEnabled)) = some (2, 15, 16, 32, true) := by decide +kernel

/-- V45: loopEndFrame equal to the frame count. -/
theorem test_hdLoop_end :
    after (exec .hdLoop { overHdr [0x6C, 0x6F, 0x6F, 0x70, 0, 0, 0, 2, 0, 0, 0, 16, 0, 0x10, 0, 0x20] 0 with
        ctx := { Ctx.reset with frameCount := 16 } }) (·.status) = some .headerInvalid := by decide +kernel

/-- V45: cipher type 56; 2 is HeaderInvalid. -/
theorem test_hdCiph :
    after (exec .hdCiph (overHdr [0x63, 0x69, 0x70, 0x68, 0, 0x38] 0)) (·.ctx.cipherType) = some 56 ∧
    after (exec .hdCiph (overHdr [0x63, 0x69, 0x70, 0x68, 0, 2] 0)) (·.status) = some .headerInvalid := by
  decide +kernel

/-- V45: the volume 0x3F000000. -/
theorem test_hdRva :
    after (exec .hdRva (overHdr [0x72, 0x76, 0x61, 0, 0x3F, 0, 0, 0] 0)) (·.ctx.rvaVolume) = some 0x3F000000 := by
  decide +kernel

/-- V45: the comment "Hi". -/
theorem test_hdComm :
    after (exec .hdComm (overHdr [0x63, 0x6F, 0x6D, 0x6D, 2, 0x48, 0x69] 0))
      (fun t => (t.ctx.commentLength, t.ctx.comment[0], t.ctx.comment[1], t.remaining)) = some (2, 0x48, 0x69, 0) := by
  decide +kernel

/-- V45: a length of 200 beyond the counter. -/
theorem test_hdComm_long :
    after (exec .hdComm (overHdr [0x63, 0x6F, 0x6D, 0x6D, 200] 0)) (·.status) = some .headerInvalid := by decide +kernel

/-- R135: pad moves nothing. -/
theorem test_hdPad : after (exec .hdPad (overHdr [0x70, 0x61, 0x64, 0] 0)) (fun t => (t.cur.pos, t.remaining)) = some (0, 4) := by
  decide +kernel

/-- P2's registers. -/
def ctxP2 : Ctx := { Ctx.reset with
  version := 0x0200, headerSize := 96, channelCount := 2, sampleRate := 44100, frameCount := 1024, encoderDelay := 128
  encoderPadding := 226, frameSize := 512, minResolution := 1, maxResolution := 15, trackCount := 1
  channelConfig := 1, totalBandCount := 128, baseBandCount := 64, stereoBandCount := 64, rvaVolume := 0x3F800000 }

/-- V42: a coded track count of 0 becomes 1. -/
theorem test_hdValidate :
    after (exec .hdValidate { State.reset with ctx := { ctxP2 with trackCount := 0 } }) (fun t => (t.status, t.ctx.trackCount)) =
      some (.ok, 1) := by decide +kernel

/-- V42: a base of 65 beside 64 stereo bands. -/
theorem test_hdValidate_bands :
    after (exec .hdValidate { State.reset with ctx := { ctxP2 with baseBandCount := 65 } }) (·.status) =
      some .headerInvalid := by decide +kernel

/-- V47: total 128, base 64, stereo 24, 8 bands per group: 5 groups. -/
theorem test_hdDerive :
    after (exec .hdDerive { State.reset with ctx := { ctxP2 with stereoBandCount := 24, bandsPerHfrGroup := 8 } })
      (fun t => (t.ctx.hfrGroupCount, t.random)) = some (5, 1) := by decide +kernel

/-- V42: msStereo 1. -/
theorem test_hdDerive_msStereo :
    after (exec .hdDerive { State.reset with ctx := { ctxP2 with msStereo := 1 } }) (·.status) = some .headerInvalid := by
  decide +kernel

/-- V46: six channels of one track: P S D D P S (codes 1 2 0 0 1 2). -/
theorem test_hdChantype :
    after (exec .hdChantype { State.reset with ctx := { ctxP2 with channelCount := 6 } })
      (fun t => (t.ch.toList.take 6).map fun k => (k.type.code.toNat, k.codedCount.toNat)) =
      some [(1, 128), (2, 64), (0, 128), (0, 128), (1, 128), (2, 64)] := by decide +kernel

/-- V46: two tracks and five channels: P S P S D. -/
theorem test_hdChantype_tracks :
    after (exec .hdChantype { State.reset with ctx := { ctxP2 with channelCount := 5, trackCount := 2 } })
      (fun t => (t.ch.toList.take 5).map fun k => k.type.code.toNat) = some [1, 2, 1, 2, 0] := by decide +kernel

/-! Frame checks and unpacking. -/

/-- R161's example: frame size 512, 511 bytes. -/
theorem test_frChecklen :
    after (exec .frChecklen { State.reset with frmLen := 511, ctx := ctxP2 }) (·.status) = some .shortBuffer := by
  decide +kernel

/-- V70: no sync word. -/
theorem test_frSync :
    after (exec .frSync { overFrm [0, 0, 0, 0, 0, 0, 0, 0] with ctx := { Ctx.reset with frameSize := 8 } }) (·.status) =
      some .syncError ∧
    after (exec .frSync { overFrm [0xFF, 0xFF, 0, 0, 0, 0, 0, 0] with ctx := { Ctx.reset with frameSize := 8 } })
      (fun t => (t.status, t.cur.pos)) = some (.ok, 16) := by decide +kernel

/-- R165: two bytes by a table that adds 1, the third behind the frame stays; the cursor is at bit 16. -/
theorem test_frDecrypt :
    after (exec .frDecrypt { overFrm [7, 0xFE, 9] with
        ctx := { Ctx.reset with frameSize := 2 }, cipherTable := tabulate 256 fun b => BitVec.ofNat 8 (b + 1) })
      (fun t => (t.frm.bytes 3, t.cur.pos)) = some ([8, 0xFF, 9], 16) := by decide +kernel

/-- V20: `0C 80` gives 6400, `00 7F` gives -127. -/
theorem test_frNoiselevel :
    after (exec .frNoiselevel (overFrm [0x0C, 0x80])) (·.packedNoiseLevel) = some 6400 ∧
    after (exec .frNoiselevel (overFrm [0x00, 0x7F])) (·.packedNoiseLevel) = some (-127) := by decide +kernel

/-- V23: the scale block of P6's channel 0, eight coded coefficients, 36 bits. -/
theorem test_frScale :
    after (exec (.frScale 0) ((overFrm [0x6A, 0x3A, 0x3D, 0x09, 0xDA]).withChan 0 fun k => { k with codedCount := 8 }))
      (fun t => (heads 8 (t.chan 0).scale, t.cur.pos)) = some ([20, 20, 22, 19, 40, 39, 39, 41], 36) := by
  decide +kernel

/-- V24: literal 62, delta 5. -/
theorem test_frScale_range :
    after (exec (.frScale 0) ((overFrm [0x7F, 0x50]).withChan 0 fun k => { k with codedCount := 8 })) (·.status) =
      some .invalidScaleFactor := by decide +kernel

/-- V26: `0111 01 01 10 00 11 1100 01 01 00`, version above 0x0200. -/
theorem test_frIntensity :
    after (exec (.frIntensity 1) (({ overFrm [0x75, 0x8F, 0x14] with ctx := { Ctx.reset with version := 0x0300 } }).withChan 1
        fun k => { k with type := .secondary }))
      (fun t => (heads 8 (t.chan 1).intensity, t.cur.pos)) = some ([7, 7, 8, 7, 12, 12, 12, 11], 24) := by
  decide +kernel

/-- V27: a flag of 15 under version 0x0200 is stored and not consumed. -/
theorem test_frIntensity_kept :
    after (exec (.frIntensity 1) (({ overFrm [0xF0] with ctx := { Ctx.reset with version := 0x0200 } }).withChan 1
        fun k => { k with type := .secondary, intensity := file 4 8 [1, 2, 3, 4, 5, 6, 7, 8] }))
      (fun t => (heads 8 (t.chan 1).intensity, t.cur.pos)) = some ([15, 2, 3, 4, 5, 6, 7, 8], 0) := by decide +kernel

/-- R176's example: packed level 6400, scale 20 0 24 30: resolutions 15 0 15 15, valid indices from the end. -/
theorem test_frResolution :
    after (exec (.frResolution 0) (({ State.reset with
          packedNoiseLevel := 6400, ctx := { Ctx.reset with maxResolution := 15 } }).withChan 0
        fun k => { k with codedCount := 4, scale := file 6 128 [20, 0, 24, 30] }))
      (fun t => (heads 5 (t.chan 0).resolution, (t.chan 0).noiseCount.toNat, (t.chan 0).validCount.toNat,
        (t.chan 0).noises[127].toNat, (t.chan 0).noises[126].toNat, (t.chan 0).noises[125].toNat)) =
      some ([15, 0, 15, 15, 0], 0, 3, 0, 2, 3) := by decide +kernel

/-- R176: level -127 at index 0, scale 1: the shift is a floor, p = -2, resolution 15 (V29). -/
theorem test_frResolution_floor :
    after (exec (.frResolution 0) (({ State.reset with
          packedNoiseLevel := -127, ctx := { Ctx.reset with maxResolution := 15 } }).withChan 0
        fun k => { k with codedCount := 1, scale := file 6 128 [1] }))
      (fun t => (t.chan 0).resolution[0].toNat) = some 15 := by decide +kernel

/-- R178: entries behind the coded ones are not written. -/
theorem test_frGain :
    after (exec (.frGain 0) ((State.reset).withChan 0 fun k => { k with codedCount := 1, gain := file 32 128 [5, 6] }))
      (fun t => (t.chan 0).gain[1].toNat) = some 6 := by decide +kernel

/-! Spectra. -/

/-- R191: coefficients behind the coded ones are +0.0. -/
theorem test_spDequant :
    after (exec (.spDequant 0) ((State.reset).withChan 0 fun k => { k with spectra := file 32 128 [5, 6] }))
      (fun t => (heads 2 (t.chan 0).spectra, t.cur.pos)) = some ([0, 0], 0) := by decide +kernel

/-- V32: resolution 14, code 201: -100 and 11 bits; resolution 13, code 1: +0.0 and nine bits. -/
theorem test_spDequant_codes :
    (dequantOne tc1 (fun _ _ => 201) .plain 0 14 0).toOption = some (0xC2C80000, 11) ∧
    (dequantOne tc1 (fun _ _ => 1) .plain 0 13 0).toOption = some (0, 9) ∧
    (dequantOne tc1 (fun _ _ => 5) .plain 0 3 0).toOption = some (0xC0000000, 3) := by decide +kernel

/-- V31, candidate (a): five valid coefficients, generator 0x0029E2C0 and 0xC823F683: 126 and 127. -/
theorem test_donor : donorIndex tc1 0x0029E2C0 5 = 126 ∧ donorIndex tc1 0xC823F683 5 = 127 := by decide +kernel

/-- V30: two noise entries advance the seed 1 to 0xC823F683. -/
theorem test_spNoise :
    after (exec (.spNoise 0) ((State.reset).withChan 0 fun k => { k with noiseCount := 2, validCount := 5 }))
      (·.random) = some 0xC823F683 := by decide +kernel

/-- V33: a stream with minimum resolution 1 never runs the stage. -/
theorem test_spNoise_off :
    after (exec (.spNoise 0) (({ State.reset with ctx := { Ctx.reset with minResolution := 1 } }).withChan 0
        fun k => { k with noiseCount := 2, validCount := 5 })) (·.random) = some 1 := by decide +kernel

/-- V34: bands 8 to 11 from 7, 6, 5, 5, times 0.5, the last one zeroed. -/
theorem test_spHfr_copies :
    doneWith (spHfr tc1 0 (({ State.reset with ctx := { Ctx.reset with
          totalBandCount := 12, baseBandCount := 4, stereoBandCount := 4, bandsPerHfrGroup := 2
          hfrGroupCount := 2 } }).withChan 0
        fun k => { k with spectra := file 32 128 [0, 0, 0, 0, 0, 0xC0000000, 0xC0400000, 0xC0800000] }))
      (fun t => (List.range 4).map fun i => entry (t.chan 0).spectra (8 + i)) =
      some [0xC0000000, 0xBFC00000, 0xBF800000, 0] := by decide +kernel

/-- V34: total 8, base 4, stereo 4, two bands per group: nothing is copied and the topmost coded band is zeroed. -/
theorem test_spHfr :
    after (exec (.spHfr 0) (({ State.reset with ctx := { Ctx.reset with
          totalBandCount := 8, baseBandCount := 4, stereoBandCount := 4, bandsPerHfrGroup := 2 } }).withChan 0
        fun k => { k with spectra := file 32 128 [1, 2, 3, 4, 5, 6, 7, 8] }))
      (fun t => heads 9 (t.chan 0).spectra) = some [1, 2, 3, 4, 5, 6, 7, 0, 0] := by decide +kernel

/-- V35: ratio 0.5, primary -1: primary -0.5, secondary -1.5. -/
theorem test_spIstereo :
    doneWith (spIstereo tc1 0 0 (({ State.reset with ctx := { Ctx.reset with totalBandCount := 1 } }).withChan
        0 fun k => { k with spectra := file 32 128 [0xBF800000] }))
      (fun t => ((t.chan 0).spectra[0], (t.chan 1).spectra[0])) = some (0xBF000000, 0xBFC00000) := by decide +kernel

/-- V35: l = 2, r = 6 give 0x40B504F3 and 0xC03504F3. -/
theorem test_spMsstereo :
    after (exec (.spMsstereo 0) ((({ State.reset with ctx := { Ctx.reset with totalBandCount := 1 } }).withChan
        0 fun k => { k with spectra := file 32 128 [0x40000000] }).withChan 1
        fun k => { k with spectra := file 32 128 [0x40C00000] }))
      (fun t => ((t.chan 0).spectra[0], (t.chan 1).spectra[0])) = some (0x40B504F3, 0xC03504F3) := by decide +kernel

/-! Transform. -/

/-- V50: the impulse at index 127 reaches entry 127 through the seven stages as -1. -/
theorem test_imPass1 :
    after (exec (.imPass1 0) ((State.reset).withChan 0 fun k =>
        { k with spectra := tabulate 128 fun i => if i = 127 then 0x3F800000 else 0 }))
      (fun t => (t.chan 0).scratch[127]) = some 0xBF800000 := by decide +kernel

/-- R222's examples: stage 0 writes entry 64 + k from the pair (2k, 2k + 1), stage 6 entry 2j + 1 from (2j, 2j + 1). -/
theorem test_imPass1_pairs :
    pass1Entry (fun _ => 0) 0 (file 32 128 [0, 0, 0x40000000, 0x40400000]) 65 = 0xBF800000 ∧
    pass1Entry (fun _ => 0) 6 (file 32 128 [0, 0, 0x40000000, 0x40400000]) 3 = 0xBF800000 ∧
    pass1Entry (fun _ => 0) 6 (file 32 128 [0, 0, 0x40000000, 0x40400000]) 2 = 0x40A00000 := by decide +kernel

/-- V52: under TC1 a rotation gives -b in the lower and a in the upper half of a block; here stage 1, block 0. -/
theorem test_imPass2_pairs :
    pass2Entry tc1 (fun _ => 0) 1 (file 32 128 [0x3F800000, 0, 0x40000000, 0]) 0 = 0xC0000000 ∧
    pass2Entry tc1 (fun _ => 0) 1 (file 32 128 [0x3F800000, 0, 0x40000000, 0]) 3 = 0x3F800000 := by decide +kernel

/-- R228 (c): buf[64] = buf[127] = 2.0, window 0.5, prev 0.125: 1.125 and 0.875. -/
theorem test_imWindow_row :
    let row := windowRow { tc1 with tWindow := fun _ => 0x3F000000 } (fun _ => 0)
      (tabulate 128 fun i => if i = 64 ∨ i = 127 then 0x40000000 else 0) (Vector.replicate 128 0x3E000000)
    (entry row 0, entry row 64) = (0x3F900000, 0x3F600000) := by decide +kernel

/-- R228 (c): buf[63] = buf[0] = 2.0, window 0.5: prev'[0] = prev'[64] = 1.0. -/
theorem test_imWindow_prev :
    let prev := windowPrev { tc1 with tWindow := fun _ => 0x3F000000 } (fun _ => 0)
      (tabulate 128 fun i => if i = 63 ∨ i = 0 then 0x40000000 else 0)
    (entry prev 0, entry prev 64) = (0x3F800000, 0x3F800000) := by decide +kernel

/-! Floats and samples. -/

/-- V60. -/
theorem test_pcm16 :
    (F32.pcm16 0x3F000000, F32.pcm16 0xBF000000, F32.pcm16 0x37800000, F32.pcm16 0x38400000, F32.pcm16 0x3DC10000) =
      (16384, BitVec.ofInt 16 (-16384), 0, 2, 3088) := by decide +kernel

/-- V60: the clamps, the infinities, a NaN. -/
theorem test_pcm16_clamp :
    (F32.pcm16 0x3F800000, F32.pcm16 0xBF800000, F32.pcm16 0x7F800000, F32.pcm16 0xFF800000, F32.pcm16 0x7FC00000) =
      (32767, BitVec.ofInt 16 (-32767), 32767, BitVec.ofInt 16 (-32767), 0) := by decide +kernel

/-! Commands. -/

/-- R247 before any stream is open: the key is stored. -/
theorem test_setKey : after (exec (.setKey 0x3039) State.reset) (fun t => (t.key, t.status)) = some (0x3039, .ok) := by
  decide +kernel

/-- U6: without a stream DECODE_FRAME and RESET_STREAM are refused. -/
theorem test_noStream :
    refusalOf (exec (.decodeFrame 0) State.reset) = some .noStream ∧ refusalOf (exec .resetStream State.reset) = some .noStream := by
  decide +kernel

/-- V61: two channels, OUT[0], OUT[1], OUT[2] are channel 0, channel 1, channel 0. -/
theorem test_readSamples16 :
    after (exec .readSamples16 ((({ State.reset with
          valid := true, decoded := true, ctx := { Ctx.reset with channelCount := 2 } }).withChan 0
          fun k => { k with wave := tabulate 8 fun _ => file 32 128 [0x3F000000, 0x3F800000] }).withChan 1
          fun k => { k with wave := tabulate 8 fun _ => file 32 128 [0xBF000000] }))
      (fun t => (List.range 3).map fun i => (Mem.read t.out i).toInt) = some [16384, -16384, 32767] := by decide +kernel

/-! Witnesses: states and operands that meet the hypotheses of each statement that has some. -/

/-- An outcome whose field is known is a next state. -/
theorem next_of_after {α : Type} {r : Host.Outcome State Fault Refusal} {f : State → α} {x : α}
    (h : after r f = some x) : ∃ t, r = .next t := (after_some h).imp fun _ k => k.1

theorem witness_DecodeEncodeAgree :
    (Instr.bcWrap .frm 0xFFFF 16).wellFormed = true ∧ (Instr.spIstereo 14 7).wellFormed = true ∧
    Instr.hdFmt.wellFormed = true ∧ chunkStageId .hdFmt = some 0x11 := by decide

theorem witness_TagsSelectChunks :
    spells 0xC8C3C100#32 0x48434100#32 ∧ decode .chunk (be32 0xC8C3C100#32 ++ [1]) = .ok .hdProlog := by
  constructor
  · unfold spells; decide
  · decide

theorem witness_ReservedCommandsRefused :
    ∃ (s : State) (k : Call) (op : Byte), s.queue = k :: [] ∧ k.port = .command ∧ k.image = op :: [] ∧ op = 7 :=
  ⟨{ State.reset with queue := [{ port := .command, image := [7], load := none }] }, _, 7, rfl, rfl, rfl, rfl⟩

/-- A host call. -/
def call (i : Instr) (load : Option (BufId × List Byte)) : Call := { callOf i with load := load }

/-- The chunk call: its word is at the cursor. -/
def chunkCall : Call := { port := .chunk, image := [], load := none }

theorem witness_StepRunsTheDecodedInstruction :
    State.reset.queue = [] ∧
    ((call (.decodeFrame 2) (some (.frm, [1, 2]))).port ≠ .chunk ∧
      decode .command (call (.decodeFrame 2) (some (.frm, [1, 2]))).image = .ok (.decodeFrame 2) ∧
      (Instr.decodeFrame 2).wellFormed = true) ∧
    (call (.openStream 2) (some (.hdr, [1, 2]))).load = some (.hdr, [1, 2]) ∧
    (let s : State := { overHdr [0x66, 0x6D, 0x74, 0] 0 with queue := [chunkCall] }
     s.queue = chunkCall :: [] ∧ chunkCall.load = none ∧
     decode .chunk (be32 (BitVec.ofNat 32 ((s.issue chunkCall []).peekAt s.cur.pos 32))) = .ok .hdFmt) := by
  refine ⟨rfl, ⟨by decide, by decide, rfl⟩, rfl, rfl, rfl, by decide +kernel⟩

/-- The registers of the small mono stream of program P5: version 0x0300, eight bands, 48 bytes a frame, no cipher. -/
def ctxMono : Ctx := { Ctx.reset with
  version := 0x0300, headerSize := 128, channelCount := 1, sampleRate := 48000, frameCount := 16, frameSize := 48
  maxResolution := 15, trackCount := 1, totalBandCount := 8, baseBandCount := 8, rvaVolume := 0x3F800000 }

/-- That stream open over a frame buffer. -/
def openMono (frame : List Byte) : State :=
  { State.reset with
    valid := true
    ctx := ctxMono
    cipherTable := tabulate 256 fun b => BitVec.ofNat 8 b
    frm := Buffer.ofBytes frame
    ch := State.reset.ch.set 0 { Channel.reset with codedCount := 8 } }

theorem ctxMono_legal : ctxMono.Legal where
  headerSize := by decide
  channelCount := by decide
  sampleRate := by decide
  frameCount := by decide
  frameSize := by decide
  resolutionOld := by decide
  resolution := by decide
  tracks := by decide
  bands := by decide
  perGroup := by decide
  groups := by decide
  midSide := rfl
  newest := by intro h; exact absurd h (by decide)
  vbr := ⟨rfl, rfl⟩
  cipher := .inl rfl
  loop := by decide

theorem openMono_inv (frame : List Byte) : (openMono frame).StreamInv where
  ctx _ := ctxMono_legal
  channels _ c h := by
    have h0 : c = 0 := by
      have : c.val < 1 := h
      exact Fin.ext (by omega)
    subst h0
    exact ⟨rfl, fun h => nomatch (h : ChanType.discrete = .primary)⟩
  cipher _ b := by
    show (tabulate 256 fun b => BitVec.ofNat 8 b).getD b.toNat 0 = b
    rw [getD_tabulate _ _ (by omega)]
    simp
  decoded h := nomatch (h : false = true)

theorem witness_StepKeepsMemoryInv :
    ∃ s t : State, s.MemoryInv ∧ s.cur.buf = some .hdr ∧ step s = .next t := by
  refine ⟨{ v10 4 with queue := [callOf (.bcRead 32)] }, _, ?_, rfl, rfl⟩
  refine ⟨?_, ?_, ?_, ⟨?_, ?_, ?_⟩, ?_⟩ <;> decide +kernel

theorem witness_HostStepKeepsStreamInv :
    ∃ s t : State, s.HostOnly ∧ s.StreamInv ∧ s.valid = true ∧ step s = .next t := by
  refine ⟨{ openMono [] with queue := [callOf .resetStream] }, _, ?_, ?_, rfl, rfl⟩
  · intro k hk
    rw [List.mem_singleton.1 hk]
    rfl
  · exact ⟨(openMono_inv []).ctx, (openMono_inv []).channels, (openMono_inv []).cipher, (openMono_inv []).decoded⟩

theorem witness_PeekReturnsTheField_ReadReturnsAndAdvances :
    (32 : Byte).toNat ≤ 32 ∧ (0 : Byte).toNat ≤ 32 ∧ 32 < (33 : Byte).toNat ∧
    (v10 (2 ^ 31 - 33)).cur.pos + (32 : Byte).toNat < 2 ^ 31 ∧ 2 ^ 31 ≤ (v10 (2 ^ 31 - 32)).cur.pos + (32 : Byte).toNat := by
  decide

/-- The limits 0 and 2^31 - 1, and the first moves beyond. -/
theorem witness_SkipMovesTheCursor :
    ((0 : Nat) : Int) = (v10 5).cur.pos + (-5 : BitVec 32).toInt ∧ ((v10 5).cur.pos : Int) + (-6 : BitVec 32).toInt < 0 ∧
    ((45 : Nat) : Int) = (v10 5).cur.pos + (40 : BitVec 32).toInt ∧ 45 < 2 ^ 31 ∧
    ((2 ^ 31 - 1 : Nat) : Int) = (v10 5).cur.pos + (0x7FFFFFFA : BitVec 32).toInt ∧
    ((2 ^ 31 : Nat) : Int) = (v10 5).cur.pos + (0x7FFFFFFB : BitVec 32).toInt := by decide

theorem witness_WrapSetsTheCursor :
    ((16 : Byte) = 0 ∨ (16 : Byte) = 16) ∧ (5 : BitVec 16).toNat ≤ ((v10 0).buffer .hdr).size ∧
    ((v10 0).buffer .hdr).size < (6 : BitVec 16).toNat ∧ (0 : BitVec 16).toNat ≤ ((v10 0).buffer .frm).size := by decide

theorem v10_legal : (v10 8).cur.Legal := ⟨rfl, by decide, by decide⟩

theorem witness_CursorLaws :
    (v10 8).cur.Legal ∧ (9 : Byte).toNat + (23 : Byte).toNat ≤ 32 ∧
    (v10 8).cur.pos + (9 : Byte).toNat + (23 : Byte).toNat ≤ (v10 8).cur.sizeBits ∧ 0 < (9 : Byte).toNat :=
  ⟨v10_legal, by decide⟩

/-- P2's prolog behind a spelling of the tag with high bits set. -/
theorem witness_PrologReadBack :
    (overHdr [1, 2, 3, 4, 5, 6, 7] 0).hdrLen.toNat < 8 ∧
    (let s := overHdr (prologBytes 0xC8C3C180#32 0x0200#16 96#16) 0
     8 ≤ s.hdrLen.toNat ∧ 8 ≤ s.hdr.size ∧ spells 0xC8C3C180#32 0x48434100#32 ∧ Config.hw.versions 0x0200#16 = true ∧
     ∀ i, i < 8 → s.hdr.byte i = (prologBytes 0xC8C3C180#32 0x0200#16 96#16).getD i 0) ∧
    (let s := overHdr (prologBytes 0x48434101#32 0x0200#16 96#16) 0
     8 ≤ s.hdrLen.toNat ∧ 8 ≤ s.hdr.size ∧ ¬ spells 0x48434101#32 0x48434100#32 ∧
     ∀ i, i < 8 → s.hdr.byte i = (prologBytes 0x48434101#32 0x0200#16 96#16).getD i 0) := by
  unfold spells
  refine ⟨by decide, ⟨by decide, by decide, by decide, rfl, by decide +kernel⟩, by decide, by decide, by decide,
    by decide +kernel⟩

/-- A chunk at the cursor of a state made for it is ahead. -/
theorem overHdr_ahead (l : List Byte) : (overHdr l 0).headerAhead l := by
  refine ⟨rfl, rfl, ?_, fun i hi => ?_⟩
  · show 0 + 8 * l.length ≤ 8 * l.length
    omega
  · show (Buffer.ofBytes l).byte (0 / 8 + i) = l.getD i 0
    rw [Nat.zero_div, Nat.zero_add, Buffer.byte_ofBytes]

theorem witness_FmtReadBack :
    absent (overHdr (be32 0x666D7400#32) 0) 0x666D7400#32 16 ∧ absent (overHdr (List.replicate 16 0) 0) 0x666D7400#32 16 ∧
    spells 0xE6EDF480#32 0x666D7400#32 ∧
    (overHdr (fmtBytes 0xE6EDF480#32 16 0x7FFFFF 0xFFFFFFFF 128 226) 0).headerAhead
      (fmtBytes 0xE6EDF480#32 16 0x7FFFFF 0xFFFFFFFF 128 226) ∧
    16 ≤ (overHdr (fmtBytes 0xE6EDF480#32 16 0x7FFFFF 0xFFFFFFFF 128 226) 0).remaining := by
  refine ⟨.inl (by decide), .inr ?_, by unfold spells; decide, overHdr_ahead _, by decide⟩
  rw [← State.peekAt_eq]
  decide +kernel

theorem witness_CompReadBack :
    spells 0x636F6D70#32 0x636F6D70#32 ∧
    (overHdr (compBytes 0x636F6D70#32 512 1 15 1 1 255 64 64 0 0 9) 0).headerAhead
      (compBytes 0x636F6D70#32 512 1 15 1 1 255 64 64 0 0 9) ∧
    16 ≤ (overHdr (compBytes 0x636F6D70#32 512 1 15 1 1 255 64 64 0 0 9) 0).remaining :=
  ⟨by unfold spells; decide, overHdr_ahead _, by decide⟩

/-- V43's chunk with a base equal to the total, with stereo type 0, and with a base above the total. -/
theorem witness_DecReadBack :
    spells 0x64656300#32 0x64656300#32 ∧
    ((overHdr (decBytes 0x64656300#32 512 1 15 127 127 1 0 1) 0).headerAhead (decBytes 0x64656300#32 512 1 15 127 127 1 0 1) ∧
      12 ≤ (overHdr (decBytes 0x64656300#32 512 1 15 127 127 1 0 1) 0).remaining ∧
      (127 : BitVec 8).toNat ≤ (127 : BitVec 8).toNat) ∧
    ((overHdr (decBytes 0x64656300#32 512 1 15 127 200 1 0 0) 0).headerAhead (decBytes 0x64656300#32 512 1 15 127 200 1 0 0) ∧
      (0 : BitVec 8) = 0) ∧
    ((overHdr (decBytes 0x64656300#32 512 1 15 127 128 1 0 1) 0).headerAhead (decBytes 0x64656300#32 512 1 15 127 128 1 0 1) ∧
      (1 : BitVec 8) ≠ 0 ∧ (127 : BitVec 8).toNat < (128 : BitVec 8).toNat) :=
  ⟨by unfold spells; decide, ⟨overHdr_ahead _, by decide, by decide⟩, ⟨overHdr_ahead _, rfl⟩, overHdr_ahead _,
    by decide, by decide⟩

theorem witness_AthCiphRvaReadBack :
    (spells 0x61746800#32 0x61746800#32 ∧ (overHdr (athBytes 0x61746800#32 7) 0).headerAhead (athBytes 0x61746800#32 7) ∧
      6 ≤ (overHdr (athBytes 0x61746800#32 7) 0).remaining) ∧
    (spells 0x63697068#32 0x63697068#32 ∧ (overHdr (ciphBytes 0x63697068#32 56) 0).headerAhead (ciphBytes 0x63697068#32 56) ∧
      6 ≤ (overHdr (ciphBytes 0x63697068#32 56) 0).remaining ∧ (56 : BitVec 16).toNat ∈ [0, 1, 56]) ∧
    ((overHdr (ciphBytes 0x63697068#32 2) 0).headerAhead (ciphBytes 0x63697068#32 2) ∧
      (2 : BitVec 16).toNat ∉ [0, 1, 56]) ∧
    (spells 0x72766100#32 0x72766100#32 ∧ (overHdr (rvaBytes 0x72766100#32 0x3F000000) 0).headerAhead
      (rvaBytes 0x72766100#32 0x3F000000) ∧ 8 ≤ (overHdr (rvaBytes 0x72766100#32 0x3F000000) 0).remaining) := by
  unfold spells
  exact ⟨⟨by decide, overHdr_ahead _, by decide⟩, ⟨by decide, overHdr_ahead _, by decide, by decide⟩,
    ⟨overHdr_ahead _, by decide⟩, by decide, overHdr_ahead _, by decide⟩

/-- The loop chunk of V45 over 16 frames, its boundary 15, and 16; the vbr maxima 9 and 511, and 8. -/
theorem witness_LoopVbrReadBack :
    (let s : State := { overHdr (loopBytes 0x6C6F6F70#32 15 15 16 32) 0 with ctx := { Ctx.reset with frameCount := 16 } }
     spells 0x6C6F6F70#32 0x6C6F6F70#32 ∧ s.headerAhead (loopBytes 0x6C6F6F70#32 15 15 16 32) ∧ 16 ≤ s.remaining ∧
     ((15 : BitVec 32).toNat ≤ (15 : BitVec 32).toNat ∧ (15 : BitVec 32).toNat < s.ctx.frameCount.toNat)) ∧
    (let s : State := { overHdr (loopBytes 0x6C6F6F70#32 2 16 16 32) 0 with ctx := { Ctx.reset with frameCount := 16 } }
     s.headerAhead (loopBytes 0x6C6F6F70#32 2 16 16 32) ∧
     ¬ ((2 : BitVec 32).toNat ≤ (16 : BitVec 32).toNat ∧ (16 : BitVec 32).toNat < s.ctx.frameCount.toNat)) ∧
    (let s := overHdr (vbrBytes 0x76627200#32 511 0) 0
     spells 0x76627200#32 0x76627200#32 ∧ s.headerAhead (vbrBytes 0x76627200#32 511 0) ∧ 8 ≤ s.remaining ∧
     (s.ctx.frameSize = 0 ∧ 8 < (511 : BitVec 16).toNat ∧ (511 : BitVec 16).toNat ≤ 0x1FF)) ∧
    (let s := overHdr (vbrBytes 0x76627200#32 8 0) 0
     s.headerAhead (vbrBytes 0x76627200#32 8 0) ∧
     ¬ (s.ctx.frameSize = 0 ∧ 8 < (8 : BitVec 16).toNat ∧ (8 : BitVec 16).toNat ≤ 0x1FF)) := by
  unfold spells
  exact ⟨⟨by decide, overHdr_ahead (loopBytes 0x6C6F6F70#32 15 15 16 32), by decide, by decide⟩,
    ⟨overHdr_ahead (loopBytes 0x6C6F6F70#32 2 16 16 32), by decide⟩,
    ⟨by decide, overHdr_ahead _, by decide, by decide⟩, overHdr_ahead _, by decide⟩

theorem witness_CommReadBack :
    spells 0x636F6D6D#32 0x636F6D6D#32 ∧
    ((overHdr (commBytes 0x636F6D6D#32 [0x48, 0x69]) 0).headerAhead (commBytes 0x636F6D6D#32 [0x48, 0x69]) ∧
      5 + 2 ≤ (overHdr (commBytes 0x636F6D6D#32 [0x48, 0x69]) 0).remaining) ∧
    ((overHdr (commBytes 0x636F6D6D#32 []) 0).headerAhead (commBytes 0x636F6D6D#32 []) ∧
      5 + 0 ≤ (overHdr (commBytes 0x636F6D6D#32 []) 0).remaining) ∧
    ((overHdr (be32 0x636F6D6D#32 ++ [1]) 0).headerAhead (be32 0x636F6D6D#32 ++ [1]) ∧
      5 ≤ (overHdr (be32 0x636F6D6D#32 ++ [1]) 0).remaining ∧ (overHdr (be32 0x636F6D6D#32 ++ [1]) 0).remaining < 5 + 1) := by
  unfold spells
  exact ⟨by decide, ⟨overHdr_ahead _, by decide⟩, ⟨overHdr_ahead _, by decide⟩, overHdr_ahead _, by decide, by decide⟩

/-- An exhausted counter makes every chunk absent; so does another tag. -/
theorem witness_AbsentChunksTakeDefaults :
    absent State.reset 0x636F6D70#32 16 ∧ absent State.reset 0x64656300#32 12 ∧ absent State.reset 0x76627200#32 8 ∧
    absent State.reset 0x61746800#32 6 ∧ absent State.reset 0x6C6F6F70#32 16 ∧ absent State.reset 0x63697068#32 6 ∧
    absent State.reset 0x72766100#32 8 ∧ absent State.reset 0x636F6D6D#32 5 ∧
    absent (overHdr (be32 0x70616400#32 ++ [0, 0]) 0) 0x61746800#32 6 := by
  refine ⟨.inl (by decide), .inl (by decide), .inl (by decide), .inl (by decide), .inl (by decide), .inl (by decide),
    .inl (by decide), .inl (by decide), .inr ?_⟩
  rw [← State.peekAt_eq]
  decide +kernel

/-- The ranges of rules R141 to R146, the track count being the one stored. -/
def rangesMet (x : Ctx) (tracks : BitVec 8) : Prop :=
  (1 ≤ x.channelCount.toNat ∧ x.channelCount.toNat ≤ 16) ∧ (1 ≤ x.sampleRate.toNat ∧ x.sampleRate.toNat ≤ 0x7FFFFF) ∧
  0 < x.frameCount.toNat ∧ 8 ≤ x.frameSize.toNat ∧
  (if x.version.toNat ≤ 0x0200 then x.minResolution = 1 ∧ x.maxResolution = 15
   else x.maxResolution.toNat ≤ 15 ∧ x.minResolution.toNat ≤ x.maxResolution.toNat) ∧
  tracks.toNat ≤ x.channelCount.toNat ∧ x.totalBandCount.toNat ≤ 128 ∧ x.baseBandCount.toNat ≤ 128 ∧
  x.stereoBandCount.toNat ≤ 128 ∧ x.bandsPerHfrGroup.toNat ≤ 128 ∧
  x.baseBandCount.toNat + x.stereoBandCount.toNat ≤ 128

/-- P2's registers with a track count of 0 meet the ranges; with 65 base bands they do not. -/
theorem witness_ValidateChecksRanges :
    (let x : Ctx := { ctxP2 with trackCount := 0 }
     (1 : BitVec 8) = (if x.trackCount = 0 then 1 else x.trackCount) ∧ rangesMet x 1 ∧
     x.baseBandCount.toNat + x.stereoBandCount.toNat ≤ x.totalBandCount.toNat) ∧
    (let x : Ctx := { ctxP2 with baseBandCount := 65 }
     (1 : BitVec 8) = (if x.trackCount = 0 then 1 else x.trackCount) ∧ ¬ rangesMet x 1) := by
  unfold rangesMet
  decide

theorem witness_DeriveInitialises :
    ctxP2.totalBandCount.toNat ≤ 128 ∧
    ctxP2.baseBandCount.toNat + ctxP2.stereoBandCount.toNat ≤ ctxP2.totalBandCount.toNat ∧ ctxP2.msStereo = 0 ∧
    ctxP2.groupCount = 0 ∧ ({ ctxP2 with msStereo := 1 } : Ctx).msStereo ≠ 0 ∧
    (0 < ({ ctxP2 with stereoBandCount := 24, bandsPerHfrGroup := 8, version := 0x0300 } : Ctx).groupCount ∧
      (0x0300 : BitVec 16) = Config.hw.vNewest) := by
  refine ⟨by decide, by decide, rfl, by decide, by decide, by decide, rfl⟩

theorem witness_ChannelTypesAssigned : ctxP2.baseBandCount.toNat + ctxP2.stereoBandCount.toNat ≤ 128 := by decide

/-- The header of V45 without its cipher chunk: ath, loop, rva, a comment, and zero bytes behind a pad tag. -/
def headerV45 : StreamHeader where
  version := 0x0300
  channelCount := 1
  sampleRate := 48000
  frameCount := 16
  encoderDelay := 0
  encoderPadding := 0
  bands := .comp 48 0 15 1 0 8 8 0 0 0 0
  ath := some 0
  loop := some (2, 15, 16, 32)
  ciph := some 56
  rva := some 0x3F000000
  comment := some [0x48, 0x69]
  pad := some [0, 0, 0]

theorem headerV45_legal : headerV45.ctx.Legal where
  headerSize := by decide +kernel
  channelCount := by decide +kernel
  sampleRate := by decide +kernel
  frameCount := by decide +kernel
  frameSize := by decide +kernel
  resolutionOld := by decide +kernel
  resolution := by decide +kernel
  tracks := by decide +kernel
  bands := by decide +kernel
  perGroup := by decide +kernel
  groups := by decide +kernel
  midSide := by decide +kernel
  newest := by
    intro h
    exact absurd h (by decide +kernel)
  vbr := by decide +kernel
  cipher := .inr (.inr (by decide +kernel))
  loop := by decide +kernel

/-- V45's bytes, written out, are the bytes of the built header up to its declared size. -/
theorem test_headerV45 : headerV45.bytes.take 16 =
    [0x48, 0x43, 0x41, 0, 3, 0, 0, 90, 0x66, 0x6D, 0x74, 0, 1, 0, 0xBB, 0x80] := by decide +kernel

theorem witness_BuiltHeaderOpens :
    headerV45.encodable ∧ headerV45.ctx.Legal ∧ Config.hw.versions headerV45.version = true ∧
    headerV45.size ≤ (90 : BitVec 32).toNat ∧ (90 : BitVec 32).toNat ≤ (overHdr headerV45.bytes 0).hdr.size ∧
    ∀ i, i < headerV45.size → (overHdr headerV45.bytes 0).hdr.byte i = headerV45.bytes.getD i 0 := by
  refine ⟨⟨by decide +kernel, by decide⟩, headerV45_legal, rfl, by decide +kernel, by decide +kernel, fun i _ => ?_⟩
  show (Buffer.ofBytes headerV45.bytes).byte i = _
  rw [Buffer.byte_ofBytes]

/-- The registers with frames of `n` bytes. -/
def frames (n : BitVec 16) : Ctx := { Ctx.reset with frameSize := n }

theorem witness_CheckLength :
    (let s : State := { overFrm (List.replicate 8 0) with ctx := frames 8 }
     s.ctx.frameSize.toNat ≤ s.frmLen.toNat) ∧
    (let s : State := { overFrm (List.replicate 7 0) with ctx := frames 8 }
     s.frmLen.toNat < s.ctx.frameSize.toNat) := by decide

theorem witness_SyncWord :
    (let s : State := { overFrm [0xFF, 0xFF] with ctx := frames 2 }
     s.ctx.frameSize.toNat ≤ s.frm.size ∧ (2 ≤ s.ctx.frameSize.toNat ∧ s.frm.byte 0 = 0xFF ∧ s.frm.byte 1 = 0xFF)) ∧
    (let s : State := { overFrm [0xFF, 0xFE] with ctx := frames 2 }
     s.ctx.frameSize.toNat ≤ s.frm.size ∧ ¬ (2 ≤ s.ctx.frameSize.toNat ∧ s.frm.byte 0 = 0xFF ∧ s.frm.byte 1 = 0xFF)) ∧
    (let s : State := { overFrm [0xFF] with ctx := frames 2 }
     s.frm.size < s.ctx.frameSize.toNat) := by decide +kernel

theorem witness_FrameChecksum_DecryptSubstitutes :
    (let s : State := { overFrm [0xFF, 0xFF] with ctx := frames 2 }
     s.ctx.frameSize.toNat ≤ s.frm.size) ∧
    (let s : State := { overFrm [0xFF] with ctx := frames 2 }
     s.frm.size < s.ctx.frameSize.toNat) := by decide

/-- The same state with its cursor elsewhere. -/
def State.cursorAt (s : State) (p : Nat) : State := { s with cur := { s.cur with pos := p } }

/-- For FR_NOISELEVEL also the last position from which the boundary is read at its own bit, not the free one. -/
theorem witness_NoiseLevelPacked_HighBandScales :
    ((overFrm []).cursorAt (2 ^ 31 - 10)).cur.pos + 9 < 2 ^ 31 ∧
    (overFrm []).cur.pos + 16 < 2 ^ 31 ∧ ((overFrm []).cursorAt (2 ^ 31 - 17)).cur.pos + 16 < 2 ^ 31 ∧
    2 ^ 31 ≤ ((overFrm []).cursorAt (2 ^ 31 - 16)).cur.pos + 16 ∧ (State.reset.chan 0).type ≠ .secondary ∧
    (let s : State := { State.reset.cursorAt (2 ^ 31 - 7) with ctx := { Ctx.reset with hfrGroupCount := 1 } }
     s.cur.pos < 2 ^ 31 ∧ s.cur.pos + 6 * s.ctx.hfrGroupCount.toNat < 2 ^ 31) ∧
    (let s : State := { State.reset.cursorAt (2 ^ 31 - 6) with ctx := { Ctx.reset with hfrGroupCount := 1 } }
     s.cur.pos < 2 ^ 31 ∧ 2 ^ 31 ≤ s.cur.pos + 6 * s.ctx.hfrGroupCount.toNat) := by decide

/-- The last position of the register. -/
theorem witness_ScaleDeltas_IntensityDeltas_complete : (State.reset.cursorAt (2 ^ 31 - 1)).cur.pos < 2 ^ 31 := by decide

/-- Behind the buffer every request reads 0. -/
theorem request_behind (s : State) (p n : Nat) (h : s.cur.sizeBits < p + n) : s.requestValue p n = 0 :=
  if_pos (.inr h)

theorem witness_ScaleLiteralsAndZeros :
    (6 ≤ (overFrm [0xC0]).requestValue (overFrm [0xC0]).cur.pos 3 ∧ (overFrm [0xC0]).cur.pos + (3 + 6 * 0) < 2 ^ 31) ∧
    ((overFrm [0x10]).requestValue (overFrm [0x10]).cur.pos 3 = 0 ∧ (overFrm [0x10]).cur.pos + 3 < 2 ^ 31) ∧
    (let s := (overFrm [0x10]).cursorAt (2 ^ 31 - 4)
     s.requestValue s.cur.pos 3 = 0 ∧ s.cur.pos + 3 < 2 ^ 31) ∧
    (let s := (overFrm [0x10]).cursorAt (2 ^ 31 - 3)
     s.requestValue s.cur.pos 3 = 0 ∧ 2 ^ 31 ≤ s.cur.pos + 3) ∧
    (let s : State := { State.reset with
        frm := { size := 2 ^ 28, cells := [(2 ^ 28 - 1, 0x07)] }
        cur := { buf := some .frm, sizeBits := 2 ^ 31, pos := 2 ^ 31 - 3 } }
     6 ≤ s.requestValue s.cur.pos 3 ∧ 2 ^ 31 ≤ s.cur.pos + (3 + 6 * (s.chan 0).codedCount.toNat)) := by
  refine ⟨?_, ?_, ⟨request_behind _ _ _ (by decide), by decide⟩, ⟨request_behind _ _ _ (by decide), by decide⟩, ?_⟩
  · rw [← State.peekAt_eq]; decide +kernel
  · rw [← State.peekAt_eq]; decide +kernel
  · simp only [← State.peekAt_eq]; decide +kernel

/-- Bits ahead, by evaluation. -/
theorem bitsAhead_of_list {s : State} {p : Nat} {l : List Bool} (h : p + l.length ≤ s.cur.sizeBits)
    (hl : (List.range l.length).map (fun i => s.active.streamBit (p + i)) = l) : s.bitsAhead p l := by
  refine ⟨h, fun i hi => ?_⟩
  conv_rhs => rw [← hl]
  rw [List.getD_eq_getElem _ _ (by simpa using hi)]
  simp

/-- V23's block for eight coefficients, every value in range; V24's, a candidate of 64. -/
theorem witness_ScaleDeltas :
    (let s := (overFrm [0x6A, 0x3A, 0x3D, 0x09, 0xDA]).withChan 0 fun k => { k with codedCount := 8 }
     let ys : List DeltaSym := [.delta 3, .delta 5, .delta 0, .literal 40, .delta 2, .delta 3, .delta 5]
     s.cur.Legal ∧ (s.chan 0).codedCount.toNat ≤ 128 ∧ ys.length = (s.chan 0).codedCount.toNat - 1 ∧
     (∀ y ∈ ys, y.encodable 3 6) ∧
     s.bitsAhead s.cur.pos (bitsOf 3 3 ++ bitsOf 6 20 ++ deltaBitsOf 3 6 ys) ∧
     ∀ v ∈ deltaValues 3 20 ys, 0 ≤ v ∧ v < 64) ∧
    (let s := (overFrm [0x7F, 0x50]).withChan 0 fun k => { k with codedCount := 2 }
     let ys : List DeltaSym := [.delta 5]
     s.cur.Legal ∧ (s.chan 0).codedCount.toNat ≤ 128 ∧ ys.length = (s.chan 0).codedCount.toNat - 1 ∧
     (∀ y ∈ ys, y.encodable 3 6) ∧
     s.bitsAhead s.cur.pos (bitsOf 3 3 ++ bitsOf 6 62 ++ deltaBitsOf 3 6 ys) ∧
     ∃ v ∈ deltaValues 3 62 ys, v < 0 ∨ 64 ≤ v) := by
  refine ⟨⟨⟨rfl, by decide, by decide⟩, by decide, by decide, ?_,
    bitsAhead_of_list (by decide) (by decide +kernel), by decide⟩, ⟨rfl, by decide, by decide⟩, by decide, by decide, ?_,
    bitsAhead_of_list (by decide) (by decide +kernel), 64, by decide, .inr (by decide)⟩ <;>
  simp [DeltaSym.encodable]

/-- A secondary channel 1 over a frame, under a version. -/
def secondary (version : BitVec 16) (l : List Byte) : State :=
  ({ overFrm l with ctx := { Ctx.reset with version := version } }).withChan 1 fun k => { k with type := .secondary }

theorem witness_IntensityLiterals :
    ((secondary 0x0200 [0x30]).cur.Legal ∧ (secondary 0x0201 [0xF0]).cur.Legal) ∧
    ((secondary 0x0200 [0x30]).chan 1).type = .secondary ∧ (0x0200 : BitVec 16).toNat ≤ 0x0200 ∧
    ((secondary 0x0200 [0xE0]).peekAt 0 4 < 15 ∧ (secondary 0x0200 [0xE0]).cur.pos + 32 < 2 ^ 31) ∧
    (secondary 0x0200 [0xF0]).peekAt 0 4 = 15 ∧
    0x0200 < (0x0201 : BitVec 16).toNat ∧ (secondary 0x0201 [0xF0]).peekAt 0 4 = 15 ∧
    (secondary 0x0201 [0xEC]).peekAt 0 4 < 15 ∧ (secondary 0x0201 [0xEC]).peekAt (0 + 4) 2 = 3 ∧
    (let s := (secondary 0x0200 [0xE0]).cursorAt (2 ^ 31 - 33)
     s.cur.Legal ∧ s.requestValue s.cur.pos 4 < 15 ∧ s.cur.pos + 32 < 2 ^ 31) ∧
    (let s := (secondary 0x0200 [0xE0]).cursorAt (2 ^ 31 - 32)
     s.cur.Legal ∧ s.requestValue s.cur.pos 4 < 15 ∧ s.cur.pos + 4 * 7 < 2 ^ 31 ∧ 2 ^ 31 ≤ s.cur.pos + 32) := by
  refine ⟨⟨⟨rfl, by decide, by decide⟩, rfl, by decide, by decide⟩, rfl, by decide, ?_, ?_, by decide, ?_, ?_, ?_,
    ⟨⟨rfl, by decide, by decide⟩, ?_, by decide⟩, ⟨rfl, by decide, by decide⟩, ?_, by decide⟩
  · decide +kernel
  · decide +kernel
  · decide +kernel
  · decide +kernel
  · decide +kernel
  · rw [request_behind _ _ _ (by decide)]; decide
  · rw [request_behind _ _ _ (by decide)]; decide

/-- V26's fields, every value in range; its error, 14, 15, 16. -/
theorem witness_IntensityDeltas :
    (let s := secondary 0x0300 [0x75, 0x8F, 0x14]
     let ys : List DeltaSym := [.delta 1, .delta 2, .delta 0, .literal 12, .delta 1, .delta 1, .delta 0]
     s.cur.Legal ∧ (s.chan 1).type = .secondary ∧ 0x0200 < s.ctx.version.toNat ∧ ys.length = 7 ∧
     (∀ y ∈ ys, y.encodable (1 + 1) 4) ∧
     s.bitsAhead s.cur.pos (bitsOf 4 7 ++ bitsOf 2 1 ++ deltaBitsOf (1 + 1) 4 ys) ∧
     ∀ v ∈ deltaValues (1 + 1) 7 ys, 0 ≤ v ∧ v ≤ 15) ∧
    (let s := secondary 0x0300 [0xE6, 0x80, 0x00]
     let ys : List DeltaSym := [.delta 2, .delta 2, .delta 0, .delta 0, .delta 0, .delta 0, .delta 0]
     s.cur.Legal ∧ (s.chan 1).type = .secondary ∧ 0x0200 < s.ctx.version.toNat ∧ ys.length = 7 ∧
     (∀ y ∈ ys, y.encodable (1 + 1) 4) ∧
     s.bitsAhead s.cur.pos (bitsOf 4 14 ++ bitsOf 2 1 ++ deltaBitsOf (1 + 1) 4 ys) ∧
     ∃ v ∈ deltaValues (1 + 1) 14 ys, v < 0 ∨ 15 < v) := by
  refine ⟨⟨⟨rfl, by decide, by decide⟩, rfl, by decide, rfl, ?_,
    bitsAhead_of_list (by decide) (by decide +kernel), by decide⟩, ⟨rfl, by decide, by decide⟩, rfl, by decide, rfl, ?_,
    bitsAhead_of_list (by decide) (by decide +kernel), 16, by decide, .inr (by decide)⟩ <;>
  simp [DeltaSym.encodable]

theorem witness_ResolutionAndPartition :
    ((openMono []).chan 0).codedCount.toNat ≤ 128 ∧ ctxMono.minResolution.toNat ≤ ctxMono.maxResolution.toNat ∧
    ctxMono.maxResolution.toNat ≤ 15 := by decide

/-- A stream's start; and a code of one bit read at the register's last position, with one read before it. -/
theorem witness_DequantReadsCodes :
    ((openMono []).chan 0).codedCount.toNat ≤ 128 ∧
    (openMono []).cur.pos + 16 * ((openMono []).chan 0).codedCount.toNat < 2 ^ 31 ∧
    (let s := (State.reset.cursorAt (2 ^ 31 - 1)).withChan 0 fun k => { k with codedCount := 1 }
     (s.chan 0).codedCount.toNat ≤ 128 ∧ 0 < (s.chan 0).codedCount.toNat ∧ 2 ^ 31 ≤ s.cur.pos + 1 ∧
     (s.cursorAt (2 ^ 31 - 2)).cur.pos + 1 < 2 ^ 31) := by decide

theorem witness_NoiseReconstruction :
    (let k := State.reset.chan 0
     ¬ (State.reset.ctx.minResolution = 0 ∧ ¬ (State.reset.ctx.msStereo ≠ 0 ∧ k.type = .primary) ∧
       k.validCount ≠ 0 ∧ k.noiseCount ≠ 0)) ∧
    (let s := State.reset.withChan 0 fun k => { k with noiseCount := 2, validCount := 5 }
     let k := s.chan 0
     s.ctx.minResolution = 0 ∧ ¬ (s.ctx.msStereo ≠ 0 ∧ k.type = .primary) ∧ k.validCount ≠ 0 ∧ k.noiseCount ≠ 0) := by
  decide

/-- V34's registers. -/
theorem witness_HighFrequencyReconstruction :
    State.reset.ctx.bandsPerHfrGroup = 0 ∧
    (let x : Ctx := { Ctx.reset with
        totalBandCount := 12, baseBandCount := 4, stereoBandCount := 4, bandsPerHfrGroup := 2, hfrGroupCount := 2 }
     ¬ (x.bandsPerHfrGroup = 0 ∨ (State.reset.chan 0).type = .secondary) ∧
     x.baseBandCount.toNat + x.stereoBandCount.toNat ≤ x.totalBandCount.toNat ∧ x.totalBandCount.toNat ≤ 128 ∧
     x.hfrGroupCount.toNat = x.groupCount) := by decide

theorem witness_IntensityStereo_MidSideStereo :
    (15 : Fin 16).val = (14 : Fin 16).val + 1 ∧ (15 : Fin 16).val = 15 := by decide

theorem witness_UnitAndZeroSpectra :
    (∃ s t : State, exec (.imPass1 0) s = .next t ∧
      ∀ i, i < 128 → entry (s.chan 0).spectra i = if i = 0 then 0x3F800000#32 else 0) ∧
    ∃ s t : State, exec (.imPass1 0) s = .next t ∧ ∀ i, i < 128 → entry (s.chan 0).spectra i = 0 :=
  ⟨⟨State.reset.withChan 0 fun k => { k with spectra := file 32 128 [0x3F800000] }, _, rfl, by decide +kernel⟩,
    State.reset, _, rfl, by decide +kernel⟩

theorem witness_FloatOperationsRoundOnce :
    (0x7FC00000 : F32).isNaN = true ∧ (0x3F800000 : F32).isFinite = true ∧ (0x80000000 : F32).isFinite = true ∧
    (0xFFFFFFFF : F32).isNaN = true := by decide

/-- The boundaries of the clamps: 32767/32768 and its negative; between them 0.5. -/
theorem witness_PcmConversion :
    (0x7FC00000 : F32).isNaN = true ∧ (0x3F7FFE00 : F32).isFinite = true ∧ 32767 ≤ 32768 * floatValue 0x3F7FFE00#32 ∧
    32768 * floatValue 0xBF7FFE00#32 ≤ -32767 ∧ -32767 < 32768 * floatValue 0x3F000000#32 ∧
    32768 * floatValue 0x3F000000#32 < 32767 := by
  have h1 : F32.sval 0x3F7FFE00#32 = 32767 * 2 ^ 134 := by decide +kernel
  have h2 : F32.sval 0xBF7FFE00#32 = -(32767 * 2 ^ 134) := by decide +kernel
  have h3 : F32.sval 0x3F000000#32 = 2 ^ 148 := by decide +kernel
  refine ⟨by decide, by decide, ?_, ?_, ?_, ?_⟩ <;> unfold floatValue <;> simp only [h1, h2, h3] <;> norm_num

theorem witness_ResetClearsTheOverlap : (openMono []).valid = true ∧ State.reset.valid = false := ⟨rfl, rfl⟩

/-- OPEN_STREAM over V45's header ends OK. -/
theorem test_openStream :
    after (exec (.openStream 90) (overHdr headerV45.bytes 0)) (fun t => (t.status, t.valid, t.ctx.loopEndFrame)) =
      some (.ok, true, 15) := by decide +kernel

theorem witness_ResetAfterOpenChangesNothing :
    ∃ (s t : State), exec (.openStream 90) s = .next t ∧ t.status = .ok := by
  obtain ⟨t, h, hf⟩ := after_some test_openStream
  exact ⟨_, t, h, (congrArg Prod.fst hf)⟩

theorem witness_SamplesInterleaved :
    (let s : State := { openMono [] with decoded := true }
     s.valid = true ∧ s.decoded = true) ∧ (openMono []).decoded = false ∧ State.reset.valid = false := ⟨⟨rfl, rfl⟩, rfl, rfl⟩

/-- The bytes of V45's header with some replaced. -/
def headerWith (l : List (Nat × Byte)) : State :=
  overHdr (l.foldl (fun b c => b.set c.1 c.2) headerV45.bytes) 0

/-- A length beyond the buffer; a header that opens; and one for each rejection: another tag, a declared size
of 7, a size of 91 for 90 bytes, a size of 23, fmt spelled otherwise, comp spelled otherwise. -/
theorem witness_OpenEndsEitherWay :
    (v10 0).hdr.size < (6 : BitVec 32).toNat ∧ (5 : BitVec 32).toNat ≤ (v10 0).hdr.size ∧ (5 : BitVec 32).toNat < 8 ∧
    (90 : BitVec 32).toNat ≤ (overHdr headerV45.bytes 0).hdr.size ∧
    ¬ spells (BitVec.ofNat 32 ((headerWith [(3, 1)]).hdr.fieldValue (8 * 0) 32)) 0x48434100#32 ∧
    (headerWith [(7, 7)]).hdr.fieldValue 48 16 < 8 ∧
    (90 : BitVec 32).toNat < (headerWith [(7, 91)]).hdr.fieldValue 48 16 ∧
    (headerWith [(7, 23)]).hdr.fieldValue 48 16 < 8 + 16 ∧
    ¬ spells (BitVec.ofNat 32 ((headerWith [(8, 0x67)]).hdr.fieldValue (8 * 8) 32)) 0x666D7400#32 ∧
    ¬ spells (BitVec.ofNat 32 ((headerWith [(24, 0x64)]).hdr.fieldValue (8 * 24) 32)) 0x636F6D70#32 ∧
    ¬ spells (BitVec.ofNat 32 ((headerWith [(24, 0x64)]).hdr.fieldValue (8 * 24) 32)) 0x64656300#32 := by
  unfold spells
  simp only [← Buffer.bits_eq_fieldValue]
  decide +kernel

/-- A header without comp and dec is HeaderInvalid (S1). -/
theorem test_openStream_bands :
    after (exec (.openStream 90) (headerWith [(24, 0x64)])) (fun t => (t.status, t.valid)) =
      some (.headerInvalid, false) := by decide +kernel

/-- One command that opens and one that does not. -/
theorem witness_OpenStreamIsItsStages :
    (∃ s t : State, exec (.openStream 90) s = .next t ∧ t.status = .ok) ∧
    ∃ s t : State, exec (.openStream 90) s = .next t ∧ t.status = .headerInvalid := by
  obtain ⟨t, h, hf⟩ := after_some test_openStream
  obtain ⟨u, k, kf⟩ := after_some test_openStream_bands
  exact ⟨⟨_, t, h, congrArg Prod.fst hf⟩, _, u, k, congrArg Prod.fst kf⟩

/-- A frame of P5's size: sync word, noise level 100, boundary 0, then zero bits. -/
def frameP5 : List Byte := [0xFF, 0xFF, 0x32, 0x00] ++ List.replicate 44 0

/-- Which of the last two clauses applies to a frame with its sync word depends on the checksum primitive, which is open
(00_scope.md rule R9): one of the two does. -/
theorem witness_FrameResultOrder :
    State.reset.valid = false ∧ ((openMono frameP5).valid = true ∧ (openMono frameP5).frm.size < (49 : BitVec 32).toNat) ∧
    ((openMono frameP5).StreamInv ∧ (47 : BitVec 32).toNat ≤ (openMono frameP5).frm.size ∧
      (47 : BitVec 32).toNat < (openMono frameP5).ctx.frameSize.toNat) ∧
    ((openMono (List.replicate 48 0)).StreamInv ∧ (48 : BitVec 32).toNat ≤ (openMono (List.replicate 48 0)).frm.size ∧
      (openMono (List.replicate 48 0)).ctx.frameSize.toNat ≤ (48 : BitVec 32).toNat ∧
      ¬ ((openMono (List.replicate 48 0)).frm.byte 0 = 0xFF ∧ (openMono (List.replicate 48 0)).frm.byte 1 = 0xFF)) ∧
    ((openMono frameP5).frm.byte 0 = 0xFF ∧ (openMono frameP5).frm.byte 1 = 0xFF ∧
      (openMono frameP5).ctx.frameSize.toNat ≤ (48 : BitVec 32).toNat ∧
      (let sum := Config.hw.checksumFrame ((List.range 48).map (openMono frameP5).frm.byte)
       sum ≠ 0 ∨ sum = 0)) := by
  refine ⟨rfl, ⟨rfl, by decide⟩, ⟨openMono_inv _, by decide, by decide⟩,
    ⟨openMono_inv _, by decide, by decide, by decide +kernel⟩, by decide +kernel, by decide +kernel, by decide, ?_⟩
  exact (Classical.em _).symm

/-- A bad block in front of any valid code: V24's, a candidate of 64, behind noise level 0. -/
theorem witness_FrameResultOrder_bad :
    let s := openMono ([0xFF, 0xFF, 0x00, 0x00, 0x7F, 0x50] ++ List.replicate 42 0)
    let bad := BadBlock.scale 3 62 [.delta 5, .delta 0, .delta 0, .delta 0, .delta 0, .delta 0, .delta 0]
    let bits := bitsOf 9 0 ++ bitsOf 7 0 ++ (s.codeBits [] ++ (bad.bits ++ []))
    s.StreamInv ∧ (0 : Fin 16).val = ([] : List ChannelCode).length ∧ (0 : Fin 16).val < s.ctx.channelCount.toNat ∧
    s.codesFit 0 [] (bad.bits ++ []) ∧ s.badFits 0 bad ∧ 16 + bits.length ≤ 8 * s.ctx.frameSize.toNat ∧
    (∀ i, i < bits.length → s.clearBit (16 + i) = bits.getD i false) ∧ s.frm.byte 0 = 0xFF ∧ s.frm.byte 1 = 0xFF ∧
    bad.error = .invalidScaleFactor := by
  refine ⟨openMono_inv _, rfl, by decide, trivial, ⟨by decide, by decide, by decide, by decide, ?_, 64, by decide,
    .inr (by decide)⟩, by decide, ?_, by decide +kernel, by decide +kernel, rfl⟩
  · simp [DeltaSym.encodable]
  · intro i hi
    have hi' : i < 46 := hi
    unfold State.clearBit
    rw [show tableByte (openMono ([0xFF, 0xFF, 0x00, 0x00, 0x7F, 0x50] ++ List.replicate 42 0)).cipherTable
        ((openMono ([0xFF, 0xFF, 0x00, 0x00, 0x7F, 0x50] ++ List.replicate 42 0)).frm.byte ((16 + i) / 8)) =
      (openMono ([0xFF, 0xFF, 0x00, 0x00, 0x7F, 0x50] ++ List.replicate 42 0)).frm.byte ((16 + i) / 8) from
      (openMono_inv _).cipher rfl _]
    revert i
    decide +kernel

/-- A short frame: DECODE_FRAME gives a next state with ShortBuffer. -/
theorem test_decodeFrame_short : after (exec (.decodeFrame 47) (openMono frameP5)) (·.status) = some .shortBuffer := by
  decide +kernel

theorem witness_FrameKeepsTheStream_FailedFrameKeepsTheSound :
    ∃ s t : State, s.StreamInv ∧ exec (.decodeFrame 47) s = .next t ∧ t.status ≠ .ok ∧
      t.status ∈ [Status.shortBuffer, .syncError, .checksumError] := by
  obtain ⟨t, h, hf⟩ := after_some test_decodeFrame_short
  exact ⟨_, t, openMono_inv _, h, by rw [hf]; decide, by rw [hf]; decide⟩

/-- The codes of a frame of zero bits for the mono stream: zero scale factors, no high-band scale. -/
theorem witness_BuiltFrameDecodes :
    let s := openMono frameP5
    let codes : List ChannelCode := [{ scale := .zeros, side := .highBands [] }]
    let bits := bitsOf 9 100 ++ bitsOf 7 0 ++ (s.codeBits codes ++ [false])
    s.StreamInv ∧ s.valid = true ∧ s.ctx.frameSize.toNat ≤ (48 : BitVec 32).toNat ∧
    (48 : BitVec 32).toNat ≤ s.frm.size ∧ s.frm.byte 0 = 0xFF ∧ s.frm.byte 1 = 0xFF ∧
    codes.length = s.ctx.channelCount.toNat ∧ s.codesFit 0 codes [false] ∧ 16 + bits.length ≤ 8 * s.ctx.frameSize.toNat ∧
    ∀ i, i < bits.length → s.clearBit (16 + i) = bits.getD i false := by
  refine ⟨openMono_inv _, rfl, by decide, by decide, by decide +kernel, by decide +kernel, rfl, ⟨fun d hd => ?_, trivial⟩,
    by decide, ?_⟩
  · have hd0 : d = 0 := Fin.ext hd
    subst hd0
    refine ⟨trivial, rfl, rfl, ?_⟩
    intro v hv
    cases hv
  · intro i hi
    have hi' : i < 20 := hi
    unfold State.clearBit
    rw [show tableByte (openMono frameP5).cipherTable ((openMono frameP5).frm.byte ((16 + i) / 8)) =
      (openMono frameP5).frm.byte ((16 + i) / 8) from (openMono_inv frameP5).cipher rfl _]
    revert i
    decide +kernel

theorem witness_DecodeFrameIsItsStages :
    ∃ s t : State, s.valid = true ∧ exec (.decodeFrame 47) s = .next t ∧ t.status ≠ .ok := by
  obtain ⟨t, h, hf⟩ := after_some test_decodeFrame_short
  exact ⟨_, t, rfl, h, by rw [hf]; decide⟩

/-- A stage that is none of the writers named. -/
theorem witness_WritersOfTheState :
    ∃ (s t : State), exec (.imPass1 0) s = .next t ∧ ((encode (.imPass1 0)).1 ≠ .chunk) := ⟨State.reset, _, rfl, by decide⟩

end Sys2Proof.Machine
end

section
/-! PROOFS. Binary32 sums, differences and products round once (00_scope.md rule R14): on finite operands each is one
`ofMag`, a sign and a rounded magnitude, and `isRounded_ofMag` says what that is. -/

namespace Sys2Proof.F32

/-! The classes of a pattern, and what flipping the sign bit does to them. -/

theorem isNaN_iff (x : F32) : x.isNaN = true ↔ 0x7F800000 < x.toNat % 2 ^ 31 := by
  rw [isNaN, Bool.and_eq_true, beq_iff_eq, bne_iff_ne, expo, frac]; omega

theorem isNaN_eq_false_of_isFinite {x : F32} (h : x.isFinite = true) : x.isNaN = false := by
  rw [isFinite, bne_iff_ne] at h
  simp [isNaN, h]

theorem isInf_eq_false_of_isFinite {x : F32} (h : x.isFinite = true) : x.isInf = false := by
  rw [isFinite, bne_iff_ne] at h
  simp [isInf, h]

theorem neg_low (x : F32) : x.neg.toNat % 2 ^ 31 = x.toNat % 2 ^ 31 := by
  rw [neg, BitVec.toNat_xor, Nat.xor_mod_two_pow, show (0x80000000#32).toNat % 2 ^ 31 = 0 from rfl, Nat.xor_zero]

@[simp] theorem neg_sign (x : F32) : x.neg.sign = !x.sign := by
  rw [sign, neg, BitVec.getLsbD_xor, show (0x80000000#32).getLsbD 31 = true from rfl, Bool.xor_true, sign]

@[simp] theorem neg_isFinite (x : F32) : x.neg.isFinite = x.isFinite := by
  rw [Bool.eq_iff_iff, isFinite_iff, isFinite_iff, neg_low]

@[simp] theorem neg_isNaN (x : F32) : x.neg.isNaN = x.isNaN := by
  rw [Bool.eq_iff_iff, isNaN_iff, isNaN_iff, neg_low]

@[simp] theorem neg_mag (x : F32) : x.neg.mag = x.mag := by
  rw [mag_eq, mag_eq, neg_low]

@[simp] theorem neg_sval (x : F32) : x.neg.sval = -x.sval := by
  rw [sval, sval, neg_sign, neg_mag]
  cases x.sign <;> simp

@[simp] theorem neg_floatValue (x : F32) : Machine.floatValue x.neg = -Machine.floatValue x := by
  rw [Machine.floatValue, Machine.floatValue, neg_sval, Int.cast_neg, neg_div]

/-! The exact results, in units of 2^-149 and 2^-298. -/

theorem floatValue_add (a b : F32) :
    Machine.floatValue a + Machine.floatValue b = ((a.sval + b.sval : Int) : ℚ) / 2 ^ 149 := by
  rw [Machine.floatValue, Machine.floatValue, Int.cast_add, add_div]

theorem floatValue_mul (a b : F32) :
    Machine.floatValue a * Machine.floatValue b = ((a.sval * b.sval : Int) : ℚ) / 2 ^ (149 + 149) := by
  rw [Machine.floatValue, Machine.floatValue, Int.cast_mul, div_mul_div_comm, ← pow_add]

theorem sval_mul (a b : F32) :
    a.sval * b.sval = if a.sign != b.sign then -((a.mag * b.mag : Nat) : Int) else (a.mag * b.mag : Nat) := by
  rw [sval, sval]
  cases a.sign <;> cases b.sign <;> simp

/-! The operations on finite operands. -/

theorem ofMag_zero (s : Bool) (u : Nat) : ofMag s u 0 = if s then 0x80000000#32 else 0 := by
  have h : roundMag u 0 = 0 := by simp [roundMag, rne]
  rw [ofMag, h]
  cases s <;> rfl

/-- The sign of a finite sum: an exact zero is negative only as the sum of two negative zeros. -/
def sumSign (a b : F32) : Bool :=
  if a.sval + b.sval = 0 then a.sign && b.sign else decide (a.sval + b.sval < 0)

theorem add_of_finite (nan : F32) {a b : F32} (ha : a.isFinite = true) (hb : b.isFinite = true) :
    add nan a b = ofMag (sumSign a b) 0 (a.sval + b.sval).natAbs := by
  simp only [add, isNaN_eq_false_of_isFinite ha, isNaN_eq_false_of_isFinite hb, isInf_eq_false_of_isFinite ha,
    isInf_eq_false_of_isFinite hb, Bool.or_self, Bool.false_eq_true, if_false, sumSign]
  split
  · next h => rw [h, Int.natAbs_zero, ofMag_zero]; rfl
  · rfl

theorem sumSign_natAbs (a b : F32) :
    (if sumSign a b then -((a.sval + b.sval).natAbs : Int) else (a.sval + b.sval).natAbs) = a.sval + b.sval := by
  rw [sumSign]
  split
  · next h => simp [h]
  · simp only [decide_eq_true_eq]
    split <;> omega

theorem mul_of_finite (nan : F32) {a b : F32} (ha : a.isFinite = true) (hb : b.isFinite = true) :
    mul nan a b = ofMag (a.sign != b.sign) 149 (a.mag * b.mag) := by
  simp only [mul, isNaN_eq_false_of_isFinite ha, isNaN_eq_false_of_isFinite hb, isInf_eq_false_of_isFinite ha,
    isInf_eq_false_of_isFinite hb, Bool.or_self, Bool.false_eq_true, if_false]

theorem isRounded_add (nan : F32) {a b : F32} (ha : a.isFinite = true) (hb : b.isFinite = true) :
    Machine.IsRounded (add nan a b) (Machine.floatValue a + Machine.floatValue b) := by
  have h := isRounded_ofMag (sumSign a b) 0 (a.sval + b.sval).natAbs
  rwa [sumSign_natAbs, Nat.zero_add, ← floatValue_add, ← add_of_finite nan ha hb] at h

theorem isRounded_sub (nan : F32) {a b : F32} (ha : a.isFinite = true) (hb : b.isFinite = true) :
    Machine.IsRounded (sub nan a b) (Machine.floatValue a - Machine.floatValue b) := by
  rw [sub_eq_add_neg, ← neg_floatValue]
  exact isRounded_add nan ha ((neg_isFinite b).trans hb)

theorem isRounded_mul (nan : F32) {a b : F32} (ha : a.isFinite = true) (hb : b.isFinite = true) :
    Machine.IsRounded (mul nan a b) (Machine.floatValue a * Machine.floatValue b) := by
  have h := isRounded_ofMag (a.sign != b.sign) 149 (a.mag * b.mag)
  rwa [← sval_mul, ← floatValue_mul, ← mul_of_finite nan ha hb] at h

theorem mul_sign_of_finite (nan : F32) {a b : F32} (ha : a.isFinite = true) (hb : b.isFinite = true) :
    (mul nan a b).sign = (a.sign != b.sign) := by
  rw [mul_of_finite nan ha hb, ofMag_sign]

theorem add_of_exact_zero (nan : F32) {a b : F32} (ha : a.isFinite = true) (hb : b.isFinite = true)
    (h : Machine.floatValue a + Machine.floatValue b = 0) :
    add nan a b = if a.sign && b.sign then 0x80000000#32 else 0 := by
  have hv : a.sval + b.sval = 0 := by
    rw [floatValue_add, div_eq_zero_iff] at h
    exact_mod_cast h.resolve_right (by positivity)
  rw [add_of_finite nan ha hb, sumSign, if_pos hv, hv, Int.natAbs_zero, ofMag_zero]

/-! The operations on a NaN operand. -/

theorem add_of_isNaN (nan : F32) {a b : F32} (h : a.isNaN = true ∨ b.isNaN = true) : add nan a b = nan := by
  rw [add, if_pos ((Bool.or_eq_true ..).mpr h)]

theorem sub_of_isNaN (nan : F32) {a b : F32} (h : a.isNaN = true ∨ b.isNaN = true) : sub nan a b = nan :=
  add_of_isNaN nan (by rwa [neg_isNaN])

theorem mul_of_isNaN (nan : F32) {a b : F32} (h : a.isNaN = true ∨ b.isNaN = true) : mul nan a b = nan := by
  rw [mul, if_pos ((Bool.or_eq_true ..).mpr h)]

end Sys2Proof.F32

namespace Sys2Proof.Machine

/-- Settles O47: on finite operands each operation is one rounded magnitude with a sign, and a NaN operand yields the
drawn NaN. -/
theorem floatOperationsRoundOnce : Obligations.FloatOperationsRoundOnce := by
  intro nan a b hnan
  refine ⟨fun ha hb => ⟨F32.isRounded_add nan ha hb, F32.isRounded_sub nan ha hb, F32.isRounded_mul nan ha hb,
    F32.mul_sign_of_finite nan ha hb, F32.add_of_exact_zero nan ha hb⟩, fun h => ?_⟩
  rw [F32.add_of_isNaN nan h, F32.sub_of_isNaN nan h, F32.mul_of_isNaN nan h]
  exact ⟨hnan, hnan, hnan⟩

end Sys2Proof.Machine
end

section
/-! PROOFS. The memories stay canonical and the cursor inside its buffer (10_state.md rule R35, 20_memory.md rule R58):
every stage keeps the memories and what the cursor wraps, or wraps anew within a buffer, or decrypts FRM in place. The
cursor's position is the matter of `exec_inRange` and, along a frame, of `runStages_advance`. -/

namespace Sys2Proof.Machine

/-- `State.MemoryInv` but for the cursor's position. -/
structure State.StorageInv (s : State) : Prop where
  hdr : s.hdr.wf = true
  frm : s.frm.wf = true
  out : Mem.wf s.out = true
  whole : s.cur.sizeBits % 8 = 0
  short : s.cur.sizeBits ≤ 524280
  inside : s.cur.sizeBits ≤ 8 * s.active.size

theorem State.memoryInv_iff (s : State) : s.MemoryInv ↔ s.StorageInv ∧ s.cur.pos < 2 ^ 31 := by
  constructor
  · rintro ⟨hh, hf, ho, ⟨h8, hl, hp⟩, hi⟩
    exact ⟨⟨hh, hf, ho, h8, hl, hi⟩, hp⟩
  · rintro ⟨⟨hh, hf, ho, h8, hl, hi⟩, hp⟩
    exact ⟨hh, hf, ho, ⟨h8, hl, hp⟩, hi⟩

/-- Memories rewritten under a cursor that still wraps the same, the wrapped buffer's size kept. -/
theorem State.StorageInv.rewritten {s t : State} (h : s.StorageInv) (hh : t.hdr.wf = true) (hf : t.frm.wf = true)
    (ho : Mem.wf t.out = true) (eb : t.cur.buf = s.cur.buf) (es : t.cur.sizeBits = s.cur.sizeBits)
    (size : ∀ b, s.cur.buf = some b → (t.buffer b).size = (s.buffer b).size) : t.StorageInv := by
  have ea : t.active.size = s.active.size := by
    rw [State.active, State.active, eb]
    cases hs : s.cur.buf with
    | none => rfl
    | some b => exact size b hs
  exact ⟨hh, hf, ho, es ▸ h.whole, es ▸ h.short, by rw [es, ea]; exact h.inside⟩

/-- The memories and what the cursor wraps are all that matters. -/
theorem State.StorageInv.congr {s t : State} (h : s.StorageInv)
    (e : (t.hdr, t.frm, t.out, t.cur.buf, t.cur.sizeBits) = (s.hdr, s.frm, s.out, s.cur.buf, s.cur.sizeBits)) :
    t.StorageInv := by
  simp only [Prod.mk.injEq] at e
  obtain ⟨eh, ef, eo, eb, es⟩ := e
  refine h.rewritten (eh ▸ h.hdr) (ef ▸ h.frm) (eo ▸ h.out) eb es fun b _ => ?_
  cases b <;> simp only [State.buffer, eh, ef]

/-- Where nothing is wrapped only the memories matter. -/
theorem State.StorageInv.of_unwrapped {t : State} (hh : t.hdr.wf = true) (hf : t.frm.wf = true)
    (ho : Mem.wf t.out = true) (hs : t.cur.sizeBits = 0) : t.StorageInv :=
  ⟨hh, hf, ho, by rw [hs], by omega, by omega⟩

theorem State.MemoryInv.congr {s t : State} (h : s.MemoryInv)
    (e : (t.hdr, t.frm, t.out, t.cur.buf, t.cur.sizeBits) = (s.hdr, s.frm, s.out, s.cur.buf, s.cur.sizeBits))
    (hp : t.cur.pos = s.cur.pos) : t.MemoryInv := by
  rw [State.memoryInv_iff] at h ⊢
  exact ⟨h.1.congr e, hp ▸ h.2⟩

/-! Properties of results. -/

theorem Res.All.of_hyp {p : Prop} {P : State → Prop} {r : Res} (h : p → r.All P) : r.All fun t => p → P t := by
  cases r with
  | done t => exact h
  | raised e t => exact h
  | faulted f => trivial
  | refused f => trivial

theorem Res.All.and {P Q : State → Prop} {r : Res} (hp : r.All P) (hq : r.All Q) : r.All fun t => P t ∧ Q t := by
  cases r with
  | done t => exact ⟨hp, hq⟩
  | raised e t => exact ⟨hp, hq⟩
  | faulted f => trivial
  | refused f => trivial

/-- The invariant from its two halves. -/
theorem Res.All.memoryInv {r : Res} (hs : r.All State.StorageInv) (hp : r.All fun t => t.cur.pos < 2 ^ 31) :
    r.All State.MemoryInv :=
  (hs.and hp).of_imp fun t => (State.memoryInv_iff t).2

/-! The ends of a command and the hand-over of a buffer. -/

theorem takeError_storageInv (e : Status) (s : State) (h : s.StorageInv) :
    (takeError Config.hw e s).StorageInv := by
  cases e <;> exact .of_unwrapped h.hdr h.frm h.out rfl

/-- Taking an error unwraps the cursor and writes no memory. -/
theorem takeError_memoryInv (e : Status) (s : State) (h : s.MemoryInv) : (takeError Config.hw e s).MemoryInv := by
  rw [State.memoryInv_iff, takeError_pos] at *
  exact ⟨takeError_storageInv e s h.1, h.2⟩

theorem endCommand_memoryInv {s : State} (hh : s.hdr.wf = true) (hf : s.frm.wf = true) (ho : Mem.wf s.out = true)
    (hp : s.cur.pos < 2 ^ 31) : (endCommand s).MemoryInv :=
  (State.memoryInv_iff _).2 ⟨.of_unwrapped hh hf ho rfl, hp⟩

theorem State.MemoryInv.endCommand {s : State} (h : s.MemoryInv) : (endCommand s).MemoryInv := by
  obtain ⟨hh, hf, ho, ⟨-, -, hp⟩, -⟩ := h
  exact endCommand_memoryInv hh hf ho hp

theorem State.StorageInv.load {s : State} (h : s.StorageInv) : ∀ l, (s.load l).StorageInv
  | none => h
  | some (b, bytes) => by
    have hw := Buffer.wf_ofBytes bytes
    by_cases hc : s.cur.buf = some b
    · simp only [State.load, if_pos hc]
      cases b with
      | hdr => exact .of_unwrapped hw h.frm h.out rfl
      | frm => exact .of_unwrapped h.hdr hw h.out rfl
    · simp only [State.load, if_neg hc]
      cases b with
      | hdr => exact h.rewritten hw h.frm h.out rfl rfl fun | .hdr, ha => absurd ha hc | .frm, _ => rfl
      | frm => exact h.rewritten h.hdr hw h.out rfl rfl fun | .hdr, _ => rfl | .frm, ha => absurd ha hc

theorem State.load_pos (s : State) : ∀ l, (s.load l).cur.pos = s.cur.pos
  | none => rfl
  | some (b, bytes) => by
    simp only [State.load]
    cases b <;> split <;> rfl

/-- A buffer handed over is canonical, and a cursor that wrapped the old one wraps nothing. -/
theorem State.MemoryInv.load {s : State} (h : s.MemoryInv) (l : Option (BufId × List Byte)) :
    (s.load l).MemoryInv := by
  rw [State.memoryInv_iff, State.load_pos] at *
  exact ⟨h.1.load l, h.2⟩

/-! Stages. -/

/-- A wrap is refused beyond the buffer, and its length has 16 bits. -/
theorem wrap_storageInv {s : State} (h : s.StorageInv) (b : BufId) {len : Nat} (hl : len ≤ 65535) (p0 : Nat) :
    (wrap b len p0 s).All State.StorageInv := by
  rw [wrap]
  refine Res.all_ite (fun _ => trivial) fun hb => ⟨h.hdr, h.frm, h.out, ?_, ?_, ?_⟩
  · show 8 * len % 8 = 0; omega
  · show 8 * len ≤ 524280; omega
  · show 8 * len ≤ 8 * (s.buffer b).size; omega

theorem wrap_memoryInv {s : State} (h : s.StorageInv) (b : BufId) {len p0 : Nat} (hl : len ≤ 65535)
    (hp : p0 < 2 ^ 31) : (wrap b len p0 s).All State.MemoryInv :=
  (wrap_storageInv h b hl p0).memoryInv (Res.all_ite (fun _ => trivial) fun _ => hp)

/-- Every stage, however the cursor moves, keeps the memories canonical and the wrapped length inside its buffer. -/
theorem stage_storageInv (cfg : Config) (mv : Moves) (i : Instr) {s : State} (h : s.StorageInv) :
    (stageBy cfg mv i s).All State.StorageInv := by
  have stay (t : State)
      (e : (t.hdr, t.frm, t.out, t.cur.buf, t.cur.sizeBits) = (s.hdr, s.frm, s.out, s.cur.buf, s.cur.sizeBits)) :
      t.StorageInv := h.congr e
  have size16 : ∀ w : BitVec 16, w.toNat ≤ 65535 := fun w => by have := w.isLt; omega
  cases i with
  | openStream n | setKey k | decodeFrame n | readSamples16 | resetStream => trivial
  | bcWrap b l p => exact wrap_storageInv (stay (s.enter 0x01) rfl) b (size16 l) _
  | bcPeek n | bcRead n | bcSkip d => exact Res.all_ite (fun _ => trivial) fun _ => stay _ rfl
  | hdProlog =>
    refine Res.all_ite (fun _ => stay _ rfl) fun _ => ?_
    refine (wrap_storageInv (stay (s.enter 0x10) rfl) .hdr (by decide) 0).andThen (fun _ h => h) fun t _ ht => ?_
    exact Res.all_ite (fun _ => ht.congr rfl) fun _ => Res.all_ite (fun _ => ht.congr rfl) fun _ => ht.congr rfl
  | hdFmt | hdComp | hdAth | hdRva | hdValidate => exact Res.all_ite (fun _ => stay _ rfl) fun _ => stay _ rfl
  | hdDec | hdVbr | hdLoop | hdCiph | hdComm =>
    exact Res.all_ite (fun _ => Res.all_ite (fun _ => stay _ rfl) fun _ => stay _ rfl) fun _ => stay _ rfl
  | hdPad | hdChantype => exact stay _ rfl
  | hdDerive =>
    exact Res.all_ite (fun _ => Res.all_ite (fun _ => stay _ rfl) fun _ =>
      Res.all_ite (fun _ => stay _ rfl) fun _ => stay _ rfl) fun _ => stay _ rfl
  | frChecklen => exact Res.all_ite (fun _ => stay _ rfl) fun _ => stay _ rfl
  | frSync =>
    refine (wrap_storageInv (stay (s.enter 0x21) rfl) .frm (size16 _) 0).andThen (fun _ h => h) fun t _ ht => ?_
    exact Res.all_ite (fun _ => ht.congr rfl) fun _ => ht.congr rfl
  | frChecksum =>
    exact Res.all_ite (fun _ => trivial) fun _ => Res.all_ite (fun _ => stay _ rfl) fun _ => stay _ rfl
  | frDecrypt =>
    refine Res.all_ite (fun _ => trivial) fun hn => wrap_storageInv ?_ .frm (size16 _) 16
    exact h.rewritten h.hdr (Buffer.wf_substitute _ _ _ h.frm (Nat.le_of_not_lt hn)) h.out rfl rfl
      fun | .hdr, _ => rfl | .frm, _ => rfl
  | frScale c =>
    exact Res.all_ite (fun _ => stay _ rfl) fun _ => Res.all_ite (fun _ => stay _ rfl) fun _ =>
      Res.all_ite (fun _ => stay _ rfl) fun _ => stay _ rfl
  | frIntensity c =>
    refine Res.all_ite (fun _ => Res.all_ite (fun _ => ?_) fun _ => ?_) fun _ => stay _ rfl
    · exact Res.all_ite (fun _ => stay _ rfl) fun _ => stay _ rfl
    · exact Res.all_ite (fun _ => Res.all_ite (fun _ => stay _ rfl) fun _ =>
        Res.all_ite (fun _ => stay _ rfl) fun _ => stay _ rfl) fun _ => stay _ rfl
  | frNoiselevel | frResolution c | frGain c | imPass1 c | imPass2 c | imWindow c sf => exact stay _ rfl
  | spNoise c | spHfr c => exact Res.all_ite (fun _ => stay _ rfl) fun _ => stay _ rfl
  | spDequant c | spIstereo c sf | spMsstereo c =>
    simp only [stageBy, spDequant, spIstereo, spMsstereo]
    split
    · trivial
    · exact stay _ rfl

/-! Sequences. -/

/-- A list of stages keeps a property that each of them keeps. -/
theorem runStages_keeps {cfg : Config} {P : State → Prop} {l : List Instr} {s : State} (hs : P s)
    (h : ∀ i ∈ l, ∀ t, P t → (stageMeaning cfg i t).All P) : (runStages cfg l s).All P :=
  (runStages_all cfg (fun a b => P a → P b) (fun _ => id) (fun _ _ _ h k => k ∘ h) l s
    fun i hi t => .of_hyp (h i hi t)).of_imp fun _ ht => ht hs

/-- A stage that moves the cursor only inside a buffer or to a fixed position keeps the invariant. -/
theorem stageMeaning_memoryInv {i : Instr} (hi : cursorReach i = none) {s : State} (h : s.MemoryInv) :
    (stageMeaning Config.hw i s).All State.MemoryInv := by
  obtain ⟨hs, -⟩ := (State.memoryInv_iff s).1 h
  obtain ⟨-, -, -, hl, -⟩ := h
  exact (stage_storageInv _ _ i hs).memoryInv (stage_inRange i s hl hi)

/-- The re-wrap on the declared length (41_header_parser.md rule R122). -/
theorem rewrapHeader_memoryInv {s : State} (h : s.MemoryInv) : (rewrapHeader s).All State.MemoryInv := by
  obtain ⟨hs, -⟩ := (State.memoryInv_iff s).1 h
  have hn := s.ctx.headerSize.isLt
  refine Res.all_ite (fun _ => h) fun _ => Res.all_ite (fun _ => h) fun _ => ?_
  refine (wrap_memoryInv hs .hdr (by omega) (by omega)).andThen (fun _ h => h) fun t _ ht => ?_
  exact (State.memoryInv_iff _).2 ⟨((State.memoryInv_iff t).1 ht).1.congr rfl, by show 64 < _; omega⟩

theorem compOrDec_memoryInv {s : State} (h : s.MemoryInv) : (compOrDec s).All State.MemoryInv :=
  Res.all_ite (fun _ => stageMeaning_memoryInv (i := .hdComp) rfl h) fun _ =>
    Res.all_ite (fun _ => stageMeaning_memoryInv (i := .hdDec) rfl h) fun _ => h

/-- No stage of OPEN_STREAM moves the cursor from wherever it stands, so each keeps the whole invariant. -/
theorem openSequence_memoryInv {s : State} (h : s.MemoryInv) : (openSequence Config.hw s).All State.MemoryInv := by
  have prolog := stageMeaning_memoryInv (i := .hdProlog) rfl h
  have rewrap := prolog.andThen (fun _ h => h) fun t _ => rewrapHeader_memoryInv
  have fmt := rewrap.andThen (fun _ h => h) fun t _ => stageMeaning_memoryInv (i := .hdFmt) rfl
  have bands := fmt.andThen (fun _ h => h) fun t _ => compOrDec_memoryInv
  refine bands.andThen (fun _ h => h) fun t _ ht => runStages_keeps ht fun i hi u hu => ?_
  have tail : ∀ i ∈ headerTail, cursorReach i = none := by decide
  exact stageMeaning_memoryInv (tail i hi) hu

/-- A frame sets the position to 16 at its second stage and reaches less than 2^31 from there. -/
theorem frameSequence_pos (u : State) {s : State} (h : s.cur.pos < 2 ^ 31) :
    (runStages Config.hw (frameSequence u) s).All fun t => t.cur.pos < 2 ^ 31 := by
  have e : frameSequence u = .frChecklen :: .frSync :: (frameSequence u).drop 2 := rfl
  have len := length_frameSequence u
  have checklen : (stageMeaning Config.hw .frChecklen s).All fun t => t.cur.pos < 2 ^ 31 :=
    Res.all_ite (fun _ => h) fun _ => h
  have sync : ∀ t, (stageMeaning Config.hw .frSync t).All fun v => v.cur.pos = 16 := by
    intro t
    simp only [stageMeaning, stageBy, frSync, wrap]
    split
    · trivial
    · exact Res.all_ite (fun _ => rfl) fun _ => rfl
  rw [e, runStages]
  refine checklen.andThen (fun _ h => h) fun t _ _ => ?_
  rw [runStages]
  refine (sync t).andThen (fun v hv => by omega) fun v _ hv => ?_
  refine (runStages_advance u _ (fun i hi => List.mem_of_mem_drop hi) v).of_imp fun w hw => ?_
  rw [AdvancesFrom, List.length_drop, hv] at hw
  omega

/-! Instructions and steps. -/

theorem openStream_memoryInv (n : BitVec 32) {s : State} (h : s.MemoryInv) :
    (openStream Config.hw n s).All State.MemoryInv :=
  Res.all_ite (fun _ => trivial) fun _ =>
    (openSequence_memoryInv (s := { s.unspecify Config.hw with hdrLen := n }) (h.congr rfl rfl)).andThen
      (fun _ h => h) fun _ _ ht => ht.endCommand.congr rfl rfl

/-- Along a frame the storage is kept stage by stage, the position by the sequence as a whole. -/
theorem decodeFrame_memoryInv (n : BitVec 32) {s : State} (h : s.MemoryInv) :
    (decodeFrame Config.hw n s).All State.MemoryInv := by
  obtain ⟨hs, hp⟩ := (State.memoryInv_iff s).1 h
  have storage : (runStages Config.hw (frameSequence s) { s with frmLen := n }).All State.StorageInv :=
    runStages_keeps (hs.congr rfl) fun i _ t ht => stage_storageInv _ _ i ht
  refine Res.all_ite (fun _ => trivial) fun _ => Res.all_ite (fun _ => trivial) fun _ => ?_
  exact (storage.memoryInv (frameSequence_pos s hp)).andThen (fun _ h => h) fun _ _ ht => ht.endCommand.congr rfl rfl

theorem setKey_memoryInv (k : BitVec 64) {s : State} (h : s.MemoryInv) :
    (setKey Config.hw k s).All State.MemoryInv := by
  obtain ⟨hh, hf, ho, ⟨-, -, hp⟩, -⟩ := h
  exact endCommand_memoryInv hh hf ho hp

theorem resetStream_memoryInv {s : State} (h : s.MemoryInv) : (resetStream s).All State.MemoryInv := by
  obtain ⟨hh, hf, ho, ⟨-, -, hp⟩, -⟩ := h
  rw [resetStream, State.mapLive]
  exact Res.all_ite (fun _ => trivial) fun _ => endCommand_memoryInv hh hf ho hp

theorem readSamples16_memoryInv {s : State} (h : s.MemoryInv) : (readSamples16 s).All State.MemoryInv := by
  obtain ⟨hh, hf, ho, ⟨-, -, hp⟩, -⟩ := h
  exact Res.all_ite (fun _ => trivial) fun _ => endCommand_memoryInv hh hf (Mem.wf_fill _ _ _ ho) hp

/-- Every instruction keeps the invariant: a command by its own lemma, any other as a stage over some moves. -/
theorem exec_memoryInv {i : Instr} {s t : State} (h : s.MemoryInv) (e : exec i s = .next t) : t.MemoryInv := by
  by_cases hp : (encode i).1 = .command
  · cases i with
    | openStream n => exact (openStream_memoryInv n h).outcome takeError_memoryInv e
    | setKey k => exact (setKey_memoryInv k h).outcome takeError_memoryInv e
    | decodeFrame n => exact (decodeFrame_memoryInv n h).outcome takeError_memoryInv e
    | readSamples16 => exact (readSamples16_memoryInv h).outcome takeError_memoryInv e
    | resetStream => exact (resetStream_memoryInv h).outcome takeError_memoryInv e
    | _ => cases hp
  · obtain ⟨hs, -⟩ := (State.memoryInv_iff s).1 h
    obtain ⟨-, -, -, hl, -⟩ := h
    obtain ⟨mv, n, e'⟩ := exec_stage_moves i s hp
    refine (State.memoryInv_iff t).2 ⟨?_, exec_inRange hl hp e⟩
    rw [e'] at e
    exact ((stage_storageInv _ mv i hs).drew (fun _ _ h => h.congr rfl) n).outcome takeError_storageInv e

/-- Settles O7: the hand-over of a buffer keeps the invariant, and so does every instruction. -/
theorem stepKeepsMemoryInv : Obligations.StepKeepsMemoryInv := by
  intro s t h e
  rw [step] at e
  split at e
  · injection e with e
    exact e ▸ h
  · next c rest _ =>
    have issued : (s.issue c rest).MemoryInv := State.MemoryInv.load (s := { s with queue := rest }) (h.congr rfl rfl) _
    split at e
    · exact exec_memoryInv issued e
    · cases e

end Sys2Proof.Machine
end

section
/-! PROOFS. An open stream stays legal whatever the host does (10_state.md rules R22 to R28): OPEN_STREAM leaves a legal
stream or none, SET_KEY derives the table anew, the other commands keep the registers, the table and the channels' types
and coded counts. -/

namespace Sys2Proof.Machine

/-- What `State.StreamInv` speaks of, the flag `decoded` left out, and the queue. -/
structure KeepsStream (s t : State) : Prop where
  queue : t.queue = s.queue
  valid : t.valid = s.valid
  ctx : t.ctx = s.ctx
  key : t.key = s.key
  table : t.cipherTable = s.cipherTable
  chan : ∀ c, (t.chan c).type = (s.chan c).type ∧ (t.chan c).codedCount = (s.chan c).codedCount

/-- What a step of the host keeps. -/
def HostKeeps (s t : State) : Prop := t.queue = s.queue ∧ (s.StreamInv → t.StreamInv)

theorem KeepsStream.channelLegal {s t : State} (k : KeepsStream s t) {c : Fin 16} (h : s.ChannelLegal c) :
    t.ChannelLegal c := by
  simp only [State.ChannelLegal, k.ctx, k.chan]
  exact h

theorem KeepsStream.hostKeeps {s t : State} (k : KeepsStream s t)
    (hd : s.StreamInv → t.decoded = true → s.valid = true) : HostKeeps s t := by
  refine ⟨k.queue, fun h => ⟨fun v => ?_, fun v c hc => ?_, fun v b => ?_, fun d => k.valid.trans (hd h d)⟩⟩
  all_goals rw [k.valid] at v
  · rw [k.ctx]
    exact h.ctx v
  · rw [k.ctx] at hc
    exact k.channelLegal (h.channels v c hc)
  · rw [k.ctx, k.key, k.table]
    exact h.cipher v b

theorem KeepsStream.of_same {s t : State} {n : BitVec 32} (h : SameStream { s with frmLen := n } t) :
    KeepsStream s t :=
  ⟨h.queue, h.valid, h.ctx, h.key, h.cipherTable, fun c => ⟨h.type c, h.coded c⟩⟩

theorem State.streamInv_of_closed {s : State} (hv : s.valid = false) (hd : s.decoded = false) : s.StreamInv where
  ctx v := absurd v (by simp [hv])
  channels v := absurd v (by simp [hv])
  cipher v := absurd v (by simp [hv])
  decoded d := absurd d (by simp [hd])

/-- Taking an error closes the stream or leaves it as it is. -/
theorem HostKeeps.takeError {s : State} (e : Status) (t : State) (h : HostKeeps s t) :
    HostKeeps s (takeError Config.hw e t) := by
  by_cases he : e = .headerInvalid
  · subst he
    exact ⟨h.1, fun _ => State.streamInv_of_closed rfl rfl⟩
  · rw [takeError_of_ne _ _ he]
    have k : KeepsStream t { t.idle with status := e } := ⟨rfl, rfl, rfl, rfl, rfl, fun _ => ⟨rfl, rfl⟩⟩
    obtain ⟨_, ki⟩ := k.hostKeeps fun i => i.decoded
    exact ⟨h.1, ki ∘ h.2⟩

/-- Handing over a buffer leaves the stream and the queue alone. -/
theorem State.load_hostKeeps (s : State) : ∀ l, HostKeeps s (s.load l)
  | none => ⟨rfl, id⟩
  | some (b, bytes) => by
    simp only [State.load]
    cases b <;> split <;> exact ⟨rfl, fun h => ⟨h.ctx, h.channels, h.cipher, h.decoded⟩⟩

/-! The five commands. -/

theorem Opened.streamInv {n : Nat} {u : State} (h : Opened u.key n u) : u.openedStream.StreamInv where
  ctx _ := h.ctx
  channels _ c hc := (h.channels c hc).1
  cipher _ := h.cipher
  decoded _ := rfl

theorem execOpenStream_hostKeeps {n : BitVec 32} {s t : State} (e : exec (.openStream n) s = .next t) :
    HostKeeps s t := by
  have e : (openStream Config.hw n s).outcome Config.hw = .next t := e
  rcases openStream_cases n s with ⟨-, r⟩ | ⟨-, ⟨u, r, k, o, -⟩ | ⟨u, r, k⟩⟩ <;> rw [r] at e
  · cases e
  · injection e with e
    have hk : u.key = s.key := k.key
    subst e
    exact ⟨k.queue, fun _ => (hk ▸ o).streamInv⟩
  · injection e with e
    subst e
    exact ⟨k.queue, fun _ => State.streamInv_of_closed rfl rfl⟩

theorem setKey_hostKeeps (k : BitVec 64) (s : State) : (setKey Config.hw k s).All (HostKeeps s) := by
  refine ⟨rfl, fun h => ⟨h.ctx, h.channels, fun v b => ?_, h.decoded⟩⟩
  have hv : s.valid = true := v
  show tableByte (if s.valid then _ else _) b = _
  rw [hv, if_pos rfl, tableByte_cipherTableOf]
  rfl

theorem decodeFrame_hostKeeps {n : BitVec 32} {s : State} (hv : s.valid = true) (hi : s.StreamInv)
    (hn : n.toNat ≤ s.frm.size) : (decodeFrame Config.hw n s).All (HostKeeps s) := by
  have checked : SameStream { s with frmLen := n } (checkedFrame { s with frmLen := n }) := by
    constructor <;> intros <;> rfl
  rcases decodeFrame_cases n s hv hi hn with ⟨-, r⟩ | ⟨-, -, r⟩ | ⟨-, -, -, r⟩ |
    ⟨-, -, -, ⟨e, u, -, -, unpacks, r⟩ | ⟨u, v, -, unpacks, sounds, r⟩⟩ <;> rw [r]
  · exact KeepsStream.hostKeeps ⟨rfl, rfl, rfl, rfl, rfl, fun _ => ⟨rfl, rfl⟩⟩ fun i => i.decoded
  · exact KeepsStream.hostKeeps ⟨rfl, rfl, rfl, rfl, rfl, fun _ => ⟨rfl, rfl⟩⟩ fun i => i.decoded
  · exact KeepsStream.hostKeeps ⟨rfl, rfl, rfl, rfl, rfl, fun _ => ⟨rfl, rfl⟩⟩ fun i => i.decoded
  · exact (KeepsStream.of_same (checked.trans unpacks.stream)).hostKeeps fun _ _ => hv
  · have k := KeepsStream.of_same ((checked.trans unpacks.stream).trans sounds.stream)
    exact KeepsStream.hostKeeps ⟨k.queue, k.valid, k.ctx, k.key, k.table, k.chan⟩ fun _ _ => hv

theorem readSamples16_hostKeeps (s : State) : (readSamples16 s).All (HostKeeps s) :=
  Res.all_ite (fun _ => trivial) fun _ =>
    KeepsStream.hostKeeps ⟨rfl, rfl, rfl, rfl, rfl, fun _ => ⟨rfl, rfl⟩⟩ fun i => i.decoded

theorem State.mapLive_keepsStream (s : State) (f : Channel → Channel)
    (hf : ∀ x, (f x).type = x.type ∧ (f x).codedCount = x.codedCount) : KeepsStream s (s.mapLive f) := by
  have chan : ∀ c, ((s.mapLive f).chan c).type = (s.chan c).type ∧
      ((s.mapLive f).chan c).codedCount = (s.chan c).codedCount := by
    intro c
    rw [State.chan_mapLive]
    split
    · exact hf _
    · exact ⟨rfl, rfl⟩
  rw [State.mapLive] at chan ⊢
  exact ⟨rfl, rfl, rfl, rfl, rfl, chan⟩

theorem resetStream_hostKeeps (s : State) : (resetStream s).All (HostKeeps s) := by
  have k := s.mapLive_keepsStream (fun x => { x with prev := Vector.replicate 128 F32.zero }) fun _ => ⟨rfl, rfl⟩
  rw [resetStream]
  generalize s.mapLive _ = t at k ⊢
  refine Res.all_ite (fun _ => trivial) fun hv => ?_
  have hv : s.valid = true := by simpa [State.streamOpen] using hv
  exact KeepsStream.hostKeeps ⟨k.queue, k.valid, k.ctx, k.key, k.table, k.chan⟩ fun _ _ => hv

/-- What the command port decodes to keeps an open stream. -/
theorem exec_hostKeeps {l : List Byte} {i : Instr} {s t : State} (hd : decode .command l = .ok i) (h : s.StreamInv)
    (e : exec i s = .next t) : HostKeeps s t := by
  rcases decode_command hd with ⟨n, rfl⟩ | ⟨k, rfl⟩ | ⟨n, rfl⟩ | rfl | rfl
  · exact execOpenStream_hostKeeps e
  · exact (setKey_hostKeeps k s).outcome HostKeeps.takeError e
  · obtain ⟨hv, hn⟩ := decodeFrame_valid n s t e
    exact (decodeFrame_hostKeeps hv h hn).outcome HostKeeps.takeError e
  · exact (readSamples16_hostKeeps s).outcome HostKeeps.takeError e
  · exact (resetStream_hostKeeps s).outcome HostKeeps.takeError e

/-- Settles O8: the call taken off the queue is a command, and each command keeps the stream and the queue. -/
theorem hostStepKeepsStreamInv : Obligations.HostStepKeepsStreamInv := by
  intro s t host inv e
  rw [step] at e
  split at e
  · injection e with e
    exact e ▸ ⟨host, inv⟩
  · next c rest hq =>
    obtain ⟨iq, ii⟩ : HostKeeps { s with queue := rest } (s.issue c rest) := State.load_hostKeeps _ _
    have issued := ii ⟨inv.ctx, inv.channels, inv.cipher, inv.decoded⟩
    have command : c.port = .command := host c (by simp [hq])
    split at e
    · next i hf =>
      rw [fetch, command] at hf
      obtain ⟨tq, ti⟩ := exec_hostKeeps hf issued e
      refine ⟨fun k hk => host k ?_, ti issued⟩
      rw [tq, iq] at hk
      rw [hq]
      exact List.mem_cons_of_mem _ hk
    · cases e

end Sys2Proof.Machine
end

section
/-! PROOFS. The defaults of the optional chunks (10_state.md rule R24). -/

namespace Sys2Proof.Machine

/-- Settles O21: each stage over an absent chunk is done, so its outcome is the next state. -/
theorem absentChunksTakeDefaults : Obligations.AbsentChunksTakeDefaults := by
  intro s
  have next {r : Res} {t : State} (h : r = .done t) : r.outcome Config.hw = .next t := h ▸ rfl
  exact ⟨fun h => next (hdComp_absent h), fun h => next (hdDec_absent h), fun h => next (hdVbr_absent h),
    fun h => next (hdAth_absent h), fun h => next (hdLoop_absent h), fun h => next (hdCiph_absent h),
    fun h => next (hdRva_absent h), fun h => next (hdComm_absent h), next (r := hdPad s) rfl⟩

end Sys2Proof.Machine
end

section
/-! PROOFS. READ_SAMPLES16 writes OUT interleaved (20_memory.md rule R53, 45_controller_and_host.md rule R252). -/

namespace Sys2Proof.Machine

/-- Channel, row and column are read back off the interleaved index. -/
theorem outSample_interleaved (s : State) {n : Nat} (c : Fin 16) (r : Nat) {j : Nat} (hc : c.val < n) (hj : j < 128) :
    outSample s n ((r * 128 + j) * n + c.val) =
      F32.pcm16 (entry ((s.chan c).wave.getD r (Vector.replicate 128 0)) j) := by
  have channel : ((r * 128 + j) * n + c.val) % n = c.val := Nat.mul_add_mod_of_lt hc
  have position : ((r * 128 + j) * n + c.val) / n = r * 128 + j := by
    rw [Nat.mul_comm, Nat.mul_add_div (by omega), Nat.div_eq_of_lt hc, Nat.add_zero]
  have row : (r * 128 + j) / 128 = r := by omega
  have column : (r * 128 + j) % 128 = j := by omega
  have file : s.ch.getD c.val Channel.reset = s.chan c := by simp [State.chan, Vector.getD]
  rw [outSample, channel, position, row, column, file, rd_eq]

/-- The interleaved index of a live channel lies in OUT's `1024 × n` samples. -/
theorem interleaved_lt {n c r j : Nat} (hc : c < n) (hr : r < 8) (hj : j < 128) :
    (r * 128 + j) * n + c < 1024 * n := by
  have row : (r * 128 + j + 1) * n ≤ 1024 * n := Nat.mul_le_mul_right n (by omega)
  rw [Nat.add_mul, Nat.one_mul] at row
  omega

theorem execReadSamples16_ready {s : State} (h : s.samplesReady = true) :
    execReadSamples16 s = .next (State.endedWith
      { s with out := Mem.fill (1024 * s.ctx.channelCount.toNat) (outSample s s.ctx.channelCount.toNat) s.out } .ok) := by
  rw [execReadSamples16, readSamples16, h]
  rfl

theorem execReadSamples16_notReady {s : State} (h : s.samplesReady = false) :
    execReadSamples16 s = .fault .samplesNotDecoded := by
  rw [execReadSamples16, readSamples16, h]
  rfl

/-- Settles O52: OUT is filled below `1024 × channelCount` with the interleaved samples and kept from there on. -/
theorem samplesInterleaved : Obligations.SamplesInterleaved := by
  refine fun s => ⟨fun hv hd => ⟨_, fun c r j hc hr hj => ?_, fun i hi => ?_, execReadSamples16_ready ?_⟩, fun h => ?_⟩
  · rw [Mem.read_fill, if_pos (interleaved_lt hc hr hj), outSample_interleaved s c r hc hj]
  · rw [Mem.read_fill, if_neg (Nat.not_lt.2 hi)]
  · rw [State.samplesReady, hv, hd, Bool.and_self]
  · exact execReadSamples16_notReady (Bool.and_eq_false_iff.2 h)

end Sys2Proof.Machine
end

section
/-! PROOFS. Decoding gives an encoded instruction back (30_encoding.md rules R72, R91, R93). -/

namespace Sys2Proof.Laws.RoundTrip

/-- The round trip, row by row of the opcode table. -/
theorem statement : ∀ i : Instr, Statement i
  | .openStream n => openStream n
  | .setKey k => setKey k
  | .decodeFrame n => decodeFrame n
  | .readSamples16 => readSamples16
  | .resetStream => resetStream
  | .bcWrap b l p => bcWrap b l p
  | .bcPeek n => bcPeek n
  | .bcRead n => bcRead n
  | .bcSkip d => bcSkip d
  | .hdProlog => hdProlog
  | .hdFmt => hdFmt
  | .hdComp => hdComp
  | .hdDec => hdDec
  | .hdVbr => hdVbr
  | .hdAth => hdAth
  | .hdLoop => hdLoop
  | .hdCiph => hdCiph
  | .hdRva => hdRva
  | .hdComm => hdComm
  | .hdPad => hdPad
  | .hdValidate => hdValidate
  | .hdDerive => hdDerive
  | .hdChantype => hdChantype
  | .frChecklen => frChecklen
  | .frSync => frSync
  | .frChecksum => frChecksum
  | .frDecrypt => frDecrypt
  | .frNoiselevel => frNoiselevel
  | .frScale c => frScale c
  | .frIntensity c => frIntensity c
  | .frResolution c => frResolution c
  | .frGain c => frGain c
  | .spDequant c => spDequant c
  | .spNoise c => spNoise c
  | .spHfr c => spHfr c
  | .spIstereo c sf => spIstereo c sf
  | .spMsstereo c => spMsstereo c
  | .imPass1 c => imPass1 c
  | .imPass2 c => imPass2 c
  | .imWindow c sf => imWindow c sf

end Sys2Proof.Laws.RoundTrip

namespace Sys2Proof

/-- Settles O1: the round trip of each row. -/
theorem decodeEncodeAgree : Obligations.DecodeEncodeAgree := Laws.RoundTrip.statement

/-- Settles O2: the decoder run on each word. -/
theorem specWordsDecode : Obligations.SpecWordsDecode := by
  unfold Obligations.SpecWordsDecode
  decide

end Sys2Proof
end

section
/-! PROOFS. The tag of a chunk is compared masked (30_encoding.md rules R70, R72). -/

namespace Sys2Proof

open Machine Laws.RoundTrip

theorem be32_injective : Function.Injective be32 := fun v w h => by
  injection h with h3 h
  injection h with h2 h
  injection h with h1 h
  injection h with h0 _
  rw [← of32_be32 v, h3, h2, h1, h0, of32_be32]

/-- A chunk has no operand to check. -/
theorem wellFormed_of_chunk {i : Instr} : (encode i).1 = .chunk → i.wellFormed = true := by
  cases i <;> simp [encode, Instr.wellFormed]

/-- Masking a word does not change the chunk it selects. -/
theorem decodeTag_mask (w : BitVec 32) : decodeTag (w &&& tagMask) = decodeTag w := by
  simp only [decodeTag, BitVec.and_assoc, BitVec.and_self]

theorem decode_chunk_be32 (w : BitVec 32) (rest : List Byte) :
    decode .chunk (be32 w ++ rest) = checked (decodeTag w) :=
  congrArg checked (operand32 decodeTag w rest)

/-- What a word selects is encoded by the masked word. -/
theorem encode_of_decodeTag {w : BitVec 32} {i : Instr} (h : decodeTag w = .ok i) :
    encode i = (.chunk, be32 (w &&& tagMask)) := by
  simp only [decodeTag] at h
  repeat' split at h
  all_goals cases h
  all_goals rw [‹w &&& tagMask = _›]; rfl

/-- A word selects an instruction exactly when the masked word is the instruction's chunk image. -/
theorem decode_chunk_iff (w : BitVec 32) (rest : List Byte) (i : Instr) :
    decode .chunk (be32 w ++ rest) = .ok i ↔ encode i = (.chunk, be32 (w &&& tagMask)) := by
  rw [decode_chunk_be32]
  constructor
  · exact fun h => encode_of_decodeTag (checked_eq_ok h).1
  · intro h
    have round := (statement i [] (wellFormed_of_chunk (by rw [h]))).1
    rwa [h, decode_chunk_be32, decodeTag_mask] at round

/-- The instruction whose image is a tag is selected by the tag's spellings. -/
theorem decode_chunk_iff_spells {i : Instr} {tag : BitVec 32} (hi : encode i = (.chunk, be32 tag)) (w : BitVec 32)
    (rest : List Byte) : decode .chunk (be32 w ++ rest) = .ok i ↔ spells w tag := by
  rw [decode_chunk_iff, hi, Prod.mk.injEq, be32_injective.eq_iff]
  exact ⟨fun h => h.2.symm, fun h => ⟨rfl, h.symm⟩⟩

/-- Settles O3: each chunk's image is its tag, and what a word selects has a chunk image. -/
theorem tagsSelectChunks : Obligations.TagsSelectChunks := by
  intro w rest
  have selects {i : Instr} {tag : BitVec 32} (hi : encode i = (.chunk, be32 tag)) := decode_chunk_iff_spells hi w rest
  exact ⟨selects rfl, selects rfl, selects rfl, selects rfl, selects rfl, selects rfl, selects rfl, selects rfl,
    selects rfl, selects rfl, selects rfl, fun i h => congrArg Prod.fst ((decode_chunk_iff w rest i).1 h)⟩

end Sys2Proof
end

section
/-! PROOFS. A step refuses a call that decodes to no instruction (30_encoding.md rule R91,
93_implementation_defined.md U1). -/

namespace Sys2Proof.Machine

/-- A call outside the header stream is decoded from its own image. -/
theorem fetch_image (s : State) {k : Call} (h : k.port ≠ .chunk) : fetch s k = decode k.port k.image := by
  unfold fetch
  split
  · contradiction
  · rfl

theorem step_undecodable {s : State} {k : Call} {rest : List Call} {e : DecodeError} (hq : s.queue = k :: rest)
    (hf : fetch (s.issue k rest) k = .error e) : step s = .refused (.undecodable e) := by
  simp only [step, hq, hf]

theorem decode_reservedCommand {op : Byte} (operands : List Byte) (h : op = 0 ∨ op = 6 ∨ op = 7) :
    decode .command (op :: operands) = .error .reservedCommand := by
  obtain rfl | rfl | rfl := h
  · rfl
  · rfl
  · rfl

/-- Settles O4: the call is fetched from its image, which has no instruction behind a reserved opcode. -/
theorem reservedCommandsRefused : Obligations.ReservedCommandsRefused := by
  intro s k rest op operands hq hport himage hop
  refine step_undecodable hq ?_
  rw [fetch_image _ (by simp [hport]), hport, himage, decode_reservedCommand operands hop]

end Sys2Proof.Machine
end

section
/-! PROOFS. The bit cursor's micro-operations and their laws (40_bitcursor.md rules R102 to R107). -/

namespace Sys2Proof.Machine

/-! What each micro-operation answers. -/

theorem exec_bcWrap (b : BufId) (len : BitVec 16) (p0 : Byte) (s : State) :
    exec (.bcWrap b len p0) s = (wrap b len.toNat p0.toNat (s.enter 0x01)).outcome Config.hw := rfl

theorem exec_bcPeek (n : Byte) (s : State) : exec (.bcPeek n) s = (bcPeek n s).outcome Config.hw := rfl

theorem exec_bcRead (n : Byte) (s : State) :
    exec (.bcRead n) s = (alone Config.hw n.toNat (fun mv => bcRead mv n) s).outcome Config.hw := rfl

theorem exec_bcSkip (delta : BitVec 32) (s : State) :
    exec (.bcSkip delta) s = (alone Config.hw delta.toInt.toNat (fun mv => bcSkip mv delta) s).outcome Config.hw := rfl

theorem bcPeek_done {n : Byte} (h : n.toNat ≤ 32) (s : State) :
    bcPeek n s = .done { s with stage := 0x02, result := BitVec.ofNat 32 (s.requestValue s.cur.pos n.toNat) } := by
  rw [bcPeek, if_neg (by omega), State.peek, State.peekAt_eq]
  rfl

theorem bcRead_done {n : Byte} (h : n.toNat ≤ 32) (mv : Moves) (s : State) :
    bcRead mv n s = .done { s with
      stage := 0x03, result := BitVec.ofNat 32 (s.requestValue s.cur.pos n.toNat),
      cur := { s.cur with pos := mv 0 (s.cur.pos + n.toNat : Nat) } } := by
  rw [bcRead, if_neg (by omega), State.peek, State.peekAt_eq]
  rfl

theorem bcSkip_done {delta : BitVec 32} {s : State} {p : Nat} (h : (p : Int) = s.cur.pos + delta.toInt) (mv : Moves) :
    bcSkip mv delta s = .done { s with stage := 0x04, cur := { s.cur with pos := mv 0 p } } := by
  rw [bcSkip, ← h, if_neg (by omega)]
  rfl

/-- Settles O9: a request is the field it covers. -/
theorem peekReturnsTheField : Obligations.PeekReturnsTheField := by
  intro n s
  rw [exec_bcPeek]
  refine ⟨fun h => ?_, fun h => ?_⟩
  · rw [bcPeek_done h, Res.outcome]
  · rw [bcPeek, if_pos h, Res.outcome]

/-- Settles O10: the moves are plain when the sum is in the range, and end in it when it is beyond. -/
theorem readReturnsAndAdvances : Obligations.ReadReturnsAndAdvances := by
  intro n s
  rw [exec_bcRead]
  refine ⟨fun h inRange => ?_, fun h beyond => ?_, fun h => ?_⟩
  · rw [alone, if_pos inRange, bcRead_done h]
    rfl
  · rw [alone, if_neg (by omega), bcRead_done h]
    exact ⟨_, _, Moves.free_lt _ _ _ _, rfl⟩
  · obtain ⟨mv, k, e, -⟩ := alone_moves n.toNat (fun mv => bcRead mv n) s
    rw [e, bcRead, if_pos h]
    rfl

/-- Settles O11: any moves reach the sum when it is in the range, and they end in the range when it is beyond. -/
theorem skipMovesTheCursor : Obligations.SkipMovesTheCursor := by
  intro delta s
  obtain ⟨mv, k, e, sum, free⟩ := alone_moves delta.toInt.toNat (fun mv => bcSkip mv delta) s
  rw [exec_bcSkip, e]
  refine ⟨fun p hp => ?_, fun below => ?_⟩
  · rw [bcSkip_done hp]
    refine ⟨fun inRange => ?_, fun beyond => ?_⟩
    · rw [sum 0 p inRange]
      exact ⟨_, rfl⟩
    · have lt := free.resolve_left (by omega)
      exact ⟨_, _, lt 0 p, rfl⟩
  · rw [bcSkip, if_pos below]
    rfl

/-- Settles O12: the length is checked against the buffer, which entering the stage leaves as it is. -/
theorem wrapSetsTheCursor : Obligations.WrapSetsTheCursor := by
  intro b len p0 s _
  have size : ((s.enter 0x01).buffer b).size = (s.buffer b).size := by cases b <;> rfl
  rw [exec_bcWrap, wrap, size]
  refine ⟨fun h => ?_, fun h => ?_⟩
  · rw [if_neg (by omega)]
    rfl
  · rw [if_pos h]
    rfl

/-! Requests inside the buffer split. -/

theorem State.requestValue_lt (s : State) (p n : Nat) : s.requestValue p n < 2 ^ n :=
  s.peekAt_eq p n ▸ s.peekAt_lt p n

/-- A request inside the buffer is its bits, also when it is for none. -/
theorem State.requestValue_inside {s : State} {p n : Nat} (h : p + n ≤ s.cur.sizeBits) :
    s.requestValue p n = s.active.bits p n := by
  rw [State.requestValue, Buffer.bits_eq_fieldValue]
  split
  · next h0 =>
    obtain rfl : n = 0 := by omega
    rfl
  · rfl

/-- A request of `n + m` bits has the first `n` bits as its high part, the next `m` bits as its low part. -/
theorem State.requestValue_split {s : State} {p n m : Nat} (h : p + n + m ≤ s.cur.sizeBits) :
    s.requestValue p (n + m) / 2 ^ m = s.requestValue p n ∧
    s.requestValue p (n + m) % 2 ^ m = s.requestValue (p + n) m := by
  refine (Nat.div_mod_unique (Nat.two_pow_pos m)).2 ⟨?_, s.requestValue_lt _ _⟩
  rw [State.requestValue_inside (by omega), State.requestValue_inside (by omega), State.requestValue_inside (by omega),
    Buffer.bits_add, Nat.mul_comm, Nat.add_comm]

/-- The result register holds the value of every request the block answers. -/
theorem State.toNat_requestValue (s : State) (p : Nat) {n : Nat} (h : n ≤ 32) :
    (BitVec.ofNat 32 (s.requestValue p n)).toNat = s.requestValue p n := by
  rw [BitVec.toNat_ofNat, Nat.mod_eq_of_lt]
  exact (s.requestValue_lt p n).trans_le (Nat.pow_le_pow_right (by omega) h)

/-! Reads one after another, all from the input of one state. -/

/-- What requests in `t` read from is what they read from in `s`. -/
structure State.SameInput (s t : State) : Prop where
  buf : t.cur.buf = s.cur.buf
  size : t.cur.sizeBits = s.cur.sizeBits
  hdr : t.hdr = s.hdr
  frm : t.frm = s.frm

theorem State.SameInput.refl (s : State) : s.SameInput s := ⟨rfl, rfl, rfl, rfl⟩

theorem State.SameInput.requestValue {s t : State} (h : s.SameInput t) (p n : Nat) :
    t.requestValue p n = s.requestValue p n := by
  rw [← State.peekAt_eq, ← State.peekAt_eq, State.peekAt_congr h.buf h.size h.hdr h.frm]

/-- A read that stays in the range returns the bits of the input and moves the cursor only. -/
theorem State.SameInput.read {s t : State} (h : s.SameInput t) {n : Byte} (hn : n.toNat ≤ 32)
    (hp : t.cur.pos + n.toNat < 2 ^ 31) :
    ∃ u : State, exec (.bcRead n) t = .next u ∧ s.SameInput u ∧ u.cur = t.cur.advance n.toNat ∧
      u.result.toNat = s.requestValue t.cur.pos n.toNat := by
  refine ⟨_, (readReturnsAndAdvances n t).1 hn hp, ⟨h.buf, h.size, h.hdr, h.frm⟩, rfl, ?_⟩
  rw [State.toNat_requestValue _ _ hn, h.requestValue]

/-- A skip by -1 and a read of 1 return the bit before the cursor and leave the cursor where it was. -/
theorem State.SameInput.reread {s t : State} (h : s.SameInput t) {p : Nat} (ht : t.cur.pos = p + 1)
    (hp : p + 1 < 2 ^ 31) :
    ∃ u v : State, exec (.bcSkip (-1)) t = .next u ∧ exec (.bcRead 1) u = .next v ∧
      v.result.toNat = s.requestValue p 1 ∧ v.cur = t.cur := by
  have back : (p : Int) = t.cur.pos + (-1 : BitVec 32).toInt := by
    rw [ht, show (-1 : BitVec 32).toInt = -1 by decide]
    omega
  obtain ⟨draws, hu⟩ := ((skipMovesTheCursor (-1) t).1 p back).1 (by omega)
  have hi : s.SameInput { t with stage := 0x04, cur := { t.cur with pos := p }, draws := draws } :=
    ⟨h.buf, h.size, h.hdr, h.frm⟩
  obtain ⟨v, hv, -, cv, rv⟩ := hi.read (n := 1) (by decide) hp
  refine ⟨_, v, hu, hv, rv, ?_⟩
  rw [cv, Cursor.advance, show p + (1 : Byte).toNat = t.cur.pos from ht.symm]

/-- Settles O13: both laws are the split of a request, into `n` and `m` bits and into all but the last and the last. -/
theorem cursorLaws : Obligations.CursorLaws := by
  intro s n m ⟨_, short, _⟩ hnm inside
  have hadd : (n + m).toNat = n.toNat + m.toNat := by rw [BitVec.toNat_add]; omega
  have hpeek := (peekReturnsTheField (n + m) s).1 (by omega)
  rw [hadd] at hpeek
  obtain ⟨a, ha, ia, ca, ra⟩ := (State.SameInput.refl s).read (n := n) (by omega) (by omega)
  have pa : a.cur.pos = s.cur.pos + n.toNat := congrArg Cursor.pos ca
  obtain ⟨b, hb, -, cb, rb⟩ := ia.read (n := m) (by omega) (by omega)
  obtain ⟨high, low⟩ := State.requestValue_split inside
  refine ⟨_, a, b, hpeek, ha, hb, ?_, ?_, rfl, ?_, fun hn => ?_⟩
  · rw [ra, State.toNat_requestValue _ _ hnm, high]
  · rw [rb, pa, State.toNat_requestValue _ _ hnm, low]
  · rw [cb, ca, Cursor.advance, Cursor.advance, Cursor.advance, Nat.add_assoc]
  · obtain ⟨k, hk⟩ := Nat.exists_eq_add_one.2 hn
    obtain ⟨u, v, hu, hv, rv, cv⟩ := ia.reread (p := s.cur.pos + k) (by omega) (by omega)
    have last := (State.requestValue_split (s := s) (p := s.cur.pos) (n := k) (m := 1) (by omega)).2
    exact ⟨u, v, hu, hv, by rw [rv, ra, hk, ← last, Nat.pow_one], cv⟩

end Sys2Proof.Machine
end

section
/-! PROOFS. The stages of HeaderParser (41_header_parser.md): each chunk reads its fields back, validation checks the
documented ranges, the derived registers and the channel types are the rules'. -/

namespace Sys2Proof.Machine

/-! The two outcomes of a header stage. -/

theorem Res.outcome_done {r : Res} {t : State} (h : r = .done t) : r.outcome Config.hw = .next t := h ▸ rfl

/-- A stage that raises HeaderInvalid from a state that keeps the key and the buffers rejects the header. -/
theorem Res.rejects {r : Res} {s u : State} (h : r = .raised .headerInvalid u)
    (k : HeaderKeeps s u := by exact ⟨rfl, rfl, rfl, rfl, rfl, rfl⟩) :
    ∃ t, r.outcome Config.hw = .next t ∧ HeaderRejected s t :=
  ⟨takeError Config.hw .headerInvalid u, h ▸ rfl, rfl, rfl, k.key, k.hdr, k.frm, k.out, k.queue, rfl, rfl⟩

/-- A stage with one condition: it is done where the condition holds and rejects the header where not. -/
theorem Res.outcome_check {p : Prop} [Decidable p] {r : Res} {s t u : State}
    (h : r = if p then .done t else .raised .headerInvalid u)
    (k : HeaderKeeps s u := by exact ⟨rfl, rfl, rfl, rfl, rfl, rfl⟩) :
    (p → r.outcome Config.hw = .next t) ∧ (¬ p → ∃ v, r.outcome Config.hw = .next v ∧ HeaderRejected s v) :=
  ⟨fun hp => Res.outcome_done (h.trans (if_pos hp)), fun hp => Res.rejects (h.trans (if_neg hp)) k⟩

/-! Prolog and mandatory chunks. -/

/-- A length below that of a prolog is invalid before anything is wrapped (rule R121). -/
theorem hdProlog_short (cfg : Config) {s : State} (h : s.hdrLen.toNat < 8) :
    hdProlog cfg s = .raised .headerInvalid (s.enter 0x10) := if_pos h

/-- Settles O14: the short header, and the prolog ahead with its two checks. -/
theorem prologReadBack : Obligations.PrologReadBack := by
  refine fun s => ⟨fun short => ?_, fun len size w version headerSize bytes => ?_⟩
  · exact Res.rejects (hdProlog_short _ short)
  have read := hdProlog_ahead Config.hw len size bytes
  by_cases tag : spells w 0x48434100#32
  · have checked := Res.outcome_check (s := s) (read.trans (if_pos tag))
    refine ⟨fun _ accepted => checked.1 accepted, fun bad => checked.2 ?_⟩
    rw [bad.resolve_left (not_not.2 tag)]
    exact Bool.false_ne_true
  · exact ⟨fun h => absurd h tag, fun _ => Res.rejects (read.trans (if_neg tag))⟩

/-- Settles O15: over an absent chunk the stage raises, over one ahead it is done. -/
theorem fmtReadBack : Obligations.FmtReadBack := fun _ =>
  ⟨fun gone => Res.rejects (hdFmt_absent gone),
    fun _ _ _ _ _ _ tag ahead count => Res.outcome_done (hdFmt_ahead tag ahead count)⟩

/-- Settles O16: over the chunk ahead the stage is done. -/
theorem compReadBack : Obligations.CompReadBack :=
  fun _ _ _ _ _ _ _ _ _ _ _ _ _ tag ahead count => Res.outcome_done (hdComp_ahead tag ahead count)

/-- A band field plus 1 fits the 9 bits of its register (rule R127). -/
theorem toNat_bandPlusOne (b : BitVec 8) : (b.setWidth 9 + 1).toNat = b.toNat + 1 := by
  bv_omega

theorem ofNat_bandPlusOne (b : BitVec 8) : BitVec.ofNat 9 (b.toNat + 1) = b.setWidth 9 + 1 := by
  rw [← toNat_bandPlusOne, BitVec.ofNat_toNat, BitVec.setWidth_eq]

/-- The base bands HD_DEC stores, as a number. -/
theorem toNat_decBase (total base stereoType : BitVec 8) :
    (if stereoType = 0 then total.setWidth 9 + 1 else base.setWidth 9 + 1 : BitVec 9).toNat =
      if stereoType = 0 then total.toNat + 1 else base.toNat + 1 := by
  rw [apply_ite BitVec.toNat, toNat_bandPlusOne, toNat_bandPlusOne]

/-- Settles O17: the comparison of the 9-bit registers is the one of the fields. -/
theorem decReadBack : Obligations.DecReadBack := by
  intro s w size minRes maxRes total base tracks config stereoType tag ahead count
  have read := (hdDec_ahead tag ahead count).trans (ite_not ..).symm
  obtain ⟨done, invalid⟩ := Res.outcome_check (s := s) read
  rw [toNat_bandPlusOne, toNat_decBase] at done invalid
  rw [ofNat_bandPlusOne]
  refine ⟨fun h => ?_, fun stereo above => invalid ?_⟩
  · have fits : (if stereoType = 0 then total.toNat + 1 else base.toNat + 1) ≤ total.toNat + 1 := by
      split
      · exact Nat.le_refl _
      · exact Nat.succ_le_succ (h.resolve_left ‹_›)
    refine ⟨_, _, toNat_decBase total base stereoType, ?_, done (Nat.not_lt.2 fits)⟩
    rw [BitVec.toNat_sub_of_le, toNat_bandPlusOne, toNat_decBase]
    · split <;> omega
    · rwa [BitVec.le_def, toNat_bandPlusOne, toNat_decBase]
  · rw [if_neg stereo]
    omega

/-! Optional chunks. -/

/-- Settles O18: HD_ATH and HD_RVA are done over their chunk, HD_CIPH checks its type. -/
theorem athCiphRvaReadBack : Obligations.AthCiphRvaReadBack := by
  refine fun s w => ⟨fun type tag ahead count => ?_, fun type tag ahead count => ?_, fun volume tag ahead count => ?_⟩
  · exact Res.outcome_done (hdAth_ahead tag ahead count)
  · have legal : type.toNat ∈ [0, 1, 56] ↔ type = 0 ∨ type = 1 ∨ type = 56 := by
      simp [← BitVec.toNat_inj]
    rw [legal]
    exact Res.outcome_check (hdCiph_ahead tag ahead count)
  · exact Res.outcome_done (hdRva_ahead tag ahead count)

/-- Settles O19: each of the two stages has one condition over its chunk. -/
theorem loopVbrReadBack : Obligations.LoopVbrReadBack := fun _ _ =>
  ⟨fun _ _ _ _ tag ahead count => Res.outcome_check (hdLoop_ahead tag ahead count),
    fun _ _ tag ahead count => Res.outcome_check (hdVbr_ahead tag ahead count)⟩

/-- HD_COMM over a tag and a length whose characters the counter does not allow (rule R134). -/
theorem hdComm_overlong {s : State} {w : BitVec 32} {n : Nat} (tag : spells w 0x636F6D6D#32) (hn : n < 256)
    (ahead : s.headerAhead (be32 w ++ [BitVec.ofNat 8 n])) (h5 : 5 ≤ s.remaining) (exceeds : s.remaining < 5 + n) :
    hdComm s = .raised .headerInvalid ((s.enter 0x19).seek (s.cur.pos + 40)) := by
  have here : present s tagComm 5 = true := ahead.present tag h5
  have length : s.peekAt (s.cur.pos + 32) 8 = n := by
    have e := State.headerAhead.field (pre := be32 w) (post := []) (by simpa using ahead)
    rwa [bytesVal_one, BitVec.toNat_ofNat, Nat.mod_eq_of_lt hn] at e
  refine (if_pos here).trans (if_pos ?_)
  rw [show (s.enter 0x19).peekAt ((s.enter 0x19).cur.pos + 32) 8 = n from length]
  exact exceeds

/-- Settles O20: the stored entries are tabulated from the characters, and a length that exceeds the counter raises. -/
theorem commReadBack : Obligations.CommReadBack := by
  refine fun s w text tag short => ⟨fun ahead count => ?_, fun ahead h5 exceeds => ?_⟩
  · exact ⟨_, fun i hi => getD_tabulate _ _ hi, Res.outcome_done (hdComm_ahead tag short ahead count)⟩
  · exact Res.rejects (hdComm_overlong tag short ahead h5 exceeds)

/-! Validation and derived registers. -/

theorem toNat_pos_iff {w : Nat} {x : BitVec w} : 0 < x.toNat ↔ x ≠ 0 := by
  rw [Nat.pos_iff_ne_zero, Ne, Ne, ← BitVec.toNat_inj]
  rfl

/-- HD_VALIDATE as one conditional (rules R140 to R147). -/
theorem hdValidate_eq (s : State) :
    let x : Ctx := { s.ctx with trackCount := if s.ctx.trackCount = 0 then 1 else s.ctx.trackCount }
    hdValidate s = if x.headerLegal = true then .done { s with stage := 0x1B, ctx := x }
      else .raised .headerInvalid { s with stage := 0x1B, ctx := x } := by
  intro x
  rw [hdValidate, Ctx.normalizeTracks_eq]
  rfl

/-- Settles O22: the ranges are the legal header's, whose track count is at least 1 once it is replaced. -/
theorem validateChecksRanges : Obligations.ValidateChecksRanges := by
  rintro s tracks rfl ranges
  obtain ⟨done, invalid⟩ := Res.outcome_check (s := s) (hdValidate_eq s)
  rw [Ctx.headerLegal_iff] at done invalid
  have positive : 1 ≤ (if s.ctx.trackCount = 0 then 1 else s.ctx.trackCount).toNat := by
    split
    · decide
    · exact toNat_pos_iff.2 ‹_›
  refine ⟨fun ⟨channels, rate, frames, size, resolution, tracks, bands⟩ total => ?_, fun h => invalid fun legal => h ?_⟩
  · exact done ⟨channels, rate, frames, size, resolution, ⟨positive, tracks⟩, bands, total⟩
  · obtain ⟨channels, rate, frames, size, resolution, ⟨-, tracks⟩, bands, -⟩ := legal
    exact ⟨channels, rate, frames, size, resolution, tracks, bands⟩

/-- The channel array with the channels below `n` changed, channel by channel. -/
theorem State.tabulate_below (s : State) (n : Nat) (g : Nat → Channel → Channel) :
    (tabulate 16 fun c => if c < n then g c (s.ch.getD c Channel.reset) else s.ch.getD c Channel.reset) =
      Vector.ofFn fun c : Fin 16 => if c.val < n then g c.val (s.chan c) else s.chan c := by
  simp [tabulate, State.chan, Vector.getD]

theorem State.mapLive_eq (s : State) (f : Channel → Channel) :
    s.mapLive f = { s with ch := Vector.ofFn fun c : Fin 16 =>
      if c.val < s.ctx.channelCount.toNat then f (s.chan c) else s.chan c } := by
  rw [State.mapLive, s.tabulate_below _ fun _ => f]

/-- Settles O23: HD_DERIVE has one condition, and where it holds every live channel starts afresh. -/
theorem deriveInitialises : Obligations.DeriveInitialises := by
  intro s total within
  have derived := (hdDerive_eq Config.hw s total within).trans (ite_not ..).symm
  rw [State.mapLive_eq] at derived
  obtain ⟨done, invalid⟩ := Res.outcome_check (s := s) derived
  rw [toNat_pos_iff] at done invalid
  refine ⟨fun plain groups => done ?_, fun bad => invalid (not_not.2 bad)⟩
  rintro (ms | ⟨nonzero, newest⟩)
  · exact ms plain
  · exact groups.elim nonzero.ne' (· newest)

/-! Channel types. -/

theorem hdChantype_eq (s : State) :
    hdChantype s = .done { s with stage := 0x1D, ch := Vector.ofFn fun c : Fin 16 =>
      if c.val < s.ctx.channelCount.toNat then (s.chan c).assign s.ctx c else s.chan c } := by
  rw [← s.tabulate_below _ fun c k => k.assign s.ctx c]
  rfl

theorem Ctx.toNat_codedOf {x : Ctx} (h : x.baseBandCount.toNat + x.stereoBandCount.toNat ≤ 128) (t : ChanType) :
    (x.codedOf t).toNat = if t = .secondary then x.baseBandCount.toNat
      else x.baseBandCount.toNat + x.stereoBandCount.toNat := by
  rw [Ctx.codedOf, Ctx.base, Ctx.stereo, BitVec.toNat_ofNat, Nat.mod_eq_of_lt]
  split <;> omega

/-- Settles O24: a live channel is assigned the type of the pairing table and its coded count, any other stays. -/
theorem channelTypesAssigned : Obligations.ChannelTypesAssigned := by
  refine fun s bands => ⟨_, Res.outcome_done (hdChantype_eq s), rfl, rfl, fun c => ?_⟩
  rw [State.chan, Fin.getElem_fin, Vector.getElem_ofFn]
  split
  · next live =>
    exact ⟨rfl, fun h => absurd live (Nat.not_lt.2 h), fun _ =>
      ⟨(s.ctx.typeOf_iff c).1, (s.ctx.typeOf_iff c).2, Ctx.toNat_codedOf bands _⟩⟩
  · next dead => exact ⟨rfl, fun _ => rfl, fun h => absurd h dead⟩

end Sys2Proof.Machine
end


section
/-! PROOFS. The frame checks, the decryption and the noise level (42_frame_unpack.md rules R161 to R166). -/

namespace Sys2Proof.Machine

/-! The end of a stage that raises. -/

theorem takeError_eq_endedWith {e : Status} (he : e ≠ .headerInvalid) (s : State) :
    takeError Config.hw e s = s.endedWith e := by
  rw [takeError_of_ne _ _ he]
  rfl

/-- A stage that raises a frame error ends with its code, whatever it left in the counters. -/
theorem Res.outcome_raised {r : Res} {e : Status} {t u : State} (h : r = .raised e t)
    (he : e ≠ .headerInvalid := by nofun) (hu : t.endedWith e = u.endedWith e := by rfl) :
    r.outcome Config.hw = .next (u.endedWith e) := by
  rw [h, Res.outcome, takeError_eq_endedWith he, hu]

/-! Checks. -/

/-- Settles O26: the comparison of the length latch with the frame size has two outcomes. -/
theorem checkLength : Obligations.CheckLength := fun _ =>
  ⟨fun enough => Res.outcome_done (if_neg (Nat.not_lt.2 enough)), fun short => Res.outcome_raised (if_pos short)⟩

theorem frSync_refused {s : State} (h : s.frm.size < s.ctx.frameSize.toNat) : frSync s = .refused .bufferTooShort := by
  rw [frSync, wrap, if_pos (by exact h)]
  rfl

/-- A frame of less than two bytes holds no sync word: the request does not fit and answers 0 (rule R103). -/
theorem frSync_tiny {s : State} (h : s.ctx.frameSize.toNat ≤ s.frm.size) (h2 : s.ctx.frameSize.toNat < 2) :
    frSync s = .raised .syncError { s with stage := 0x21, cur := frameCursor s 16 } := by
  have wrapped : wrap .frm s.ctx.frameSize.toNat 0 (s.enter 0x21) =
      .done { s with stage := 0x21, cur := frameCursor s 0 } := if_neg (Nat.not_lt.2 h)
  have unread : State.peek { s with stage := 0x21, cur := frameCursor s 0 } 16 = 0 := by
    rw [State.peek, State.peekAt_eq, State.requestValue, if_pos]
    exact .inr (by show 8 * s.ctx.frameSize.toNat < 0 + 16; omega)
  rw [frSync, wrapped, Res.andThen, unread]
  rfl

/-- Settles O27: two bytes or more are compared with the sync word, fewer hold none. -/
theorem syncWord : Obligations.SyncWord := by
  refine fun s => ⟨fun size => ⟨fun ⟨two, b0, b1⟩ => ?_, fun bad => ?_⟩, fun short => ?_⟩
  · exact Res.outcome_done ((frSync_eq s size two).1 ⟨b0, b1⟩)
  · by_cases two : 2 ≤ s.ctx.frameSize.toNat
    · exact Res.outcome_raised ((frSync_eq s size two).2 fun sync => bad ⟨two, sync⟩)
    · exact Res.outcome_raised (frSync_tiny size (Nat.not_le.1 two))
  · exact congrArg (Res.outcome Config.hw) (frSync_refused short)

theorem frChecksum_eq (cfg : Config) (s : State) :
    frChecksum cfg s = if s.frm.size < s.ctx.frameSize.toNat then .faulted .addressOutsideBuffer
      else if cfg.checksumFrame (s.frm.bytes s.ctx.frameSize.toNat) ≠ 0 then .raised .checksumError (s.enter 0x22)
      else .done (s.enter 0x22) := rfl

theorem frDecrypt_eq (s : State) :
    frDecrypt s = if s.frm.size < s.ctx.frameSize.toNat then .faulted .addressOutsideBuffer
      else .done { s with stage := 0x23, frm := s.frm.substitute s.cipherTable s.ctx.frameSize.toNat,
                          cur := frameCursor s 16 } := by
  rw [frDecrypt]
  refine ite_congr rfl (fun _ => rfl) fun size => ?_
  exact if_neg size

/-- Settles O28: over a whole frame the primitive's result decides, over less the access faults. -/
theorem frameChecksum : Obligations.FrameChecksum := by
  refine fun s => ⟨fun size => ?_, fun short => ?_⟩
  · have whole := (frChecksum_eq Config.hw s).trans (if_neg (Nat.not_lt.2 size))
    split
    · next zero => exact Res.outcome_done (whole.trans (if_neg (not_not.2 zero)))
    · next nonzero => exact Res.outcome_raised (whole.trans (if_pos nonzero))
  · exact congrArg (Res.outcome Config.hw) ((frChecksum_eq Config.hw s).trans (if_pos short))

/-- Settles O29: the new buffer is the substitution, whose bytes are the table's below the frame size. -/
theorem decryptSubstitutes : Obligations.DecryptSubstitutes := by
  refine fun s => ⟨fun size => ?_, fun short => ?_⟩
  · exact ⟨_, Buffer.size_substitute .., Buffer.byte_substitute _ _ _,
      Res.outcome_done ((frDecrypt_eq s).trans (if_neg (Nat.not_lt.2 size)))⟩
  · exact congrArg (Res.outcome Config.hw) ((frDecrypt_eq s).trans (if_pos short))

/-! Positions of a stage run by itself (10_state.md rule R35, log entry 17). -/

/-- Position `q` is `n` bits behind `p`, or free where that is beyond the register. -/
def Behind (p n q : Nat) : Prop := q < 2 ^ 31 ∧ (p + n < 2 ^ 31 → q = p + n)

theorem Behind.here {p : Nat} (h : p < 2 ^ 31) : Behind p 0 p := ⟨h, fun _ => rfl⟩

/-- What the moves of a stage are that starts at `p` and moves at most `reach` bits: the sum where the register holds
it; and plain where no sum can leave the register, else in its range. -/
structure Moves.Within (mv : Moves) (p reach : Nat) : Prop where
  sum : ∀ k q : Nat, q < 2 ^ 31 → mv k (q : Int) = q
  range : p + reach < 2 ^ 31 ∧ mv = .plain ∨ ∀ k q, mv k q < 2 ^ 31

/-- A move by `m` bits from behind `n`, which need not have been in the register if it is where the stage starts. -/
theorem Moves.Within.move {mv : Moves} {p reach n q : Nat} (h : mv.Within p reach) (hq : p + n < 2 ^ 31 → q = p + n)
    (k m : Nat) (hr : n + m ≤ reach) : Behind p (n + m) (mv k (q + m : Nat)) := by
  have reached (inRange : p + (n + m) < 2 ^ 31) : mv k (q + m : Nat) = p + (n + m) := by
    rw [hq (by omega), h.sum k _ (by omega), Nat.add_assoc]
  refine ⟨?_, reached⟩
  obtain ⟨near, -⟩ | lt := h.range
  · rw [reached (by omega)]
    omega
  · exact lt _ _

/-- The first move, from wherever the stage starts. -/
theorem Moves.Within.first {mv : Moves} {p reach : Nat} (h : mv.Within p reach) (k m : Nat) (hr : m ≤ reach) :
    Behind p m (mv k (p + m : Nat)) := by
  have moved := h.move (n := 0) (q := p) (fun _ => rfl) k m (by omega)
  rwa [Nat.zero_add] at moved

/-- The position before the `i`-th of a row of reads. -/
theorem Moves.Within.walk {mv : Moves} {p reach n q : Nat} (h : mv.Within p reach) (hq : Behind p n q) (w : Nat) :
    ∀ i, n + w * i ≤ reach → Behind p (n + w * i) (mv.walk w q i)
  | 0, _ => hq
  | i + 1, hr => by
    rw [Nat.mul_succ, ← Nat.add_assoc] at hr ⊢
    exact h.move (h.walk hq w i (by omega)).2 (i + 4) w hr

/-- An instruction that moves the cursor from where it stands is its stage over such moves. -/
theorem exec_within {i : Instr} {reach : Nat} (hi : cursorReach i = some reach) (s : State)
    (stage : (encode i).1 ≠ .command := by nofun) :
    ∃ (mv : Moves) (n : Nat), mv.Within s.cur.pos reach ∧
      exec i s = ((stageBy Config.hw mv i s).drew n).outcome Config.hw := by
  obtain ⟨mv, n, e, sum, range⟩ := alone_moves reach (fun mv => stageBy Config.hw mv i) s
  refine ⟨mv, n, ⟨sum, range.imp_left fun ⟨near, plain, _⟩ => ⟨near, plain⟩⟩, ?_⟩
  rw [exec_stage_eq i s stage, hi, ← e]

/-- A stage that is done, some free values used. -/
theorem Res.outcome_drew_done {r : Res} {t : State} (h : r = .done t) (n : Nat) :
    (r.drew n).outcome Config.hw = .next { t with draws := t.draws + n } := h ▸ rfl

/-- FR_NOISELEVEL over any moves (rule R166). -/
theorem frNoiselevel_eq (mv : Moves) (s : State) :
    let q := mv 0 (s.cur.pos + 9 : Nat)
    frNoiselevel mv s = .done { s with
      stage := 0x24, cur := { s.cur with pos := mv 1 (q + 7 : Nat) },
      packedNoiseLevel := (s.requestValue s.cur.pos 9 : Int) <<< (8 : Nat) - s.requestValue q 7 } := by
  intro q
  rw [Int.shiftLeft_eq, ← State.peekAt_eq, ← State.peekAt_eq]
  rfl

/-- Settles O30: the second read starts 9 bits behind the first, the cursor ends 7 bits behind that. -/
theorem noiseLevelPacked : Obligations.NoiseLevelPacked := by
  intro s
  obtain ⟨mv, n, within, e⟩ := exec_within (i := .frNoiselevel) rfl s
  have second := within.first 0 9 (by decide)
  have last := within.move second.2 1 7 (by decide)
  refine ⟨s.requestValue (mv 0 (s.cur.pos + 9 : Nat)) 7, _, s.draws + n, s.requestValue_lt _ _, last.1,
    fun inRange => ?_, last.2, ?_⟩
  · rw [second.2 (by omega)]
  · exact e.trans (Res.outcome_drew_done (frNoiselevel_eq mv s) n)

end Sys2Proof.Machine
end


section
/-! PROOFS. The scale factors of a channel (42_frame_unpack.md rules R168 to R171). -/

namespace Sys2Proof.Machine

/-! One channel unpacked. -/

/-- A stage has changed channel `c` to `x` and moved the cursor to `p`. -/
def State.unpacked (s : State) (id : Byte) (c : Fin 16) (x : Channel) (p : Nat) : State :=
  { s with stage := id, c := c, cur := { s.cur with pos := p }, ch := s.ch.set c x }

theorem State.chan_unpacked (s : State) (id : Byte) (c : Fin 16) (x : Channel) (p : Nat) (d : Fin 16) :
    (s.unpacked id c x p).chan d = if d = c then x else s.chan d := State.chan_setChan s c d x

/-- A stage run by itself that changes one channel, and raises `e` if at all and only where `raises`: it answers a next
state, everything but the channel, the cursor, the counters and the status kept. -/
theorem Res.answers_unpacked {r : Res} {s : State} {id : Byte} {c : Fin 16} {x : Channel} {p : Nat} {raises : Prop}
    {e : Status} (h : r = .done (s.unpacked id c x p) ∨ raises ∧ r = .raised e (s.unpacked id c x p))
    (he : e ≠ .headerInvalid) (inRange : r.All fun t => t.cur.pos < 2 ^ 31) (n : Nat) :
    ∃ t, (r.drew n).outcome Config.hw = .next t ∧ t.cur.pos < 2 ^ 31 ∧
      (t.status = s.status ∨ raises ∧ t.status = e) ∧
      { t with cur := s.cur, ch := s.ch, stage := s.stage, c := s.c, sf := s.sf, status := s.status,
               draws := s.draws } = s ∧
      ∀ d, t.chan d = if d = c then x else s.chan d := by
  obtain rfl | ⟨hr, rfl⟩ := h
  · exact ⟨_, rfl, inRange, .inl rfl, rfl, s.chan_unpacked id c x p⟩
  · refine ⟨({ s.unpacked id c x p with draws := s.draws + n } : State).endedWith e, ?_, inRange, .inr ⟨hr, rfl⟩, rfl,
      s.chan_unpacked id c x p⟩
    exact Res.outcome_raised rfl he

/-- A stage of a frame run by itself over such moves leaves a position in the range. -/
theorem Moves.Within.stage_inRange {mv : Moves} {reach : Nat} {s : State} (h : mv.Within s.cur.pos reach) {i : Instr}
    (hi : cursorReach i = some reach) (hp : s.cur.pos < 2 ^ 31) :
    (stageBy Config.hw mv i s).All fun t => t.cur.pos < 2 ^ 31 := by
  obtain ⟨plain, free⟩ := reach_inRange hi s hp
  obtain ⟨near, rfl⟩ | lt := h.range
  · exact plain near
  · exact free lt

/-- Where the cursor is inside its buffer a stage of a frame cannot leave the register. -/
theorem exec_inside {i : Instr} (hi : cursorReach i = some stageReach) {s : State} (legal : s.cur.Legal)
    (inside : s.cur.pos ≤ s.cur.sizeBits) (stage : (encode i).1 ≠ .command := by nofun) :
    exec i s = (stageBy Config.hw .plain i s).outcome Config.hw := by
  obtain ⟨-, size, -⟩ := legal
  refine exec_stage i s stage fun n hn => ?_
  rw [hi] at hn
  injection hn with hn
  rw [← hn, stageReach]
  omega

theorem State.inside_of_requestValue {s : State} {p n : Nat} (h : s.requestValue p n ≠ 0) :
    p + n ≤ s.cur.sizeBits := by
  by_contra beyond
  exact h (if_pos (.inr (Nat.not_le.1 beyond)))

/-! Files of 6-bit literals (rules R169, R173). -/

/-- A file with its first `n` entries read as 6-bit fields, entry `i` at `p i`. -/
def State.literals (s : State) (p : Nat → Nat) (n : Nat) (file : Vector (BitVec 6) 128) : Vector (BitVec 6) 128 :=
  tabulate 128 fun i => if i < n then s.field (p i) 6 6 else rd file i

/-- Each literal is the field at the sum of the widths before it, where the register holds that sum. -/
theorem State.entry_literals (s : State) {p : Nat → Nat} (sum : Nat → Nat) {n : Nat} (file : Vector (BitVec 6) 128)
    (hp : ∀ i, i < n → sum i < 2 ^ 31 → p i = sum i) {i : Nat} (hi : i < 128) :
    if i < n then sum i < 2 ^ 31 → entry (s.literals p n file) i = BitVec.ofNat 6 (s.requestValue (sum i) 6)
    else entry (s.literals p n file) i = entry file i := by
  rw [State.literals, entry_tabulate, if_pos hi]
  split
  · next coded =>
    intro inRange
    rw [hp i coded inRange, State.field, State.peekAt_eq]
  · rfl

/-! FR_SCALE by its three kinds of block (rule R168). -/

theorem frScale_literals {s : State} (h : 6 ≤ s.requestValue s.cur.pos 3) (mv : Moves) (c : Fin 16) :
    let row := mv.walk 6 (mv 0 (s.cur.pos + 3 : Nat))
    frScale mv c s = .done (s.unpacked 0x25 c
      { s.chan c with scale := s.literals row (s.chan c).coded (s.chan c).scale } (row (s.chan c).coded)) := by
  rw [← State.peekAt_eq] at h
  exact if_pos h

theorem frScale_zeros {s : State} (h : s.requestValue s.cur.pos 3 = 0) (mv : Moves) (c : Fin 16) :
    frScale mv c s = .done (s.unpacked 0x25 c
      { s.chan c with scale := Vector.ofFn fun i : Fin 128 =>
          if i.val < (s.chan c).coded then 0 else (s.chan c).scale[i] } (mv 0 (s.cur.pos + 3 : Nat))) := by
  have file : (Vector.ofFn fun i : Fin 128 => if i.val < (s.chan c).coded then 0 else (s.chan c).scale[i]) =
      tabulate 128 fun i => if i < (s.chan c).coded then 0 else rd (s.chan c).scale i := by
    simp [tabulate, rd, Vector.getD]
  rw [← State.peekAt_eq] at h
  rw [file]
  exact (if_neg (by show ¬ 6 ≤ s.peekAt s.cur.pos 3; omega)).trans (if_pos h)

/-- The run of values FR_SCALE reads behind the first literal (rule R170). -/
def scaleRun (mv : Moves) (c : Fin 16) (s : State) : DeltaRun 6 128 :=
  let q := mv 0 (s.cur.pos + 3 : Nat)
  let first := s.peekAt q 6
  deltaRun s.peekAt mv (s.peekAt s.cur.pos 3) 6 ((s.chan c).coded - 1) 1 (mv 1 (q + 6 : Nat)) first
    (if 1 ≤ (s.chan c).coded then wr (s.chan c).scale 0 (BitVec.ofNat 6 first) else (s.chan c).scale)

theorem frScale_deltas {s : State} (h0 : s.requestValue s.cur.pos 3 ≠ 0) (h6 : s.requestValue s.cur.pos 3 < 6)
    (mv : Moves) (c : Fin 16) :
    let run := scaleRun mv c s
    let t := s.unpacked 0x25 c { s.chan c with scale := run.file } run.pos
    frScale mv c s = if run.ok then .done t else .raised .invalidScaleFactor t := by
  rw [← State.peekAt_eq] at h0 h6
  exact (if_neg (Nat.not_le.2 h6)).trans (if_neg h0)

/-- Whatever is read, FR_SCALE writes the channel's scale file and is done or raises InvalidScaleFactor. -/
theorem frScale_cases (mv : Moves) (c : Fin 16) (s : State) : ∃ (scale : Vector (BitVec 6) 128) (p : Nat),
    frScale mv c s = .done (s.unpacked 0x25 c { s.chan c with scale := scale } p) ∨
    True ∧ frScale mv c s = .raised .invalidScaleFactor (s.unpacked 0x25 c { s.chan c with scale := scale } p) := by
  by_cases h6 : 6 ≤ s.requestValue s.cur.pos 3
  · exact ⟨_, _, .inl (frScale_literals h6 mv c)⟩
  by_cases h0 : s.requestValue s.cur.pos 3 = 0
  · exact ⟨_, _, .inl (frScale_zeros h0 mv c)⟩
  have deltas := frScale_deltas h0 (Nat.not_le.1 h6) mv c
  refine ⟨(scaleRun mv c s).file, (scaleRun mv c s).pos, ?_⟩
  by_cases ok : (scaleRun mv c s).ok
  · exact .inl (deltas.trans (if_pos ok))
  · exact .inr ⟨trivial, deltas.trans (if_neg ok)⟩

/-- Settles O31: a row of literals behind the 3-bit field, or zeros. -/
theorem scaleLiteralsAndZeros : Obligations.ScaleLiteralsAndZeros := by
  intro c s n
  obtain ⟨mv, m, within, e⟩ := exec_within (i := .frScale c) rfl s
  have start := within.first 0 3 (by decide)
  refine ⟨fun literals => ?_, fun zeros => ?_⟩
  · have count : n < 256 := (s.chan c).codedCount.isLt
    have row (i : Nat) (hi : i ≤ n) := within.walk start 6 i (by rw [stageReach]; omega)
    refine ⟨_, _, s.draws + m, fun i hi => ?_, (row n le_rfl).1, (row n le_rfl).2,
      e.trans (Res.outcome_drew_done (frScale_literals literals mv c) m)⟩
    exact s.entry_literals (fun i => s.cur.pos + 3 + 6 * i) _
      (fun i hi inRange => (row i hi.le).2 (by omega) |>.trans (by omega)) hi
  · exact ⟨_, s.draws + m, start.1, start.2, e.trans (Res.outcome_drew_done (frScale_zeros zeros mv c) m)⟩

/-! Delta-coded values behind a first literal (rules R170, R172). -/

theorem toNat_getD_lt {l : List Int} {b : Nat} (hb : 0 < b) (h : ∀ v ∈ l, 0 ≤ v ∧ v < b) (i : Nat) :
    (l.getD i 0).toNat < b := by
  by_cases hi : i < l.length
  · have bounds := h _ (List.getElem_mem hi)
    rw [List.getD_eq_getElem _ _ hi]
    omega
  · rw [List.getD_eq_default _ _ (Nat.not_lt.1 hi)]
    exact hb

/-- A run whose values are in range stores them behind the first and stops behind its symbols. -/
theorem deltaRun_stores {n : Nat} {s : State} {dw lw pos first : Nat} {ys : List DeltaSym} (file : Vector (BitVec lw) n)
    (hf : first < 2 ^ lw) (enc : ∀ y ∈ ys, y.encodable dw lw) (ahead : s.bitsAhead pos (deltaBitsOf dw lw ys))
    (inRange : ∀ v ∈ deltaValues dw first ys, 0 ≤ v ∧ v < (2 ^ lw : Nat)) :
    let run := deltaRun s.peekAt .plain dw lw ys.length 1 pos first (wr file 0 (BitVec.ofNat lw first))
    run.ok = true ∧ run.pos = pos + (deltaBitsOf dw lw ys).length ∧
    ∀ i, i < n → (entry run.file i).toNat =
      if i < ys.length + 1 then (((first : Int) :: deltaValues dw first ys).getD i 0).toNat
      else (entry file i).toNat := by
  obtain ⟨ok, stops, entries⟩ := (deltaRun_ahead s dw lw ys 1 pos first _ enc ahead).1 inRange
  refine ⟨ok, stops, fun i hi => ?_⟩
  rw [entries i hi, entry_wr]
  cases i with
  | zero => simp [hi, Nat.mod_eq_of_lt hf]
  | succ i =>
    by_cases symbol : i < ys.length
    · rw [if_pos (by omega), if_pos (by omega), BitVec.toNat_ofNat, Nat.add_sub_cancel, List.getD_cons_succ,
        Nat.mod_eq_of_lt (toNat_getD_lt (Nat.two_pow_pos lw) inRange i)]
    · rw [if_neg (by omega), if_neg (by omega), if_neg (by omega)]

/-- A run with a value outside is malformed. -/
theorem deltaRun_fails {n : Nat} {s : State} {dw lw pos first : Nat} {ys : List DeltaSym} (file : Vector (BitVec lw) n)
    (enc : ∀ y ∈ ys, y.encodable dw lw) (ahead : s.bitsAhead pos (deltaBitsOf dw lw ys))
    (outside : ∃ v ∈ deltaValues dw first ys, v < 0 ∨ (2 ^ lw : Nat) ≤ v) :
    (deltaRun s.peekAt .plain dw lw ys.length 1 pos first file).ok ≠ true := by
  rw [(deltaRun_ahead s dw lw ys 1 pos first file enc ahead).2 outside]
  exact Bool.false_ne_true

/-! FR_SCALE with deltas. -/

/-- The fields of a delta-coded scale block that is ahead. -/
theorem scaleBlock_ahead {s : State} {p db first : Nat} {symbols : List Bool} (hdb : db < 2 ^ 3) (hf : first < 2 ^ 6)
    (ahead : s.bitsAhead p (bitsOf 3 db ++ bitsOf 6 first ++ symbols)) :
    s.peekAt p 3 = db ∧ s.peekAt (p + 3) 6 = first ∧ s.bitsAhead (p + 9) symbols := by
  rw [List.append_assoc] at ahead
  exact ⟨ahead.peek_first hdb, ahead.behind.peek_first hf, ahead.behind.behind⟩

/-- The run behind such a block starts with the first literal stored, if there is a coefficient for it. -/
theorem scaleRun_ahead {s : State} {c : Fin 16} {db first k : Nat} (hdb : s.peekAt s.cur.pos 3 = db)
    (hf : s.peekAt (s.cur.pos + 3) 6 = first) (hk : k = (s.chan c).codedCount.toNat - 1) :
    scaleRun .plain c s = deltaRun s.peekAt .plain db 6 k 1 (s.cur.pos + 9) first
      (if 1 ≤ (s.chan c).codedCount.toNat then wr (s.chan c).scale 0 (BitVec.ofNat 6 first) else (s.chan c).scale) := by
  subst hdb hf hk
  rfl

/-- The scale file a block of values in range leaves. -/
theorem scaleRun_stores {s : State} {c : Fin 16} {db first : Nat} {ys : List DeltaSym} (hdb : db < 2 ^ 3)
    (hf : first < 2 ^ 6) (len : ys.length = (s.chan c).codedCount.toNat - 1) (enc : ∀ y ∈ ys, y.encodable db 6)
    (ahead : s.bitsAhead s.cur.pos (bitsOf 3 db ++ bitsOf 6 first ++ deltaBitsOf db 6 ys))
    (inRange : ∀ v ∈ deltaValues db first ys, 0 ≤ v ∧ v < 64) :
    let run := scaleRun .plain c s
    run.ok = true ∧ run.pos = s.cur.pos + 9 + (deltaBitsOf db 6 ys).length ∧
    ∀ i, i < 128 → (entry run.file i).toNat =
      if i < (s.chan c).codedCount.toNat then (((first : Int) :: deltaValues db first ys).getD i 0).toNat
      else (entry (s.chan c).scale i).toNat := by
  obtain ⟨edb, ef, behind⟩ := scaleBlock_ahead hdb hf ahead
  rw [scaleRun_ahead edb ef len]
  split
  · next some =>
    rw [← Nat.sub_add_cancel some, ← len]
    exact deltaRun_stores _ hf enc behind inRange
  · next none =>
    obtain rfl : ys = [] := List.length_eq_zero_iff.1 (by omega)
    exact ⟨rfl, rfl, fun i _ => (if_neg (by omega)).symm⟩

/-- Settles O32: the run of a block that is ahead stores its values or is malformed; over any bits the stage answers. -/
theorem scaleDeltas : Obligations.ScaleDeltas := by
  refine fun c s => ⟨fun db first ys legal db1 db5 hf _ len enc ahead => ?_, fun hp => ?_⟩
  · have inside : s.cur.pos ≤ s.cur.sizeBits := (Nat.le_add_right _ _).trans ahead.1
    obtain ⟨edb, ef, behind⟩ := scaleBlock_ahead (by omega) hf ahead
    have kind := edb
    rw [State.peekAt_eq] at kind
    have deltas := frScale_deltas (s := s) (by omega) (by omega) .plain c
    rw [exec_inside (i := .frScale c) rfl legal inside]
    refine ⟨fun inRange => ?_, fun outside => ?_⟩
    · obtain ⟨ok, stops, entries⟩ := scaleRun_stores (by omega) hf len enc ahead inRange
      refine ⟨_, entries, Res.outcome_done (deltas.trans ((if_pos ok).trans ?_))⟩
      rw [stops, Nat.add_assoc]
      rfl
    · have fails : (scaleRun .plain c s).ok ≠ true := by
        rw [scaleRun_ahead edb ef len]
        exact deltaRun_fails _ enc behind outside
      exact ⟨_, _, Res.outcome_raised (deltas.trans (if_neg fails))⟩
  · obtain ⟨mv, n, within, e⟩ := exec_within (i := .frScale c) rfl s
    obtain ⟨scale, p, cases⟩ := frScale_cases mv c s
    obtain ⟨t, et, inRange, status, kept, chan⟩ :=
      Res.answers_unpacked cases nofun (within.stage_inRange (i := .frScale c) rfl hp) n
    refine ⟨t, e.trans et, inRange, status.imp_right And.right, kept, fun d => ?_⟩
    rw [chan]
    split
    · next same => exact ⟨same ▸ rfl, fun other => absurd same other⟩
    · exact ⟨rfl, fun _ => rfl⟩

end Sys2Proof.Machine
end


section
/-! PROOFS. Intensities and high-band scales (42_frame_unpack.md rules R172, R173). -/

namespace Sys2Proof.Machine

/-! FR_INTENSITY by the channel's type, the version and the kind of block. -/

theorem frIntensity_highBands {s : State} {c : Fin 16} (h : (s.chan c).type ≠ .secondary) (mv : Moves) :
    let row := mv.walk 6 s.cur.pos
    let n := s.ctx.hfrGroupCount.toNat
    frIntensity mv c s = .done (s.unpacked 0x26 c
      { s.chan c with hfrScale := s.literals row n (s.chan c).hfrScale } (row n)) := if_neg h

theorem intensityLiterals_eq (pk : Nat → Nat → Nat) (p : Nat → Nat) (v : Nat) :
    intensityLiterals pk p v =
      Vector.ofFn fun i : Fin 8 => BitVec.ofNat 4 (if i.val = 0 then v else pk (p (i.val - 1)) 4) := by
  simp only [intensityLiterals, tabulate, apply_ite (BitVec.ofNat 4)]

theorem entry_intensityLiterals (pk : Nat → Nat → Nat) (p : Nat → Nat) (v : Nat) {i : Nat} (hi : i < 8) :
    entry (intensityLiterals pk p v) i = BitVec.ofNat 4 (if i = 0 then v else pk (p (i - 1)) 4) := by
  rw [intensityLiterals, entry_tabulate, if_pos hi, apply_ite (BitVec.ofNat 4)]

/-- A write inside the file. -/
theorem wr_eq_set {w n : Nat} (v : Vector (BitVec w) n) {i : Nat} (x : BitVec w) (hi : i < n) :
    wr v i x = v.set i x hi := by
  ext1 j hj
  rw [wr, Vector.getElem_setIfInBounds, Vector.getElem_set]

/-- The run of values FR_INTENSITY reads behind the first value and the width (rule R172). -/
def intensityRun (mv : Moves) (c : Fin 16) (s : State) : DeltaRun 4 8 :=
  let first := s.peekAt s.cur.pos 4
  let q := mv 0 (s.cur.pos + 4 : Nat)
  deltaRun s.peekAt mv (s.peekAt q 2 + 1) 4 7 1 (mv 1 (q + 2 : Nat)) first
    (wr (s.chan c).intensity 0 (BitVec.ofNat 4 first))

section
variable {s : State} {c : Fin 16} (secondary : (s.chan c).type = .secondary)
include secondary

theorem frIntensity_old (old : s.ctx.version.toNat ≤ 0x0200) (mv : Moves) :
    frIntensity mv c s = intensityOld mv c (s.enterChan 0x26 c) := (if_pos secondary).trans (if_pos old)

theorem frIntensity_new (new : 0x0200 < s.ctx.version.toNat) (mv : Moves) :
    frIntensity mv c s = intensityNew mv c (s.enterChan 0x26 c) :=
  (if_pos secondary).trans (if_neg (Nat.not_le.2 new))

/-- An old flag below 15 is the first value, seven literals follow. -/
theorem frIntensity_oldLiterals (old : s.ctx.version.toNat ≤ 0x0200) (flag : s.requestValue s.cur.pos 4 < 15)
    (mv : Moves) :
    let row := mv.walk 4 (mv 0 (s.cur.pos + 4 : Nat))
    frIntensity mv c s = .done (s.unpacked 0x26 c
      { s.chan c with intensity := intensityLiterals s.peekAt row (s.peekAt s.cur.pos 4) } (row 7)) := by
  rw [← State.peekAt_eq] at flag
  exact (frIntensity_old secondary old mv).trans (if_pos flag)

/-- An old flag of 15 is stored and not consumed. -/
theorem frIntensity_kept (old : s.ctx.version.toNat ≤ 0x0200) (flag : s.requestValue s.cur.pos 4 = 15) (mv : Moves) :
    frIntensity mv c s = .done (s.unpacked 0x26 c
      { s.chan c with intensity := (s.chan c).intensity.set 0 15 } s.cur.pos) := by
  rw [← State.peekAt_eq] at flag
  have kept : frIntensity mv c s = .done (s.unpacked 0x26 c
      { s.chan c with intensity := wr (s.chan c).intensity 0 (BitVec.ofNat 4 (s.peekAt s.cur.pos 4)) } s.cur.pos) :=
    (frIntensity_old secondary old mv).trans (if_neg flag.not_lt)
  rw [kept, flag, wr_eq_set _ _ (by decide)]
  rfl

/-- A new flag of 15 is consumed and makes every value 7. -/
theorem frIntensity_sevens (new : 0x0200 < s.ctx.version.toNat) (flag : s.requestValue s.cur.pos 4 = 15)
    (mv : Moves) :
    frIntensity mv c s = .done (s.unpacked 0x26 c
      { s.chan c with intensity := Vector.replicate 8 7 } (mv 0 (s.cur.pos + 4 : Nat))) := by
  rw [← State.peekAt_eq] at flag
  exact (frIntensity_new secondary new mv).trans (if_neg flag.not_lt)

/-- A new flag below 15 and a field of 3 announce seven literals. -/
theorem frIntensity_newLiterals (new : 0x0200 < s.ctx.version.toNat) (flag : s.requestValue s.cur.pos 4 < 15)
    (mv : Moves) (field : s.requestValue (mv 0 (s.cur.pos + 4 : Nat)) 2 = 3) :
    let row := mv.walk 4 (mv 1 (mv 0 (s.cur.pos + 4 : Nat) + 2 : Nat))
    frIntensity mv c s = .done (s.unpacked 0x26 c
      { s.chan c with intensity := intensityLiterals s.peekAt row (s.peekAt s.cur.pos 4) } (row 7)) := by
  rw [← State.peekAt_eq] at flag field
  exact (frIntensity_new secondary new mv).trans ((if_pos flag).trans (if_pos field))

/-- Below 3 it announces a run of deltas. -/
theorem frIntensity_deltas (new : 0x0200 < s.ctx.version.toNat) (flag : s.requestValue s.cur.pos 4 < 15) (mv : Moves)
    (field : s.requestValue (mv 0 (s.cur.pos + 4 : Nat)) 2 ≠ 3) :
    let run := intensityRun mv c s
    let t := s.unpacked 0x26 c { s.chan c with intensity := run.file } run.pos
    frIntensity mv c s = if run.ok then .done t else .raised .invalidIntensity t := by
  rw [← State.peekAt_eq] at flag field
  exact (frIntensity_new secondary new mv).trans ((if_pos flag).trans (if_neg field))

end

/-- Whatever is read, FR_INTENSITY writes the file of the channel's type and is done, or raises InvalidIntensity for a
secondary channel under a new version. -/
theorem frIntensity_cases (mv : Moves) (c : Fin 16) (s : State) : ∃ (x : Channel) (p : Nat),
    ((s.chan c).type = .secondary ∧ x = { s.chan c with intensity := x.intensity } ∨
      (s.chan c).type ≠ .secondary ∧ x = { s.chan c with hfrScale := x.hfrScale }) ∧
    (frIntensity mv c s = .done (s.unpacked 0x26 c x p) ∨
      ((s.chan c).type = .secondary ∧ 0x0200 < s.ctx.version.toNat) ∧
        frIntensity mv c s = .raised .invalidIntensity (s.unpacked 0x26 c x p)) := by
  by_cases secondary : (s.chan c).type = .secondary
  · by_cases flag : s.requestValue s.cur.pos 4 < 15
    · by_cases old : s.ctx.version.toNat ≤ 0x0200
      · exact ⟨_, _, .inl ⟨secondary, rfl⟩, .inl (frIntensity_oldLiterals secondary old flag mv)⟩
      have new := Nat.not_le.1 old
      by_cases field : s.requestValue (mv 0 (s.cur.pos + 4 : Nat)) 2 = 3
      · exact ⟨_, _, .inl ⟨secondary, rfl⟩, .inl (frIntensity_newLiterals secondary new flag mv field)⟩
      have deltas := frIntensity_deltas secondary new flag mv field
      refine ⟨{ s.chan c with intensity := (intensityRun mv c s).file }, (intensityRun mv c s).pos,
        .inl ⟨secondary, rfl⟩, ?_⟩
      by_cases ok : (intensityRun mv c s).ok
      · exact .inl (deltas.trans (if_pos ok))
      · exact .inr ⟨⟨secondary, new⟩, deltas.trans (if_neg ok)⟩
    · have flag : s.requestValue s.cur.pos 4 = 15 := by
        have lt := s.requestValue_lt s.cur.pos 4
        omega
      by_cases old : s.ctx.version.toNat ≤ 0x0200
      · exact ⟨_, _, .inl ⟨secondary, rfl⟩, .inl (frIntensity_kept secondary old flag mv)⟩
      · exact ⟨_, _, .inl ⟨secondary, rfl⟩, .inl (frIntensity_sevens secondary (Nat.not_le.1 old) flag mv)⟩
  · exact ⟨_, _, .inr ⟨secondary, rfl⟩, .inl (frIntensity_highBands secondary mv)⟩

/-- Settles O35: a row of literals from the cursor on. -/
theorem highBandScalesRead : Obligations.HighBandScales := by
  intro c s primary hp n
  obtain ⟨mv, m, within, e⟩ := exec_within (i := .frIntensity c) rfl s
  have count : n < 256 := s.ctx.hfrGroupCount.isLt
  have row (g : Nat) (hg : g ≤ n) := within.walk (.here hp) 6 g (by rw [stageReach]; omega)
  refine ⟨_, _, s.draws + m, fun g hg => ?_, (row n le_rfl).1, fun inRange => ?_,
    e.trans (Res.outcome_drew_done (frIntensity_highBands primary mv) m)⟩
  · exact s.entry_literals (fun g => s.cur.pos + 6 * g) _
      (fun g hg inRange => (row g hg.le).2 (by omega) |>.trans (by omega)) hg
  · exact (row n le_rfl).2 (by omega) |>.trans (by omega)

/-- Settles O33: the blocks without deltas; a field that is not 0 is inside the buffer, where the moves are plain. -/
theorem intensityLiteralsRead : Obligations.IntensityLiterals := by
  intro c s legal secondary v literals
  have plain (h : v = 15) : exec (.frIntensity c) s = (frIntensity .plain c s).outcome Config.hw :=
    exec_inside (i := .frIntensity c) rfl legal
      ((Nat.le_add_right _ _).trans (State.inside_of_requestValue (n := 4) (by omega)))
  refine ⟨fun old => ⟨fun flag => ?_, fun flag => ?_⟩, fun new => ⟨fun flag => ?_, fun flag field => ?_⟩⟩
  · obtain ⟨mv, m, within, e⟩ := exec_within (i := .frIntensity c) rfl s
    have start := within.first 0 4 (by decide)
    have row (i : Nat) (hi : i ≤ 7) := within.walk start 4 i (by rw [stageReach]; omega)
    refine ⟨_, _, s.draws + m, fun i hi inRange => ?_, (row 7 le_rfl).1, (row 7 le_rfl).2,
      e.trans (Res.outcome_drew_done (frIntensity_oldLiterals secondary old flag mv) m)⟩
    rw [entry_intensityLiterals _ _ _ hi]
    cases i with
    | zero => rw [if_pos rfl, State.peekAt_eq, Nat.mul_zero, Nat.add_zero]
    | succ i =>
      rw [if_neg (Nat.succ_ne_zero i), Nat.add_sub_cancel, (row i (by omega)).2 (by omega), State.peekAt_eq,
        Nat.mul_succ, Nat.add_comm 4]
  · exact (plain flag).trans (Res.outcome_done (frIntensity_kept secondary old flag .plain))
  · exact (plain flag).trans (Res.outcome_done (frIntensity_sevens secondary new flag .plain))
  · have inside := State.inside_of_requestValue (s := s) (p := s.cur.pos + 4) (n := 2) (by omega)
    rw [exec_inside (i := .frIntensity c) rfl legal (by omega)]
    refine Res.outcome_done ((frIntensity_newLiterals secondary new flag .plain field).trans ?_)
    simp only [intensityLiterals_eq, Moves.walk_plain, Moves.plain_nat, State.peekAt_eq]
    rfl

/-! FR_INTENSITY with deltas. -/

/-- The fields of a delta-coded intensity block that is ahead. -/
theorem intensityBlock_ahead {s : State} {p first db : Nat} {symbols : List Bool} (hf : first < 2 ^ 4)
    (hdb : db < 2 ^ 2) (ahead : s.bitsAhead p (bitsOf 4 first ++ bitsOf 2 db ++ symbols)) :
    s.peekAt p 4 = first ∧ s.peekAt (p + 4) 2 = db ∧ s.bitsAhead (p + 6) symbols := by
  rw [List.append_assoc] at ahead
  exact ⟨ahead.peek_first hf, ahead.behind.peek_first hdb, ahead.behind.behind⟩

theorem intensityRun_ahead {s : State} {c : Fin 16} {db first k : Nat} (hf : s.peekAt s.cur.pos 4 = first)
    (hdb : s.peekAt (s.cur.pos + 4) 2 = db) (hk : k = 7) :
    intensityRun .plain c s = deltaRun s.peekAt .plain (db + 1) 4 k 1 (s.cur.pos + 6) first
      (wr (s.chan c).intensity 0 (BitVec.ofNat 4 first)) := by
  subst hf hdb hk
  rfl

/-- Settles O34: the run of a block that is ahead stores its values or is malformed; over any bits the stage answers. -/
theorem intensityDeltas : Obligations.IntensityDeltas := by
  refine fun c s => ⟨fun first db ys legal secondary new hf hdb len enc ahead => ?_, fun hp => ?_⟩
  · have inside : s.cur.pos ≤ s.cur.sizeBits := (Nat.le_add_right _ _).trans ahead.1
    obtain ⟨ef, edb, behind⟩ := intensityBlock_ahead (by omega) (by omega) ahead
    have flag := ef
    have field := edb
    rw [State.peekAt_eq] at flag field
    have deltas := frIntensity_deltas secondary new (by omega) .plain (by rw [Moves.plain_nat]; omega)
    rw [exec_inside (i := .frIntensity c) rfl legal inside]
    rw [intensityRun_ahead ef edb len] at deltas
    refine ⟨fun inRange => ?_, fun outside => ?_⟩
    · obtain ⟨ok, stops, entries⟩ := deltaRun_stores (s.chan c).intensity (by omega : first < 2 ^ 4) enc behind
        fun v hv => (inRange v hv).imp_right (by omega)
      refine ⟨_, fun i hi => (entries i hi).trans (if_pos (by omega)),
        Res.outcome_done (deltas.trans ((if_pos ok).trans ?_))⟩
      rw [stops, Nat.add_assoc]
      rfl
    · have fails := deltaRun_fails (wr (s.chan c).intensity 0 (BitVec.ofNat 4 first)) enc behind
        (outside.imp fun v hv => ⟨hv.1, by omega⟩)
      exact ⟨_, _, Res.outcome_raised (deltas.trans (if_neg fails))⟩
  · obtain ⟨mv, n, within, e⟩ := exec_within (i := .frIntensity c) rfl s
    obtain ⟨x, p, file, cases⟩ := frIntensity_cases mv c s
    obtain ⟨t, et, inRange, status, kept, chan⟩ :=
      Res.answers_unpacked cases nofun (within.stage_inRange (i := .frIntensity c) rfl hp) n
    refine ⟨t, e.trans et, inRange, status.imp_right fun ⟨⟨a, b⟩, h⟩ => ⟨a, b, h⟩, kept, fun d => ?_⟩
    rw [chan]
    split
    · next same =>
      subst same
      obtain ⟨secondary, hx⟩ | ⟨primary, hx⟩ := file
      · rw [hx]
        exact ⟨rfl, fun primary => absurd secondary primary, fun _ => rfl, fun other => absurd rfl other⟩
      · rw [hx]
        exact ⟨rfl, fun _ => rfl, fun secondary => absurd secondary primary, fun other => absurd rfl other⟩
    · exact ⟨rfl, fun _ => rfl, fun _ => rfl, fun _ => rfl⟩

end Sys2Proof.Machine
end


section
/-! PROOFS. Resolutions, the noise and valid partition, and gains (42_frame_unpack.md rules R175, R178). -/

namespace Sys2Proof.Machine

/-- Rule R175's formula: the shifts are the divisions, the two clamps `max` and `min`, since the range is not empty. -/
theorem resolutionOf_eq (cfg : Config) (ath : Nat) (packed : Int) (i scale : Nat) {minR maxR : Nat}
    (h : minR ≤ maxR) :
    let p : Int := (ath + (packed + i) >>> (8 : Nat)) + 1 - ((5 * scale) >>> 1 : Nat)
    resolutionOf cfg ath packed i scale minR maxR =
      max minR (min (if p < 0 then 15 else if p ≤ 65 then (cfg.tInvert p.toNat).toNat else 0) maxR) := by
  intro p
  have level : (packed + i) >>> (8 : Nat) = (packed + i) / 256 := Int.shiftRight_eq_div_pow _ 8
  have shifted : p = (ath + (packed + i) / 256 : Int) + 1 - (5 * scale / 2 : Nat) := by
    rw [← level, ← Nat.shiftRight_one]
    rfl
  simp only [resolutionOf, ← shifted]
  generalize (if p < 0 then 15 else if p ≤ 65 then (cfg.tInvert p.toNat).toNat else 0 : Nat) = r
  split
  · omega
  · split <;> omega

/-- The resolution FR_RESOLUTION gives coefficient `i` of channel `c` where its scale factor is not 0. -/
def State.resolutionAt (cfg : Config) (s : State) (c : Fin 16) (i : Nat) : Nat :=
  resolutionOf cfg (s.athCurve.getD i 0).toNat s.packedNoiseLevel i (rd (s.chan c).scale i).toNat
    s.ctx.minResolution.toNat s.ctx.maxResolution.toNat

/-- The files FR_RESOLUTION starts from: no resolution, the noise indices of the frame before. -/
def Channel.unpartitioned (k : Channel) : Partition :=
  { resolution := Vector.replicate 128 0, noises := k.noises, noiseCount := 0, validCount := 0 }

/-- The files FR_RESOLUTION leaves in channel `c`. -/
def State.partition (cfg : Config) (s : State) (c : Fin 16) : Partition :=
  partitionUpTo (s.resolutionAt cfg c) (fun i => (entry (s.chan c).scale i).toNat) (s.chan c).unpartitioned
    (s.chan c).codedCount.toNat

theorem frResolution_eq (cfg : Config) (c : Fin 16) (s : State) :
    let q := s.partition cfg c
    frResolution cfg c s = .done (s.unpacked 0x27 c
      { s.chan c with resolution := q.resolution, noises := q.noises, noiseCount := BitVec.ofNat 8 q.noiseCount,
                      validCount := BitVec.ofNat 8 q.validCount } s.cur.pos) := rfl

/-- Settles O36: the files of the partition, its formula written as the rule's. -/
theorem resolutionAndPartition : Obligations.ResolutionAndPartition := by
  intro c s coded ordered max15 k p r res noise valid
  have formula (i : Nat) (scaled : (entry k.scale i).toNat ≠ 0) : s.resolutionAt Config.hw c i = res i :=
    (resolutionOf_eq _ _ _ _ _ ordered).trans (if_neg scaled).symm
  have noise_eq : noise = (List.range k.codedCount.toNat).filter fun i =>
      (entry k.scale i).toNat ≠ 0 ∧ s.resolutionAt Config.hw c i = 0 :=
    List.filter_congr fun i _ => decide_eq_decide.2 (and_congr_right fun scaled => by rw [formula i scaled])
  have valid_eq : valid = (List.range k.codedCount.toNat).filter fun i =>
      (entry k.scale i).toNat ≠ 0 ∧ s.resolutionAt Config.hw c i ≠ 0 :=
    List.filter_congr fun i _ => decide_eq_decide.2 (and_congr_right fun scaled => by rw [formula i scaled])
  have bounded (i : Nat) : res i < 2 ^ 4 := by
    simp only [res]
    split <;> omega
  obtain ⟨front, back, between⟩ := partitionUpTo_noises (s.resolutionAt Config.hw c)
    (fun i => (entry k.scale i).toNat) k.unpartitioned rfl rfl _ coded
  rw [← noise_eq, ← valid_eq] at between
  rw [← noise_eq] at front
  rw [← valid_eq] at back
  refine ⟨(s.partition Config.hw c).resolution, (s.partition Config.hw c).noises, fun i hi => ?_, front, back,
    between, ?_⟩
  · rw [State.partition, partitionUpTo_resolution _ _ _ _ coded, Channel.unpartitioned, entry_replicate, if_pos hi]
    split
    · by_cases scaled : (entry k.scale i).toNat = 0
      · rw [if_pos scaled]
        exact (if_pos scaled).symm
      · rw [if_neg scaled, formula i scaled, BitVec.toNat_ofNat, Nat.mod_eq_of_lt (bounded i)]
    · rfl
  · rw [noise_eq, valid_eq, ← partitionUpTo_noise _ _ k.unpartitioned _ rfl,
      ← partitionUpTo_valid _ _ k.unpartitioned _ rfl]
    exact Res.outcome_done (frResolution_eq Config.hw c s)

/-- The gain FR_GAIN gives coefficient `i` of channel `c` (rule R178). -/
def State.gainAt (cfg : Config) (s : State) (c : Fin 16) (i : Nat) : F32 :=
  F32.mul (s.nan cfg i) (cfg.tScale (entry (s.chan c).scale i).toNat) (cfg.tRange (entry (s.chan c).resolution i).toNat)

theorem frGain_eq (cfg : Config) (c : Fin 16) (s : State) :
    frGain cfg c s = .done ((s.unpacked 0x28 c
      { s.chan c with gain := fillWhere (fun i => i < (s.chan c).codedCount.toNat) (s.gainAt cfg c) (s.chan c).gain }
      s.cur.pos).drew 128) := rfl

/-- Settles O37: each entry filled is one product, its NaN drawn. -/
theorem gainProducts : Obligations.GainProducts := by
  refine fun c s => ⟨_, s.draws + 128, fun i hi => ?_, Res.outcome_done (frGain_eq Config.hw c s)⟩
  rw [entry_fillWhere _ _ _ hi]
  split
  · next coded =>
    rw [if_pos (decide_eq_true coded)]
    exact isProduct_mul s i _ _
  · next behind => rw [decide_eq_false behind, if_neg Bool.false_ne_true]

end Sys2Proof.Machine
end


section
/-! PROOFS. The coefficient codes (43_spectral_reconstruct.md rules R191 to R193). -/

namespace Sys2Proof.Machine

/-- The value of a code of resolution `r` (rules R192, R193). -/
def codeValue (cfg : Config) (r code : Nat) : F32 := if 7 < r then (dequantHigh code).1 else cfg.tReadVal r code

/-- The bits a code of resolution `r` occupies: its width, less the bit un-read behind a zero magnitude, or the
table's. -/
def codeBits (cfg : Config) (r code : Nat) : Nat :=
  if 7 < r then (if code / 2 = 0 then cfg.tMaxBits r - 1 else cfg.tMaxBits r) else cfg.tReadBits r code

theorem codeBits_le (r code : Nat) : codeBits Config.hw r code ≤ Config.hw.tMaxBits r := by
  have low := Config.hw_readBits_le r code
  rw [codeBits]
  split
  · split <;> omega
  · exact low

/-- What the cursor skips behind the read of a code. -/
theorem dequant_skip_eq (r code : Nat) :
    (if 7 < r then dequantHigh code else dequantLow Config.hw r code (Config.hw.tMaxBits r)).2 =
      (codeBits Config.hw r code : Int) - Config.hw.tMaxBits r := by
  rw [codeBits]
  split
  · next high =>
    have width := Config.hw_maxBits_pos r high
    rw [dequantHigh]
    split
    · show (-1 : Int) = _
      omega
    · exact (Int.sub_self _).symm
  · rfl

/-- Under the table contracts a code is its value, and the cursor moves over its width and then skips to its end. -/
theorem dequantOne_eq (pk : Nat → Nat → Nat) (mv : Moves) (i r pos : Nat) :
    let w := Config.hw.tMaxBits r
    let code := pk pos w
    dequantOne Config.hw pk mv i r pos = .ok (codeValue Config.hw r code,
      mv (2 * i + 1) ((mv (2 * i) (pos + w : Nat) : Int) + ((codeBits Config.hw r code : Int) - w))) := by
  intro w code
  have legal : ¬ 32 < w := Nat.not_lt.2 ((Config.hw_maxBits_le r).trans (by decide))
  have value : (if 7 < r then dequantHigh code else dequantLow Config.hw r code w).1 = codeValue Config.hw r code :=
    apply_ite Prod.fst ..
  rw [← value, ← dequant_skip_eq]
  exact if_neg legal

section
variable {pk : Nat → Nat → Nat} {mv : Moves} {i r pos pos' : Nat} {q : F32}

theorem dequantOne_value (h : dequantOne Config.hw pk mv i r pos = .ok (q, pos')) :
    q = codeValue Config.hw r (pk pos (Config.hw.tMaxBits r)) := by
  rw [dequantOne_eq] at h
  cases h
  rfl

/-- Where the register holds the position behind the width read, the cursor ends behind the code's bits. -/
theorem dequantOne_behind {p reach : Nat} (within : mv.Within p reach)
    (h : dequantOne Config.hw pk mv i r pos = .ok (q, pos')) (inRange : pos + Config.hw.tMaxBits r < 2 ^ 31) :
    pos' = pos + codeBits Config.hw r (pk pos (Config.hw.tMaxBits r)) := by
  have short := codeBits_le r (pk pos (Config.hw.tMaxBits r))
  rw [dequantOne_eq, within.sum _ _ inRange] at h
  cases h
  rw [← within.sum (2 * i + 1) (pos + codeBits Config.hw r (pk pos (Config.hw.tMaxBits r))) (by omega)]
  congr 1
  omega

end

/-- From wherever the stage starts, every code leaves a position in the register's range. -/
theorem dequant_inRange {pk : Nat → Nat → Nat} {mv : Moves} {res : Nat → Nat} {p : Nat → Nat} {n : Nat}
    (within : mv.Within (p 0) stageReach) (hn : n ≤ 128)
    (codes : ∀ i, i < n → ∃ q, dequantOne Config.hw pk mv i (res i) (p i) = .ok (q, p (i + 1))) :
    ∀ i, i < n → p (i + 1) < 2 ^ 31 := by
  obtain ⟨near, rfl⟩ | free := within.range
  · have advance (i : Nat) (hi : i ≤ n) : p i ≤ p 0 + 16 * i := by
      induction i with
      | zero => exact Nat.le_refl _
      | succ i ih =>
        obtain ⟨q, code⟩ := codes i hi
        have step := dequantOne_pos code
        have before := ih (by omega)
        omega
    intro i hi
    have behind := advance (i + 1) hi
    rw [stageReach] at near
    omega
  · intro i hi
    obtain ⟨q, code⟩ := codes i hi
    rw [dequantOne_eq] at code
    injection code with code
    rw [← (Prod.mk.inj code).2]
    exact free _ _

/-- SP_DEQUANT over any moves: `p i` is the cursor before coefficient `i`. -/
theorem spDequant_cases (mv : Moves) (c : Fin 16) (s : State) (hn : (s.chan c).codedCount.toNat ≤ 128) :
    let n := (s.chan c).codedCount.toNat
    ∃ (p : Nat → Nat) (spectra : Vector F32 128), p 0 = s.cur.pos ∧
      spDequant Config.hw mv c s =
        .done ((s.unpacked 0x30 c { s.chan c with spectra := spectra } (p n)).drew 128) ∧
      (∀ i, i < n → ∃ q,
        dequantOne Config.hw s.peekAt mv i (entry (s.chan c).resolution i).toNat (p i) = .ok (q, p (i + 1)) ∧
        IsProduct (entry spectra i) (entry (s.chan c).gain i) q) ∧
      ∀ i, n ≤ i → i < 128 → entry spectra i = 0 := by
  intro n
  obtain ⟨p, spectra, start, run, codes, behind⟩ := dequantUpTo_ok s.peekAt mv
    (fun i => (entry (s.chan c).resolution i).toNat)
    (fun i q => F32.mul (s.nan Config.hw i) (entry (s.chan c).gain i) q)
    s.cur.pos (Vector.replicate 128 F32.zero) n hn
  refine ⟨p, spectra, start, ?_, fun i hi => ?_, fun i hi hi' => ?_⟩
  · rw [spDequant]
    split
    · next stopped => cases run.symm.trans stopped
    · next read =>
      cases run.symm.trans read
      rfl
  · obtain ⟨q, code, product⟩ := codes i hi
    exact ⟨q, code, product ▸ isProduct_mul s i _ _⟩
  · rw [behind i hi, entry_replicate, if_pos hi']
    rfl

/-- Settles O38: each coefficient is its code's value times the gain, the cursor behind the code's bits. -/
theorem dequantReadsCodes : Obligations.DequantReadsCodes := by
  intro c s hn
  obtain ⟨mv, m, within, e⟩ := exec_within (i := .spDequant c) rfl s
  obtain ⟨p, spectra, start, done, codes, zeros⟩ := spDequant_cases mv c s hn
  have inRange := dequant_inRange (start ▸ within) hn fun i hi => (codes i hi).imp fun _ => And.left
  refine ⟨p, spectra, s.draws + 128 + m, start, fun i hi => ?_, zeros, e.trans (Res.outcome_drew_done done m)⟩
  intro r w code
  obtain ⟨q, read, product⟩ := codes i hi
  have value : q = codeValue Config.hw r code := by
    rw [dequantOne_value read, State.peekAt_eq]
  have behind (near : p i + w < 2 ^ 31) : p (i + 1) = p i + codeBits Config.hw r code := by
    rw [dequantOne_behind within read near, State.peekAt_eq]
  rw [value, codeValue] at product
  rw [codeBits] at behind
  refine ⟨inRange i hi, ?_⟩
  rw [Nat.shiftRight_one]
  split
  · next high =>
    have width : 1 ≤ w := Config.hw_maxBits_pos r high
    rw [if_pos high, dequantHigh] at product
    rw [if_pos high] at behind
    split
    · next zero =>
      rw [if_pos zero] at product behind
      refine ⟨fun near => ?_, product⟩
      have stops := behind near
      omega
    · next nonzero =>
      rw [if_neg nonzero] at product behind
      exact ⟨behind, product⟩
  · next low =>
    rw [if_neg low] at product behind
    exact ⟨behind, product⟩

end Sys2Proof.Machine
end


section
/-! PROOFS. Noise and high-frequency reconstruction (43_spectral_reconstruct.md rules R196 to R198, R202, R203). -/

namespace Sys2Proof.Machine

/-! Noise entries. -/

theorem noiseApplies_iff (x : Ctx) (k : Channel) :
    noiseApplies x k = true ↔ x.minResolution = 0 ∧ ¬ (x.msStereo ≠ 0 ∧ k.type = .primary) ∧
      k.validCount ≠ 0 ∧ k.noiseCount ≠ 0 := by
  simp [noiseApplies, and_assoc, or_iff_not_imp_left]

theorem spNoise_off {cfg : Config} {c : Fin 16} {s : State} (h : noiseApplies s.ctx (s.chan c) ≠ true) :
    spNoise cfg c s = .done { s with stage := 0x31, c := c } := if_neg h

/-- The generator and the spectrum before noise entry `j`. -/
def State.noiseRun (cfg : Config) (s : State) (c : Fin 16) (j : Nat) : BitVec 32 × Vector F32 128 :=
  noiseUpTo cfg (s.chan c) (s.nan cfg) (s.random, (s.chan c).spectra) j

theorem spNoise_on {cfg : Config} {c : Fin 16} {s : State} (h : noiseApplies s.ctx (s.chan c) = true) :
    let run := s.noiseRun cfg c (s.chan c).noiseCount.toNat
    spNoise cfg c s = .done
      { s with stage := 0x31, c := c, draws := s.draws + 256, random := run.1,
               ch := s.ch.set c { s.chan c with spectra := run.2 } } := if_pos h

/-- The factor's index, a difference on natural numbers, is the rule's clamped one. -/
theorem noiseFactor_eq (cfg : Config) (sn sv : Nat) :
    noiseFactor cfg sn sv = cfg.tScaleConv ((sn : Int) - sv + 62).toNat := by
  rw [noiseFactor]
  congr 1
  omega

/-- One noise entry of rules R196 to R198. -/
theorem noiseRun_succ (s : State) (c : Fin 16) (j : Nat) :
    let k := s.chan c
    let before := s.noiseRun Config.hw c j
    let after := s.noiseRun Config.hw c (j + 1)
    let ni := (entry k.noises j).toNat
    let vi := (entry k.noises (donorIndex Config.hw after.1 k.validCount.toNat)).toNat
    after.1 = lcg before.1 ∧
    IsProduct (entry after.2 ni)
      (Config.hw.tScaleConv (((entry k.scale ni).toNat : Int) - (entry k.scale vi).toNat + 62).toNat)
      (entry before.2 vi) ∧
    ∀ i, i ≠ ni → entry after.2 i = entry before.2 i := by
  intro k before after ni vi
  have written : after.2 = wr before.2 ni (F32.mul (s.nan Config.hw j)
      (noiseFactor Config.hw (entry k.scale ni).toNat (entry k.scale vi).toNat) (entry before.2 vi)) := rfl
  have inFile : ni < 128 := (entry k.noises j).isLt
  refine ⟨rfl, ?_, fun i hi => ?_⟩
  · rw [written, entry_wr, if_pos ⟨rfl, inFile⟩, noiseFactor_eq]
    exact isProduct_mul s j _ _
  · rw [written, entry_wr, if_neg fun ⟨same, _⟩ => hi same.symm]

/-- Settles O39: the run over the noise entries, one step each. -/
theorem noiseReconstruction : Obligations.NoiseReconstruction := by
  intro c s k applies
  have early := noiseApplies_iff s.ctx k
  refine ⟨fun off => Res.outcome_done (spNoise_off (mt early.1 off)), fun on => ?_⟩
  refine ⟨fun j => (s.noiseRun Config.hw c j).2, fun j => (s.noiseRun Config.hw c j).1, s.draws + 256, rfl, rfl,
    fun j _ => ?_, Res.outcome_done (spNoise_on (early.2 on))⟩
  obtain ⟨generator, product, kept⟩ := noiseRun_succ s c j
  refine ⟨(congrArg BitVec.toNat generator).trans (lcg_toNat _), ?_⟩
  rw [Nat.shiftRight_eq_div_pow]
  exact ⟨product, kept⟩

/-! High bands. -/

/-- The first band above the coded ones. -/
def Ctx.highStart (x : Ctx) : Nat := x.baseBandCount.toNat + x.stereoBandCount.toNat

/-- How far below it the low index comes to rest (rule R202). -/
def Ctx.lowRest (x : Ctx) : Nat := (x.hfrGroupCount.toNat >>> 1) * x.bandsPerHfrGroup.toNat

/-- The number of bands SP_HFR reconstructs: up to the top band, or until the low index runs out. -/
def Ctx.highBands (x : Ctx) : Nat :=
  if x.highStart ≤ x.lowRest then min x.highStart (x.totalBandCount.toNat - x.highStart)
  else x.totalBandCount.toNat - x.highStart

theorem Ctx.highBands_le (x : Ctx) : x.highBands ≤ x.totalBandCount.toNat - x.highStart := by
  rw [Ctx.highBands]
  split
  · exact min_le_right _ _
  · exact le_rfl

theorem spHfr_off {cfg : Config} {c : Fin 16} {s : State}
    (h : s.ctx.bandsPerHfrGroup = 0 ∨ (s.chan c).type = .secondary) :
    spHfr cfg c s = .done { s with stage := 0x32, c := c } := if_pos h

/-- Where SP_HFR stops, and the spectrum it has copied together. -/
def State.hfrRun (cfg : Config) (s : State) (c : Fin 16) : HfrRun :=
  hfrGroupsUpTo cfg (s.nan cfg) (fun i => (entry (s.chan c).scale i).toNat)
    (fun g => (entry (s.chan c).hfrScale g).toNat) s.ctx.totalBandCount.toNat s.ctx.bandsPerHfrGroup.toNat
    (s.ctx.hfrGroupCount.toNat >>> 1)
    { high := s.ctx.highStart, low := (s.ctx.highStart : Int) - 1, sp := (s.chan c).spectra }
    s.ctx.hfrGroupCount.toNat

/-- The spectrum with the forced zero below band `high` (rule R203). -/
def zeroBelow (high : Nat) (sp : Vector F32 128) : Vector F32 128 :=
  if 1 ≤ high then wr sp (high - 1) F32.zero else sp

theorem spHfr_on {cfg : Config} {c : Fin 16} {s : State} {high : Nat} {low : Int} {sp : Vector F32 128}
    (h : ¬ (s.ctx.bandsPerHfrGroup = 0 ∨ (s.chan c).type = .secondary))
    (run : s.hfrRun cfg c = { high := high, low := low, sp := sp }) :
    spHfr cfg c s = .done
      { s with stage := 0x32, c := c, draws := s.draws + 512,
               ch := s.ch.set c { s.chan c with spectra := zeroBelow high sp } } := by
  have on : spHfr cfg c s = .done
      { s with stage := 0x32, c := c, draws := s.draws + 512,
               ch := s.ch.set c
                 { s.chan c with spectra := zeroBelow (s.hfrRun cfg c).high (s.hfrRun cfg c).sp } } := if_neg h
  rw [on, run]

theorem entry_zeroBelow_same {high : Nat} (sp : Vector F32 128) (h : 1 ≤ high) :
    entry (zeroBelow high sp) (high - 1) = 0 := by
  rw [zeroBelow, if_pos h]
  by_cases inFile : high - 1 < 128
  · rw [entry_wr, if_pos ⟨rfl, inFile⟩]
    rfl
  · exact entry_ge _ (Nat.not_lt.1 inFile)

theorem entry_zeroBelow_ne {high i : Nat} (sp : Vector F32 128) (h : i + 1 ≠ high) :
    entry (zeroBelow high sp) i = entry sp i := by
  rw [zeroBelow]
  split
  · rw [entry_wr, if_neg (by omega)]
  · rfl

/-- The groups of rule R148 cover the bands above the coded ones. -/
theorem Ctx.bands_le_groups (x : Ctx) (h : 0 < x.bandsPerHfrGroup.toNat) :
    x.totalBandCount.toNat - x.highStart ≤ x.groupCount * x.bandsPerHfrGroup.toNat := by
  have nonzero : x.bandsPerHfrGroup ≠ 0 := fun zero => absurd (zero ▸ h) (by decide)
  have covered := Nat.lt_div_mul_add (a := x.totalBandCount.toNat - x.baseBandCount.toNat - x.stereoBandCount.toNat +
    x.bandsPerHfrGroup.toNat - 1) h
  rw [Ctx.groupCount, if_neg nonzero, Ctx.highStart]
  omega

/-- The spectrum copied together: since the groups cover every high band, the bands copied are all of them or as many
as there are low ones. -/
theorem hfrRun_eq {s : State} (c : Fin 16) (bands : 0 < s.ctx.bandsPerHfrGroup.toNat)
    (below : s.ctx.highStart ≤ s.ctx.totalBandCount.toNat) (inFile : s.ctx.totalBandCount.toNat ≤ 128)
    (groups : s.ctx.hfrGroupCount.toNat = s.ctx.groupCount) :
    let k := s.chan c
    let start := s.ctx.highStart
    ∃ (rest : Int) (sp : Vector F32 128),
      s.hfrRun Config.hw c = { high := start + s.ctx.highBands, low := rest, sp := sp } ∧
      (∀ m, m < s.ctx.highBands →
        let low := start - 1 - min m s.ctx.lowRest
        IsProduct (entry sp (start + m))
          (hfrFactor Config.hw (entry k.hfrScale (m / s.ctx.bandsPerHfrGroup.toNat)).toNat (entry k.scale low).toNat)
          (entry k.spectra low)) ∧
      ∀ i, i < start ∨ start + s.ctx.highBands ≤ i → entry sp i = entry k.spectra i := by
  intro k start
  obtain ⟨m, sp, copied, run, entries, kept⟩ := hfrGroupsUpTo_eq Config.hw (s.nan Config.hw)
    (fun i => (entry k.scale i).toNat) (fun g => (entry k.hfrScale g).toNat) s.ctx.totalBandCount.toNat
    s.ctx.bandsPerHfrGroup.toNat (s.ctx.hfrGroupCount.toNat >>> 1) start k.spectra bands below inFile
    s.ctx.hfrGroupCount.toNat
  have covered : s.ctx.highBands ≤ s.ctx.hfrGroupCount.toNat * s.ctx.bandsPerHfrGroup.toNat :=
    groups ▸ s.ctx.highBands_le.trans (s.ctx.bands_le_groups bands)
  obtain rfl : m = s.ctx.highBands := copied.trans (min_eq_right covered)
  exact ⟨_, sp, run, fun m hm => entries m hm ▸ isProduct_mul s _ _ _, kept⟩

/-- Settles O40: the run over the groups, the forced zero written last over its topmost band. -/
theorem highFrequencyReconstruction : Obligations.HighFrequencyReconstruction := by
  refine fun c s => ⟨fun off => Res.outcome_done (spHfr_off off), fun on below inFile groups => ?_⟩
  have bands : 0 < s.ctx.bandsPerHfrGroup.toNat :=
    Nat.pos_of_ne_zero fun zero => on (.inl (BitVec.eq_of_toNat_eq zero))
  obtain ⟨_, sp, run, copied, kept⟩ := hfrRun_eq c bands below inFile groups
  refine ⟨_, _, fun m hm => ?_, entry_zeroBelow_same sp, fun i _ hi => ?_, Res.outcome_done (spHfr_on on run)⟩
  · have hm : m + 1 < s.ctx.highBands := hm
    have inside : s.ctx.highStart + m + 1 ≠ s.ctx.highStart + s.ctx.highBands := by omega
    exact entry_zeroBelow_ne sp inside ▸ copied m (by omega)
  · have hi : i + 1 < s.ctx.highStart ∨ s.ctx.highStart + s.ctx.highBands ≤ i ∨
        i < s.ctx.highStart ∧ 1 ≤ s.ctx.highBands := hi
    exact (entry_zeroBelow_ne _ (by omega)).trans (kept i (by omega))

end Sys2Proof.Machine
end


section
/-! PROOFS. Stereo recombination (43_spectral_reconstruct.md rules R206 to R209). -/

namespace Sys2Proof.Machine

theorem secondaryOf_next {c d : Fin 16} (h : d.val = c.val + 1) : secondaryOf c = some d :=
  (secondaryOf_some c (h ▸ d.isLt)).trans (congrArg some (Fin.ext h.symm))

theorem secondaryOf_last {c : Fin 16} (h : c.val = 15) : secondaryOf c = none := dif_neg (by omega)

theorem Ctx.stereoBand_iff (x : Ctx) (b : Nat) :
    x.stereoBand b = true ↔ x.baseBandCount.toNat ≤ b ∧ b < x.totalBandCount.toNat := by
  simp only [Ctx.stereoBand, Bool.and_eq_true, decide_eq_true_eq]
  rfl

/-- A spectrum filled over the band range of rule R206. -/
theorem entry_fillWhere_stereoBand (x : Ctx) (f : Nat → F32) (v : Vector F32 128) {b : Nat} (hb : b < 128) :
    entry (fillWhere x.stereoBand f v) b =
      if x.baseBandCount.toNat ≤ b ∧ b < x.totalBandCount.toNat then f b else entry v b := by
  rw [entry_fillWhere _ _ _ hb]
  exact if_congr (x.stereoBand_iff b) rfl rfl

theorem spIstereo_eq (cfg : Config) {c d : Fin 16} (h : secondaryOf c = some d) (sf : Fin 8) (s : State) :
    let ratio := cfg.tIntensity ((s.chan d).intensity[sf]).toNat
    let x := istereoPrimary cfg s ratio (s.chan c).spectra
    let y := istereoSecondary cfg s ratio (s.chan c).spectra (s.chan d).spectra
    spIstereo cfg c sf s = .done
      { s with stage := 0x33, c := c, sf := sf, draws := s.draws + 257,
               ch := (s.ch.set c { s.chan c with spectra := x }).set d { s.chan d with spectra := y } } := by
  rw [spIstereo, h]
  rfl

theorem spIstereo_refused (cfg : Config) {c : Fin 16} (h : secondaryOf c = none) (sf : Fin 8) (s : State) :
    spIstereo cfg c sf s = .refused .noSecondaryChannel := by
  rw [spIstereo, h]

/-- Settles O41: over the band range each channel's entry is one product of the primary's old value. -/
theorem intensityStereo : Obligations.IntensityStereo := by
  refine fun c sf s => ⟨fun d pair => ?_, fun last => ?_⟩
  · refine ⟨_, _, _, _, isDifference_sub s 0 _ _, fun b hb => ?_,
      Res.outcome_done (spIstereo_eq Config.hw (secondaryOf_next pair) sf s)⟩
    rw [istereoPrimary, istereoSecondary, entry_fillWhere_stereoBand _ _ _ hb, entry_fillWhere_stereoBand _ _ _ hb]
    split
    · exact ⟨isProduct_mul s _ _ _, isProduct_mul s _ _ _⟩
    · exact ⟨rfl, rfl⟩
  · exact congrArg (Res.outcome Config.hw) (spIstereo_refused Config.hw (secondaryOf_last last) sf s)

/-- The primary's band `b` after SP_MSSTEREO (rule R209). -/
def State.midBand (cfg : Config) (s : State) (c d : Fin 16) (b : Nat) : F32 :=
  F32.mul (s.nan cfg (4 * b))
    (F32.add (s.nan cfg (4 * b + 1)) (entry (s.chan c).spectra b) (entry (s.chan d).spectra b)) F32.sqrtHalf

/-- The secondary's band `b` after SP_MSSTEREO (rule R209). -/
def State.sideBand (cfg : Config) (s : State) (c d : Fin 16) (b : Nat) : F32 :=
  F32.mul (s.nan cfg (4 * b + 2))
    (F32.sub (s.nan cfg (4 * b + 3)) (entry (s.chan c).spectra b) (entry (s.chan d).spectra b)) F32.sqrtHalf

theorem spMsstereo_eq (cfg : Config) {c d : Fin 16} (h : secondaryOf c = some d) (s : State) :
    let x := fillWhere s.ctx.stereoBand (s.midBand cfg c d) (s.chan c).spectra
    let y := fillWhere s.ctx.stereoBand (s.sideBand cfg c d) (s.chan d).spectra
    spMsstereo cfg c s = .done
      { s with stage := 0x34, c := c, draws := s.draws + 512,
               ch := (s.ch.set c { s.chan c with spectra := x }).set d { s.chan d with spectra := y } } := by
  rw [spMsstereo, h]
  rfl

theorem spMsstereo_refused (cfg : Config) {c : Fin 16} (h : secondaryOf c = none) (s : State) :
    spMsstereo cfg c s = .refused .noSecondaryChannel := by
  rw [spMsstereo, h]

/-- Settles O42: over the band range the rounded sum and the rounded difference are each multiplied once. -/
theorem midSideStereo : Obligations.MidSideStereo := by
  refine fun c s => ⟨fun d pair => ?_, fun last => ?_⟩
  · refine ⟨_, _, _, fun b hb => ?_, Res.outcome_done (spMsstereo_eq Config.hw (secondaryOf_next pair) s)⟩
    rw [entry_fillWhere_stereoBand _ _ _ hb, entry_fillWhere_stereoBand _ _ _ hb]
    split
    · exact ⟨⟨_, isSum_add s _ _ _, isProduct_mul s _ _ _⟩, ⟨_, isDifference_sub s _ _ _, isProduct_mul s _ _ _⟩⟩
    · exact ⟨rfl, rfl⟩
  · exact congrArg (Res.outcome Config.hw) (spMsstereo_refused Config.hw (secondaryOf_last last) s)

end Sys2Proof.Machine
end

section
/-! PROOFS. The inverse transform (44_imdct.md rules R222 to R226): the entries each stage of a pass writes, block by
block, the spread of a single coefficient through the first pass, and the windowed overlap-add. -/

namespace Sys2Proof.Machine

/-! Blocks of a stage: block `j` is the `2 * h` entries from `2 * j * h` on. -/

theorem block_div {h r : Nat} (j : Nat) (hr : r < 2 * h) : (2 * j * h + r) / (2 * h) = j := by
  rw [Nat.mul_right_comm, Nat.mul_add_div (by omega), Nat.div_eq_of_lt hr, Nat.add_zero]

theorem block_mod {h r : Nat} (j : Nat) (hr : r < 2 * h) : (2 * j * h + r) % (2 * h) = r := by
  rw [Nat.mul_right_comm, Nat.mul_add_mod, Nat.mod_eq_of_lt hr]

/-- The pairs of `n` blocks of `h` each are at most 64. -/
theorem pair_lt {n h j k : Nat} (hn : n * h ≤ 64) (hj : j < n) (hk : k < h) : j * h + k < 64 := by
  have : (j + 1) * h ≤ n * h := Nat.mul_le_mul_right h hj
  rw [Nat.succ_mul] at this
  omega

theorem block_lt {n h j r : Nat} (hn : n * h ≤ 64) (hj : j < n) (hr : r < 2 * h) : 2 * j * h + r < 128 := by
  have := pair_lt hn hj (show r / 2 < h by omega)
  rw [Nat.mul_assoc]
  omega

theorem entry_passFile_succ (e : Nat → Vector F32 128 → Nat → F32) (v : Vector F32 128) (t : Nat) {o : Nat}
    (ho : o < 128) : entry (passFile e v (t + 1)) o = e t (passFile e v t) o := by
  rw [passFile, entry_tabulate, if_pos ho]

/-! The first pass. -/

theorem pass1Entry_lower (nan : Nat → F32) (t : Nat) (src : Vector F32 128) (j : Nat) {k : Nat}
    (hk : k < 64 / 2 ^ t) :
    let half := 64 / 2 ^ t
    let pair := j * half + k
    pass1Entry nan t src (2 * j * half + k) =
      F32.add (nan (128 * t + (2 * j * half + k))) (entry src (2 * pair)) (entry src (2 * pair + 1)) := by
  intro half pair
  have hr : k < 2 * half := by omega
  rw [pass1Entry, block_div j hr, block_mod j hr, if_pos hk]
  rfl

theorem pass1Entry_upper (nan : Nat → F32) (t : Nat) (src : Vector F32 128) (j : Nat) {k : Nat}
    (hk : k < 64 / 2 ^ t) :
    let half := 64 / 2 ^ t
    let pair := j * half + k
    pass1Entry nan t src (2 * j * half + (half + k)) =
      F32.sub (nan (128 * t + (2 * j * half + (half + k)))) (entry src (2 * pair)) (entry src (2 * pair + 1)) := by
  intro half pair
  have hr : half + k < 2 * half := by omega
  rw [pass1Entry, block_div j hr, block_mod j hr, if_neg (by omega), Nat.add_sub_cancel_left]
  rfl

/-- The file stage `t` of the first pass reads; file 7 is the result. -/
def State.pass1File (cfg : Config) (s : State) (c : Fin 16) : Nat → Vector F32 128 :=
  passFile (pass1Entry (s.nan cfg)) (s.chan c).spectra

theorem imPass1_eq (cfg : Config) (c : Fin 16) (s : State) :
    imPass1 cfg c s = .done
      { s with stage := 0x40, c := c, draws := s.draws + 896,
               ch := s.ch.set c
                 { s.chan c with spectra := s.pass1File cfg c 6, scratch := s.pass1File cfg c 7 } } := by
  rw [imPass1, pingPong_seven]
  rfl

/-- Settles O43: the lower half of a block takes the sums of its pairs, the upper half the differences. -/
theorem firstPass : Obligations.FirstPass := by
  refine fun c s => ⟨s.pass1File Config.hw c, _, rfl, fun t j k _ hj hk => ?_,
    Res.outcome_done (imPass1_eq Config.hw c s)⟩
  rw [Nat.one_shiftLeft] at hj
  rw [Nat.shiftRight_eq_div_pow] at hk ⊢
  have pairs : 2 ^ t * (64 / 2 ^ t) ≤ 64 := Nat.mul_div_le 64 (2 ^ t)
  intro half pair
  rw [Nat.add_assoc, State.pass1File, entry_passFile_succ _ _ _ (block_lt pairs hj (by omega)),
    entry_passFile_succ _ _ _ (block_lt pairs hj (by omega)), pass1Entry_lower _ _ _ _ hk, pass1Entry_upper _ _ _ _ hk]
  exact ⟨isSum_add s _ _ _, isDifference_sub s _ _ _⟩

/-! The spread of a single coefficient (rule R223). -/

/-- Every entry is in the lower or in the upper half of a block of the stage. -/
theorem exists_block {t o : Nat} (ht : t < 7) (ho : o < 128) : ∃ j k, j < 2 ^ t ∧ k < 64 / 2 ^ t ∧
    (o = 2 * j * (64 / 2 ^ t) + k ∨ o = 2 * j * (64 / 2 ^ t) + (64 / 2 ^ t + k)) := by
  have pairs : 2 ^ t * (64 / 2 ^ t) = 64 := Nat.mul_div_cancel' (pow_dvd_pow 2 (show t ≤ 6 by omega))
  generalize 64 / 2 ^ t = h at pairs ⊢
  have hpos : 0 < h := Nat.pos_of_ne_zero fun h0 => by simp [h0] at pairs
  have hj : o / (2 * h) < 2 ^ t := Nat.div_lt_of_lt_mul (by rw [Nat.mul_assoc, Nat.mul_comm h, pairs]; exact ho)
  have parts : 2 * (o / (2 * h)) * h + o % (2 * h) = o := by rw [Nat.mul_right_comm]; exact Nat.div_add_mod o (2 * h)
  have hr : o % (2 * h) < 2 * h := Nat.mod_lt _ (by omega)
  rcases Nat.lt_or_ge (o % (2 * h)) h with low | high
  · exact ⟨_, _, hj, low, .inl parts.symm⟩
  · exact ⟨_, o % (2 * h) - h, hj, by omega, .inr (by omega)⟩

/-- `x` at the multiples of `w`, +0.0 elsewhere. -/
def spikes (x : F32) (w i : Nat) : F32 := if i % w = 0 then x else 0

theorem spikes_even (x : F32) (w p : Nat) : spikes x (2 * w) (2 * p) = spikes x w p := by
  simp [spikes, Nat.mul_mod_mul_left]

theorem spikes_odd (x : F32) (w p : Nat) : spikes x (2 * w) (2 * p + 1) = 0 := by
  have odd : (2 * p + 1) % (2 * w) % 2 = 1 := by rw [Nat.mod_mul_right_mod]; omega
  exact if_neg fun h => by simp [h] at odd

theorem spikes_block (x : F32) (w j k : Nat) : spikes x w (j * w + k) = spikes x w k := by
  rw [spikes, Nat.mul_add_mod_self_right, spikes]

/-- Adding and subtracting +0.0 leaves `x` bit for bit. -/
def Inert (x : F32) : Prop := ∀ nan, F32.add nan x 0 = x ∧ F32.sub nan x 0 = x

theorem inert_zero : Inert 0 := fun _ => ⟨rfl, rfl⟩

theorem inert_one : Inert 0x3F800000#32 := fun _ => ⟨rfl, rfl⟩

theorem Inert.spikes {x : F32} (hx : Inert x) (w i : Nat) : Inert (spikes x w i) := by
  rw [Machine.spikes]
  split
  · exact hx
  · exact inert_zero

/-- A stage copies the spike at the head of each block to the heads of its two halves. -/
theorem pass1Entry_spikes (nan : Nat → F32) {t : Nat} (ht : t < 7) {src : Vector F32 128} {x : F32} (hx : Inert x)
    (hsrc : ∀ i, i < 128 → entry src i = spikes x (2 * (64 / 2 ^ t)) i) {o : Nat} (ho : o < 128) :
    pass1Entry nan t src o = spikes x (64 / 2 ^ t) o := by
  obtain ⟨j, k, hj, hk, half⟩ := exists_block ht ho
  have pair := pair_lt (Nat.mul_div_le 64 (2 ^ t)) hj hk
  rcases half with low | high
  · rw [low, pass1Entry_lower _ _ _ _ hk, hsrc _ (by omega), hsrc _ (by omega), spikes_even, spikes_odd,
      (hx.spikes _ _ _).1, spikes_block, spikes_block]
  · rw [high, pass1Entry_upper _ _ _ _ hk, hsrc _ (by omega), hsrc _ (by omega), spikes_even, spikes_odd,
      (hx.spikes _ _ _).2, spikes_block, ← Nat.add_assoc, ← Nat.succ_mul, spikes_block]

theorem passFile_spikes (nan : Nat → F32) {v : Vector F32 128} {x : F32} (hx : Inert x)
    (hv : ∀ i, i < 128 → entry v i = if i = 0 then x else 0) :
    ∀ t, t ≤ 7 → ∀ i, i < 128 → entry (passFile (pass1Entry nan) v t) i = spikes x (128 / 2 ^ t) i := by
  intro t
  induction t with
  | zero =>
    intro _ i hi
    rw [passFile, hv i hi, spikes, Nat.pow_zero, Nat.div_one, Nat.mod_eq_of_lt hi]
  | succ t ih =>
    intro ht i hi
    have width : 128 / 2 ^ t = 2 * (64 / 2 ^ t) := Nat.mul_div_assoc 2 (pow_dvd_pow 2 (show t ≤ 6 by omega))
    have halved : 128 / 2 ^ (t + 1) = 64 / 2 ^ t := by rw [Nat.pow_succ', ← Nat.div_div_eq_div_mul]
    rw [entry_passFile_succ _ _ _ hi, halved]
    exact pass1Entry_spikes nan ht hx (fun m hm => width ▸ ih (by omega) m hm) hi

/-- A spectrum that holds `x` at index 0 and +0.0 elsewhere becomes `x` everywhere. -/
theorem imPass1_spreads {c : Fin 16} {s t : State} (run : exec (.imPass1 c) s = .next t) {x : F32} (hx : Inert x)
    (hv : ∀ i, i < 128 → entry (s.chan c).spectra i = if i = 0 then x else 0) {i : Nat} (hi : i < 128) :
    entry (t.chan c).scratch i = x := by
  obtain rfl := Host.Outcome.next.inj ((Res.outcome_done (imPass1_eq Config.hw c s)).symm.trans run)
  have out : entry (s.pass1File Config.hw c 7) i = x :=
    (passFile_spikes _ hx hv 7 (Nat.le_refl 7) i hi).trans (if_pos (Nat.mod_one i))
  rwa [State.chan_of_ch c _ rfl, State.chan_set]

/-- Settles O45: 1.0 and +0.0 are both kept by adding and subtracting +0.0, so both spread from index 0. -/
theorem unitAndZeroSpectra : Obligations.UnitAndZeroSpectra := by
  refine fun c s t run => ⟨fun unit i hi => imPass1_spreads run inert_one unit hi, fun zero i hi => ?_⟩
  exact imPass1_spreads run inert_zero (fun m hm => (zero m hm).trans (ite_self 0).symm) hi

/-! The second pass. -/

theorem pass2Entry_lower (cfg : Config) (nan : Nat → F32) (t : Nat) (src : Vector F32 128) (j : Nat) {k : Nat}
    (hk : k < 2 ^ t) :
    let half := 2 ^ t
    let base := 2 * j * half
    let slot := 3 * (128 * t + (base + k))
    pass2Entry cfg nan t src (base + k) = F32.sub (nan slot)
      (F32.mul (nan (slot + 1)) (entry src (base + k)) (cfg.tSin t (j * half + k)))
      (F32.mul (nan (slot + 2)) (entry src (base + half + k)) (cfg.tCos t (j * half + k))) := by
  intro half base slot
  have hr : k < 2 * half := by omega
  rw [pass2Entry, block_div j hr, block_mod j hr, if_pos hk]
  rfl

theorem pass2Entry_upper (cfg : Config) (nan : Nat → F32) (t : Nat) (src : Vector F32 128) (j : Nat) {k : Nat}
    (hk : k < 2 ^ t) :
    let half := 2 ^ t
    let base := 2 * j * half
    let slot := 3 * (128 * t + (base + (2 * half - 1 - k)))
    pass2Entry cfg nan t src (base + (2 * half - 1 - k)) = F32.add (nan slot)
      (F32.mul (nan (slot + 1)) (entry src (base + k)) (cfg.tCos t (j * half + k)))
      (F32.mul (nan (slot + 2)) (entry src (base + half + k)) (cfg.tSin t (j * half + k))) := by
  intro half base slot
  have hr : 2 * half - 1 - k < 2 * half := by omega
  have mirror : 2 * half - 1 - (2 * half - 1 - k) = k := by omega
  rw [pass2Entry, block_div j hr, block_mod j hr, if_neg (by omega), mirror]
  rfl

/-- The file stage `t` of the second pass reads; file 7 is the result. -/
def State.pass2File (cfg : Config) (s : State) (c : Fin 16) : Nat → Vector F32 128 :=
  passFile (pass2Entry cfg (s.nan cfg)) (s.chan c).scratch

theorem imPass2_eq (cfg : Config) (c : Fin 16) (s : State) :
    imPass2 cfg c s = .done
      { s with stage := 0x41, c := c, draws := s.draws + 2688,
               ch := s.ch.set c
                 { s.chan c with scratch := s.pass2File cfg c 6, spectra := s.pass2File cfg c 7 } } := by
  rw [imPass2, pingPong_seven]
  rfl

/-- Settles O44: within a block the ascending half takes the difference of two products, the descending half the sum. -/
theorem secondPass : Obligations.SecondPass := by
  refine fun c s => ⟨s.pass2File Config.hw c, _, rfl, fun t j k _ hj hk => ?_,
    Res.outcome_done (imPass2_eq Config.hw c s)⟩
  rw [Nat.shiftRight_eq_div_pow] at hj
  rw [Nat.one_shiftLeft] at hk ⊢
  have pairs : 64 / 2 ^ t * 2 ^ t ≤ 64 := Nat.div_mul_le_self 64 (2 ^ t)
  intro half base a b sn cs
  have upper : base + 2 * half - 1 - k = base + (2 * half - 1 - k) := by omega
  rw [upper, State.pass2File, entry_passFile_succ _ _ _ (block_lt pairs hj (by omega)),
    entry_passFile_succ _ _ _ (block_lt pairs hj (by omega)), pass2Entry_lower _ _ _ _ _ hk,
    pass2Entry_upper _ _ _ _ _ hk]
  exact ⟨⟨_, _, isProduct_mul s _ _ _, isProduct_mul s _ _ _, isDifference_sub s _ _ _⟩,
    ⟨_, _, isProduct_mul s _ _ _, isProduct_mul s _ _ _, isSum_add s _ _ _⟩⟩

/-! The window. -/

section
variable (cfg : Config) (nan : Nat → F32) (buf prev : Vector F32 128) {i : Nat} (hi : i < 64)
include hi

theorem windowRow_lower : entry (windowRow cfg nan buf prev) i =
    F32.add (nan (2 * i)) (F32.mul (nan (2 * i + 1)) (cfg.tWindow i) (entry buf (i + 64))) (entry prev i) := by
  rw [windowRow, entry_tabulate, if_pos (by omega), if_pos hi]
  rfl

theorem windowRow_upper : entry (windowRow cfg nan buf prev) (i + 64) =
    F32.sub (nan (2 * (i + 64))) (F32.mul (nan (2 * (i + 64) + 1)) (cfg.tWindow (i + 64)) (entry buf (127 - i)))
      (entry prev (i + 64)) := by
  rw [windowRow, entry_tabulate, if_pos (by omega), if_neg (by omega), Nat.add_sub_cancel]
  rfl

theorem windowPrev_lower : entry (windowPrev cfg nan buf) i =
    F32.mul (nan (256 + i)) (cfg.tWindow (127 - i)) (entry buf (63 - i)) := by
  rw [windowPrev, entry_tabulate, if_pos (by omega), if_pos hi]
  rfl

theorem windowPrev_upper : entry (windowPrev cfg nan buf) (i + 64) =
    F32.mul (nan (256 + (i + 64))) (cfg.tWindow (63 - i)) (entry buf i) := by
  rw [windowPrev, entry_tabulate, if_pos (by omega), if_neg (by omega), Nat.add_sub_cancel]
  rfl

end

theorem imWindow_eq (cfg : Config) (c : Fin 16) (sf : Fin 8) (s : State) :
    let buf := (s.chan c).spectra
    let row := windowRow cfg (s.nan cfg) buf (s.chan c).prev
    imWindow cfg c sf s = .done
      { s with stage := 0x42, c := c, sf := sf, draws := s.draws + 384,
               ch := s.ch.set c
                 { s.chan c with wave := (s.chan c).wave.set sf row, prev := windowPrev cfg (s.nan cfg) buf } } := rfl

/-- Settles O46: both halves of the row and of the new overlap come from the unmodified buffer and the old overlap. -/
theorem windowOverlapAdd : Obligations.WindowOverlapAdd := by
  refine fun c sf s => ⟨_, _, _, fun i hi => ?_, Res.outcome_done (imWindow_eq Config.hw c sf s)⟩
  rw [windowRow_lower _ _ _ _ hi, windowRow_upper _ _ _ _ hi, windowPrev_lower _ _ _ hi, windowPrev_upper _ _ _ hi]
  exact ⟨⟨_, isProduct_mul s _ _ _, isSum_add s _ _ _⟩, ⟨_, isProduct_mul s _ _ _, isDifference_sub s _ _ _⟩,
    isProduct_mul s _ _ _, isProduct_mul s _ _ _⟩

end Sys2Proof.Machine
end

section
/-! PROOFS. Who writes what, over all instructions (45_controller_and_host.md rule R257): an instruction opens a stream,
decodes a frame, or writes what `Writes` lets it. -/

namespace Sys2Proof.Machine

/-- SET_KEY ends with the key stored and, on an open stream, the table of its cipher type and the key (rule R247). -/
theorem execSetKey_eq (key : BitVec 64) (s : State) : exec (.setKey key) s = .next (State.endedWith
    { s with key := key,
             cipherTable := if s.valid then cipherTableOf Config.hw s.ctx.cipherType key else s.cipherTable } .ok) :=
  rfl

/-- Settles O49: the table of the model is the collaborator's, entry by entry. -/
theorem setKeyDerivesTheTable : Obligations.SetKeyDerivesTheTable := execSetKey_eq

/-! Instructions that open a stream. -/

/-- One of the stages of OPEN_STREAM. -/
def IsHeaderStage (i : Instr) : Prop := (encode i).1 = .chunk ∨ i = .hdValidate ∨ i = .hdDerive ∨ i = .hdChantype

theorem exec_headerStage {i : Instr} (h : IsHeaderStage i) (s : State) :
    exec i s = (stageMeaning Config.hw i s).outcome Config.hw := by
  refine exec_header i ?_ s
  obtain chunk | rfl | rfl | rfl := h
  · cases i with
    | hdProlog | hdFmt | hdComp | hdDec | hdVbr | hdAth | hdLoop | hdCiph | hdRva | hdComm | hdPad => decide
    | _ => cases chunk
  · decide
  · decide
  · decide

theorem execOpenStream_keepsHost {n : BitVec 32} {s t : State} (e : exec (.openStream n) s = .next t) :
    KeepsHost s t := (openStream_keepsHost s n).outcome (KeepsHost.takeError s) e

theorem headerStage_keepsHost {i : Instr} (h : IsHeaderStage i) {s t : State} (e : exec i s = .next t) :
    KeepsHost s t := by
  rw [exec_headerStage h] at e
  exact (header_keepsHost i s h).outcome (KeepsHost.takeError s) e

/-! DECODE_FRAME. -/

/-- What a frame keeps, whatever it holds: the stream, its key and tables, HDR and OUT, the calls that wait, the types
and coded counts of the channels, and FRM behind the frame. -/
structure FrameKeeps (s t : State) : Prop where
  hdr : t.hdr = s.hdr
  queue : t.queue = s.queue
  out : t.out = s.out
  key : t.key = s.key
  ctx : t.ctx = s.ctx
  valid : t.valid = s.valid
  ath : t.athCurve = s.athCurve
  table : t.cipherTable = s.cipherTable
  chan : ∀ c, (t.chan c).type = (s.chan c).type ∧ (t.chan c).codedCount = (s.chan c).codedCount
  frmSize : t.frm.size = s.frm.size
  behind : ∀ a, s.ctx.frameSize.toNat ≤ a → t.frm.byte a = s.frm.byte a

theorem FrameKeeps.refl (s : State) : FrameKeeps s s :=
  ⟨rfl, rfl, rfl, rfl, rfl, rfl, rfl, rfl, fun _ => ⟨rfl, rfl⟩, rfl, fun _ _ => rfl⟩

theorem FrameKeeps.trans {a b c : State} (h : FrameKeeps a b) (k : FrameKeeps b c) : FrameKeeps a c where
  hdr := k.hdr.trans h.hdr
  queue := k.queue.trans h.queue
  out := k.out.trans h.out
  key := k.key.trans h.key
  ctx := k.ctx.trans h.ctx
  valid := k.valid.trans h.valid
  ath := k.ath.trans h.ath
  table := k.table.trans h.table
  chan d := ⟨(k.chan d).1.trans (h.chan d).1, (k.chan d).2.trans (h.chan d).2⟩
  frmSize := k.frmSize.trans h.frmSize
  behind a ha := (k.behind a (by rwa [h.ctx])).trans (h.behind a ha)

/-- Where it ends the command changes nothing of these. -/
theorem FrameKeeps.ended {s t : State} (h : FrameKeeps s t) (e : Status) (d : Bool) :
    FrameKeeps s { t.endedWith e with decoded := d } :=
  h.trans ⟨rfl, rfl, rfl, rfl, rfl, rfl, rfl, rfl, fun _ => ⟨rfl, rfl⟩, rfl, fun _ _ => rfl⟩

/-- What a stage of a frame may write leaves these alone, the bytes of FRM being the matter of FR_DECRYPT. -/
theorem Writes.frameKeeps {i : Instr} {s t : State} (w : Writes i s t) (stage : (encode i).1 = .stage)
    (size : t.frm.size = s.frm.size) (behind : ∀ a, s.ctx.frameSize.toNat ≤ a → t.frm.byte a = s.frm.byte a) :
    FrameKeeps s t := by
  have noKey : ∀ k, i ≠ .setKey k := by rintro k rfl; cases stage
  have noOut : i ≠ .readSamples16 := by rintro rfl; cases stage
  exact ⟨w.hdr, w.queue, w.out noOut, w.key noKey, w.ctx, w.valid, w.ath, w.table noKey, w.chan, size, behind⟩

theorem Res.WritesOnly.all {i : Instr} {s : State} {r : Res} (h : r.WritesOnly i s) {P : State → Prop}
    (hp : ∀ {t}, Writes i s t → P t) : r.All P := by
  cases r with
  | done t => exact hp h
  | raised e t => exact hp h.2
  | faulted f => trivial
  | refused f => trivial

/-- Every state a frame or a stage of it comes to has the property, and what it raises is an error of a frame. -/
def Res.FrameEnds (P : State → Prop) : Res → Prop
  | .done t => P t
  | .raised e t => (e ≠ .ok ∧ e ≠ .headerInvalid) ∧ P t
  | .faulted _ => True
  | .refused _ => True

theorem Res.FrameEnds.of_all {P : State → Prop} {s : State} {r : Res} (h : r.All P) (k : r.KeepsStatus s) :
    r.FrameEnds P := by
  cases r with
  | done t => exact h
  | raised e t => exact ⟨k, h⟩
  | faulted f => trivial
  | refused f => trivial

theorem frDecrypt_keeps (s : State) : (frDecrypt s).All (FrameKeeps s) := by
  rw [frDecrypt_eq]
  refine Res.all_ite (fun _ => trivial) fun _ => ?_
  have others : ∀ a, s.ctx.frameSize.toNat ≤ a →
      (s.frm.substitute s.cipherTable s.ctx.frameSize.toNat).byte a = s.frm.byte a := fun a ha => by
    rw [Buffer.byte_substitute, if_neg (Nat.not_lt.2 ha)]
  exact ⟨rfl, rfl, rfl, rfl, rfl, rfl, rfl, rfl, fun _ => ⟨rfl, rfl⟩, Buffer.size_substitute .., others⟩

theorem frameStage_keeps {u : State} {i : Instr} (hi : i ∈ frameSequence u) (s : State) :
    (stageMeaning Config.hw i s).FrameEnds (FrameKeeps s) := by
  refine .of_all ?_ (frameSequence_keepsStatus u i hi s)
  by_cases decrypt : i = .frDecrypt
  · subst decrypt
    exact frDecrypt_keeps s
  · obtain ⟨stage, noValidate, noDerive, noType⟩ := frameSequence_stage u i hi
    have keeps {t : State} (w : Writes i s t) : FrameKeeps s t :=
      w.frameKeeps stage (by rw [w.frm decrypt]) fun a _ => by rw [w.frm decrypt]
    exact (stage_writes .plain i s stage noValidate noDerive noType).all keeps

theorem runStages_frameKeeps {u : State} {l : List Instr} (hl : ∀ i ∈ l, i ∈ frameSequence u) (s : State) :
    (runStages Config.hw l s).FrameEnds (FrameKeeps s) := by
  induction l generalizing s with
  | nil => exact .refl s
  | cons i l ih =>
    rw [runStages]
    have first := frameStage_keeps (hl i (List.mem_cons_self ..)) s
    cases e : stageMeaning Config.hw i s with
    | done t =>
      rw [e] at first
      have rest := ih (fun j hj => hl j (List.mem_cons_of_mem _ hj)) t
      rw [Res.andThen]
      cases e' : runStages Config.hw l t with
      | done v => rw [e'] at rest; exact first.trans rest
      | raised x v => rw [e'] at rest; exact rest.imp_right first.trans
      | faulted f => trivial
      | refused f => trivial
    | raised x t => rw [e] at first; exact first
    | faulted f => trivial
    | refused f => trivial

/-- DECODE_FRAME answers a next state where the sequence is done or raises an error of a frame. -/
theorem execDecodeFrame_ends {n : BitVec 32} {s t : State} (e : exec (.decodeFrame n) s = .next t) :
    (∃ u, runStages Config.hw (frameSequence s) { s with frmLen := n } = .done u ∧
      FrameKeeps { s with frmLen := n } u ∧ t = { u.endedWith .ok with decoded := true }) ∨
    ∃ x u, (x ≠ .ok ∧ x ≠ .headerInvalid) ∧
      runStages Config.hw (frameSequence s) { s with frmLen := n } = .raised x u ∧
      FrameKeeps { s with frmLen := n } u ∧ t = u.endedWith x := by
  obtain ⟨open_, fits⟩ := decodeFrame_valid n s t e
  have run : decodeFrame Config.hw n s =
      (runStages Config.hw (frameSequence s) { s with frmLen := n }).andThen fun u => .done u.decodedFrame :=
    (if_neg (by simp [State.streamOpen, open_])).trans (if_neg (Nat.not_lt.2 fits))
  have e : (decodeFrame Config.hw n s).outcome Config.hw = .next t := e
  have keeps := runStages_frameKeeps (u := s) (fun _ => id) { s with frmLen := n }
  rw [run] at e
  cases r : runStages Config.hw (frameSequence s) { s with frmLen := n } with
  | done u =>
    rw [r] at e keeps
    injection e with e
    exact .inl ⟨u, rfl, keeps, e.symm⟩
  | raised x u =>
    rw [r] at e keeps
    injection e with e
    obtain ⟨error, keeps⟩ := keeps
    exact .inr ⟨x, u, error, rfl, keeps, e.symm.trans (takeError_eq_endedWith error.2 u)⟩
  | faulted f => rw [r] at e; cases e
  | refused f => rw [r] at e; cases e

theorem execDecodeFrame_keeps {n : BitVec 32} {s t : State} (e : exec (.decodeFrame n) s = .next t) :
    FrameKeeps s t := by
  have start : FrameKeeps s { s with frmLen := n } :=
    ⟨rfl, rfl, rfl, rfl, rfl, rfl, rfl, rfl, fun _ => ⟨rfl, rfl⟩, rfl, fun _ _ => rfl⟩
  obtain ⟨u, -, keeps, rfl⟩ | ⟨x, u, -, -, keeps, rfl⟩ := execDecodeFrame_ends e
  · exact start.trans (keeps.ended .ok true)
  · exact start.trans (keeps.ended x u.decoded)

/-! The other instructions. -/

theorem setKey_writes (key : BitVec 64) (s : State) : Res.WritesOnly (.setKey key) s (setKey Config.hw key s) :=
  ⟨rfl, rfl, fun _ => rfl, fun _ => rfl, fun other => absurd rfl (other key), rfl, rfl, rfl,
    fun other => absurd rfl (other key), fun _ => ⟨rfl, rfl⟩, fun _ _ => rfl, fun _ _ _ => rfl, fun _ _ => rfl,
    fun _ _ => rfl⟩

theorem readSamples16_writes (s : State) : Res.WritesOnly .readSamples16 s (readSamples16 s) := by
  rw [readSamples16]
  split
  · trivial
  · exact ⟨rfl, rfl, fun other => absurd rfl other, fun _ => rfl, fun _ => rfl, rfl, rfl, rfl, fun _ => rfl,
      fun _ => ⟨rfl, rfl⟩, fun _ _ => rfl, fun _ _ _ => rfl, fun _ _ => rfl, fun _ _ => rfl⟩

/-- RESET_STREAM's end, the channels changed in their overlap only. -/
theorem Writes.of_overlap {s : State} {v : Vector Channel 16} (same : ∀ c : Fin 16,
      (v[c].type = (s.chan c).type ∧ v[c].codedCount = (s.chan c).codedCount) ∧ v[c].wave = (s.chan c).wave ∧
        v[c].intensity = (s.chan c).intensity) :
    Writes .resetStream s (endCommand { s with ch := v, random := 1 }) :=
  ⟨rfl, rfl, fun _ => rfl, fun _ => rfl, fun _ => rfl, rfl, rfl, rfl, fun _ => rfl, fun c => (same c).1,
    fun _ reset => absurd rfl reset, fun _ reset => absurd rfl reset, fun _ c => (same c).2.1,
    fun _ c => (same c).2.2⟩

theorem resetStream_writes (s : State) : Res.WritesOnly .resetStream s (resetStream s) := by
  rw [resetStream, State.mapLive_eq]
  split
  · trivial
  · refine Writes.of_overlap fun c => ?_
    rw [Fin.getElem_fin, Vector.getElem_ofFn]
    split <;> exact ⟨⟨rfl, rfl⟩, rfl, rfl⟩

/-- An instruction that neither opens a stream nor decodes a frame writes what it may. -/
theorem exec_writes {i : Instr} (noHeader : ¬ IsHeaderStage i) (noOpen : ∀ n, i ≠ .openStream n)
    (noFrame : ∀ n, i ≠ .decodeFrame n) {s t : State} (e : exec i s = .next t) : Writes i s t := by
  obtain ⟨noChunk, noValidate, noDerive, noType⟩ : (encode i).1 ≠ .chunk ∧ i ≠ .hdValidate ∧ i ≠ .hdDerive ∧
      i ≠ .hdChantype := by simpa [IsHeaderStage] using noHeader
  cases port : (encode i).1 with
  | chunk => exact absurd port noChunk
  | stage =>
    obtain ⟨mv, n, r⟩ := exec_stage_moves i s (by simp [port])
    rw [r] at e
    exact ((stage_writes mv i s port noValidate noDerive noType).drew n).outcome e
  | command =>
    cases i with
    | openStream n => exact absurd rfl (noOpen n)
    | decodeFrame n => exact absurd rfl (noFrame n)
    | setKey key => exact (setKey_writes key s).outcome e
    | readSamples16 => exact (readSamples16_writes s).outcome e
    | resetStream => exact (resetStream_writes s).outcome e
    | _ => cases port

/-- Settles O60: an instruction that opens a stream keeps the host's state, a frame keeps the stream, any other writes
what it may. -/
theorem writersOfTheState : Obligations.WritersOfTheState := by
  intro i s t e opens decodes
  by_cases isOpen : opens
  · have k : KeepsHost s t := by
      obtain ⟨n, rfl⟩ | header := isOpen
      · exact execOpenStream_keepsHost e
      · exact headerStage_keepsHost header e
    exact ⟨k.hdr, k.queue, fun _ => k.out, fun _ _ => k.frm, fun _ => k.key, fun no => absurd isOpen no⟩
  by_cases isFrame : decodes
  · have k : FrameKeeps s t := by
      obtain ⟨n, rfl⟩ := isFrame
      exact execDecodeFrame_keeps e
    exact ⟨k.hdr, k.queue, fun _ => k.out, fun _ no => absurd isFrame no, fun _ => k.key, fun _ =>
      ⟨k.ctx, k.valid, k.ath, fun _ => k.table, k.chan, fun _ _ no => absurd isFrame no,
        fun _ _ no => absurd isFrame no, fun _ no => absurd isFrame no, fun _ no => absurd isFrame no⟩⟩
  · have w : Writes i s t :=
      exec_writes (fun h => isOpen (.inr h)) (fun n h => isOpen (.inl ⟨n, h⟩)) (fun n h => isFrame ⟨n, h⟩) e
    exact ⟨w.hdr, w.queue, w.out, fun decrypt _ => w.frm decrypt, w.key, fun _ =>
      ⟨w.ctx, w.valid, w.ath, w.table, w.chan, fun noise reset _ => w.random noise reset,
        fun window reset _ => w.prev window reset, fun window _ => w.wave window, fun intensity _ => w.inten intensity⟩⟩

/-- Settles O56: a frame keeps the stream and touches live channels only, and the command ends idle. -/
theorem frameKeepsTheStream : Obligations.FrameKeepsTheStream := by
  intro n s t _ e
  have k := execDecodeFrame_keeps e
  have beyond : (runStages Config.hw (frameSequence s) { s with frmLen := n }).All
      (SameBeyond s.ctx.channelCount.toNat { s with frmLen := n }) :=
    runStages_all _ _ (fun _ _ _ => rfl) (fun _ _ _ h k d hd => (k d hd).trans (h d hd)) _ _
      fun i hi => frameSequence_beyond Config.hw s i hi
  have idle : t.stage = 0 ∧ t.cur.buf = none ∧ SameBeyond s.ctx.channelCount.toNat s t := by
    obtain ⟨u, r, -, rfl⟩ | ⟨x, u, -, r, -, rfl⟩ := execDecodeFrame_ends e
    · rw [r] at beyond
      exact ⟨rfl, rfl, beyond⟩
    · rw [r] at beyond
      exact ⟨rfl, rfl, beyond⟩
  obtain ⟨stage, unwrapped, beyond⟩ := idle
  exact ⟨k.valid, k.ctx, k.key, k.table, k.ath, k.hdr, k.out, k.queue, stage, unwrapped, k.frmSize, k.behind, fun c =>
    ⟨(k.chan c).1, (k.chan c).2, beyond c⟩⟩

end Sys2Proof.Machine
end

section
/-! PROOFS. A header built from its fields opens (45_controller_and_host.md rules R240, R245): each stage of OPEN_STREAM
finds its chunk ahead, or another chunk or nothing, and leaves the rest of the header ahead. -/

namespace Sys2Proof.Machine

/-! Where OPEN_STREAM stands in a header. -/

/-- The stream registers are `x`, exactly the bytes `l` of the header are left ahead, and the host's state is that of
`s`. -/
structure Parsing (s : State) (x : Ctx) (l : List Byte) (t : State) : Prop where
  ctx : t.ctx = x
  ahead : t.headerAhead l
  left : t.remaining = l.length
  keeps : HeaderKeeps s t

section
variable {s t u : State} {x y : Ctx} {l l' : List Byte}

/-- A stage has read the first bytes. -/
theorem Parsing.behind (h : Parsing s x (l ++ l') t) (cur : u.cur = t.cur.advance (8 * l.length))
    (left : u.remaining = t.remaining - l.length) (ctx : u.ctx = y) (keeps : HeaderKeeps t u) : Parsing s y l' u where
  ctx := ctx
  ahead := h.ahead.behind keeps.hdr cur
  left := by rw [left, h.left, List.length_append, Nat.add_sub_cancel_left]
  keeps := h.keeps.trans keeps

/-- A stage has read nothing. -/
theorem Parsing.stay (h : Parsing s x l t) (cur : u.cur = t.cur) (left : u.remaining = t.remaining) (ctx : u.ctx = y)
    (keeps : HeaderKeeps t u) : Parsing s y l u :=
  Parsing.behind (l := []) h (by rw [cur]; rfl) left ctx keeps

theorem Parsing.enough (h : Parsing s x (l ++ l') t) : l.length ≤ t.remaining := by
  rw [h.left, List.length_append]
  omega

/-! Absent chunks. -/

/-- The bytes are none, or begin with one of the tags. -/
def BeginsWith (tags : List (BitVec 32)) (l : List Byte) : Prop :=
  l = [] ∨ ∃ w ∈ tags, ∃ more, l = be32 w ++ more

theorem BeginsWith.optional {tags : List (BitVec 32)} (h : BeginsWith tags l) {α : Type} (o : Option α)
    {f : α → List Byte} (w : BitVec 32) (tag : ∀ a, ∃ more, f a = be32 w ++ more) :
    BeginsWith (w :: tags) ((o.map f).getD [] ++ l) := by
  cases o with
  | none => exact h.imp_right fun ⟨v, hv, more⟩ => ⟨v, List.mem_cons_of_mem _ hv, more⟩
  | some a =>
    obtain ⟨more, e⟩ := tag a
    exact .inr ⟨w, List.mem_cons_self .., more ++ l, by simp [e]⟩

/-- A chunk is absent where the header ends or goes on with another one (rule R123). -/
theorem Parsing.absent (h : Parsing s x l t) {tags : List (BitVec 32)} (begins : BeginsWith tags l) {tag : BitVec 32}
    {size : Nat} (other : ∀ w ∈ tags, w &&& 0x7F7F7F7F#32 ≠ tag) (some : 0 < size) : absent t tag size := by
  obtain rfl | ⟨w, hw, more, rfl⟩ := begins
  · exact .inl (by rw [h.left]; exact some)
  · have word := State.headerAhead.field (pre := []) (mid := be32 w) (post := more) h.ahead
    rw [bytesVal_be32, State.peekAt_eq] at word
    refine .inr ?_
    rw [show t.requestValue t.cur.pos 32 = w.toNat from word, BitVec.ofNat_toNat, BitVec.setWidth_eq]
    exact other w hw

/-! The optional chunks (rules R129 to R134). -/

/-- HD_VBR where the header has no vbr chunk. -/
theorem Parsing.vbr (h : Parsing s x l t) {tags : List (BitVec 32)} (begins : BeginsWith tags l)
    (other : ∀ w ∈ tags, w &&& 0x7F7F7F7F#32 ≠ 0x76627200#32) :
    ∃ u, hdVbr t = .done u ∧ Parsing s { x with vbrMaxFrameSize := 0, vbrNoiseLevel := 0 } l u :=
  ⟨_, hdVbr_absent (h.absent begins other (by decide)),
    h.stay rfl rfl (by rw [← h.ctx]) ⟨rfl, rfl, rfl, rfl, rfl, rfl⟩⟩

/-- The stage of an optional chunk stores registers, and reads the chunk where there is one. -/
theorem Parsing.optional {α : Type} {o : Option α} {f : α → List Byte} {stage : State → Res}
    (h : Parsing s x ((o.map f).getD [] ++ l) t)
    (off : o = none → Parsing s x l t → ∃ id, stage t = .done { t with stage := id, ctx := y })
    (on : ∀ a, o = some a → t.headerAhead (f a) → (f a).length ≤ t.remaining → ∃ id, stage t = .done
      { t with stage := id, cur := t.cur.advance (8 * (f a).length), remaining := t.remaining - (f a).length,
               ctx := y }) :
    ∃ u, stage t = .done u ∧ Parsing s y l u := by
  cases o with
  | none =>
    obtain ⟨id, e⟩ := off rfl h
    exact ⟨_, e, h.stay rfl rfl rfl ⟨rfl, rfl, rfl, rfl, rfl, rfl⟩⟩
  | some a =>
    obtain ⟨id, e⟩ := on a rfl h.ahead.left h.enough
    exact ⟨_, e, h.behind rfl rfl rfl ⟨rfl, rfl, rfl, rfl, rfl, rfl⟩⟩

variable {tags : List (BitVec 32)} (begins : BeginsWith tags l)
include begins

theorem Parsing.ath {o : Option (BitVec 16)} (h : Parsing s x ((o.map (athBytes 0x61746800#32)).getD [] ++ l) t)
    (other : ∀ w ∈ tags, w &&& 0x7F7F7F7F#32 ≠ 0x61746800#32) :
    ∃ u, hdAth t = .done u ∧
      Parsing s { x with athType := o.getD (if x.version.toNat < 0x0200 then 1 else 0) } l u := by
  obtain rfl := h.ctx
  refine h.optional ?_ ?_
  · rintro rfl here
    exact ⟨_, hdAth_absent (here.absent begins other (by decide))⟩
  · rintro type rfl ahead enough
    exact ⟨_, hdAth_ahead (w := 0x61746800#32) rfl ahead enough⟩

theorem Parsing.loop {o : Option (BitVec 32 × BitVec 32 × BitVec 16 × BitVec 16)}
    (h : Parsing s x ((o.map fun p => loopBytes 0x6C6F6F70#32 p.1 p.2.1 p.2.2.1 p.2.2.2).getD [] ++ l) t)
    (legal : ∀ p, o = some p → p.1.toNat ≤ p.2.1.toNat ∧ p.2.1.toNat < x.frameCount.toNat)
    (other : ∀ w ∈ tags, w &&& 0x7F7F7F7F#32 ≠ 0x6C6F6F70#32) :
    ∃ u, hdLoop t = .done u ∧ Parsing s { x with
      loopStartFrame := (o.map fun p => p.1).getD 0, loopEndFrame := (o.map fun p => p.2.1).getD 0
      loopStartDelay := (o.map fun p => p.2.2.1).getD 0, loopEndPadding := (o.map fun p => p.2.2.2).getD 0
      loopEnabled := o.isSome } l u := by
  obtain rfl := h.ctx
  refine h.optional ?_ ?_
  · rintro rfl here
    exact ⟨_, hdLoop_absent (here.absent begins other (by decide))⟩
  · rintro p rfl ahead enough
    exact ⟨_, (hdLoop_ahead (w := 0x6C6F6F70#32) rfl ahead enough).trans (if_pos (legal p rfl))⟩

theorem Parsing.ciph {o : Option (BitVec 16)} (h : Parsing s x ((o.map (ciphBytes 0x63697068#32)).getD [] ++ l) t)
    (legal : o.getD 0 = 0 ∨ o.getD 0 = 1 ∨ o.getD 0 = 56)
    (other : ∀ w ∈ tags, w &&& 0x7F7F7F7F#32 ≠ 0x63697068#32) :
    ∃ u, hdCiph t = .done u ∧ Parsing s { x with cipherType := o.getD 0 } l u := by
  obtain rfl := h.ctx
  refine h.optional ?_ ?_
  · rintro rfl here
    exact ⟨_, hdCiph_absent (here.absent begins other (by decide))⟩
  · rintro type rfl ahead enough
    exact ⟨_, (hdCiph_ahead (w := 0x63697068#32) rfl ahead enough).trans (if_pos legal)⟩

theorem Parsing.rva {o : Option (BitVec 32)} (h : Parsing s x ((o.map (rvaBytes 0x72766100#32)).getD [] ++ l) t)
    (other : ∀ w ∈ tags, w &&& 0x7F7F7F7F#32 ≠ 0x72766100#32) :
    ∃ u, hdRva t = .done u ∧ Parsing s { x with rvaVolume := o.getD 0x3F800000#32 } l u := by
  obtain rfl := h.ctx
  refine h.optional ?_ ?_
  · rintro rfl here
    exact ⟨_, hdRva_absent (here.absent begins other (by decide))⟩
  · rintro volume rfl ahead enough
    exact ⟨_, hdRva_ahead (w := 0x72766100#32) rfl ahead enough⟩

/-- The comment's characters are stored; what is behind them is left open (10_state.md rule R24). -/
theorem Parsing.comm {o : Option (List Byte)} (h : Parsing s x ((o.map (commBytes 0x636F6D6D#32)).getD [] ++ l) t)
    (short : (o.getD []).length < 256) (other : ∀ w ∈ tags, w &&& 0x7F7F7F7F#32 ≠ 0x636F6D6D#32) :
    ∃ (u : State) (comment : Vector Byte 255), (∀ i, i < (o.getD []).length → comment.getD i 0 = (o.getD []).getD i 0) ∧
      hdComm t = .done u ∧
      Parsing s { x with commentLength := BitVec.ofNat 8 (o.getD []).length, comment := comment } l u := by
  obtain rfl := h.ctx
  cases o with
  | none =>
    exact ⟨_, t.ctx.comment, nofun, hdComm_absent (h.absent begins other (by decide)),
      Parsing.stay (l := l) h rfl rfl rfl ⟨rfl, rfl, rfl, rfl, rfl, rfl⟩⟩
  | some text =>
    have h : Parsing s t.ctx (commBytes 0x636F6D6D#32 text ++ l) t := h
    have size : (commBytes 0x636F6D6D#32 text).length = 5 + text.length := by
      simp [commBytes]; omega
    have enough : (commBytes 0x636F6D6D#32 text).length ≤ t.remaining := h.enough
    rw [size] at enough
    have short : text.length < 256 := short
    have run := hdComm_ahead (w := 0x636F6D6D#32) (text := text) rfl short h.ahead.left enough
    refine ⟨_, _, fun i (hi : i < text.length) => ?_, run,
      h.behind (l := commBytes 0x636F6D6D#32 text) ?_ ?_ rfl ⟨rfl, rfl, rfl, rfl, rfl, rfl⟩⟩
    · rw [getD_tabulate _ _ (by omega), if_pos hi]
      rfl
    · rw [size, Nat.mul_add]
    · rw [size]

end

end Sys2Proof.Machine
end

section
/-! PROOFS. A header built from its fields opens: the prolog and the mandatory chunks, then the whole sequence
(45_controller_and_host.md rules R240, R245; 41_header_parser.md rules R121 to R127, R155). -/

namespace Sys2Proof.Machine

/-! The prolog and the mandatory chunks. -/

section
variable {s t : State} {x : Ctx} {l : List Byte}

/-- The prolog gives the version and the declared size, and the cursor wraps that many bytes. -/
theorem Parsing.prolog {h : StreamHeader} (fits : h.encodable) (version : Config.hw.versions h.version = true)
    (within : h.size ≤ s.hdrLen.toNat) (inside : s.hdrLen.toNat ≤ s.hdr.size)
    (bytes : ∀ i, i < h.size → s.hdr.byte i = h.bytes.getD i 0) :
    ∃ t, (stageMeaning Config.hw .hdProlog s).andThen rewrapHeader = .done t ∧
      Parsing s { s.ctx with version := h.version, headerSize := BitVec.ofNat 16 h.size } h.chunkBytes t := by
  have size : h.size = 8 + h.chunkBytes.length := rfl
  have declared : (BitVec.ofNat 16 h.size).toNat = h.size := by
    rw [BitVec.toNat_ofNat, Nat.mod_eq_of_lt fits.1]
  have first : ∀ i, i < 8 → s.hdr.byte i = (prologBytes 0x48434100#32 h.version (BitVec.ofNat 16 h.size)).getD i 0 :=
    fun i hi => (bytes i (by omega)).trans (List.getD_append _ _ _ _ hi)
  have rest : ∀ i, i < h.chunkBytes.length → s.hdr.byte (64 / 8 + i) = h.chunkBytes.getD i 0 := fun i hi => by
    rw [show 64 / 8 + i = 8 + i from rfl, bytes _ (by omega), StreamHeader.bytes,
      List.getD_append_right _ _ _ _ (Nat.le_add_right 8 i)]
    exact congrArg (h.chunkBytes.getD · 0) (Nat.add_sub_cancel_left 8 i)
  have read := ((hdProlog_ahead Config.hw (by omega) (by omega) first).trans (if_pos rfl)).trans (if_pos version)
  refine ⟨{ s with stage := 0x10, cur := { buf := some .hdr, sizeBits := 8 * h.size, pos := 64 }
                   ctx := { s.ctx with version := h.version, headerSize := BitVec.ofNat 16 h.size }
                   remaining := h.size - 8 }, ?_, rfl, ⟨rfl, show 64 % 8 = 0 from rfl, ?_, rest⟩, ?_,
    ⟨rfl, rfl, rfl, rfl, rfl, rfl⟩⟩
  · rw [stageMeaning, stageBy, read, Res.andThen, rewrapHeader]
    simp only [declared]
    rw [if_neg (by omega), if_neg (Nat.not_lt.2 within), wrap, if_neg]
    · rfl
    · exact Nat.not_lt.2 (within.trans inside)
  · show 64 + 8 * h.chunkBytes.length ≤ 8 * h.size
    omega
  · show h.size - 8 = _
    omega

theorem Parsing.fmt {channels : BitVec 8} {rate : BitVec 24} {frames : BitVec 32} {delay padding : BitVec 16}
    (h : Parsing s x (fmtBytes 0x666D7400#32 channels rate frames delay padding ++ l) t) :
    ∃ u, hdFmt t = .done u ∧ Parsing s { x with
      channelCount := channels, sampleRate := rate, frameCount := frames
      encoderDelay := delay, encoderPadding := padding } l u := by
  obtain rfl := h.ctx
  have read := hdFmt_ahead (w := 0x666D7400#32) rfl h.ahead.left h.enough
  exact ⟨_, read, h.behind rfl rfl rfl ⟨rfl, rfl, rfl, rfl, rfl, rfl⟩⟩

/-- The stereo bands HD_DEC derives are none without a stereo type, else the difference of the two fields. -/
theorem decStereo (total base stereoType : BitVec 8) :
    (total.setWidth 9 + 1 - if stereoType = 0 then total.setWidth 9 + 1 else base.setWidth 9 + 1 : BitVec 9) =
      if stereoType = 0 then 0 else total.setWidth 9 - base.setWidth 9 := by
  split
  · exact BitVec.sub_self _
  · exact add_sub_add_right_eq_sub ..

/-- The band chunk ahead is read by the stage of its kind (rule R126). -/
theorem Parsing.bands {b : BandChunk} (h : Parsing s x (b.bytes ++ l) t)
    (within : (b.into x).baseBandCount.toNat ≤ (b.into x).totalBandCount.toNat) :
    ∃ u, compOrDec t = .done u ∧ Parsing s (b.into x) l u := by
  obtain rfl := h.ctx
  rw [compOrDec]
  cases b with
  | comp size minRes maxRes tracks config total base stereo perGroup ms reserved =>
    have here : present t tagComp 16 = true := h.ahead.left.present (w := 0x636F6D70#32) rfl h.enough
    have read := hdComp_ahead (w := 0x636F6D70#32) rfl h.ahead.left h.enough
    exact ⟨_, (if_pos here).trans read, h.behind rfl rfl rfl ⟨rfl, rfl, rfl, rfl, rfl, rfl⟩⟩
  | dec size minRes maxRes total base tracks config stereoType =>
    have begins : BeginsWith [0x64656300#32] (BandChunk.bytes
        (.dec size minRes maxRes total base tracks config stereoType) ++ l) :=
      .inr ⟨_, List.mem_singleton_self _, _, List.append_assoc ..⟩
    have noComp : present t tagComp 16 = false :=
      absent_false (h.absent begins (tag := 0x636F6D70#32) (by simp) (by decide))
    have here : present t tagDec 12 = true := h.ahead.left.present (w := 0x64656300#32) rfl h.enough
    have read := hdDec_ahead (w := 0x64656300#32) rfl h.ahead.left h.enough
    have read := read.trans (if_neg (Nat.not_lt.2 within))
    rw [decStereo] at read
    rw [if_neg (by simp [noComp]), if_pos here]
    exact ⟨_, read, h.behind rfl rfl rfl ⟨rfl, rfl, rfl, rfl, rfl, rfl⟩⟩

end

/-! The optional chunks. -/

theorem runStages_cons_done {i : Instr} {l : List Instr} {s t : State} (h : stageMeaning Config.hw i s = .done t) :
    runStages Config.hw (i :: l) s = runStages Config.hw l t := by rw [runStages, h, Res.andThen]

/-- The stages of the optional chunks. -/
def optionalStages : List Instr := [.hdVbr, .hdAth, .hdLoop, .hdCiph, .hdRva, .hdComm, .hdPad]

/-- The registers the optional chunks give. -/
def StreamHeader.withOptional (h : StreamHeader) (x : Ctx) (comment : Vector Byte 255) : Ctx := { x with
  vbrMaxFrameSize := 0
  vbrNoiseLevel := 0
  athType := h.ath.getD (if x.version.toNat < 0x0200 then 1 else 0)
  loopStartFrame := (h.loop.map fun l => l.1).getD 0
  loopEndFrame := (h.loop.map fun l => l.2.1).getD 0
  loopStartDelay := (h.loop.map fun l => l.2.2.1).getD 0
  loopEndPadding := (h.loop.map fun l => l.2.2.2).getD 0
  loopEnabled := h.loop.isSome
  cipherType := h.ciph.getD 0
  rvaVolume := h.rva.getD 0x3F800000#32
  commentLength := BitVec.ofNat 8 (h.comment.getD []).length
  comment := comment }

/-- The stages of the optional chunks read what there is of them and give the defaults of what there is not. -/
theorem Parsing.optionals {h : StreamHeader} {s t : State} {x : Ctx} (here : Parsing s x h.optionalBytes t)
    (short : (h.comment.getD []).length < 256)
    (loop : ∀ p, h.loop = some p → p.1.toNat ≤ p.2.1.toNat ∧ p.2.1.toNat < x.frameCount.toNat)
    (cipher : h.ciph.getD 0 = 0 ∨ h.ciph.getD 0 = 1 ∨ h.ciph.getD 0 = 56) :
    ∃ (u : State) (comment : Vector Byte 255),
      (∀ i, i < (h.comment.getD []).length → comment.getD i 0 = (h.comment.getD []).getD i 0) ∧
      runStages Config.hw optionalStages t = .done u ∧ u.ctx = h.withOptional x comment ∧ HeaderKeeps s u := by
  simp only [StreamHeader.optionalBytes, List.append_assoc] at here
  have pad : BeginsWith [0x70616400#32] ((h.pad.map fun junk => be32 0x70616400#32 ++ junk).getD []) := by
    simpa using BeginsWith.optional (tags := []) (.inl rfl) h.pad (f := fun junk => be32 0x70616400#32 ++ junk)
      0x70616400#32 fun junk => ⟨junk, rfl⟩
  have comm := pad.optional h.comment (f := commBytes 0x636F6D6D#32) 0x636F6D6D#32 fun _ => ⟨_, List.append_assoc ..⟩
  have rva := comm.optional h.rva (f := rvaBytes 0x72766100#32) 0x72766100#32 fun _ => ⟨_, rfl⟩
  have ciph := rva.optional h.ciph (f := ciphBytes 0x63697068#32) 0x63697068#32 fun _ => ⟨_, rfl⟩
  have loops := ciph.optional h.loop (f := fun l => loopBytes 0x6C6F6F70#32 l.1 l.2.1 l.2.2.1 l.2.2.2) 0x6C6F6F70#32
    fun l => ⟨be32 l.1 ++ (be32 l.2.1 ++ (be16 l.2.2.1 ++ be16 l.2.2.2)), by simp [loopBytes]⟩
  have ath := loops.optional h.ath (f := athBytes 0x61746800#32) 0x61746800#32 fun _ => ⟨_, rfl⟩
  obtain ⟨t1, e1, here⟩ := here.vbr ath (by simp)
  obtain ⟨t2, e2, here⟩ := here.ath loops (by simp)
  obtain ⟨t3, e3, here⟩ := here.loop ciph loop (by simp)
  obtain ⟨t4, e4, here⟩ := here.ciph rva cipher (by simp)
  obtain ⟨t5, e5, here⟩ := here.rva comm (by simp)
  obtain ⟨t6, comment, stored, e6, here⟩ := here.comm pad short (by simp)
  refine ⟨t6.enter 0x1A, comment, stored, ?_, here.ctx, here.keeps.trans ⟨rfl, rfl, rfl, rfl, rfl, rfl⟩⟩
  rw [optionalStages, runStages_cons_done (i := .hdVbr) e1, runStages_cons_done (i := .hdAth) e2,
    runStages_cons_done (i := .hdLoop) e3, runStages_cons_done (i := .hdCiph) e4,
    runStages_cons_done (i := .hdRva) e5, runStages_cons_done (i := .hdComm) e6]
  rfl

/-! Validation and derivation. -/

/-- The registers a successful open leaves, from those the chunks gave. -/
def Ctx.derived (x : Ctx) : Ctx :=
  { x with trackCount := if x.trackCount = 0 then 1 else x.trackCount
           hfrGroupCount := BitVec.ofNat 8 x.groupCount }

/-- A legal context passes HD_VALIDATE. -/
theorem Ctx.Legal.validated {x : Ctx} (h : x.derived.Legal) :
    Ctx.headerLegal { x with trackCount := if x.trackCount = 0 then 1 else x.trackCount } = true := by
  obtain ⟨total, sum⟩ := h.bands
  have sum : x.baseBandCount.toNat + x.stereoBandCount.toNat ≤ x.totalBandCount.toNat := sum
  have total : x.totalBandCount.toNat ≤ 128 := total
  rw [Ctx.headerLegal_iff]
  have resolution : if x.version.toNat ≤ 0x0200 then x.minResolution = 1 ∧ x.maxResolution = 15
      else x.maxResolution.toNat ≤ 15 ∧ x.minResolution.toNat ≤ x.maxResolution.toNat := by
    split
    · exact h.resolutionOld ‹_›
    · exact h.resolution.symm
  refine ⟨h.channelCount, h.sampleRate, h.frameCount, h.frameSize, resolution, h.tracks,
    ⟨total, ?_, ?_, h.perGroup, ?_⟩, sum⟩
  · show x.baseBandCount.toNat ≤ 128
    omega
  · show x.stereoBandCount.toNat ≤ 128
    omega
  · show x.baseBandCount.toNat + x.stereoBandCount.toNat ≤ 128
    omega

/-- What the derivation leaves. -/
structure Derived (s t : State) : Prop where
  keeps : HeaderKeeps s t
  ctx : t.ctx = s.ctx.derived
  cipher : t.cipherTable = cipherTableOf Config.hw s.ctx.cipherType s.key
  ath : t.athCurve = tabulate 128 fun i => Config.hw.noiseCurveInit s.ctx.athType s.ctx.sampleRate i
  random : t.random = 1
  chan : ∀ c : Fin 16, c.val < s.ctx.channelCount.toNat →
    t.chan c = (s.chan c).freshStart.assign s.ctx.derived c

/-- Legal registers are validated and derived (rules R140 to R154). -/
theorem derived_run {s : State} (legal : s.ctx.derived.Legal) :
    ∃ t, runStages Config.hw [.hdValidate, .hdDerive, .hdChantype] s = .done t ∧ Derived s t := by
  obtain ⟨v, valid, ctx, keeps, chan⟩ : ∃ v, hdValidate s = .done v ∧
      v.ctx = { s.ctx with trackCount := if s.ctx.trackCount = 0 then 1 else s.ctx.trackCount } ∧ HeaderKeeps s v ∧
      v.ch = s.ch :=
    ⟨_, (hdValidate_eq s).trans (if_pos legal.validated), rfl, ⟨rfl, rfl, rfl, rfl, rfl, rfl⟩, rfl⟩
  have plain : ¬ (0 < v.ctx.msStereo.toNat ∨ (0 < v.ctx.groupCount ∧ v.ctx.version = Config.hw.vNewest)) := by
    rw [ctx]
    rintro (ms | ⟨groups, newest⟩)
    · exact toNat_pos_iff.1 ms legal.midSide
    · exact legal.newest (legal.groups.symm ▸ groups) newest
  obtain ⟨total, sum⟩ : v.ctx.totalBandCount.toNat ≤ 128 ∧
      v.ctx.baseBandCount.toNat + v.ctx.stereoBandCount.toNat ≤ v.ctx.totalBandCount.toNat := by
    rw [ctx]
    exact legal.bands
  have derive := (hdDerive_eq Config.hw v total sum).trans (if_neg plain)
  rw [State.mapLive_eq] at derive
  rw [runStages_cons_done (i := .hdValidate) valid, runStages_cons_done (i := .hdDerive) derive,
    runStages_cons_done (i := .hdChantype) (hdChantype_eq _)]
  have key := keeps.key
  refine ⟨_, rfl, keeps.trans ⟨rfl, rfl, rfl, rfl, rfl, rfl⟩, ?_, ?_, ?_, rfl, fun c live => ?_⟩
  · show { v.ctx with hfrGroupCount := BitVec.ofNat 8 v.ctx.groupCount } = _
    rw [ctx]
    rfl
  · show cipherTableOf Config.hw v.ctx.cipherType v.key = _
    rw [ctx, key]
  · show (tabulate 128 fun i => Config.hw.noiseCurveInit v.ctx.athType v.ctx.sampleRate i) = _
    rw [ctx]
  · have same : v.chan c = s.chan c := by rw [State.chan, chan]; rfl
    have live : c.val < v.ctx.channelCount.toNat := by rw [ctx]; exact live
    rw [State.chan, Fin.getElem_fin, Vector.getElem_ofFn]
    refine (if_pos live).trans ?_
    have fresh : ∀ k, (if c.val < v.ctx.channelCount.toNat then (v.chan c).freshStart else k) =
        (s.chan c).freshStart := fun _ => by rw [if_pos live, same]
    rw [State.chan, Fin.getElem_fin, Vector.getElem_ofFn]
    refine (congrArg (Channel.assign { v.ctx with hfrGroupCount := BitVec.ofNat 8 v.ctx.groupCount } c)
      (fresh _)).trans ?_
    rw [ctx]
    rfl

/-! The whole header. -/

theorem Ctx.Legal.comment {x : Ctx} (h : x.Legal) (comment : Vector Byte 255) :
    Ctx.Legal { x with comment := comment } where
  headerSize := h.headerSize
  channelCount := h.channelCount
  sampleRate := h.sampleRate
  frameCount := h.frameCount
  frameSize := h.frameSize
  resolutionOld := h.resolutionOld
  resolution := h.resolution
  tracks := h.tracks
  bands := h.bands
  perGroup := h.perGroup
  groups := h.groups
  midSide := h.midSide
  newest := h.newest
  vbr := h.vbr
  cipher := h.cipher
  loop := h.loop

/-- The registers the fields give, from any registers before. -/
theorem StreamHeader.withOptional_into (h : StreamHeader) (x : Ctx) (comment : Vector Byte 255) :
    h.withOptional (h.bands.into { x with
      version := h.version, headerSize := BitVec.ofNat 16 h.size, channelCount := h.channelCount
      sampleRate := h.sampleRate, frameCount := h.frameCount, encoderDelay := h.encoderDelay
      encoderPadding := h.encoderPadding }) comment =
      { h.registers with comment := comment, hfrGroupCount := x.hfrGroupCount } := by
  rw [registers]
  cases h.bands <;> rfl

/-- The band registers come from the chunk alone. -/
theorem BandChunk.into_bands (b : BandChunk) (x y : Ctx) :
    (b.into x).baseBandCount = (b.into y).baseBandCount ∧ (b.into x).totalBandCount = (b.into y).totalBandCount := by
  cases b <;> exact ⟨rfl, rfl⟩

theorem BandChunk.into_frameCount (b : BandChunk) (x : Ctx) : (b.into x).frameCount = x.frameCount := by
  cases b <;> rfl

/-- The loop chunk and the cipher type of a header whose registers are legal. -/
theorem StreamHeader.legal_optional {h : StreamHeader} (legal : h.ctx.Legal) :
    (∀ p, h.loop = some p → p.1.toNat ≤ p.2.1.toNat ∧ p.2.1.toNat < h.frameCount.toNat) ∧
    (h.ciph.getD 0 = 0 ∨ h.ciph.getD 0 = 1 ∨ h.ciph.getD 0 = 56) := by
  obtain ⟨ver, cc, sr, fc, ed, ep, bands, ath, loop, ciph, rva, comment, pad⟩ := h
  have cipher := legal.cipher
  have looped := legal.loop
  cases bands with
  | comp => exact ⟨by rintro p rfl; exact looped rfl, cipher⟩
  | dec => exact ⟨by rintro p rfl; exact looped rfl, cipher⟩

/-- The sequence of OPEN_STREAM over a header that is built from its fields. -/
theorem openSequence_run {h : StreamHeader} {s : State} (fits : h.encodable) (legal : h.ctx.Legal)
    (version : Config.hw.versions h.version = true) (within : h.size ≤ s.hdrLen.toNat)
    (inside : s.hdrLen.toNat ≤ s.hdr.size) (bytes : ∀ i, i < h.size → s.hdr.byte i = h.bytes.getD i 0) :
    ∃ (p t : State) (comment : Vector Byte 255),
      (∀ i, i < (h.comment.getD []).length → comment.getD i 0 = (h.comment.getD []).getD i 0) ∧
      openSequence Config.hw s = .done t ∧ HeaderKeeps s p ∧ Derived p t ∧
      p.ctx.derived = { h.ctx with comment := comment } := by
  obtain ⟨loop, cipher⟩ := h.legal_optional legal
  obtain ⟨a, ea, here⟩ := Parsing.prolog fits version within inside bytes
  rw [StreamHeader.chunkBytes, List.append_assoc] at here
  obtain ⟨b, eb, here⟩ := here.fmt
  have fits9 : h.registers.baseBandCount.toNat ≤ h.registers.totalBandCount.toNat :=
    (Nat.le_add_right ..).trans legal.bands.2
  obtain ⟨c, ec, here⟩ := here.bands (b := h.bands) (by
    obtain ⟨base, total⟩ := h.bands.into_bands _ _
    rwa [base, total])
  obtain ⟨p, comment, stored, ep, ctx, keeps⟩ :=
    here.optionals fits.2 (by rwa [BandChunk.into_frameCount]) cipher
  rw [StreamHeader.withOptional_into] at ctx
  have derived : p.ctx.derived = { h.ctx with comment := comment } := by
    rw [ctx]
    rfl
  obtain ⟨t, et, d⟩ := derived_run (derived ▸ legal.comment comment)
  refine ⟨p, t, comment, stored, ?_, keeps, d, derived⟩
  have eb : stageMeaning Config.hw .hdFmt a = .done b := eb
  have tail : runStages Config.hw headerTail c = .done t := by
    rw [show headerTail = optionalStages ++ [.hdValidate, .hdDerive, .hdChantype] from rfl, runStages_append, ep]
    exact et
  rw [openSequence, ea, Res.andThen, eb, Res.andThen, ec, Res.andThen, tail]

/-- Settles O25: the sequence is done over the header's bytes, and the derivation's registers are the header's. -/
theorem builtHeaderOpens : Obligations.BuiltHeaderOpens := by
  intro h s hdrLen fits legal version within inside bytes
  obtain ⟨p, t, comment, stored, run, keeps, d, ctx⟩ :=
    openSequence_run (s := { s.unspecify Config.hw with hdrLen := hdrLen }) fits legal version within inside bytes
  have opened : openStream Config.hw hdrLen s = .done t.openedStream := by
    rw [openStream, if_neg (Nat.not_lt.2 inside), run, Res.andThen]
  have k := keeps.trans d.keeps
  have tctx := d.ctx.trans ctx
  have type : p.ctx.cipherType = h.ctx.cipherType := by show p.ctx.derived.cipherType = _; rw [ctx]
  have ath : p.ctx.athType = h.ctx.athType := by show p.ctx.derived.athType = _; rw [ctx]
  have rate : p.ctx.sampleRate = h.ctx.sampleRate := by show p.ctx.derived.sampleRate = _; rw [ctx]
  have channels : p.ctx.channelCount = h.ctx.channelCount := by show p.ctx.derived.channelCount = _; rw [ctx]
  refine ⟨t.openedStream, Res.outcome_done opened, rfl, rfl, k.key, ?_, ?_, ?_, ?_, d.random, ?_, k.hdr, k.frm, k.out,
    k.queue, rfl, rfl⟩
  · show { t.ctx with comment := h.ctx.comment } = _
    rw [tctx]
  · show ∀ i, _ → t.ctx.comment.getD i 0 = _
    rw [tctx]
    exact stored
  · intro b
    show tableByte t.cipherTable b = _
    rw [d.cipher, tableByte_cipherTableOf, keeps.key, type]
    rfl
  · intro i hi
    show t.athCurve.getD i 0 = _
    rw [d.ath, getD_tabulate _ _ hi, ath, rate]
  · intro c live
    have chan : t.openedStream.chan c = (p.chan c).freshStart.assign p.ctx.derived c :=
      d.chan c (by rwa [channels])
    have bands : h.ctx.baseBandCount.toNat + h.ctx.stereoBandCount.toNat ≤ 128 := legal.bands.2.trans legal.bands.1
    rw [chan, ctx]
    exact ⟨rfl, rfl, (Ctx.typeOf_iff _ c).1, (Ctx.typeOf_iff _ c).2, Ctx.toNat_codedOf bands _⟩

end Sys2Proof.Machine
end

section
/-! PROOFS. OPEN_STREAM over any bytes (45_controller_and_host.md rule R240): how it ends, and that it is its stages run
one after another. -/

namespace Sys2Proof.Machine

/-! How OPEN_STREAM ends. -/

/-- A stream that opens starts with the sequence done, from free values in the registers it leaves unspecified. -/
theorem openStream_eq_done {n : BitVec 32} {s v : State} (h : openStream Config.hw n s = .done v) :
    ∃ u, openSequence Config.hw { s.unspecify Config.hw with hdrLen := n } = .done u ∧ v = u.openedStream := by
  rw [openStream] at h
  split at h
  · cases h
  · obtain ⟨u, run, h⟩ := Res.andThen_eq_done h
    injection h with h
    exact ⟨u, run, h.symm⟩

/-- Settles O53: the sequence is done or raises HeaderInvalid, and done it has met every condition on the bytes. -/
theorem openEndsEitherWay : Obligations.OpenEndsEitherWay := by
  intro n s
  obtain ⟨long, e⟩ | ⟨fits, ⟨u, e, k, opened, -⟩ | ⟨u, e, k⟩⟩ := openStream_cases n s
  · exact ⟨fun _ => congrArg (Res.outcome Config.hw) e, fun fits => absurd long (Nat.not_lt.2 fits)⟩
  · refine ⟨fun long => absurd fits (Nat.not_le.2 long), fun _ => ⟨u.openedStream, Res.outcome_done e, .inr ?_, ?_⟩⟩
    · exact ⟨rfl, rfl, opened.ctx, opened.channels, opened.cipher, opened.random, opened.size, k.key, k.hdr, k.frm,
        k.out, k.queue, rfl, rfl⟩
    obtain ⟨v, run, -⟩ := openStream_eq_done e
    obtain ⟨len, tag, -, least, most, ⟨fmtSize, fmt⟩, bands⟩ := openSequence_eq_done _ v run
    refine ⟨fun h => absurd len (Nat.not_le.2 h), fun h => absurd tag h, fun h => ?_, fun h => ?_, fun comp dec => ?_⟩
    · exact (h.elim (Nat.not_lt.2 least) (Nat.not_lt.2 most)).elim
    · exact (h.elim (fun short => Nat.not_le.2 short fmtSize) fun other => other fmt).elim
    · obtain ⟨size, here⟩ | ⟨size, here⟩ := bands
      · exact (comp.elim (fun short => Nat.not_le.2 short size) fun other => other here).elim
      · exact (dec.elim (fun short => Nat.not_le.2 short size) fun other => other here).elim
  · obtain ⟨t, et, rejected⟩ := Res.rejects e k
    have rejected : HeaderRejected s t := rejected
    exact ⟨fun long => absurd fits (Nat.not_le.2 long), fun _ => ⟨t, et, .inl rejected, fun _ => rejected,
      fun _ => rejected, fun _ => rejected, fun _ => rejected, fun _ _ => rejected⟩⟩

/-! OPEN_STREAM as its stages. -/

theorem Res.hosted_andThen {q : List Call} {x : Status} {f : State → Res}
    (hf : ∀ s : State, f (s.hosted q x) = (f s).hosted q x) (r : Res) :
    (r.hosted q x).andThen f = (r.andThen f).hosted q x := by
  cases r with
  | done t => exact hf t
  | raised e t => rfl
  | faulted e => rfl
  | refused e => rfl

theorem rewrapHeader_hosted (q : List Call) (x : Status) (s : State) :
    rewrapHeader (s.hosted q x) = (rewrapHeader s).hosted q x := by
  simp only [rewrapHeader, wrap, Res.andThen_ite]
  simp only [Res.andThen, Res.hosted_ite]
  rfl

theorem compOrDec_hosted (q : List Call) (x : Status) (s : State) :
    compOrDec (s.hosted q x) = (compOrDec s).hosted q x := by
  have comp : hdComp (s.hosted q x) = (hdComp s).hosted q x := header_hosted q x .hdComp s (by decide)
  have dec : hdDec (s.hosted q x) = (hdDec s).hosted q x := header_hosted q x .hdDec s (by decide)
  rw [compOrDec, compOrDec, comp, dec, Res.hosted_ite, Res.hosted_ite]
  rfl

/-- The sequence of OPEN_STREAM neither reads nor writes the queue and the status. -/
theorem openSequence_hosted (q : List Call) (x : Status) (s : State) :
    openSequence Config.hw (s.hosted q x) = (openSequence Config.hw s).hosted q x := by
  rw [openSequence, openSequence, header_hosted q x .hdProlog s (by decide),
    Res.hosted_andThen (rewrapHeader_hosted q x),
    Res.hosted_andThen fun u => header_hosted q x .hdFmt u (by decide), Res.hosted_andThen (compOrDec_hosted q x),
    Res.hosted_andThen (headerStages_hosted headerTail (by decide) q x)]

/-- The state OPEN_STREAM leaves from a run of the sequence that came to `r` (rules R240, R245). -/
def Res.Opens (r : Res) (t : State) : Prop :=
  (r.andThen fun u => .done u.openedStream).outcome Config.hw = .next t

theorem Res.Opens.done {u t : State} (h : (Res.done u).Opens t) : t = u.openedStream := by
  injection h with h
  exact h.symm

theorem Res.Opens.raised {e : Status} {u t : State} (h : (Res.raised e u).Opens t) : t = takeError Config.hw e u := by
  injection h with h
  exact h.symm

theorem takeError_rejected {s u : State} (k : HeaderKeeps s u) :
    HeaderRejected s (takeError Config.hw .headerInvalid u) :=
  ⟨rfl, rfl, k.key, k.hdr, k.frm, k.out, k.queue, rfl, rfl⟩

/-- The state the sequence starts from, status OK. -/
def State.opening (s : State) (n : BitVec 32) : State :=
  State.hosted s.queue .ok { s.unspecify Config.hw with hdrLen := n }

/-- OPEN_STREAM leaves what its sequence leaves, run with status OK. -/
theorem execOpenStream_opens {n : BitVec 32} {s t : State} (e : exec (.openStream n) s = .next t) :
    n.toNat ≤ s.hdr.size ∧ (openSequence Config.hw (s.opening n)).Opens t := by
  have e : (openStream Config.hw n s).outcome Config.hw = .next t := e
  rw [openStream] at e
  split at e
  · cases e
  next fits =>
    refine ⟨Nat.not_lt.1 fits, ?_⟩
    rw [State.opening, openSequence_hosted]
    have ends := openSequence_parses { s.unspecify Config.hw with hdrLen := n } (Nat.not_lt.1 fits)
    obtain ⟨u, run, k, -⟩ | ⟨u, run, k⟩ := ends
    · rw [run] at e ⊢
      have same : (u.hosted s.queue .ok).openedStream = u.openedStream := by
        rw [show s.queue = u.queue from k.queue.symm]
        rfl
      exact (congrArg _ same).trans e
    · rw [run] at e ⊢
      have same : takeError Config.hw .headerInvalid (u.hosted s.queue .ok) =
          takeError Config.hw .headerInvalid u := by
        rw [show s.queue = u.queue from k.queue.symm]
        rfl
      exact (congrArg _ same).trans e

/-- A stage of OPEN_STREAM leaves the status as it was. -/
theorem headerStage_status {i : Instr} (hi : i ∈ headerStages) {s t : State}
    (h : stageMeaning Config.hw i s = .done t) : t.status = s.status := by
  have same := header_hosted s.queue s.status i s hi
  rw [show s.hosted s.queue s.status = s from rfl, h] at same
  injection same with same
  rw [same]
  rfl

/-- A stage of the sequence, run by itself: where it raised its state is what the command leaves, else the sequence goes
on from its state. -/
theorem Res.Opens.stage {i : Instr} {s t : State} {f : State → Res}
    (h : ((stageMeaning Config.hw i s).andThen f).Opens t) (hi : i ∈ headerStages) (ok : s.status = .ok) :
    ∃ p, exec i s = .next p ∧ (p.status ≠ .ok → t = p) ∧
      (p.status = .ok → stageMeaning Config.hw i s = .done p ∧ (f p).Opens t) := by
  rw [exec_header i hi]
  have raises := header_raises i hi s
  cases r : stageMeaning Config.hw i s with
  | done p =>
    rw [r] at h
    exact ⟨p, rfl, fun bad => absurd ((headerStage_status hi r).trans ok) bad, fun _ => ⟨rfl, h⟩⟩
  | raised x u =>
    rw [r] at h raises
    obtain rfl : x = .headerInvalid := raises
    exact ⟨_, rfl, fun _ => h.raised, nofun⟩
  | faulted x => rw [r] at h; cases h
  | refused x => rw [r] at h; cases h

/-- Behind HD_FMT the chunk chosen and the other stages run, up to the first that raises. -/
theorem Res.Opens.tail {f t : State} (ok : f.status = .ok) {i : Instr} (hi : i ∈ headerStages)
    (chosen : compOrDec f = stageMeaning Config.hw i f)
    (h : ((compOrDec f).andThen (runStages Config.hw headerTail)).Opens t) :
    ∃ v, runUntilError (i :: headerTail) f = .next v ∧ (v.status ≠ .ok → t = v) ∧
      (v.status = .ok → t = { v.endedWith .ok with valid := true, decoded := false }) := by
  have all : ∀ j ∈ i :: headerTail, j ∈ headerStages := by
    intro j hj
    obtain rfl | hj := List.mem_cons.1 hj
    · exact hi
    · exact List.mem_append_right _ hj
  obtain ⟨done, raised⟩ := runUntilError_header (i :: headerTail) all f ok
  rw [chosen] at h
  change (runStages Config.hw (i :: headerTail) f).Opens t at h
  cases r : runStages Config.hw (i :: headerTail) f with
  | done v =>
    rw [r] at h
    obtain ⟨run, vok, -⟩ := done v r
    exact ⟨v, run, fun bad => absurd vok bad, fun _ => h.done⟩
  | raised x u =>
    rw [r] at h
    obtain ⟨rfl, run, -⟩ := raised x u r
    exact ⟨_, run, fun _ => h.raised, nofun⟩
  | faulted x => rw [r] at h; cases h
  | refused x => rw [r] at h; cases h

theorem Res.andThen_assoc (r : Res) (f g : State → Res) :
    (r.andThen f).andThen g = r.andThen fun s => (f s).andThen g := by
  cases r <;> rfl

theorem Res.Parses.of_done {s t : State} {P : State → Prop} {r : Res} (h : r.Parses s P) (e : r = .done t) :
    HeaderKeeps s t ∧ P t := by
  obtain ⟨u, done, k⟩ | ⟨u, raised, -⟩ := h
  · cases done.symm.trans e
    exact k
  · cases raised.symm.trans e

/-- A declared size out of its range is invalid (rule R122). -/
theorem rewrapHeader_invalid {p : State}
    (h : p.ctx.headerSize.toNat < 8 ∨ p.hdrLen.toNat < p.ctx.headerSize.toNat) :
    rewrapHeader p = .raised .headerInvalid p := by
  by_cases short : p.ctx.headerSize.toNat < 8
  · exact if_pos short
  · exact (if_neg short).trans (if_pos (h.resolve_left short))

/-- A declared size in its range is wrapped behind the prolog. -/
theorem rewrapHeader_done {p : State} (least : 8 ≤ p.ctx.headerSize.toNat)
    (most : p.ctx.headerSize.toNat ≤ p.hdrLen.toNat) (fits : p.hdrLen.toNat ≤ p.hdr.size) :
    rewrapHeader p = .done
      { p with cur := { buf := some .hdr, sizeBits := 8 * p.ctx.headerSize.toNat, pos := 64 }
               remaining := p.ctx.headerSize.toNat - 8 } := by
  have inside : ¬ (p.buffer .hdr).size < p.ctx.headerSize.toNat := Nat.not_lt.2 (most.trans fits)
  rw [rewrapHeader, wrap]
  exact (if_neg (Nat.not_lt.2 least)).trans ((if_neg (Nat.not_lt.2 most)).trans (by rw [if_neg inside]; rfl))

/-- HD_COMP where it is present, else HD_DEC, else the header is invalid (rule R126). -/
theorem compOrDec_cases (f : State) :
    (¬ absent f 0x636F6D70#32 16 → compOrDec f = hdComp f) ∧
    (absent f 0x636F6D70#32 16 → ¬ absent f 0x64656300#32 12 → compOrDec f = hdDec f) ∧
    (absent f 0x636F6D70#32 16 → absent f 0x64656300#32 12 → compOrDec f = .raised .headerInvalid f) := by
  have comp : absent f 0x636F6D70#32 16 → ¬ present f tagComp 16 = true := fun h here => (present_iff ..).1 here h
  refine ⟨fun h => if_pos ((present_iff ..).2 h), fun no h => (if_neg (comp no)).trans (if_pos ((present_iff ..).2 h)),
    fun no none => (if_neg (comp no)).trans (if_neg fun here => (present_iff ..).1 here none)⟩

/-- Settles O54: the sequence, stage by stage from the state with status OK. -/
theorem openStreamIsItsStages : Obligations.OpenStreamIsItsStages := by
  intro n s t e
  obtain ⟨fits, opens⟩ := execOpenStream_opens e
  have fits : (s.opening n).hdrLen.toNat ≤ (s.opening n).hdr.size := fits
  simp only [openSequence, Res.andThen_assoc] at opens
  obtain ⟨p, run, raised, done⟩ := opens.stage (by decide) rfl
  refine ⟨s.opening n, p, rfl, run, raised, fun ok => ?_⟩
  obtain ⟨prolog, opens⟩ := done ok
  obtain ⟨kp, -⟩ := (hdProlog_parses Config.hw _ fits).of_done prolog
  have len : p.hdrLen = n := kp.hdrLen
  refine ⟨fun bad => ?_, fun least most => ?_⟩
  · rw [rewrapHeader_invalid (len ▸ bad)] at opens
    exact opens.raised ▸ takeError_rejected (s := s.opening n) kp
  rw [rewrapHeader_done least (len ▸ most) (by rwa [kp.hdrLen, kp.hdr]), Res.andThen] at opens
  obtain ⟨f, run, raised, done⟩ := opens.stage (by decide) ok
  refine ⟨f, run, raised, fun ok => ?_⟩
  obtain ⟨fmt, opens⟩ := done ok
  obtain ⟨k, -⟩ := (hdFmt_parses _).of_done fmt
  have kf : HeaderKeeps p f := ⟨k.key, k.hdr, k.frm, k.out, k.queue, k.hdrLen⟩
  obtain ⟨comp, dec, neither⟩ := compOrDec_cases f
  refine ⟨fun noComp noDec => ?_, fun i choice => ?_⟩
  · rw [neither (not_not.1 noComp) (not_not.1 noDec)] at opens
    exact opens.raised ▸ takeError_rejected (s := s.opening n) (kp.trans kf)
  · obtain ⟨here, rfl⟩ | ⟨noComp, here, rfl⟩ := choice
    · exact opens.tail ok (by decide) (comp here)
    · exact opens.tail ok (by decide) (dec (not_not.1 noComp) here)

end Sys2Proof.Machine
end

section
/-! PROOFS. DECODE_FRAME is its stages, run one step each (45_controller_and_host.md rules R241, R260). -/

namespace Sys2Proof.Machine

/-! A stage of a frame as one step. -/

/-- A stereo stage of channel 15, the only ill-formed image of the sequence, is refused. -/
theorem frameStage_wellFormed {u s : State} {i : Instr} (hi : i ∈ frameSequence u)
    (answers : ∀ f, stageMeaning Config.hw i s ≠ .refused f) : i.wellFormed = true := by
  have last {c : Fin 16} (h : ¬ c.val < 15) : secondaryOf c = none := dif_neg (by omega)
  cases i with
  | spIstereo c sf =>
    by_contra ill
    have none : secondaryOf c = none := last (by simpa [Instr.wellFormed] using ill)
    exact answers _ (by rw [stageMeaning, stageBy, spIstereo, none])
  | spMsstereo c =>
    by_contra ill
    have none : secondaryOf c = none := last (by simpa [Instr.wellFormed] using ill)
    exact answers _ (by rw [stageMeaning, stageBy, spMsstereo, none])
  | bcWrap | bcPeek | bcRead =>
    simp [frameSequence, frameChecks, unpackChannel, subframe, stereoPair] at hi
  | _ => rfl

/-- A stage of a frame is a step, status OK, where it is done or raises and the cursor stays in its range. -/
theorem frameStage_step {u s : State} {i : Instr} (hi : i ∈ frameSequence u)
    (range : ∀ n, cursorReach i = some n → s.cur.pos + n < 2 ^ 31)
    (answers : ∀ f, stageMeaning Config.hw i s ≠ .refused f) (rest : List Call) :
    step (s.hosted (callOf i :: rest) .ok) = (Res.hosted rest .ok (stageMeaning Config.hw i s)).outcome Config.hw := by
  obtain ⟨port, -⟩ := frameSequence_stage u i hi
  have image : decode (encode i).1 ((encode i).2 ++ []) = .ok i :=
    (Laws.RoundTrip.statement i [] (frameStage_wellFormed hi answers)).1
  rw [step_callOf _ i rest (by rw [port]; decide) image rfl]
  change exec i (s.hosted rest .ok) = _
  rw [exec_stage i (s.hosted rest .ok) (by rw [port]; decide) range, frame_hosted Config.hw rest .ok i s u hi]

/-- The cursor is in the range of the next stage of the sequence. -/
theorem frameStage_range {u s t : State} {p q : List Instr} {i : Instr} (split : frameSequence u = p ++ i :: q)
    (run : runStages Config.hw p s = .done t) (n : Nat) (reach : cursorReach i = some n) : t.cur.pos + n < 2 ^ 31 := by
  cases p with
  | nil =>
    obtain rfl : i = .frChecklen := (List.cons.inj (split.symm.trans rfl)).1
    cases reach
  | cons j p => exact frameSequence_inRange s (j :: p) q i t u split run (List.cons_ne_nil j p) reach

theorem frameStage_mem {u : State} {p q : List Instr} {i : Instr} (split : frameSequence u = p ++ i :: q) :
    i ∈ frameSequence u := by
  rw [split]
  exact List.mem_append_right _ (List.mem_cons_self ..)

/-- Stages of the sequence that are done are as many steps, status OK. -/
theorem frameStages_run {u s : State} {m q : List Instr} : ∀ {p : List Instr} {t v : State},
    frameSequence u = p ++ (m ++ q) → runStages Config.hw p s = .done t → runStages Config.hw m t = .done v →
    ∀ (rest : List Call) (k : Nat), Sys2Proof.core.run (m.length + k) (t.hosted (m.map callOf ++ rest) .ok) =
      Sys2Proof.core.run k (v.hosted rest .ok) := by
  induction m with
  | nil =>
    intro p t v _ _ done rest k
    injection done with done
    rw [done, List.length_nil, Nat.zero_add]
    rfl
  | cons i m ih =>
    intro p t v split before done rest k
    obtain ⟨w, stage, done⟩ := Res.andThen_eq_done done
    have step := frameStage_step (frameStage_mem split) (frameStage_range split before)
      (by rw [stage]; exact fun _ => nofun) (m.map callOf ++ rest)
    rw [stage] at step
    have before : runStages Config.hw (p ++ [i]) s = .done w := by
      rw [runStages_append, before]
      exact (congrArg (Res.andThen · _) stage)
    have split : frameSequence u = (p ++ [i]) ++ (m ++ q) := by rw [split]; simp
    rw [← ih split before done rest k, List.length_cons, Nat.add_right_comm]
    exact core_run_next _ _ _ step

/-- A run that raises has stages that are done before the one that raised. -/
theorem runStages_raised {l : List Instr} {s u : State} {x : Status} (h : runStages Config.hw l s = .raised x u) :
    ∃ p i q t, l = p ++ i :: q ∧ runStages Config.hw p s = .done t ∧ stageMeaning Config.hw i t = .raised x u := by
  induction l generalizing s with
  | nil => cases h
  | cons i l ih =>
    rw [runStages] at h
    cases stage : stageMeaning Config.hw i s with
    | done w =>
      rw [stage] at h
      obtain ⟨p, j, q, t, rfl, done, raised⟩ := ih h
      exact ⟨i :: p, j, q, t, rfl, by rw [runStages, stage]; exact done, raised⟩
    | raised y w =>
      rw [stage] at h
      injection h with hx hu
      exact ⟨[], i, l, s, rfl, rfl, by rw [stage, hx, hu]⟩
    | faulted f => rw [stage] at h; cases h
    | refused f => rw [stage] at h; cases h

/-- Settles O59: a stage of the sequence is one step, up to the first that raises. -/
theorem decodeFrameIsItsStages : Obligations.DecodeFrameIsItsStages := by
  intro n s t _ e start quiet
  have sequence := frameSequence_eq s
  have steps {p q : List Instr} {v : State} (split : frameSequence s = p ++ q)
      (done : runStages Config.hw p { s with frmLen := n } = .done v) (k : Nat) :
      Sys2Proof.core.run (p.length + k) start = Sys2Proof.core.run k (v.hosted (q.map callOf) .ok) := by
    have begins : start = State.hosted (p.map callOf ++ q.map callOf) .ok { s with frmLen := n } := by
      rw [← List.map_append, ← split, sequence]
      rfl
    rw [begins]
    exact frameStages_run (p := []) split rfl done _ k
  have quiets {k : Nat} {p q : List Instr} {v : State} (split : frameSequence s = p ++ q)
      (done : runStages Config.hw p { s with frmLen := n } = .done v) (hk : k ≤ p.length) : quiet k := by
    rw [← List.take_append_drop k p, runStages_append] at done
    obtain ⟨w, done, -⟩ := Res.andThen_eq_done done
    rw [← List.take_append_drop k p, List.append_assoc] at split
    have run := steps split done 0
    rw [List.length_take, Nat.min_eq_left hk] at run
    exact ⟨_, run, rfl⟩
  obtain ⟨u, run, keeps, rfl⟩ | ⟨x, u, ⟨error, other⟩, run, keeps, rfl⟩ := execDecodeFrame_ends e
  · have queue : u.queue = s.queue := keeps.queue
    have split : frameSequence s = frameSequence s ++ [] := (List.append_nil _).symm
    refine ⟨fun _ => ⟨fun k hk => quiets split run (by rwa [sequence]), ?_⟩, fun bad => absurd rfl bad⟩
    have all := steps split run 0
    rw [sequence] at all
    refine ⟨_, all, rfl, ?_⟩
    rw [← queue]
    rfl
  · have queue : u.queue = s.queue := keeps.queue
    refine ⟨fun ok => absurd ok error, fun _ => ?_⟩
    obtain ⟨p, i, q, t, split, done, raised⟩ := runStages_raised run
    have step := frameStage_step (frameStage_mem split) (frameStage_range split done)
      (by rw [raised]; exact fun _ => nofun) (q.map callOf)
    rw [raised] at step
    refine ⟨p.length, _, ?_, fun j hj => quiets split done hj,
      (steps split done 1).trans (core_run_next 0 _ _ step), ?_⟩
    · rw [← sequence, split, List.length_append, List.length_cons]
      omega
    · rw [takeError_eq_endedWith other, ← queue]
      rfl

end Sys2Proof.Machine
end

section
/-! PROOFS. The conversion of a sample (45_controller_and_host.md rule R252): the product with 32768 is exact, or beyond
the clamps. -/

namespace Sys2Proof.F32

/-! Exact products. -/

/-- A multiple of the unit divides without rounding. -/
theorem rne_mul_pow (n sh : Nat) : rne (n * 2 ^ sh) sh = n := by
  have unit : 0 < 2 ^ sh := Nat.two_pow_pos sh
  simp [rne, Nat.shiftRight_eq_div_pow, unit.ne]

/-- The magnitude of an infinity, one unit above the largest finite one. -/
theorem natMag_infinity : natMag 0x7F800000 = 2 ^ 23 * 2 ^ 254 := by
  rw [show (0x7F800000 : Nat) = 254 * 2 ^ 23 + 2 ^ 23 from rfl, natMag_pattern _ _ (.inr ⟨le_refl _, by decide⟩)]

/-- A number of 24 significant bits rounds to itself, or is beyond every finite one. -/
theorem roundMag_exact {u f k : Nat} (hf : f < 2 ^ 24) :
    natMag (roundMag u (f * 2 ^ (k + u))) = f * 2 ^ k ∨
      2 ^ 23 * 2 ^ 254 ≤ f * 2 ^ k ∧ natMag (roundMag u (f * 2 ^ (k + u))) = 2 ^ 23 * 2 ^ 254 := by
  obtain ⟨e, q, hq, round, parts, low⟩ := roundMag_parts u (f * 2 ^ (k + u))
  have unit : e ≤ k := by
    obtain rfl | low := low
    · exact Nat.zero_le k
    by_contra above
    have : f * 2 ^ (k + u) < 2 ^ 23 * 2 ^ (e + u) := by
      calc f * 2 ^ (k + u) < 2 ^ 24 * 2 ^ (k + u) := Nat.mul_lt_mul_of_pos_right hf (by positivity)
        _ = 2 ^ 23 * 2 ^ (k + 1 + u) := by ring
        _ ≤ 2 ^ 23 * 2 ^ (e + u) := Nat.mul_le_mul_left _ (Nat.pow_le_pow_right (by omega) (by omega))
    omega
  obtain ⟨d, rfl⟩ := Nat.exists_eq_add_of_le unit
  have significand : q = f * 2 ^ d := by
    rw [hq, show f * 2 ^ (e + d + u) = f * 2 ^ d * 2 ^ (e + u) by ring, rne_mul_pow]
  have exact : q * 2 ^ e = f * 2 ^ (e + d) := by rw [significand]; ring
  rw [round, ← exact]
  obtain finite | infinite := Nat.lt_or_ge (e * 2 ^ 23 + q) 0x7F800000
  · rw [Nat.min_eq_left (by omega), natMag_pattern e q parts]
    exact .inl rfl
  · rw [Nat.min_eq_right infinite, natMag_infinity]
    refine .inr ⟨?_, rfl⟩
    obtain below | above := Nat.lt_or_ge e 254
    · calc 2 ^ 23 * 2 ^ 254 = 2 ^ 24 * 2 ^ 253 := by ring
        _ ≤ q * 2 ^ e := Nat.mul_le_mul (by omega) (Nat.pow_le_pow_right (by omega) (by omega))
    · exact Nat.mul_le_mul (by omega) (Nat.pow_le_pow_right (by omega) above)

/-- A magnitude has 24 significant bits. -/
theorem exists_mag (x : F32) : ∃ f k, f < 2 ^ 24 ∧ x.mag = f * 2 ^ k := by
  have frac : x.frac < 2 ^ 23 := Nat.mod_lt _ (by decide)
  rw [mag]
  split
  · exact ⟨x.frac, 0, by omega, by omega⟩
  · exact ⟨x.frac + 2 ^ 23, x.expo - 1, by omega, Nat.shiftLeft_eq ..⟩

/-- The value of 32768.0 in units of 2^-149. -/
theorem mag_pcmScale : pcmScale.mag = 2 ^ 164 := by decide

/-- The product of a finite sample with 32768: exact, or at least 2^128 in the sample's direction. -/
theorem sval_mul_pcmScale {x : F32} (h : x.isFinite = true) :
    (mul x pcmScale x).sval = 32768 * x.sval ∨
      (2 ^ 200 ≤ (mul x pcmScale x).sval ∧ 2 ^ 200 ≤ 32768 * x.sval) ∨
      ((mul x pcmScale x).sval ≤ -2 ^ 200 ∧ 32768 * x.sval ≤ -2 ^ 200) := by
  obtain ⟨f, k, hf, hm⟩ := exists_mag x
  have product : (mul x pcmScale x).sval = if x.sign then
      -(natMag (roundMag 149 (f * 2 ^ (k + 15 + 149))) : Int) else natMag (roundMag 149 (f * 2 ^ (k + 15 + 149))) := by
    rw [mul_of_finite x (by decide) h, ofMag_sval, show pcmScale.sign = false from rfl, Bool.false_bne, hm,
      mag_pcmScale, show 2 ^ 164 * (f * 2 ^ k) = f * 2 ^ (k + 15 + 149) by ring]
  have scaled : 32768 * x.sval = if x.sign then -((f * 2 ^ (k + 15) : Nat) : Int) else (f * 2 ^ (k + 15) : Nat) := by
    rw [sval, hm]
    split <;> push_cast <;> ring
  rw [product, scaled]
  obtain exact | ⟨above, infinite⟩ := roundMag_exact (u := 149) (k := k + 15) hf
  · rw [exact]
    exact .inl rfl
  · rw [infinite]
    have least : (2 : Int) ^ 200 ≤ (2 ^ 23 * 2 ^ 254 : Nat) := by norm_num
    have above : (2 ^ 23 * 2 ^ 254 : Nat) ≤ ((f * 2 ^ (k + 15) : Nat) : Int) := Int.ofNat_le.2 above
    refine .inr ?_
    split
    · exact .inr ⟨Int.neg_le_neg least, Int.neg_le_neg (least.trans above)⟩
    · exact .inl ⟨least, least.trans above⟩

/-! Rounding to an integer. -/

/-- `pcmRound` is within half a unit, and even where it is exactly half a unit away. -/
theorem pcmRound_spec (y : F32) :
    2 * y.sval ≤ 2 * (pcmRound y * 2 ^ 149) + 2 ^ 149 ∧ 2 * (pcmRound y * 2 ^ 149) ≤ 2 * y.sval + 2 ^ 149 ∧
      (2 * y.sval = 2 * (pcmRound y * 2 ^ 149) + 2 ^ 149 ∨ 2 * (pcmRound y * 2 ^ 149) = 2 * y.sval + 2 ^ 149 →
        pcmRound y % 2 = 0) := by
  obtain ⟨below, above, even⟩ := rne_spec y.mag 149
  rw [pcmRound, sval]
  generalize rne y.mag 149 = m at *
  generalize y.mag = a at *
  have e : (2 : Int) ^ 149 = ((2 ^ 149 : Nat) : Int) := by norm_num
  rw [e]
  generalize 2 ^ 149 = S at *
  zify at below above
  split
  · refine ⟨by linarith, by linarith, fun h => ?_⟩
    have := even (h.symm.imp (fun h => by zify; linarith) fun h => by zify; linarith)
    omega
  · refine ⟨by linarith, by linarith, fun h => ?_⟩
    have := even (h.imp (fun h => by zify; linarith) fun h => by zify; linarith)
    omega

/-! The conversion, by the scaled sample. -/

section
variable {x : F32} (number : x.isNaN = false)
include number

theorem pcm16_above (h : 32767 * 2 ^ 149 ≤ (mul x pcmScale x).sval) : (pcm16 x).toInt = 32767 := by
  rw [pcm16, if_neg (by simp [number])]
  exact congrArg BitVec.toInt (if_pos h)

theorem pcm16_below (h : (mul x pcmScale x).sval ≤ -(32767 * 2 ^ 149)) : (pcm16 x).toInt = -32767 := by
  rw [pcm16, if_neg (by simp [number])]
  exact congrArg BitVec.toInt ((if_neg (by omega)).trans (if_pos h))

theorem pcm16_between (above : -(32767 * 2 ^ 149) < (mul x pcmScale x).sval)
    (below : (mul x pcmScale x).sval < 32767 * 2 ^ 149) : (pcm16 x).toInt = pcmRound (mul x pcmScale x) := by
  rw [pcm16, if_neg (by simp [number])]
  refine (congrArg BitVec.toInt ((if_neg (Int.not_le.2 below)).trans (if_neg (Int.not_le.2 above)))).trans ?_
  obtain ⟨least, most, -⟩ := pcmRound_spec (mul x pcmScale x)
  exact BitVec.toInt_ofInt_eq_self (by decide) (by omega) (by omega)

end

/-- A quotient is near an integer as the numerators are. -/
theorem abs_sub_div_pow (r v : Int) : |(r : ℚ) - v / 2 ^ 149| = ((|r * 2 ^ 149 - v| : Int) : ℚ) / 2 ^ 149 := by
  have unit : (0 : ℚ) < 2 ^ 149 := by positivity
  have quotient : (r : ℚ) - v / 2 ^ 149 = (r * 2 ^ 149 - v : Int) / 2 ^ 149 := by
    rw [Int.cast_sub, Int.cast_mul, Int.cast_pow, sub_div, Int.cast_ofNat, mul_div_cancel_right₀ _ unit.ne']
  rw [quotient, abs_div, Int.cast_abs, abs_of_pos unit]

end Sys2Proof.F32

namespace Sys2Proof.Machine

open F32 in
/-- Settles O48: the scaled sample is exact or beyond the clamps, and `pcmRound` rounds it to nearest even. -/
theorem pcmConversion : Obligations.PcmConversion := by
  refine fun x => ⟨fun nan => if_pos nan, ?_, ?_, ?_⟩
  · rintro rfl
    decide
  · rintro rfl
    decide
  intro finite y
  have number := isNaN_eq_false_of_isFinite finite
  have unit : (0 : ℚ) < 2 ^ 149 := by positivity
  have scaled : y = ((32768 * x.sval : Int) : ℚ) / 2 ^ 149 := by
    show 32768 * (x.sval / 2 ^ 149 : ℚ) = _
    push_cast
    ring
  have product := sval_mul_pcmScale finite
  rw [scaled]
  generalize 32768 * x.sval = v at product
  refine ⟨fun above => ?_, fun below => ?_, fun above below => ?_⟩
  · rw [le_div_iff₀ unit] at above
    have above : 32767 * 2 ^ 149 ≤ v := by exact_mod_cast above
    exact pcm16_above number (by omega)
  · rw [div_le_iff₀ unit] at below
    have below : v ≤ -32767 * 2 ^ 149 := by exact_mod_cast below
    exact pcm16_below number (by omega)
  · rw [lt_div_iff₀ unit] at above
    rw [div_lt_iff₀ unit] at below
    have above : -32767 * 2 ^ 149 < v := by exact_mod_cast above
    have below : v < 32767 * 2 ^ 149 := by exact_mod_cast below
    have exact : (mul x pcmScale x).sval = v := by omega
    obtain ⟨least, most, even⟩ := pcmRound_spec (mul x pcmScale x)
    rw [pcm16_between number (by omega) (by omega), abs_sub_div_pow, div_le_iff₀ unit, div_eq_iff unit.ne', one_div,
      inv_mul_eq_div, le_div_iff₀ two_pos, eq_div_iff two_ne_zero]
    rw [exact] at least most even
    generalize pcmRound (mul x pcmScale x) = r at least most even
    have distance := abs_cases (r * 2 ^ 149 - v)
    refine ⟨?_, fun half => ?_⟩
    · have near : |r * 2 ^ 149 - v| * 2 ≤ 2 ^ 149 := by omega
      exact_mod_cast near
    · have half : |r * 2 ^ 149 - v| * 2 = 2 ^ 149 := by exact_mod_cast half
      exact even (by omega)

end Sys2Proof.Machine
end

section
/-! PROOFS. The blocks of a channel as they are coded (42_frame_unpack.md rules R168 to R173): each stage of the
FrameDecoder reads the block ahead, whatever its kind, and leaves the rest ahead. -/

namespace Sys2Proof.Machine

/-! Rows of fields. -/

theorem length_flatMap_bitsOf (w : Nat) (vs : List Nat) : (vs.flatMap (bitsOf w)).length = w * vs.length := by
  induction vs with
  | nil => rfl
  | cons v vs ih =>
    rw [List.flatMap_cons, List.length_append, length_bitsOf, ih, List.length_cons, Nat.mul_succ, Nat.add_comm]

/-- The fields of a row that is ahead. -/
theorem State.bitsAhead.row {s : State} {w : Nat} {vs : List Nat} {l : List Bool} {p : Nat}
    (h : s.bitsAhead p (vs.flatMap (bitsOf w) ++ l)) (fits : ∀ v ∈ vs, v < 2 ^ w) {i : Nat} (hi : i < vs.length) :
    s.peekAt (p + w * i) w = vs.getD i 0 := by
  induction vs generalizing p i with
  | nil => cases hi
  | cons v vs ih =>
    rw [List.flatMap_cons, List.append_assoc] at h
    cases i with
    | zero => exact h.peek_first (fits v (List.mem_cons_self ..))
    | succ i =>
      have rest := ih h.behind (fun u hu => fits u (List.mem_cons_of_mem _ hu)) (Nat.lt_of_succ_lt_succ hi)
      rw [List.getD_cons_succ, ← rest, Nat.mul_succ, Nat.add_comm (w * i), Nat.add_assoc]

theorem getD_lt {vs : List Nat} {b : Nat} (fits : ∀ v ∈ vs, v < b) {i : Nat} (hi : i < vs.length) :
    vs.getD i 0 < b := by
  rw [List.getD_eq_getElem _ _ hi]
  exact fits _ (List.getElem_mem hi)

/-- A row of 6-bit fields that is ahead, stored. -/
theorem State.entry_row {s : State} {vs : List Nat} {l : List Bool} {p : Nat}
    (h : s.bitsAhead p (vs.flatMap (bitsOf 6) ++ l)) (fits : ∀ v ∈ vs, v < 64) (file : Vector (BitVec 6) 128) {i : Nat}
    (hi : i < 128) : (entry (s.literals (Moves.plain.walk 6 p) vs.length file) i).toNat =
      vs.getD i (entry file i).toNat := by
  rw [State.literals, entry_tabulate, if_pos hi]
  split
  · next coded =>
    rw [Moves.walk_plain, State.field, h.row fits coded, BitVec.toNat_ofNat, Nat.mod_eq_of_lt (getD_lt fits coded),
      List.getD_eq_getElem _ _ coded, List.getD_eq_getElem _ _ coded]
  · next behind => rw [List.getD_eq_default _ _ (Nat.not_lt.1 behind)]; rfl

/-- The bits ahead of a state that a stage has unpacked into. -/
theorem State.bitsAhead_unpacked {s : State} {id : Byte} {c : Fin 16} {x : Channel} {q p : Nat} {l : List Bool} :
    (s.unpacked id c x q).bitsAhead p l ↔ s.bitsAhead p l :=
  State.bitsAhead_congr rfl rfl rfl rfl p l

theorem entry_eq_getElem {w n : Nat} (v : Vector (BitVec w) n) {i : Nat} (hi : i < n) : entry v i = v[i] := by
  simp [entry, Vector.getD, hi]

/-! Scale blocks (rules R168 to R171). -/

section
variable {s : State} {c : Fin 16} {l : List Bool}

/-- FR_SCALE over a block in any coding. -/
theorem frScale_code {k : ScaleCode} (fits : k.encodable (s.chan c).codedCount.toNat)
    (ahead : s.bitsAhead s.cur.pos (k.bits ++ l)) :
    ∃ file, frScale .plain c s =
        .done (s.unpacked 0x25 c { s.chan c with scale := file } (s.cur.pos + k.bits.length)) ∧
      ∀ i, i < 128 → (entry file i).toNat =
        if i < (s.chan c).codedCount.toNat then k.value i else (entry (s.chan c).scale i).toNat := by
  cases k with
  | zeros =>
    have kind : s.requestValue s.cur.pos 3 = 0 := (State.peekAt_eq ..).symm.trans (ahead.peek_first (by decide))
    refine ⟨_, frScale_zeros kind .plain c, fun i hi => ?_⟩
    rw [entry_eq_getElem _ hi, entry_eq_getElem _ hi, Vector.getElem_ofFn, apply_ite BitVec.toNat]
    rfl
  | literals db vs =>
    obtain ⟨hdb, len, range⟩ := fits
    rw [ScaleCode.bits, List.append_assoc] at ahead
    have kind : s.requestValue s.cur.pos 3 = db :=
      (State.peekAt_eq ..).symm.trans (ahead.peek_first (by omega))
    have read := frScale_literals (s := s) (by omega) .plain c
    simp only [Channel.coded, ← len, Moves.plain_nat] at read
    refine ⟨s.literals (Moves.plain.walk 6 (s.cur.pos + 3)) vs.length (s.chan c).scale, read.trans ?_, fun i hi => ?_⟩
    · rw [Moves.walk_plain, ScaleCode.bits, List.length_append, length_bitsOf, length_flatMap_bitsOf, Nat.add_assoc]
    · rw [State.entry_row ahead.behind range _ hi, ← len]
      split
      · next coded => rw [ScaleCode.value, List.getD_eq_getElem _ _ coded, List.getD_eq_getElem _ _ coded]
      · next behind => rw [List.getD_eq_default _ _ (Nat.not_lt.1 behind)]
  | deltas db first ys =>
    obtain ⟨db1, db5, hf, len, enc, inRange⟩ := fits
    have block := ahead.left
    obtain ⟨edb, -⟩ := scaleBlock_ahead (by omega) hf block
    rw [State.peekAt_eq] at edb
    obtain ⟨ok, stops, entries⟩ := scaleRun_stores (by omega) hf len enc block inRange
    have read := (frScale_deltas (s := s) (by omega) (by omega) .plain c).trans (if_pos ok)
    refine ⟨_, read.trans ?_, entries⟩
    rw [stops, ScaleCode.bits, List.length_append, List.length_append, length_bitsOf, length_bitsOf, Nat.add_assoc]

/-- FR_SCALE over a delta-coded block with a value outside 0..63. -/
theorem frScale_bad {db first : Nat} {ys : List DeltaSym} (bad : s.badFits c (.scale db first ys))
    (ahead : s.bitsAhead s.cur.pos ((BadBlock.scale db first ys).bits ++ l)) :
    ∃ t, frScale .plain c s = .raised .invalidScaleFactor t := by
  obtain ⟨db1, db5, hf, len, enc, outside⟩ := bad
  obtain ⟨edb, ef, behind⟩ := scaleBlock_ahead (by omega) hf ahead.left
  have kind := edb
  rw [State.peekAt_eq] at kind
  have fails : (scaleRun .plain c s).ok ≠ true := by
    rw [scaleRun_ahead edb ef len]
    exact deltaRun_fails _ enc behind outside
  exact ⟨_, (frScale_deltas (by omega) (by omega) .plain c).trans (if_neg fails)⟩

/-! Intensity and high-band blocks (rules R172, R173). -/

/-- The channel after a block holds what it codes, over the channel before. -/
def SideCode.Held (k : SideCode) (before after : Channel) : Prop :=
  (∀ i, i < 8 → (entry after.intensity i).toNat = k.intensity (entry before.intensity i).toNat i) ∧
  ∀ g, g < 128 → (entry after.hfrScale g).toNat = k.highBand (entry before.hfrScale g).toNat g

/-- Eight intensities whose first is in the flag and whose others are a row behind it. -/
theorem entry_intensityRow {p q : Nat} {vs : List Nat} (len : vs.length = 8) (fits : ∀ v ∈ vs, v < 16)
    (first : s.peekAt p 4 = vs.getD 0 0) (ahead : s.bitsAhead q (vs.tail.flatMap (bitsOf 4) ++ l)) {i : Nat}
    (hi : i < 8) :
    (entry (intensityLiterals s.peekAt (Moves.plain.walk 4 q) (s.peekAt p 4)) i).toNat = vs.getD i 0 := by
  have value : (if i = 0 then s.peekAt p 4 else s.peekAt (Moves.plain.walk 4 q (i - 1)) 4) = vs.getD i 0 := by
    obtain ⟨v, vs, rfl⟩ := List.exists_cons_of_length_pos (by omega : 0 < vs.length)
    cases i with
    | zero => exact first
    | succ i =>
      rw [if_neg (Nat.succ_ne_zero i), Moves.walk_plain, List.getD_cons_succ]
      have len : vs.length + 1 = 8 := len
      have row : s.peekAt (q + 4 * i) 4 = vs.getD i 0 :=
        ahead.row (fun u hu => fits u (List.mem_cons_of_mem _ hu)) (by rw [List.tail_cons]; omega)
      exact row
  rw [entry_intensityLiterals _ _ _ hi, value, BitVec.toNat_ofNat, Nat.mod_eq_of_lt (getD_lt fits (by omega))]

/-- FR_INTENSITY reads the block ahead and is done, the channel holding what it codes. -/
def SideCode.Read (k : SideCode) (c : Fin 16) (s : State) : Prop :=
  ∃ x, frIntensity .plain c s = .done (s.unpacked 0x26 c x (s.cur.pos + (k.bits s.oldVersion).length)) ∧
    x = { s.chan c with intensity := x.intensity, hfrScale := x.hfrScale } ∧ k.Held (s.chan c) x

/-- A block of intensities keeps the high-band scales. -/
theorem SideCode.read_of_intensity {k : SideCode} {file : Vector (BitVec 4) 8} {p : Nat}
    (read : frIntensity .plain c s = .done (s.unpacked 0x26 c { s.chan c with intensity := file } p))
    (stops : p = s.cur.pos + (k.bits s.oldVersion).length) (keeps : ∀ b g, k.highBand b g = b)
    (entries : ∀ i, i < 8 → (entry file i).toNat = k.intensity (entry (s.chan c).intensity i).toNat i) :
    k.Read c s :=
  ⟨{ s.chan c with intensity := file }, stops ▸ read, rfl, entries, fun _ _ => (keeps _ _).symm⟩

theorem highBands_read {ss : List Nat} (primary : (s.chan c).type ≠ .secondary)
    (len : ss.length = s.ctx.hfrGroupCount.toNat) (range : ∀ v ∈ ss, v < 64)
    (ahead : s.bitsAhead s.cur.pos (ss.flatMap (bitsOf 6) ++ l)) : SideCode.Read (.highBands ss) c s := by
  have read := frIntensity_highBands primary .plain
  simp only [← len] at read
  refine ⟨{ s.chan c with hfrScale := s.literals (Moves.plain.walk 6 s.cur.pos) ss.length (s.chan c).hfrScale },
    read.trans ?_, rfl, fun i _ => rfl, fun g hg => ?_⟩
  · rw [Moves.walk_plain, SideCode.bits, length_flatMap_bitsOf]
  · exact State.entry_row ahead range (s.chan c).hfrScale hg

section
variable (secondary : (s.chan c).type = .secondary)
include secondary

/-- An old flag of 15 stays ahead. -/
theorem kept_read (old : s.ctx.version.toNat ≤ 0x0200) (four : l.take 4 = bitsOf 4 15)
    (ahead : s.bitsAhead s.cur.pos l) : SideCode.Read .kept c s := by
  have flag : s.requestValue s.cur.pos 4 = 15 := by
    rw [← List.take_append_drop 4 l, four] at ahead
    exact (State.peekAt_eq ..).symm.trans (ahead.peek_first (by decide))
  refine SideCode.read_of_intensity (frIntensity_kept secondary old flag .plain) rfl (fun _ _ => rfl) fun i hi => ?_
  rw [← wr_eq_set _ _ (by decide), entry_wr, SideCode.intensity]
  cases i with
  | zero => rfl
  | succ i => rfl

theorem sevens_read (new : 0x0200 < s.ctx.version.toNat) (ahead : s.bitsAhead s.cur.pos (bitsOf 4 15 ++ l)) :
    SideCode.Read .sevens c s := by
  have flag : s.requestValue s.cur.pos 4 = 15 := (State.peekAt_eq ..).symm.trans (ahead.peek_first (by decide))
  refine SideCode.read_of_intensity (frIntensity_sevens secondary new flag .plain) rfl (fun _ _ => rfl) fun i hi => ?_
  rw [entry_replicate, if_pos hi]
  rfl

theorem literals_read {vs : List Nat} (len : vs.length = 8) (below : vs.getD 0 0 < 15) (range : ∀ v ∈ vs, v < 16)
    (ahead : s.bitsAhead s.cur.pos ((SideCode.literals vs).bits s.oldVersion ++ l)) :
    SideCode.Read (.literals vs) c s := by
  have rest : vs.tail.length = 7 := by rw [List.length_tail, len]
  rw [SideCode.bits, List.append_assoc, List.append_assoc] at ahead
  have first : s.peekAt s.cur.pos 4 = vs.getD 0 0 := ahead.peek_first (by omega)
  have flag : s.requestValue s.cur.pos 4 < 15 := by rwa [← State.peekAt_eq, first]
  by_cases old : s.ctx.version.toNat ≤ 0x0200
  · have version : s.oldVersion = true := by simpa [State.oldVersion] using old
    rw [version, if_pos rfl, List.nil_append] at ahead
    refine SideCode.read_of_intensity (frIntensity_oldLiterals secondary old flag .plain) ?_ (fun _ _ => rfl)
      fun i hi => entry_intensityRow len range first ahead.behind hi
    rw [Moves.walk_plain, Moves.plain_nat, version, SideCode.bits, if_pos rfl, List.append_nil, List.length_append,
      length_bitsOf, length_flatMap_bitsOf, rest, Nat.add_assoc]
  · have version : s.oldVersion = false := by simpa [State.oldVersion] using old
    rw [version, if_neg Bool.false_ne_true] at ahead
    have field : s.requestValue (s.cur.pos + 4) 2 = 3 :=
      (State.peekAt_eq ..).symm.trans (ahead.behind.peek_first (by decide))
    refine SideCode.read_of_intensity (frIntensity_newLiterals secondary (Nat.not_le.1 old) flag .plain field) ?_
      (fun _ _ => rfl) fun i hi => entry_intensityRow len range first ahead.behind.behind hi
    rw [Moves.walk_plain, Moves.plain_nat, Moves.plain_nat, version, SideCode.bits, if_neg Bool.false_ne_true,
      List.length_append, List.length_append, length_bitsOf, length_bitsOf, length_flatMap_bitsOf, rest]

theorem deltas_read {db first : Nat} {ys : List DeltaSym} (new : 0x0200 < s.ctx.version.toNat) (hdb : db < 3)
    (hf : first < 15) (len : ys.length = 7) (enc : ∀ y ∈ ys, y.encodable (db + 1) 4)
    (inRange : ∀ v ∈ deltaValues (db + 1) first ys, 0 ≤ v ∧ v ≤ 15)
    (ahead : s.bitsAhead s.cur.pos ((SideCode.deltas db first ys).bits s.oldVersion ++ l)) :
    SideCode.Read (.deltas db first ys) c s := by
  obtain ⟨ef, edb, behind⟩ := intensityBlock_ahead (by omega) (by omega) ahead.left
  have run := intensityRun_ahead (c := c) ef edb len
  rw [State.peekAt_eq] at ef edb
  have read := frIntensity_deltas secondary new (by omega) .plain (by rw [Moves.plain_nat]; omega)
  obtain ⟨ok, stops, entries⟩ := deltaRun_stores (s.chan c).intensity (by omega : first < 2 ^ 4) enc behind
    fun v hv => (inRange v hv).imp_right (by omega)
  rw [← run] at ok stops entries
  refine SideCode.read_of_intensity (read.trans (if_pos ok)) ?_ (fun _ _ => rfl) fun i hi =>
    (entries i hi).trans (if_pos (by omega))
  rw [stops, SideCode.bits, List.length_append, List.length_append, length_bitsOf, length_bitsOf]
  omega

end

/-- FR_INTENSITY over a block in any coding. -/
theorem frIntensity_code {k : SideCode}
    (fits : k.encodable ((s.chan c).type == .secondary) s.oldVersion s.ctx.hfrGroupCount.toNat l)
    (ahead : s.bitsAhead s.cur.pos (k.bits s.oldVersion ++ l)) : k.Read c s := by
  have old_iff : s.oldVersion = true ↔ s.ctx.version.toNat ≤ 0x0200 := by rw [State.oldVersion, decide_eq_true_eq]
  have new_iff : s.oldVersion = false ↔ 0x0200 < s.ctx.version.toNat := by
    rw [State.oldVersion, decide_eq_false_iff_not, Nat.not_le]
  cases k with
  | highBands ss =>
    obtain ⟨primary, len, range⟩ := fits
    exact highBands_read (beq_eq_false_iff_ne.1 primary) len range ahead
  | kept =>
    obtain ⟨secondary, old, four⟩ := fits
    exact kept_read (beq_iff_eq.1 secondary) (old_iff.1 old) four ahead
  | sevens =>
    obtain ⟨secondary, new⟩ := fits
    exact sevens_read (beq_iff_eq.1 secondary) (new_iff.1 new) ahead
  | literals vs =>
    obtain ⟨secondary, len, below, range⟩ := fits
    exact literals_read (beq_iff_eq.1 secondary) len below range ahead
  | deltas db first ys =>
    obtain ⟨secondary, new, hdb, hf, len, enc, inRange⟩ := fits
    exact deltas_read (beq_iff_eq.1 secondary) (new_iff.1 new) hdb hf len enc inRange ahead

/-- FR_INTENSITY over a delta-coded block with a value outside 0..15. -/
theorem frIntensity_bad {db first : Nat} {ys : List DeltaSym} (secondary : (s.chan c).type = .secondary)
    (new : s.oldVersion = false) (hdb : db < 3) (hf : first < 15) (len : ys.length = 7)
    (enc : ∀ y ∈ ys, y.encodable (db + 1) 4) (outside : ∃ v ∈ deltaValues (db + 1) first ys, v < 0 ∨ 15 < v)
    (ahead : s.bitsAhead s.cur.pos ((SideCode.deltas db first ys).bits false ++ l)) :
    ∃ t, frIntensity .plain c s = .raised .invalidIntensity t := by
  have new : 0x0200 < s.ctx.version.toNat := by simpa [State.oldVersion] using new
  obtain ⟨ef, edb, behind⟩ := intensityBlock_ahead (by omega) (by omega) ahead.left
  have fails : (intensityRun .plain c s).ok ≠ true := by
    rw [intensityRun_ahead ef edb len]
    exact deltaRun_fails _ enc behind (outside.imp fun v hv => ⟨hv.1, by omega⟩)
  rw [State.peekAt_eq] at ef edb
  exact ⟨_, (frIntensity_deltas secondary new (by omega) .plain (by rw [Moves.plain_nat]; omega)).trans (if_neg fails)⟩

end

end Sys2Proof.Machine
end

section
/-! PROOFS. A frame written from its fields (45_controller_and_host.md rules R241, R249): channel after channel is
unpacked to what is coded, and the first block that is malformed is the frame's error (60_exceptions.md rules R271, R274). -/

namespace Sys2Proof.Machine

/-! One channel. -/

/-- The channel after its unpacking stages holds what is coded for it, over the channel before. -/
def ChannelCode.Held (k : ChannelCode) (before after : Channel) : Prop :=
  (∀ i, i < 128 → (entry after.scale i).toNat =
    if i < before.codedCount.toNat then k.scale.value i else (entry before.scale i).toNat) ∧
  k.side.Held before after

/-- A later stage of the same channel changes it anew. -/
theorem State.unpacked_unpacked (s : State) (id id' : Byte) (c : Fin 16) (x x' : Channel) (p p' : Nat) :
    (s.unpacked id c x p).unpacked id' c x' p' = s.unpacked id' c x' p' := by
  simp [State.unpacked]

theorem State.unpacked_pos (s : State) (id : Byte) (c : Fin 16) (x : Channel) (p : Nat) :
    (s.unpacked id c x p).cur.pos = p := rfl

theorem State.chan_unpacked_same (s : State) (id : Byte) (c : Fin 16) (x : Channel) (p : Nat) :
    (s.unpacked id c x p).chan c = x := (s.chan_unpacked id c x p c).trans (if_pos rfl)

/-- The files a frame codes are the same in two channels. -/
def SameCoded (x y : Channel) : Prop := y.scale = x.scale ∧ y.hfrScale = x.hfrScale ∧ y.intensity = x.intensity

theorem frResolution_same (c : Fin 16) (s : State) : ∃ y,
    frResolution Config.hw c s = .done (s.unpacked 0x27 c y s.cur.pos) ∧ SameCoded (s.chan c) y :=
  ⟨_, frResolution_eq Config.hw c s, rfl, rfl, rfl⟩

theorem frGain_same (c : Fin 16) (s : State) : ∃ y,
    frGain Config.hw c s = .done ((s.unpacked 0x28 c y s.cur.pos).drew 128) ∧ SameCoded (s.chan c) y :=
  ⟨_, frGain_eq Config.hw c s, rfl, rfl, rfl⟩

section
variable {s : State} {c : Fin 16} {l : List Bool}

/-- The unpacking stages of a channel over its blocks. -/
theorem unpackChannel_code {k : ChannelCode} (scale : k.scale.encodable (s.chan c).codedCount.toNat)
    (side : k.side.encodable ((s.chan c).type == .secondary) s.oldVersion s.ctx.hfrGroupCount.toNat l)
    (ahead : s.bitsAhead s.cur.pos (k.scale.bits ++ (k.side.bits s.oldVersion ++ l))) :
    ∃ x, runStages Config.hw (unpackChannel c) s = .done ((s.unpacked 0x28 c x
        (s.cur.pos + (k.scale.bits ++ k.side.bits s.oldVersion).length)).drew 128) ∧ k.Held (s.chan c) x := by
  obtain ⟨file, e1, entries⟩ := frScale_code scale ahead
  obtain ⟨x, e2, hx, held⟩ := frIntensity_code (c := c)
    (s := s.unpacked 0x25 c { s.chan c with scale := file } (s.cur.pos + k.scale.bits.length)) (k := k.side) (l := l)
    (by rw [State.chan_unpacked_same]; exact side) (State.bitsAhead_unpacked.2 ahead.right)
  rw [State.chan_unpacked_same] at hx held
  rw [State.unpacked_unpacked] at e2
  change _ = Res.done (s.unpacked 0x26 c x
    (s.cur.pos + k.scale.bits.length + (k.side.bits s.oldVersion).length)) at e2
  obtain ⟨y, e3, same⟩ := frResolution_same c (s.unpacked 0x26 c x
    (s.cur.pos + k.scale.bits.length + (k.side.bits s.oldVersion).length))
  obtain ⟨z, e4, same'⟩ := frGain_same c (s.unpacked 0x27 c y
    (s.cur.pos + k.scale.bits.length + (k.side.bits s.oldVersion).length))
  rw [State.unpacked_unpacked, State.unpacked_pos] at e3 e4
  rw [State.chan_unpacked_same] at same same'
  obtain ⟨scale, high, intensity⟩ := same
  obtain ⟨scale', high', intensity'⟩ := same'
  refine ⟨z, ?_, ?_, ?_, ?_⟩
  · rw [unpackChannel, runStages_cons_done (i := .frScale c) e1, runStages_cons_done (i := .frIntensity c) e2,
      runStages_cons_done (i := .frResolution c) e3, runStages_cons_done (i := .frGain c) e4, runStages,
      List.length_append, Nat.add_assoc]
  · rw [scale', scale, hx]
    exact entries
  · rw [intensity', intensity]
    exact held.1
  · rw [high', high]
    exact held.2

end

/-! The channels in their order. -/

theorem runStages_cons_raised {i : Instr} {l : List Instr} {s t : State} {e : Status}
    (h : stageMeaning Config.hw i s = .raised e t) : runStages Config.hw (i :: l) s = .raised e t := by
  rw [runStages, h, Res.andThen]

/-- Behind the codes `done` of the first channels: the bits `l` are ahead, those channels hold what is coded, the others
are as before the frame. -/
structure Unpacked (s : State) (packed : Int) (done : List ChannelCode) (l : List Bool) (t : State) : Prop where
  ctx : t.ctx = s.ctx
  noise : t.packedNoiseLevel = packed
  ahead : t.bitsAhead t.cur.pos l
  held : ∀ (d : Fin 16) (k : ChannelCode), done[d.val]? = some k → k.Held (s.chan d) (t.chan d)
  later : ∀ d : Fin 16, done.length ≤ d.val → t.chan d = s.chan d

section
variable {s t : State} {packed : Int} {done : List ChannelCode} {behind : List Bool}

/-- The next channel, over its codes. -/
theorem Unpacked.next {k : ChannelCode} {c : Fin 16}
    (h : Unpacked s packed done ((k.scale.bits ++ k.side.bits s.oldVersion) ++ behind) t) (hc : c.val = done.length)
    (scale : k.scale.encodable (s.chan c).codedCount.toNat)
    (side : k.side.encodable ((s.chan c).type == .secondary) s.oldVersion s.ctx.hfrGroupCount.toNat behind) :
    ∃ u, runStages Config.hw (unpackChannel c) t = .done u ∧ Unpacked s packed (done ++ [k]) behind u := by
  have chan : t.chan c = s.chan c := h.later c hc.ge
  have old : t.oldVersion = s.oldVersion := by rw [State.oldVersion, h.ctx]; rfl
  have ahead := h.ahead
  rw [← chan] at scale side
  rw [← old] at side ahead
  rw [← h.ctx] at side
  obtain ⟨x, run, held⟩ := unpackChannel_code scale side (by rwa [List.append_assoc] at ahead)
  have after (p : Nat) (d : Fin 16) : ((t.unpacked 0x28 c x p).drew 128).chan d = if d = c then x else t.chan d :=
    t.chan_unpacked 0x28 c x p d
  refine ⟨_, run, h.ctx, h.noise, ?_, fun d k' hd => ?_, fun d hd => ?_⟩
  · exact (State.bitsAhead_congr rfl rfl rfl rfl _ _).2 ahead.right
  · rw [after]
    obtain before | this | behind := Nat.lt_trichotomy d.val done.length
    · rw [List.getElem?_append_left before] at hd
      rw [if_neg (by rintro rfl; omega)]
      exact h.held d k' hd
    · obtain rfl : d = c := Fin.ext (by omega)
      rw [this, List.getElem?_concat_length] at hd
      obtain rfl := Option.some.inj hd
      rwa [if_pos rfl, ← chan]
    · rw [List.getElem?_eq_none (by simp; omega)] at hd
      cases hd
  · rw [List.length_append, List.length_singleton] at hd
    rw [after, if_neg (by rintro rfl; omega)]
    exact h.later d (by omega)

/-- The channels of a list of codes. -/
theorem Unpacked.run {codes : List ChannelCode} : ∀ {done : List ChannelCode} {t : State} {cs : List (Fin 16)},
    Unpacked s packed done (s.codeBits codes ++ behind) t → s.codesFit done.length codes behind →
    cs.map Fin.val = List.range' done.length codes.length →
    ∃ u, runStages Config.hw (cs.flatMap unpackChannel) t = .done u ∧ Unpacked s packed (done ++ codes) behind u := by
  induction codes with
  | nil =>
    intro done t cs h _ order
    obtain rfl : cs = [] := List.map_eq_nil_iff.1 order
    exact ⟨t, rfl, by rwa [List.append_nil]⟩
  | cons k codes ih =>
    intro done t cs h fits order
    rw [List.length_cons, List.range'_succ] at order
    obtain ⟨c, cs, rfl, hc, order⟩ := List.map_eq_cons_iff.1 order
    obtain ⟨here, fits⟩ := fits
    obtain ⟨scale, side⟩ := here c hc
    have bits : s.codeBits (k :: codes) ++ behind =
        (k.scale.bits ++ k.side.bits s.oldVersion) ++ (s.codeBits codes ++ behind) := by
      rw [State.codeBits, List.flatMap_cons, List.append_assoc]
      rfl
    rw [bits] at h
    obtain ⟨u, run, h⟩ := h.next hc scale side
    obtain ⟨v, run', h⟩ := ih h (by rwa [List.length_append]) (by rwa [List.length_append])
    refine ⟨v, ?_, by rwa [List.append_assoc] at h⟩
    rw [List.flatMap_cons, runStages_append, run]
    exact run'

/-- The first malformed block raises its error. -/
theorem Unpacked.bad {bad : BadBlock} {c : Fin 16} (h : Unpacked s packed done (bad.bits ++ behind) t)
    (hc : c.val = done.length) (fits : s.badFits c bad) :
    ∃ u, runStages Config.hw (unpackChannel c) t = .raised bad.error u := by
  have chan : t.chan c = s.chan c := h.later c hc.ge
  have old : t.oldVersion = s.oldVersion := by rw [State.oldVersion, h.ctx]; rfl
  have ahead := h.ahead
  cases bad with
  | scale db first ys =>
    obtain ⟨u, e⟩ := frScale_bad (s := t) (c := c) (by rw [State.badFits, chan]; exact fits) ahead
    exact ⟨u, runStages_cons_raised (i := .frScale c) e⟩
  | intensity k db first ys =>
    obtain ⟨scale, secondary, new, hdb, hf, len, enc, outside⟩ := fits
    rw [BadBlock.bits, List.append_assoc] at ahead
    obtain ⟨file, e1, -⟩ := frScale_code (c := c) (by rwa [chan]) ahead
    obtain ⟨u, e2⟩ := frIntensity_bad (c := c) (l := behind)
      (s := t.unpacked 0x25 c { t.chan c with scale := file } (t.cur.pos + k.bits.length))
      (by rw [State.chan_unpacked_same, chan]; exact secondary) (old.trans new) hdb hf len enc outside
      (State.bitsAhead_unpacked.2 ahead.right)
    rw [unpackChannel, runStages_cons_done (i := .frScale c) e1]
    exact ⟨u, runStages_cons_raised (i := .frIntensity c) e2⟩

end

end Sys2Proof.Machine
end

section
/-! PROOFS. Frames that are written from their fields, whole or up to a malformed block (45_controller_and_host.md rules
R241, R243; 60_exceptions.md rule R274). -/

namespace Sys2Proof.Machine

/-! The channels of the sequence. -/

theorem finRange_below : ∀ n ≤ 16,
    ((List.finRange 16).filter fun c => c.val < n).map Fin.val = List.range' 0 n := by decide

/-- The live channels in their order. -/
theorem State.liveChannels_order {s : State} (h : s.ctx.channelCount.toNat ≤ 16) :
    s.liveChannels.map Fin.val = List.range' 0 s.ctx.channelCount.toNat := finRange_below _ h

/-- The live channels before channel `c`, itself, and those behind it. -/
theorem State.liveChannels_split {s : State} (h : s.ctx.channelCount.toNat ≤ 16) {c : Fin 16}
    (hc : c.val < s.ctx.channelCount.toNat) :
    ∃ before behind, s.liveChannels = before ++ c :: behind ∧ before.map Fin.val = List.range' 0 c.val := by
  have order := s.liveChannels_order h
  have len : s.liveChannels.length = s.ctx.channelCount.toNat := by
    rw [← List.length_map (f := Fin.val), order, List.length_range']
  have hc : c.val < s.liveChannels.length := by omega
  have here : s.liveChannels[c.val] = c := by
    have value := List.getElem_of_eq order (i := c.val) (by rwa [List.length_map])
    rw [List.getElem_map, List.getElem_range'] at value
    exact Fin.ext (by omega)
  refine ⟨s.liveChannels.take c.val, s.liveChannels.drop (c.val + 1), ?_, ?_⟩
  · conv_lhs => rw [← List.take_append_drop c.val s.liveChannels, List.drop_eq_getElem_cons hc, here]
  · rw [List.map_take, order, ← List.range_eq_range', List.take_range, ← List.range_eq_range']
    congr 1
    omega

/-! Behind the frame checks. -/

/-- The clear bits of a frame are ahead of the cursor behind the sync word. -/
theorem clearBits_ahead {s t : State} {bits : List Bool} (size : 16 + bits.length ≤ 8 * s.ctx.frameSize.toNat)
    (clear : ∀ i, i < bits.length → s.clearBit (16 + i) = bits.getD i false)
    (frm : t.frm = s.frm.substitute s.cipherTable s.ctx.frameSize.toNat) {p : Nat} (cur : t.cur = frameCursor s p) :
    t.bitsAhead 16 bits := by
  have active : t.active = t.frm := by rw [State.active, cur]; rfl
  refine ⟨by rw [cur]; exact size, fun i hi => ?_⟩
  rw [active, frm, Buffer.streamBit, Buffer.byte_substitute, if_pos (by omega)]
  exact clear i hi

theorem checkedFrame_unpacked {s : State} {n : BitVec 32} {noise boundary : Nat} {rest : List Bool} (hn : noise < 512)
    (hb : boundary < 128)
    (size : 16 + (bitsOf 9 noise ++ bitsOf 7 boundary ++ rest).length ≤ 8 * s.ctx.frameSize.toNat)
    (clear : ∀ i, i < (bitsOf 9 noise ++ bitsOf 7 boundary ++ rest).length →
      s.clearBit (16 + i) = (bitsOf 9 noise ++ bitsOf 7 boundary ++ rest).getD i false) :
    Unpacked s ((noise : Int) <<< (8 : Nat) - boundary) [] rest (checkedFrame { s with frmLen := n }) := by
  refine ⟨rfl, ?_, ?_, nofun, fun d _ => rfl⟩
  · let u : State := { s with frmLen := n, stage := 0x24, frm := s.frm.substitute s.cipherTable s.ctx.frameSize.toNat
                              cur := frameCursor s 16 }
    have ahead : u.bitsAhead 16 _ := clearBits_ahead size clear rfl (p := 16) rfl
    rw [List.append_assoc] at ahead
    have packed : (checkedFrame { s with frmLen := n }).packedNoiseLevel =
      (u.peekAt 16 9 * 256 : Int) - u.peekAt 25 7 := rfl
    rw [packed, ahead.peek_first hn, ahead.behind.peek_first hb, Int.shiftLeft_eq]
    rfl
  · have ahead := clearBits_ahead (t := checkedFrame { s with frmLen := n }) size clear rfl (p := 32) rfl
    rw [List.append_assoc] at ahead
    exact ahead.behind.behind

/-! Settling the frames. -/

/-- Settles O58: every channel is unpacked to its codes, and the subframes keep what is unpacked. -/
theorem builtFrameDecodes : Obligations.BuiltFrameDecodes := by
  intro n s noise boundary codes behind inv isOpen fits inside b0 b1 hn hb len codesFit bits size clear
  have legal := inv.ctx isOpen
  have start := checkedFrame_unpacked (n := n) hn hb size clear
  have order := s.liveChannels_order legal.channelCount.2
  rw [← len] at order
  obtain ⟨w, run, unpacked⟩ := start.run codesFit order
  obtain ⟨short, -⟩ | ⟨-, noSync, -⟩ | ⟨-, -, sum, e⟩ | ⟨-, -, sum, ends⟩ := decodeFrame_cases n s isOpen inv inside
  · exact absurd short (Nat.not_lt.2 fits)
  · exact absurd ⟨b0, b1⟩ noSync
  · exact ⟨_, Res.outcome_raised e, fun _ => rfl, fun zero => absurd zero sum⟩
  obtain ⟨x, u, -, raised, -⟩ | ⟨u, v, done, unpacks, sounds, e⟩ := ends
  · cases run.symm.trans raised
  obtain rfl : w = u := by
    injection run.symm.trans done
  obtain ⟨-, files, -⟩ := sounds
  refine ⟨v.decodedFrame, Res.outcome_done e, fun bad => absurd sum bad, fun _ => ⟨rfl, rfl, ?_, fun a => ?_,
    fun c k code => ?_⟩⟩
  · exact files.noise.trans unpacked.noise
  · show v.frm.byte a = _
    rw [files.frm, unpacks.frm]
    exact Buffer.byte_substitute s.frm s.cipherTable _ a
  · obtain ⟨scale, intensity, high⟩ := unpacked.held c k code
    refine ⟨fun i hi => ?_, fun i hi => ?_, fun g hg => ?_⟩
    · exact (congrArg (fun file => (entry file i).toNat) (files.scale c)).trans (scale i hi)
    · exact (congrArg (fun file => (entry file i).toNat) (files.intensity c)).trans (intensity i hi)
    · exact (congrArg (fun file => (entry file g).toNat) (files.hfrScale c)).trans (high g hg)

/-- A block that is malformed behind the valid codes of the first channels is the error of the unpacking. -/
theorem unpack_bad {s t : State} {packed : Int} {codes : List ChannelCode} {bad : BadBlock} {behind : List Bool}
    {c : Fin 16} (start : Unpacked s packed [] (s.codeBits codes ++ (bad.bits ++ behind)) t)
    (channels : s.ctx.channelCount.toNat ≤ 16) (hc : c.val = codes.length) (live : c.val < s.ctx.channelCount.toNat)
    (codesFit : s.codesFit 0 codes (bad.bits ++ behind)) (badFits : s.badFits c bad) :
    ∃ u, runStages Config.hw (s.liveChannels.flatMap unpackChannel) t = .raised bad.error u := by
  obtain ⟨first, others, split, order⟩ := State.liveChannels_split channels live
  rw [hc] at order
  obtain ⟨w, run, unpacked⟩ := start.run codesFit order
  obtain ⟨u, raised⟩ := unpacked.bad hc badFits
  refine ⟨u, ?_⟩
  rw [split, List.flatMap_append, List.flatMap_cons, runStages_append, run, Res.andThen, runStages_append, raised,
    Res.andThen]

/-- Settles O55: the checks in their order, then the first malformed block. -/
theorem frameResultOrder : Obligations.FrameResultOrder := by
  refine fun n s => ⟨fun closed => ?_, fun isOpen long => ?_, fun isOpen inv inside => ?_⟩
  · exact congrArg (Res.outcome Config.hw) (if_pos (by simp [State.streamOpen, closed]))
  · exact congrArg (Res.outcome Config.hw) ((if_neg (by simp [State.streamOpen, isOpen])).trans (if_pos long))
  have channels := (inv.ctx isOpen).channelCount.2
  have malformed {codes bad noise boundary behind} {c : Fin 16} (hc : c.val = codes.length)
      (live : c.val < s.ctx.channelCount.toNat) (hn : noise < 512) (hb : boundary < 128)
      (codesFit : s.codesFit 0 codes (BadBlock.bits bad ++ behind)) (badFits : s.badFits c bad) (size clear) :=
    unpack_bad (checkedFrame_unpacked (n := n) hn hb size clear) channels hc live codesFit badFits
  obtain ⟨short, e⟩ | ⟨fits, noSync, e⟩ | ⟨fits, sync, sum, e⟩ | ⟨fits, sync, sum, ends⟩ :=
    decodeFrame_cases n s isOpen inv inside
  · exact ⟨_, Res.outcome_raised e, fun _ => rfl, fun fits => absurd short (Nat.not_lt.2 fits)⟩
  · refine ⟨_, Res.outcome_raised e, fun short => absurd short (Nat.not_lt.2 fits), fun _ =>
      ⟨fun _ => rfl, fun sync => absurd sync noSync, fun sync => absurd sync noSync, ?_⟩⟩
    intros
    contradiction
  · refine ⟨_, Res.outcome_raised e, fun short => absurd short (Nat.not_lt.2 fits), fun _ =>
      ⟨fun noSync => absurd sync noSync, fun _ _ => rfl, fun _ zero => absurd zero sum, ?_⟩⟩
    intros
    contradiction
  obtain ⟨x, u, error, run, -, e⟩ | ⟨u, v, run, -, -, e⟩ := ends
  · have reported : x ∈ [.ok, .invalidScaleFactor, .invalidIntensity] := by simpa using Or.inr error
    have other : x ≠ .headerInvalid := by
      rintro rfl
      simp at error
    refine ⟨_, Res.outcome_raised e other, fun short => absurd short (Nat.not_lt.2 fits), fun _ =>
      ⟨fun noSync => absurd sync noSync, fun _ bad => absurd sum bad, fun _ _ => reported, ?_⟩⟩
    intro codes bad noise boundary behind c hc live hn hb codesFit badFits bits size clear _ _
    obtain ⟨w, raised⟩ := malformed hc live hn hb codesFit badFits size clear
    injection run.symm.trans raised
  · refine ⟨_, Res.outcome_done e, fun short => absurd short (Nat.not_lt.2 fits), fun _ =>
      ⟨fun noSync => absurd sync noSync, fun _ bad => absurd sum bad, fun _ _ => List.mem_cons_self .., ?_⟩⟩
    intro codes bad noise boundary behind c hc live hn hb codesFit badFits bits size clear _ _
    obtain ⟨w, raised⟩ := malformed hc live hn hb codesFit badFits size clear
    cases run.symm.trans raised

end Sys2Proof.Machine
end

section
/-! PROOFS. A failed frame leaves the sound alone (60_exceptions.md rule R277): a check that fails leaves all but the
length latch and the cursor, and the unpacking stages write no sound and the intensities of secondary channels only. -/

namespace Sys2Proof.Machine

/-! Intensities. -/

/-- The channels' types stay, and the intensities of those that are not secondary. -/
def KeepsIntensity (s t : State) : Prop := ∀ c, (t.chan c).type = (s.chan c).type ∧
  ((s.chan c).type ≠ .secondary → (t.chan c).intensity = (s.chan c).intensity)

theorem KeepsIntensity.refl (s : State) : KeepsIntensity s s := fun _ => ⟨rfl, fun _ => rfl⟩

theorem KeepsIntensity.trans {a b c : State} (h : KeepsIntensity a b) (k : KeepsIntensity b c) : KeepsIntensity a c := by
  intro d
  obtain ⟨type, intensity⟩ := h d
  obtain ⟨type', intensity'⟩ := k d
  exact ⟨type'.trans type, fun plain => (intensity' (by rwa [type])).trans (intensity plain)⟩

/-- Channel `c` changed, its intensities only where it is secondary. -/
theorem KeepsIntensity.unpacked {s : State} {c : Fin 16} {x : Channel} (type : x.type = (s.chan c).type)
    (plain : (s.chan c).type ≠ .secondary → x.intensity = (s.chan c).intensity) (id : Byte) (p : Nat) :
    KeepsIntensity s (s.unpacked id c x p) := by
  intro d
  rw [State.chan_unpacked]
  split
  · next here => exact here ▸ ⟨type, plain⟩
  · exact ⟨rfl, fun _ => rfl⟩

theorem frIntensity_keepsIntensity (mv : Moves) (c : Fin 16) (s : State) :
    (frIntensity mv c s).All (KeepsIntensity s) := by
  obtain ⟨x, p, file, run⟩ := frIntensity_cases mv c s
  have keeps : KeepsIntensity s (s.unpacked 0x26 c x p) := by
    obtain ⟨secondary, hx⟩ | ⟨-, hx⟩ := file
    · exact .unpacked (by rw [hx]) (absurd secondary) _ _
    · exact .unpacked (by rw [hx]) (fun _ => by rw [hx]) _ _
  obtain run | ⟨-, run⟩ := run
  · rw [run]
    exact keeps
  · rw [run]
    exact keeps

/-- A stage other than FR_INTENSITY writes no intensities. -/
theorem Writes.keepsIntensity {i : Instr} {s t : State} (w : Writes i s t) (other : ∀ c, i ≠ .frIntensity c) :
    KeepsIntensity s t := fun c => ⟨(w.chan c).1, fun _ => w.inten other c⟩

theorem unpackChannel_keepsIntensity {c : Fin 16} {i : Instr} (hi : i ∈ unpackChannel c) (s : State) :
    (stageMeaning Config.hw i s).All (KeepsIntensity s) := by
  have others {j : Instr} (stage : (encode j).1 = .stage) (noValidate : j ≠ .hdValidate) (noDerive : j ≠ .hdDerive)
      (noType : j ≠ .hdChantype) (other : ∀ c, j ≠ .frIntensity c) :
      (stageMeaning Config.hw j s).All (KeepsIntensity s) :=
    (stage_writes .plain j s stage noValidate noDerive noType).all fun w => w.keepsIntensity other
  simp only [unpackChannel, List.mem_cons, List.not_mem_nil, or_false] at hi
  obtain rfl | rfl | rfl | rfl := hi
  · exact others rfl nofun nofun nofun nofun
  · exact frIntensity_keepsIntensity .plain c s
  · exact others rfl nofun nofun nofun nofun
  · exact others rfl nofun nofun nofun nofun

theorem runStages_unpack_keepsIntensity (l : List (Fin 16)) (s : State) :
    (runStages Config.hw (l.flatMap unpackChannel) s).All (KeepsIntensity s) := by
  refine runStages_all _ KeepsIntensity .refl (fun _ _ _ => .trans) _ s fun i hi t => ?_
  obtain ⟨c, -, hi⟩ := List.mem_flatMap.1 hi
  exact unpackChannel_keepsIntensity hi t

/-! How a frame fails. -/

/-- A failed frame ends at a check, where only the length latch and the cursor have changed, or in the unpacking, behind
the checks. -/
theorem execDecodeFrame_fails {n : BitVec 32} {s t : State} (inv : s.StreamInv) (e : exec (.decodeFrame n) s = .next t)
    (failed : t.status ≠ .ok) :
    (∃ x p, x ∈ [Status.shortBuffer, .syncError, .checksumError] ∧
      t = (State.seek { s with frmLen := n } p).endedWith x) ∨
    ∃ x u, x ∈ [Status.invalidScaleFactor, .invalidIntensity] ∧ Unpacks (checkedFrame { s with frmLen := n }) u ∧
      KeepsIntensity (checkedFrame { s with frmLen := n }) u ∧ t = u.endedWith x := by
  obtain ⟨isOpen, inside⟩ := decodeFrame_valid n s t e
  have ended {r : State} (outcome : (decodeFrame Config.hw n s).outcome Config.hw = .next r) : t = r :=
    Host.Outcome.next.inj (e.symm.trans outcome)
  obtain ⟨-, run⟩ | ⟨-, -, run⟩ | ⟨-, -, -, run⟩ | ⟨-, -, -, ends⟩ := decodeFrame_cases n s isOpen inv inside
  · exact .inl ⟨.shortBuffer, s.cur.pos, by decide, ended (Res.outcome_raised run)⟩
  · exact .inl ⟨.syncError, 16, by decide, ended (Res.outcome_raised run)⟩
  · exact .inl ⟨.checksumError, 16, by decide, ended (Res.outcome_raised run)⟩
  obtain ⟨x, u, error, unpacking, unpacks, run⟩ | ⟨u, v, -, -, -, run⟩ := ends
  · have other : x ≠ .headerInvalid := by
      rintro rfl
      simp at error
    have keeps := runStages_unpack_keepsIntensity s.liveChannels (checkedFrame { s with frmLen := n })
    rw [unpacking] at keeps
    exact .inr ⟨x, u, by simpa using error, unpacks, keeps, ended (Res.outcome_raised run other)⟩
  · rw [ended (Res.outcome_done run)] at failed
    exact absurd rfl failed

/-- No error of a check is one of the unpacking. -/
theorem not_unpackError_of_checkError {x : Status} (check : x ∈ [Status.shortBuffer, .syncError, .checksumError]) :
    x ∉ [Status.invalidScaleFactor, .invalidIntensity] := by
  cases x <;> revert check <;> decide

/-- Settles O57: a failed check has written nothing of these, and the unpacking keeps the sound. -/
theorem failedFrameKeepsTheSound : Obligations.FailedFrameKeepsTheSound := by
  intro n s t inv e failed
  obtain ⟨x, p, check, rfl⟩ | ⟨x, u, unpack, unpacks, intensity, rfl⟩ := execDecodeFrame_fails inv e failed
  · exact ⟨rfl, rfl, fun _ => ⟨rfl, rfl, fun _ => rfl⟩, fun _ => ⟨rfl, rfl, rfl⟩, fun unpack =>
      absurd unpack (not_unpackError_of_checkError check)⟩
  · have sound := unpacks.sound
    refine ⟨sound.random, unpacks.stream.decoded, fun c => ⟨sound.prev c, sound.wave c, (intensity c).2⟩, fun check =>
      absurd unpack (not_unpackError_of_checkError check), fun _ a inFrame => ?_⟩
    have frm : u.frm = s.frm.substitute s.cipherTable s.ctx.frameSize.toNat := unpacks.frm
    have decrypted := (Buffer.byte_substitute s.frm s.cipherTable s.ctx.frameSize.toNat a).trans (if_pos inFrame)
    rw [← frm] at decrypted
    exact decrypted

end Sys2Proof.Machine
end

section
/-! PROOFS. A step issues the next call, decodes it and runs it (70_reset_and_hazards.md rule R301, 30_encoding.md rule
R70), and what the hand-over of the call's buffer writes. -/

namespace Sys2Proof.Machine

/-- A chunk call is decoded from the 32 bits at the cursor. -/
theorem fetch_chunk (s : State) {k : Call} (h : k.port = .chunk) :
    fetch s k = decode .chunk (be32 (BitVec.ofNat 32 (s.requestValue s.cur.pos 32))) := by
  simp only [fetch, h, State.peek, State.peekAt_eq]

theorem step_decoded {s : State} {k : Call} {rest : List Call} {i : Instr} (hq : s.queue = k :: rest)
    (hf : fetch (s.issue k rest) k = .ok i) : step s = exec i (s.issue k rest) := by
  simp only [step, hq, hf]

/-- The cursor once buffer `b` is replaced: it wraps the old content no more (log entry 18). -/
def Cursor.replaced (k : Cursor) (b : BufId) : Cursor :=
  if k.buf = some b then { k with buf := none, sizeBits := 0 } else k

theorem Cursor.replaced_pos (k : Cursor) (b : BufId) : (k.replaced b).pos = k.pos := by
  rw [Cursor.replaced]
  split <;> rfl

theorem State.load_hdr (s : State) (bytes : List Byte) :
    s.load (some (.hdr, bytes)) = { s with hdr := Buffer.ofBytes bytes, cur := s.cur.replaced .hdr } := by
  simp only [State.load, Cursor.replaced]
  split <;> rfl

theorem State.load_frm (s : State) (bytes : List Byte) :
    s.load (some (.frm, bytes)) = { s with frm := Buffer.ofBytes bytes, cur := s.cur.replaced .frm } := by
  simp only [State.load, Cursor.replaced]
  split <;> rfl

/-- Settles O5: the call is fetched from its image or at the cursor, and its buffer is the bytes given. -/
theorem stepRunsTheDecodedInstruction : Obligations.StepRunsTheDecodedInstruction := by
  intro s
  refine ⟨fun idle => by rw [step, idle], fun k rest i hq _ => ⟨fun port decoded => ?_, fun port decoded => ?_,
    fun noLoad => ?_, fun bytes load => ?_, fun bytes load => ?_⟩⟩
  · exact step_decoded hq ((fetch_image _ port).trans decoded)
  · refine step_decoded hq ((fetch_chunk _ port).trans ?_)
    rwa [show (s.issue k rest).cur.pos = s.cur.pos from State.load_pos _ _]
  · rw [State.issue, noLoad]
    rfl
  · rw [State.issue, load, State.load_hdr]
    exact ⟨Buffer.byte_ofBytes bytes, rfl, rfl, Cursor.replaced_pos _ _⟩
  · rw [State.issue, load, State.load_frm]
    exact ⟨Buffer.byte_ofBytes bytes, rfl, rfl, Cursor.replaced_pos _ _⟩

end Sys2Proof.Machine
end

section
/-! PROOFS. Power-on reset and RESET_STREAM (70_reset_and_hazards.md rules R301 to R303, 45_controller_and_host.md rule
R250). -/

namespace Sys2Proof.Machine

/-- Settles O6: the memories are empty, nothing is wrapped, no stream is open and no call waits. -/
theorem resetState : Obligations.ResetState := by
  have memory : State.reset.MemoryInv := (State.memoryInv_iff _).2 ⟨.of_unwrapped rfl rfl rfl rfl, by decide⟩
  exact ⟨rfl, rfl, rfl, rfl, rfl, memory, State.streamInv_of_closed rfl rfl, nofun⟩

/-- The overlap of every live channel cleared and the generator reseeded (rule R250). -/
def State.overlapCleared (s : State) : State := { s with
  random := 1
  ch := Vector.ofFn fun c : Fin 16 => if c.val < s.ctx.channelCount.toNat
    then { s.chan c with prev := Vector.replicate 128 0 } else s.chan c }

theorem execResetStream_open {s : State} (h : s.valid = true) :
    exec .resetStream s = .next (s.overlapCleared.endedWith .ok) := by
  refine Res.outcome_done (r := resetStream s) ?_
  rw [resetStream, State.streamOpen, h, State.mapLive_eq]
  rfl

theorem execResetStream_closed {s : State} (h : s.valid = false) : exec .resetStream s = .refused .noStream := by
  show (resetStream s).outcome Config.hw = _
  rw [resetStream, State.streamOpen, h]
  rfl

/-- Settles O50: an open stream has its overlap cleared, a closed one is refused. -/
theorem resetClearsTheOverlap : Obligations.ResetClearsTheOverlap :=
  fun _ => ⟨execResetStream_open, execResetStream_closed⟩

/-- Where the live channels' overlap is zero and the generator at its seed, there is nothing to clear. -/
theorem State.overlapCleared_eq_self {s : State} (seed : s.random = 1)
    (silent : ∀ c : Fin 16, c.val < s.ctx.channelCount.toNat → (s.chan c).prev = Vector.replicate 128 0) :
    s.overlapCleared = s := by
  have channels : s.overlapCleared.ch = s.ch := by
    ext1 c hc
    rw [State.overlapCleared, Vector.getElem_ofFn]
    split
    · next live => rw [← silent ⟨c, hc⟩ live]; rfl
    · rfl
  calc s.overlapCleared
    _ = { s with random := 1, ch := s.overlapCleared.ch } := rfl
    _ = s := by rw [channels, ← seed]

/-- An OPEN_STREAM that ends OK has opened a stream (rule R245). -/
theorem execOpenStream_ok {n : BitVec 32} {s t : State} (e : exec (.openStream n) s = .next t) (ok : t.status = .ok) :
    ∃ u, t = u.openedStream ∧ Opened s.key n.toNat u := by
  have e : (openStream Config.hw n s).outcome Config.hw = .next t := e
  obtain ⟨-, r⟩ | ⟨-, ⟨u, r, -, opened, -⟩ | ⟨u, r, -⟩⟩ := openStream_cases n s <;> rw [r] at e
  · cases e
  · injection e with e
    exact ⟨u, e.symm, opened⟩
  · injection e with e
    rw [← e] at ok
    cases ok

/-- Settles O51: the stream opened has no overlap and a fresh generator, and the command has ended idle. -/
theorem resetAfterOpenChangesNothing : Obligations.ResetAfterOpenChangesNothing := by
  intro n s t e ok
  obtain ⟨u, rfl, opened⟩ := execOpenStream_ok e ok
  have nothing : u.openedStream.overlapCleared = u.openedStream :=
    State.overlapCleared_eq_self opened.random fun c live => (opened.channels c live).2
  rw [execResetStream_open rfl, nothing]
  rfl

end Sys2Proof.Machine
end
